-- ==== Sys2Proof/Word.lean ====
section
/-! DEFINITION. The words of the block (00_scope.md R7, R12): bytes, codes, and the 32-bit register word. -/

namespace Sys2Proof

/-- A symbol: SYM_W = 8 bits (R7). -/
abbrev Byte := BitVec 8

/-- A code as every memory of the block holds it: 16 bits, 0 to 65535 (10_state.md R41). -/
abbrev Code := BitVec 16

/-- A register of the host's register space, 32 bits (R22, R25). -/
abbrev RegWord := BitVec 32

end Sys2Proof
end

