-- ==== Sys2Proof/Config.lean ====
section
/-! DEFINITION. The parameters of 00_scope.md R7 to R9 and the free value of 10_state.md R25. -/

namespace Sys2Proof.Config

/-- SEED_N (R7). -/
def seedN : Nat := 256
/-- DICT_CAP (R8). -/
def dictCap : Nat := 65536
/-- CODE_MAX (R7). -/
def codeMax : Nat := 65535
/-- FREQ_MAX (R7). -/
def freqMax : Nat := 2147483647
/-- TOTALBITS_MAX (R7). -/
def totalBitsMax : Nat := 2147483647
/-- NODE_MAX (R8). -/
def nodeMax : Nat := 131071
/-- EMPTY_MAXCODE (R8). -/
def emptyMaxCode : Int := -1

/-- DESIGN CHOICE (log 6). The value an information register returns where R25 says "a read returns
any value": nothing is known of it. The argument is a counter, a fresh one for each such read. Safe. -/
opaque freeWord : Nat → RegWord

end Sys2Proof.Config

namespace Sys2Proof

/-- The OPEN parameters of R9: each a natural number or `unbounded` (none). -/
structure Caps where
  /-- IN_CAP, bytes. -/
  inCap : Option Nat
  /-- CSEQ_CAP, codes. -/
  cseqCap : Option Nat
  /-- BITS_CAP, bytes. -/
  bitsCap : Option Nat
  /-- OUT_CAP, bytes. -/
  outCap : Option Nat
deriving DecidableEq, Repr

end Sys2Proof
end

