-- ==== Sys2Proof/Syntax.lean ====
section
/-! DEFINITION. The operations of the block (30_encoding.md R110), the formats they are encoded in,
and what the host can do (70_reset_and_hazards.md R362). -/

namespace Sys2Proof

/-- The two commands and the nineteen unit operations of R110. No operation has an operand field
(R90, R100): operands are the block's registers, memories and streams. -/
inductive Instr where
  | compress
  | decompress
  | inrdRun
  | dictSeed
  | dictLookup
  | dictRlookup
  | dictInsert
  | lzweRun
  | lzweSym
  | lzweFlush
  | lzwdRun
  | lzwdFirst
  | lzwdNext
  | freqCount
  | hbuildRun
  | hgenRun
  | bpackRun
  | bunpkRun
  | fwrRun
  | frdRun
  | outwrRun
deriving DecidableEq, Repr

/-- The two instruction formats of R90: the command word at the CMD port (R91) and the sequencer's
unit-operation identifier (R92). -/
inductive Format where
  | cmd
  | uop
deriving DecidableEq, Repr

/-- The format of each row of the opcode table. -/
def Instr.format : Instr → Format
  | .compress => .cmd
  | .decompress => .cmd
  | .inrdRun => .uop
  | .dictSeed => .uop
  | .dictLookup => .uop
  | .dictRlookup => .uop
  | .dictInsert => .uop
  | .lzweRun => .uop
  | .lzweSym => .uop
  | .lzweFlush => .uop
  | .lzwdRun => .uop
  | .lzwdFirst => .uop
  | .lzwdNext => .uop
  | .freqCount => .uop
  | .hbuildRun => .uop
  | .hgenRun => .uop
  | .bpackRun => .uop
  | .bunpkRun => .uop
  | .fwrRun => .uop
  | .frdRun => .uop
  | .outwrRun => .uop

/-- An item of the input stream (20_memory.md R66). -/
inductive Item where
  | data (b : Byte)
  | eos
  | fail
deriving DecidableEq, Repr

/-- A sink's behaviour for one command (R68), and the sink that stops answering (70 R373). -/
inductive Sink where
  /-- answers OK to every offer -/
  | neverFails
  /-- answers FAIL at offer k, counted from 0 -/
  | failsAt (k : Nat)
  /-- never answers offer k, nor a later one -/
  | silentAt (k : Nat)
deriving DecidableEq, Repr

/-- What a sink does with one offer. -/
inductive Answer where
  | ok
  | fail
  | silent
deriving DecidableEq, Repr

/-- An action of the host (70 R362), or the word that lets the block move first. -/
inductive HostEvent where
  /-- the block takes one step before the host acts again (10 R26: host actions fall between steps) -/
  | run
  /-- WAIT of 30 R108: the block steps until BUSY = 0 -/
  | wait
  /-- the reset input (R350) -/
  | reset
  /-- write of v to register number n; bits above 7 of a write to CMD are ignored (10 R21) -/
  | writeReg (n : Nat) (v : RegWord)
  /-- read of register number n -/
  | readReg (n : Nat)
  /-- supply the next input item (20 R66) -/
  | supply (x : Item)
  /-- declare the sink of the next command (30 R108) -/
  | sink (b : Sink)
deriving DecidableEq, Repr

end Sys2Proof
end

