-- ==== Sys2Proof/WellFormed.lean ====
section
/-! DEFINITION. Well-formedness of what is written from outside: words of the two formats, input
sequences, instructions. -/

namespace Sys2Proof

/-- The legal command words (30_encoding.md R91, R104). -/
def cmdWordLegal (w : Byte) : Bool := w == 0x01#8 || w == 0x02#8

/-- How many operations the unit with this identifier has (R110): sub runs from 0 below it. -/
def unitOps (unit : BitVec 4) : Nat :=
  match unit.toNat with
  | 0 => 0
  | 2 => 4
  | 3 => 3
  | 4 => 3
  | n => if n ≤ 12 then 1 else 0

/-- The assigned UOP identifiers (R92, R107, R110). -/
def uopWordLegal (w : Byte) : Bool :=
  decide ((w.extractLsb' 0 4).toNat < unitOps (w.extractLsb' 4 4))

/-- A word is legal in its format. -/
def wordLegal : Format → Byte → Bool
  | .cmd, w => cmdWordLegal w
  | .uop, w => uopWordLegal w

/-- An instruction has no operands (R90), so every term of `Instr` is well formed. -/
def Instr.wf : Instr → Bool := fun _ => true

/-- EOS and FAIL end a stream (20_memory.md R66). -/
def Item.terminates : Item → Bool
  | .data _ => false
  | .eos => true
  | .fail => true

/-- "The sequence contains exactly one terminating item (EOS or FAIL) and it is the last" (R66). -/
def inputWf : List Item → Bool
  | [] => false
  | [x] => x.terminates
  | x :: y :: rest => !x.terminates && inputWf (y :: rest)

end Sys2Proof
end

