-- ==== Sys2Proof/Decode.lean ====
section
/-! DEFINITION. Decoding and encoding of the two instruction formats (30_encoding.md R91, R92, R110). -/

namespace Sys2Proof

/-- Why a word is no instruction. -/
inductive DecodeError where
  /-- an illegal command word (R104): IllegalCommand is raised for it -/
  | illegalCommand (w : Byte)
  /-- a UOP identifier that names no operation (R107): the sequencer never issues one -/
  | unassignedUop (w : Byte)
  /-- no byte to decode, or a width no format has -/
  | noWord
deriving DecidableEq, Repr

/-- The CMD port's decoder: "opcode 0x01 is COMPRESS, 0x02 is DECOMPRESS, anything else is illegal" (R110). -/
def decodeCmd (w : Byte) : Except DecodeError Instr :=
  if w = 0x01#8 then .ok .compress
  else if w = 0x02#8 then .ok .decompress
  else .error (.illegalCommand w)

/-- The operation with this unit identifier and sub number (R110). -/
def uopOf (unit sub : Nat) : Option Instr :=
  match unit, sub with
  | 1, 0 => some .inrdRun
  | 2, 0 => some .dictSeed
  | 2, 1 => some .dictLookup
  | 2, 2 => some .dictRlookup
  | 2, 3 => some .dictInsert
  | 3, 0 => some .lzweRun
  | 3, 1 => some .lzweSym
  | 3, 2 => some .lzweFlush
  | 4, 0 => some .lzwdRun
  | 4, 1 => some .lzwdFirst
  | 4, 2 => some .lzwdNext
  | 5, 0 => some .freqCount
  | 6, 0 => some .hbuildRun
  | 7, 0 => some .hgenRun
  | 8, 0 => some .bpackRun
  | 9, 0 => some .bunpkRun
  | 10, 0 => some .fwrRun
  | 11, 0 => some .frdRun
  | 12, 0 => some .outwrRun
  | _, _ => none

/-- The `unit` field of a UOP identifier, bits 7:4 (R92). -/
def uopUnit (w : Byte) : BitVec 4 := w.extractLsb' 4 4

/-- The `sub` field of a UOP identifier, bits 3:0 (R92). -/
def uopSub (w : Byte) : BitVec 4 := w.extractLsb' 0 4

/-- A UOP identifier from its two fields. -/
def uopWord (unit sub : BitVec 4) : Byte := unit ++ sub

/-- The sequencer's decoder of UOP identifiers (R92). -/
def decodeUop (w : Byte) : Except DecodeError Instr :=
  match uopOf (uopUnit w).toNat (uopSub w).toNat with
  | some i => .ok i
  | none => .error (.unassignedUop w)

/-- The decoder of a format. -/
def decode : Format → Byte → Except DecodeError Instr
  | .cmd, w => decodeCmd w
  | .uop, w => decodeUop w

/-- Decoding from bytes: total, one byte an instruction (R90), the rest handed back. -/
def decodeBytes (f : Format) : List Byte → Except DecodeError (Instr × List Byte)
  | [] => .error .noWord
  | w :: rest =>
    match decode f w with
    | .ok i => .ok (i, rest)
    | .error e => .error e

/-- The word of each operation in its own format (R110). -/
def encode : Instr → Byte
  | .compress => 0x01#8
  | .decompress => 0x02#8
  | .inrdRun => 0x10#8
  | .dictSeed => 0x20#8
  | .dictLookup => 0x21#8
  | .dictRlookup => 0x22#8
  | .dictInsert => 0x23#8
  | .lzweRun => 0x30#8
  | .lzweSym => 0x31#8
  | .lzweFlush => 0x32#8
  | .lzwdRun => 0x40#8
  | .lzwdFirst => 0x41#8
  | .lzwdNext => 0x42#8
  | .freqCount => 0x50#8
  | .hbuildRun => 0x60#8
  | .hgenRun => 0x70#8
  | .bpackRun => 0x80#8
  | .bunpkRun => 0x90#8
  | .fwrRun => 0xA0#8
  | .frdRun => 0xB0#8
  | .outwrRun => 0xC0#8

/-- An opcode-table word with its format found from the word: the CMD words and the assigned UOP
identifiers of R110 do not meet (no unit has identifier 0). -/
def decodeAny (w : Byte) : Except DecodeError Instr :=
  match decodeCmd w with
  | .ok i => .ok i
  | .error _ => decodeUop w

/-- The decoder's reading of one row of spec/opcode_table.json; every row is 8 bits (R90). -/
def decodeTableWord (nbits w : Nat) : Option Instr :=
  if nbits = 8 ∧ w < 256 then
    match decodeAny (BitVec.ofNat 8 w) with
    | .ok i => some i
    | .error _ => none
  else none

end Sys2Proof
end

