-- ==== Sys2Proof/Machine/State.lean ====
section
/-! DEFINITION. The block's state (10_state.md), its value after reset, and the reasons a step can stop. -/

namespace Sys2Proof.Machine

/-- The eleven errors of 60_exceptions.md R311. -/
inductive Err where
  | malformedFrame
  | truncatedInput
  | unknownCodeDuringEncode
  | emptyCodeSequenceOnDecode
  | resourceError
  | invalidCode
  | fieldOverflow
  | dictionaryFull
  | duplicateEntry
  | capacityExceeded
  | illegalCommand
deriving DecidableEq, Repr

/-- The eight internal memories (R20 (c)). -/
inductive MemName where
  | inMem
  | dict
  | cseq
  | freq
  | tree
  | ctab
  | bits
  | outMem
deriving DecidableEq, Repr

/-- Why the model stops although no rule gives an error. No run of the block reaches either case
(log 13): both are safe. -/
inductive Fault where
  /-- Raised by an operation that reads an element outside a memory's valid range, where 00_scope.md
  R14 defines no value. Safe. -/
  | invalidIndex (m : MemName)
  /-- Raised by an operation that meets a TREE or DICT record of a shape 10_state.md R40 and R46
  exclude (a child handle or a prefix not below its parent), and by LZWD.NEXT with c = DSIZE when PREV
  is no present code, which 42_lzw_decoder.md R176 excludes. Safe. -/
  | malformed (m : MemName)
deriving DecidableEq, Repr

/-- Why an operation has no behaviour here. -/
inductive Refusal where
  /-- Raised by an arm of `exec` for an instruction without a meaning. Safe. -/
  | notModelled (mnemonic : String)
  /-- Raised by HBUILD.RUN on an all-zero table and by HGEN.RUN and BUNPK.RUN when they need a tree
  and there is none: never issued, no behaviour defined (43 R198, 93 U1). Safe. -/
  | emptyTable
  /-- Raised by DICT.INSERT offered a string whose prefix is no present entry: never offered, no
  behaviour defined (40 R135). Safe. -/
  | absentPrefix
  /-- Raised by the sequencer when STAGE and sub name no operation: never issued, no behaviour
  attached (30 R107). Safe. -/
  | unassignedUop (w : Byte)
deriving DecidableEq, Repr

/-- A memory: (index, element) pairs, indices strictly rising; an unlisted index has no element. -/
abbrev Memory (α : Type) := List (Nat × α)

/-- A byte memory, as the host's cells. -/
abbrev ByteMemory := List Host.Cell

/-- A DICT record (R36): the prefix (a code, or NONE) and the last byte. -/
structure DictEntry where
  parent : Option Code
  last : Byte
deriving DecidableEq, Repr

/-- A TREE record (R40): a LEAF with its code and frequency, or an INTERNAL node with the summed
frequency, the smallest leaf code below it, and its two child handles. -/
inductive Node where
  | leaf (code : Code) (freq : Nat)
  | internal (freq : Nat) (minc : Code) (left right : Nat)
deriving DecidableEq, Repr

/-- The fields of register STATUS (R22). -/
structure Status where
  busy : Bool
  done : Bool
  err : Bool
  errcode : BitVec 4
  stage : BitVec 4
  op : BitVec 2
deriving DecidableEq, Repr

/-- The machine's state: the block's registers and memories, the model's own latches, and the
host's side of the streams and the register port. -/
structure State where
  /-- STATUS (R22) -/
  status : Status
  /-- CUR (R28): the current match's code, none = EMPTY -/
  cur : Option Code
  /-- PREV (R29) -/
  prev : Code
  /-- DSIZE (R30) -/
  dsize : Nat
  /-- IPOS, CPOS, BPOS (R31) -/
  ipos : Nat
  cpos : Nat
  bpos : Nat
  /-- NNODES, ROOT, NODE (R32) -/
  nnodes : Nat
  root : Nat
  node : Nat
  /-- INLEN, CLEN, OUTLEN, MAXCODE, ENTRYCNT, TOTALBITS (R33) -/
  inLen : Nat
  clen : Nat
  outLen : Nat
  maxCode : Int
  entryCnt : Nat
  totalBits : Nat
  /-- IN (R35) -/
  inMem : ByteMemory
  /-- DICT (R36) -/
  dict : Memory DictEntry
  /-- CSEQ (R38) -/
  cseq : Memory Code
  /-- FREQ (R39): an unlisted code has frequency 0, and no listed one has -/
  freq : Memory Nat
  /-- TREE (R40) -/
  tree : Memory Node
  /-- CTAB (R42): a listed code is valid with its word, an unlisted one has valid = 0 -/
  ctab : Memory (List Bool)
  /-- BITS (R43) -/
  bits : ByteMemory
  /-- OUT (R44) -/
  outMem : ByteMemory
  /-- MODEL's own: the `sub` field of the UOP in issue (30 R92; log 3) -/
  sub : BitVec 4
  /-- MODEL's own: the operation in issue has begun and waits for the host (70 R373; log 3) -/
  inOp : Bool
  /-- MODEL's own: operand latches (log 4) -/
  argP : Option Code
  argB : Byte
  argC : Code
  /-- MODEL's own: result latches (log 4) -/
  resCode : Option Code
  resStr : Option (List Byte)
  /-- MODEL's own: how many free values have been used (log 6) -/
  freeCtr : Nat
  /-- MODEL's own: the capacities of 00_scope.md R9; no step changes them (log 5) -/
  caps : Caps
  /-- Host's side: the actions still to happen (70 R362; log 1) -/
  host : List HostEvent
  /-- Host's side: the running command's items not yet consumed (20 R66) -/
  input : List Item
  /-- Host's side: items and sink declared for the next command (30 R108, 70 R363; log 8) -/
  nextInput : List Item
  nextSink : Sink
  /-- Host's side: the running command's sink and the offers it has answered OK (20 R68) -/
  sink : Sink
  offers : Nat
  /-- Host's side: what the sink has accepted, and whether the end marker -/
  sinkGot : List Byte
  sinkEnd : Bool
  /-- Host's side: the value the last register read returned (10 R26) -/
  rdata : RegWord
deriving DecidableEq, Repr

/-- Reset value of STATUS (R55): every field 0. -/
def Status.zero : Status :=
  { busy := false, done := false, err := false, errcode := 0, stage := 0, op := 0 }

/-- DESIGN CHOICE (log 5): every capacity unbounded. -/
def Caps.unbounded : Caps := ⟨none, none, none, none⟩

/-- The state right after reset (R55) of a block with the given capacities. The registers are R55's;
memory contents are unspecified there, and here nothing is listed (log 7). -/
def State.resetWith (c : Caps) : State :=
  { status := Status.zero
    cur := none, prev := 0, dsize := 0, ipos := 0, cpos := 0, bpos := 0
    nnodes := 0, root := 0, node := 0
    inLen := 0, clen := 0, outLen := 0, maxCode := -1, entryCnt := 0, totalBits := 0
    inMem := [], dict := [], cseq := [], freq := [], tree := [], ctab := [], bits := [], outMem := []
    sub := 0, inOp := false
    argP := none, argB := 0, argC := 0, resCode := none, resStr := none, freeCtr := 0
    caps := c
    host := [], input := [], nextInput := [], nextSink := .neverFails
    sink := .neverFails, offers := 0, sinkGot := [], sinkEnd := false, rdata := 0 }

/-- The state right after reset, every capacity unbounded (log 5). -/
def State.reset : State := State.resetWith Caps.unbounded

end Sys2Proof.Machine
end

