-- ==== Sys2Proof/Machine/Flags.lean ====
section
/-! DEFINITION. Every write of STATUS (10_state.md R22, R23; 60_exceptions.md R311, R330) and its word. -/

namespace Sys2Proof.Machine

/-- The error codes (R311). -/
def Err.code : Err → BitVec 4
  | .malformedFrame => 1
  | .truncatedInput => 2
  | .unknownCodeDuringEncode => 3
  | .emptyCodeSequenceOnDecode => 4
  | .resourceError => 5
  | .invalidCode => 6
  | .fieldOverflow => 7
  | .dictionaryFull => 8
  | .duplicateEntry => 9
  | .capacityExceeded => 10
  | .illegalCommand => 11

/-- One flag as a bit. -/
def flagBit (b : Bool) : BitVec 1 := BitVec.ofBool b

/-- The 32-bit word of STATUS (R22): bits 31:14 and 3 are always 0. -/
def Status.word (t : Status) : RegWord :=
  0#18 ++ t.op ++ t.stage ++ t.errcode ++ 0#1 ++ flagBit t.err ++ flagBit t.done ++ flagBit t.busy

/-- "acceptance of a legal command sets BUSY <- 1, DONE <- 0, ERR <- 0, ERRCODE <- 0, OP <- 1 or 2,
STAGE <- 1" (R23). -/
def Status.accepted (op : BitVec 2) : Status :=
  { busy := true, done := false, err := false, errcode := 0, stage := 1, op := op }

/-- "the end of a command without error sets BUSY <- 0, DONE <- 1, STAGE <- 0" (R23). -/
def Status.ended (t : Status) : Status := { t with busy := false, done := true, stage := 0 }

/-- "the end of a command with error E sets BUSY <- 0, DONE <- 1, ERR <- 1, ERRCODE <- code(E) and
leaves STAGE at the unit that raised E" (R23, R330). -/
def Status.raised (t : Status) (e : Err) : Status :=
  { t with busy := false, done := true, err := true, errcode := e.code }

/-- "STATUS.OP <- 0; STATUS.STAGE <- 0" before IllegalCommand is raised (48 R280). -/
def Status.noCommand (t : Status) : Status := { t with stage := 0, op := 0 }

/-- STAGE goes on to a unit (R24). -/
def Status.atStage (t : Status) (n : BitVec 4) : Status := { t with stage := n }

end Sys2Proof.Machine
end

