-- ==== Sys2Proof/Machine/Operands.lean ====
section
/-! DEFINITION. The number and byte forms of 00_scope.md R13 and 30_encoding.md R100, and the reads of
registers and memory elements the operations take their operands from. -/

namespace Sys2Proof.Machine

/-- The element of a memory at an index, if one is listed. -/
def Memory.read {α : Type} : Memory α → Nat → Option α
  | [], _ => none
  | (k, v) :: m, i => if k = i then some v else Memory.read m i

/-- `MemRead(M, a, n)` (R14): the n elements from index a, if all are listed. -/
def Memory.readRun {α : Type} (m : Memory α) (a : Nat) : Nat → Option (List α)
  | 0 => some []
  | n + 1 =>
    match Memory.read m a, Memory.readRun m (a + 1) n with
    | some v, some vs => some (v :: vs)
    | _, _ => none

/-- FREQ[c] (10 R39): an unlisted code has frequency 0. -/
def freqAt (m : Memory Nat) (c : Nat) : Nat := (Memory.read m c).getD 0

/-- The non-zero elements of FREQ as (code, frequency), in ascending order of code: what the loops
"for c in 0 .. 65535, ascending: if FREQ[c] > 0" visit (43 R193, 47 R251). FREQ's canonical form is
that list. -/
def freqEntries (m : Memory Nat) : List (Nat × Nat) := m

/-- The largest code with non-zero frequency, or -1 (43 R191): the last of the ascending list. -/
def largestCode (m : Memory Nat) : Int :=
  match (freqEntries m).getLast? with
  | some e => (e.1 : Int)
  | none => Config.emptyMaxCode

/-- `BE_n` (R13): the first byte is the most significant. -/
def be (bs : List Byte) : Nat := bs.foldl (fun acc b => acc * 256 + b.toNat) 0

/-- `bytesBE_n(v)` (R13): n bytes, most significant first. -/
def bytesBE : Nat → Nat → List Byte
  | 0, _ => []
  | n + 1, v => BitVec.ofNat 8 (v / 256 ^ n) :: bytesBE n v

/-- `signed_32(p)` (R13): two's complement. -/
def signed32 (p : Nat) : Int := if p < 2 ^ 31 then (p : Int) else (p : Int) - 2 ^ 32

/-- `sext_32(v)` (R13): the 32-bit two's-complement pattern of v. -/
def sext32 (v : Int) : RegWord := BitVec.ofInt 32 v

/-- `ceil(a/8)` = `(a + 7) div 8` (R10). -/
def ceil8 (a : Nat) : Nat := (a + 7) / 8

/-- A byte as a code: entry b of the seed is the one-byte string [b] (40 R131). -/
def byteCode (b : Byte) : Code := b.setWidth 16

/-- Bit position i of a byte of the payload, i from 0 at the most significant bit (20 R72). -/
def payloadBit (b : Byte) (i : Nat) : Bool := b.getLsbD (7 - i)

/-- The byte with a 1 at position i of the payload order and 0 elsewhere: `1 << (7 - i)` (20 R72). -/
def payloadMask (i : Nat) : Byte := 1#8 <<< (7 - i)

/-- IN[i], valid below INLEN (10 R35). -/
def State.inAt (s : State) (i : Nat) : Option Byte :=
  if i < s.inLen then Memory.read s.inMem i else none

/-- `MemRead(IN, a, n)` (R14), every index below INLEN. -/
def State.inRun (s : State) (a n : Nat) : Option (List Byte) :=
  if a + n ≤ s.inLen then Memory.readRun s.inMem a n else none

/-- CSEQ[i], valid below CLEN (10 R38). -/
def State.codeAt (s : State) (i : Nat) : Option Code :=
  if i < s.clen then Memory.read s.cseq i else none

/-- TREE[h], valid below NNODES (10 R40). -/
def State.nodeAt (s : State) (h : Nat) : Option Node :=
  if h < s.nnodes then Memory.read s.tree h else none

/-- OUT[i], valid below OUTLEN (10 R44). -/
def State.outAt (s : State) (i : Nat) : Option Byte :=
  if i < s.outLen then Memory.read s.outMem i else none

/-- BITS[i], valid below ceil(TOTALBITS/8) (10 R43). -/
def State.bitsAt (s : State) (i : Nat) : Option Byte :=
  if i < ceil8 s.totalBits then Memory.read s.bits i else none

/-- `MemRead(BITS, a, n)` (R14), every index below ceil(TOTALBITS/8). -/
def State.bitsRun (s : State) (a n : Nat) : Option (List Byte) :=
  if a + n ≤ ceil8 s.totalBits then Memory.readRun s.bits a n else none

/-- Bit i of the payload (20 R72). -/
def State.bitAt (s : State) (i : Nat) : Option Bool :=
  (s.bitsAt (i / 8)).map (fun b => payloadBit b (i % 8))

/-- DICT[k], valid below DSIZE (10 R36). -/
def State.dictAt (s : State) (k : Nat) : Option DictEntry :=
  if k < s.dsize then Memory.read s.dict k else none

/-- `freq` of a node (10 R40). -/
def Node.freq : Node → Nat
  | .leaf _ f => f
  | .internal f _ _ _ => f

/-- `minc` of a node: "for a leaf, its own code" (10 R40). -/
def Node.minc : Node → Code
  | .leaf c _ => c
  | .internal _ m _ _ => m

/-- `kind` of a node is LEAF (10 R40). -/
def Node.isLeaf : Node → Bool
  | .leaf _ _ => true
  | .internal _ _ _ _ => false

end Sys2Proof.Machine
end

