-- ==== Sys2Proof/Machine/Ops.lean ====
section
/-! DEFINITION. The shared operations: results of a unit operation, writing memories, taking an error
(60_exceptions.md R330), the end and the start of a command, the appends of R150, R170 and R221, and
the streams of 20_memory.md R66 to R68. -/

namespace Sys2Proof.Machine

/-! ### What a unit operation answers -/

/-- What a unit operation, or a part of one, answers: it ended in a state (with a result), it raised
an error in a state ("nothing after it in the same pseudocode runs", R14), or it has no behaviour. -/
inductive Res (α : Type) where
  | ok (a : α) (s : State)
  | raised (e : Err) (s : State)
  | fault (f : Fault)
  | refused (r : Refusal)

/-- Sequential composition: what follows runs only if the first part ended (R14, R75). -/
def Res.bind {α β : Type} (r : Res α) (f : α → State → Res β) : Res β :=
  match r with
  | .ok a s => f a s
  | .raised e s => .raised e s
  | .fault x => .fault x
  | .refused x => .refused x

/-- TAKING AN ERROR: `raise E` of a running command (R330), the block's one form of exception entry.
Nothing is saved but STATUS; what the working registers and memories hold stays as it is. -/
def State.raise (e : Err) (s : State) : State :=
  { s with status := s.status.raised e, inOp := false }

/-- The end of a command without error (48 R284, R290). Together with `State.raise` this is the only
return to idle: "There is no return instruction and nothing to restore" (R335). -/
def State.endCommand (s : State) : State :=
  { s with status := s.status.ended, inOp := false }

/-- IllegalCommand at command acceptance (48 R280, 60 R322): OP and STAGE cleared, then the error;
no register, memory or stream is touched. -/
def State.illegalCommand (s : State) : State :=
  State.raise .illegalCommand { s with status := s.status.noCommand }

/-- A unit operation's answer as the machine's: a raised error is taken. -/
def Res.outcome {α : Type} : Res α → Host.Outcome State Fault Refusal
  | .ok _ s => .next s
  | .raised e s => .next (s.raise e)
  | .fault f => .fault f
  | .refused r => .refused r

/-! ### Writing memories -/

/-- The elements vs at indices a, a+1, … -/
def Memory.run {α : Type} : Nat → List α → Memory α
  | _, [] => []
  | a, v :: vs => (a, v) :: Memory.run (a + 1) vs

/-- `MemWrite(M, a, n, v)` (R14): the elements vs written from index a onward. -/
def Memory.write {α : Type} (m : Memory α) (a : Nat) (vs : List α) : Memory α :=
  m.filter (fun e => decide (e.1 < a)) ++ Memory.run a vs
    ++ m.filter (fun e => decide (a + vs.length ≤ e.1))

/-- `FREQ[c] <- f` (10 R39): frequency 0 is an unlisted code. -/
def freqWrite (m : Memory Nat) (c f : Nat) : Memory Nat :=
  if f = 0 then m.filter (fun e => decide (e.1 < c)) ++ m.filter (fun e => decide (c < e.1))
  else Memory.write m c [f]

/-- The canonical form of a memory: indices strictly rising, so that equal memories are equal lists. -/
abbrev Memory.wf {α : Type} (m : Memory α) : Prop :=
  (m.map Prod.fst).Pairwise (fun a b => a < b)

/-- The canonical form of FREQ: rising, and no listed code has what an unlisted one reads, 0. -/
abbrev freqWf (m : Memory Nat) : Prop := Memory.wf m ∧ ∀ e ∈ m, 0 < e.2

/-! ### Capacities (60_exceptions.md R321) -/

/-- The buffer holds exactly its capacity: "if CLEN = CSEQ_CAP" and its like. -/
def atCap (n : Nat) (cap : Option Nat) : Bool := cap == some n

/-- n elements would not fit: "if L > OUT_CAP" and its like. -/
def overCap (n : Nat) (cap : Option Nat) : Bool :=
  match cap with
  | none => false
  | some c => decide (c < n)

/-! ### Appends (48_commands.md R304) -/

/-- `Emit(c)` (41 R150). -/
def emit (c : Code) (s : State) : Res Unit :=
  if atCap s.clen s.caps.cseqCap then .raised .capacityExceeded s
  else .ok () { s with cseq := Memory.write s.cseq s.clen [c], clen := s.clen + 1 }

/-- `Append(t)` (42 R170). -/
def append (t : List Byte) (s : State) : Res Unit :=
  if overCap (s.outLen + t.length) s.caps.outCap then .raised .capacityExceeded s
  else .ok () { s with outMem := Memory.write s.outMem s.outLen t, outLen := s.outLen + t.length }

/-- `Put(t)` of FWR.RUN (47 R251), whose capacity test comes before. -/
def put (t : List Byte) (s : State) : State :=
  { s with outMem := Memory.write s.outMem s.outLen t, outLen := s.outLen + t.length }

/-- `PutBit(v)` (45 R221): a new byte starts at 0x00; a 1 sets its bit. -/
def putBit (v : Bool) (s : State) : Res Unit :=
  let n := s.totalBits / 8
  let r := s.totalBits % 8
  if r = 0 then
    if atCap n s.caps.bitsCap then .raised .capacityExceeded s
    else .ok () { s with
      bits := Memory.write s.bits n [if v then payloadMask 0 else 0x00#8]
      totalBits := s.totalBits + 1 }
  else
    match s.bitsAt n with
    | none => .fault (.invalidIndex .bits)
    | some b => .ok () { s with
        bits := if v then Memory.write s.bits n [b ||| payloadMask r] else s.bits
        totalBits := s.totalBits + 1 }

/-- The bits of one code word, in order (45 R221). -/
def putBits : List Bool → State → Res Unit
  | [], s => .ok () s
  | v :: vs, s => (putBit v s).bind fun _ t => putBits vs t

/-! ### The start of a command -/

/-- The command-start values (10 R56): every working register at its value of R55, FREQ and CTAB
cleared; IN, CSEQ, TREE, BITS and OUT are empty because their length registers are 0, and DICT needs
no clearing. -/
def State.startValues (s : State) : State :=
  { s with
    cur := none, prev := 0, dsize := 0, ipos := 0, cpos := 0, bpos := 0
    nnodes := 0, root := 0, node := 0
    inLen := 0, clen := 0, outLen := 0, maxCode := Config.emptyMaxCode, entryCnt := 0, totalBits := 0
    freq := [], ctab := [] }

/-- The streams of an accepted command: its own input sequence and its own sink (70 R363, R365; log 8). -/
def State.freshStreams (s : State) : State :=
  { s with
    input := s.nextInput, nextInput := [], sink := s.nextSink, nextSink := .neverFails
    offers := 0, sinkGot := [], sinkEnd := false }

/-- Acceptance of the legal command word with this OP (48 R280), up to the first unit operation:
the start values, STATUS, and STAGE at INRD. -/
def State.accept (op : BitVec 2) (s : State) : State :=
  { s.startValues.freshStreams with status := Status.accepted op, sub := 0, inOp := false }

/-- The reset event (70 R350, R351): the block as 10 R55 leaves it, no item in flight. The host's own
side (its script, what it has declared for the next command, what its sink has received, the last
value it read) and the capacities stay. -/
def State.resetBlock (s : State) : State :=
  { State.resetWith s.caps with
    host := s.host, nextInput := s.nextInput, nextSink := s.nextSink
    sink := s.sink, offers := s.offers, sinkGot := s.sinkGot, sinkEnd := s.sinkEnd
    rdata := s.rdata, freeCtr := s.freeCtr }

/-! ### The sink (20_memory.md R68) -/

/-- The sink's answer to offer number k of the command. -/
def sinkAnswer (b : Sink) (k : Nat) : Answer :=
  match b with
  | .neverFails => .ok
  | .failsAt n => if k = n then .fail else .ok
  | .silentAt n => if n ≤ k then .silent else .ok

/-- `OutPut(b)`: the byte is offered; on OK the sink has it. -/
def outPut (b : Byte) (s : State) : Answer × State :=
  match sinkAnswer s.sink s.offers with
  | .ok => (.ok, { s with offers := s.offers + 1, sinkGot := s.sinkGot ++ [b] })
  | .fail => (.fail, s)
  | .silent => (.silent, s)

/-- `OutEnd()`: the end marker is offered; on OK the sink has it. -/
def outEnd (s : State) : Answer × State :=
  match sinkAnswer s.sink s.offers with
  | .ok => (.ok, { s with offers := s.offers + 1, sinkEnd := true })
  | .fail => (.fail, s)
  | .silent => (.silent, s)

end Sys2Proof.Machine
end

