-- ==== Sys2Proof/Machine/BitStream.lean ====
section
/-! DEFINITION. Units BPACK (45_bit_packer.md) and BUNPK (46_bit_unpacker.md). -/

namespace Sys2Proof.Machine

/-- The loop of BPACK.RUN (45 R221), n passes: the unknown-code check comes before any bit of the code. -/
def bpackLoop : Nat → State → Res Unit
  | 0, s => .ok () s
  | n + 1, s =>
    match s.codeAt s.cpos with
    | none => .fault (.invalidIndex .cseq)
    | some c =>
      match Memory.read s.ctab c.toNat with
      | none => .raised .unknownCodeDuringEncode s
      | some w => (putBits w s).bind fun _ t => bpackLoop n { t with cpos := t.cpos + 1 }

/-- BPACK.RUN (45 R221). With CLEN = 0 "the result would be TOTALBITS = 0 and no byte written". -/
def bpackRun (s : State) : Res Unit :=
  bpackLoop s.clen { s with totalBits := 0, cpos := 0 }

/-- One pass of BUNPK.RUN's loop on the bit v, BPOS already past it (46 R236). -/
def bunpkBit (v : Bool) (s : State) : Res Unit :=
  match s.nodeAt s.root with
  | none => if s.nnodes = 0 then .refused .emptyTable else .fault (.invalidIndex .tree)
  | some (.leaf c _) => if v then .raised .malformedFrame s else emit c s
  | some (.internal _ _ _ _) =>
    match s.nodeAt s.node with
    | none => .fault (.invalidIndex .tree)
    | some (.leaf _ _) => .fault (.malformed .tree)
    | some (.internal _ _ l r) =>
      let h := if v then r else l
      match s.nodeAt h with
      | none => .fault (.invalidIndex .tree)
      | some (.leaf c _) => (emit c { s with node := h }).bind fun _ t => .ok () { t with node := t.root }
      | some (.internal _ _ _ _) => .ok () { s with node := h }

/-- The loop of BUNPK.RUN and the test after it (46 R236), n passes. -/
def bunpkLoop : Nat → State → Res Unit
  | 0, s => if s.node ≠ s.root then .raised .malformedFrame s else .ok () s
  | n + 1, s =>
    match s.bitAt s.bpos with
    | none => .fault (.invalidIndex .bits)
    | some v => (bunpkBit v { s with bpos := s.bpos + 1 }).bind fun _ t => bunpkLoop n t

/-- BUNPK.RUN (46 R236). -/
def bunpkRun (s : State) : Res Unit :=
  bunpkLoop s.totalBits { s with clen := 0, bpos := 0, node := s.root }

/-- BPACK.RUN. -/
def execBpackRun (s : State) : Host.Outcome State Fault Refusal := (bpackRun s).outcome

/-- BUNPK.RUN. -/
def execBunpkRun (s : State) : Host.Outcome State Fault Refusal := (bunpkRun s).outcome

end Sys2Proof.Machine
end

