-- ==== Sys2Proof/Machine/Commands.lean ====
section
/-! DEFINITION. The commands COMPRESS and DECOMPRESS and the boundary units INRD and OUTWR
(48_commands.md). -/

namespace Sys2Proof.Machine

/-- Command acceptance for a legal word (48 R280): ignored while BUSY = 1 (70 R360). -/
def acceptCommand (op : BitVec 2) (s : State) : State :=
  if s.status.busy then s else s.accept op

/-- COMPRESS (48 R284), word 0x01: accepted, with STAGE at INRD; `stageAfter` is the rest of its sequence. -/
def execCompress (s : State) : Host.Outcome State Fault Refusal := .next (acceptCommand 1 s)

/-- DECOMPRESS (48 R290), word 0x02: accepted, with STAGE at INRD; `stageAfter` is the rest of its sequence. -/
def execDecompress (s : State) : Host.Outcome State Fault Refusal := .next (acceptCommand 2 s)

/-! ### INRD.RUN -/

/-- The loop of INRD.RUN (48 R281) on the items supplied so far; when they run out it waits (70 R373). -/
def inrdLoop : List Item → State → Res Unit
  | [], s => .ok () { s with input := [], inOp := true }
  | .fail :: rest, s => .raised .resourceError { s with input := rest }
  | .eos :: rest, s => .ok () { s with input := rest, inOp := false }
  | .data b :: rest, s =>
    if atCap s.inLen s.caps.inCap then .raised .capacityExceeded { s with input := rest }
    else inrdLoop rest { s with inMem := Memory.write s.inMem s.inLen [b], inLen := s.inLen + 1 }

/-- INRD.RUN (48 R281); a reader that was waiting goes on in its loop. -/
def inrdRun (s : State) : Res Unit :=
  inrdLoop s.input (if s.inOp then s else { s with inLen := 0 })

/-! ### OUTWR.RUN -/

/-- The offers of OUTWR.RUN (48 R282): n bytes from OUT[offers], then the end marker; it waits for a
sink that does not answer (70 R373). -/
def outwrLoop : Nat → State → Res Unit
  | 0, s =>
    match outEnd s with
    | (.ok, t) => .ok () { t with inOp := false }
    | (.fail, t) => .raised .resourceError t
    | (.silent, t) => .ok () { t with inOp := true }
  | n + 1, s =>
    match s.outAt s.offers with
    | none => .fault (.invalidIndex .outMem)
    | some b =>
      match outPut b s with
      | (.ok, t) => outwrLoop n t
      | (.fail, t) => .raised .resourceError t
      | (.silent, t) => .ok () { t with inOp := true }

/-- OUTWR.RUN (48 R282): offers are counted from 0 in a command (20 R68), and only this operation makes
them, so the count is the loop's index; a writer that was waiting goes on in its loop. -/
def outwrRun (s : State) : Res Unit :=
  let t := if s.inOp then s else { s with offers := 0 }
  outwrLoop (t.outLen - t.offers) t

/-- INRD.RUN. -/
def execInrdRun (s : State) : Host.Outcome State Fault Refusal := (inrdRun s).outcome

/-- OUTWR.RUN. -/
def execOutwrRun (s : State) : Host.Outcome State Fault Refusal := (outwrRun s).outcome

end Sys2Proof.Machine
end

