-- ==== Sys2Proof/Machine/Frame.lean ====
section
/-! DEFINITION. Units FWR and FRD (47_frame_serdes.md), the frame of 30_encoding.md R93 to R99. -/

namespace Sys2Proof.Machine

/-! ### FWR.RUN -/

/-- A 4-byte signed field (30 R94): `bytesBE_4(sext_32(v))`. -/
def field32 (v : Int) : List Byte := bytesBE 4 (sext32 v).toNat

/-- A 2-byte code field (30 R96). -/
def field16 (c : Nat) : List Byte := bytesBE 2 c

/-- The entries of the frame in ascending order of code (47 R251). -/
def entryBytes (m : Memory Nat) : List Byte :=
  (freqEntries m).flatMap fun e => field16 e.1 ++ field32 e.2

/-- A frequency or TOTALBITS does not fit its field (47 R252). -/
def fieldOverflows (s : State) : Bool :=
  (freqEntries s.freq).any (fun e => decide (Config.freqMax < e.2))
    || decide (Config.totalBitsMax < s.totalBits)

/-- The frame's length `12 + 6 * ENTRYCNT + ceil(TOTALBITS/8)` (47 R251). -/
def frameLength (s : State) : Nat := 12 + 6 * s.entryCnt + ceil8 s.totalBits

/-- FWR.RUN (47 R251): range checks, capacity, then the fields in the fixed order. -/
def fwrRun (s : State) : Res Unit :=
  if fieldOverflows s then .raised .fieldOverflow s
  else if overCap (frameLength s) s.caps.outCap then .raised .capacityExceeded s
  else
    match s.bitsRun 0 (ceil8 s.totalBits) with
    | none => .fault (.invalidIndex .bits)
    | some payload =>
      .ok () (put payload
        (put (field32 s.totalBits)
          (put (entryBytes s.freq)
            (put (field32 s.entryCnt)
              (put (field32 s.maxCode) { s with outLen := 0 })))))

/-! ### FRD.RUN -/

/-- `Take(n)` (47 R261): the next n bytes of IN as a big-endian number. -/
def take (n : Nat) (s : State) : Res Nat :=
  if s.inLen - s.ipos < n then .raised .malformedFrame s
  else
    match s.inRun s.ipos n with
    | none => .fault (.invalidIndex .inMem)
    | some bs => .ok (be bs) { s with ipos := s.ipos + n }

/-- A 4-byte signed field of the frame. -/
def takeSigned (s : State) : Res Int := (take 4 s).bind fun v t => .ok (signed32 v) t

/-- One entry of the table (47 R261 part 3, R263): a code not above m and not seen, a frequency of at
least 1. Answers the code. -/
def readEntry (m : Int) (s : State) : Res Nat :=
  (take 2 s).bind fun c t =>
    if m < (c : Int) then .raised .malformedFrame t
    else if freqAt t.freq c ≠ 0 then .raised .malformedFrame t
    else
      (takeSigned t).bind fun f u =>
        if f < 1 then .raised .malformedFrame u
        else .ok c { u with freq := freqWrite u.freq c f.toNat }

/-- The entry loop (47 R261 part 3), n entries; answers `top`. -/
def readEntries (m : Int) : Nat → Int → State → Res Int
  | 0, top, s => .ok top s
  | n + 1, top, s => (readEntry m s).bind fun c t => readEntries m n (max top (c : Int)) t

/-- Parts 1 and 2 (47 R261, R262): maxCode and entryCount. -/
def readHeader (s : State) : Res Unit :=
  (takeSigned s).bind fun m t =>
    if m < -1 ∨ 65535 < m then .raised .malformedFrame t
    else
      (takeSigned { t with maxCode := m }).bind fun e u =>
        if e < 0 ∨ m + 1 < e then .raised .malformedFrame u
        else .ok () { u with entryCnt := e.toNat }

/-- Part 3 (47 R261, R263): the entries, and maxCode is the largest code. -/
def readTable (s : State) : Res Unit :=
  (readEntries s.maxCode s.entryCnt (-1) s).bind fun top t =>
    if top ≠ t.maxCode then .raised .malformedFrame t else .ok () t

/-- Part 4 (47 R261, R264): totalBits. -/
def readTotalBits (s : State) : Res Unit :=
  (takeSigned s).bind fun b t =>
    if b < 0 then .raised .malformedFrame t
    else if t.entryCnt = 0 ∧ b ≠ 0 then .raised .malformedFrame t
    else .ok () { t with totalBits := b.toNat }

/-- Part 5 (47 R261, R265): the payload's length, then its bytes. -/
def readPayload (s : State) : Res Unit :=
  let n := ceil8 s.totalBits
  if s.inLen - s.ipos < n then .raised .truncatedInput s
  else if n < s.inLen - s.ipos then .raised .malformedFrame s
  else if overCap n s.caps.bitsCap then .raised .capacityExceeded s
  else
    match s.inRun s.ipos n with
    | none => .fault (.invalidIndex .inMem)
    | some bs => .ok () { s with bits := Memory.write s.bits 0 bs, ipos := s.ipos + n }

/-- FRD.RUN (47 R261). -/
def frdRun (s : State) : Res Unit :=
  (readHeader { s with ipos := 0 }).bind fun _ t =>
    (readTable t).bind fun _ u =>
      (readTotalBits u).bind fun _ v => readPayload v

/-- FWR.RUN. -/
def execFwrRun (s : State) : Host.Outcome State Fault Refusal := (fwrRun s).outcome

/-- FRD.RUN. -/
def execFrdRun (s : State) : Host.Outcome State Fault Refusal := (frdRun s).outcome

end Sys2Proof.Machine
end

