-- ==== Sys2Proof/Machine/Huffman.lean ====
section
/-! DEFINITION. Units FREQ, HBUILD (43_huffman_tree_builder.md) and HGEN (44_huffman_codegen.md). -/

namespace Sys2Proof.Machine

/-! ### FREQ.COUNT -/

/-- The loop of FREQ.COUNT (43 R191), n passes: one more occurrence of the code at CPOS. -/
def freqLoop : Nat → State → Res Unit
  | 0, s => .ok () s
  | n + 1, s =>
    match s.codeAt s.cpos with
    | none => .fault (.invalidIndex .cseq)
    | some c =>
      freqLoop n { s with
        freq := freqWrite s.freq c.toNat (freqAt s.freq c.toNat + 1)
        cpos := s.cpos + 1 }

/-- FREQ.COUNT (43 R191). -/
def freqCount (s : State) : Res Unit :=
  (freqLoop s.clen { s with cpos := 0 }).bind fun _ t =>
    .ok () { t with entryCnt := (freqEntries t.freq).length, maxCode := largestCode t.freq }

/-! ### HBUILD.RUN -/

/-- One leaf per non-zero element of FREQ, ascending (43 R193). -/
def leavesOf (m : Memory Nat) : List Node :=
  (freqEntries m).map fun e => .leaf (BitVec.ofNat 16 e.1) e.2

/-- The order of 43 R194: smaller frequency first, then smaller minc. -/
def keyLt (a b : Node) : Bool :=
  decide (a.freq < b.freq) || (decide (a.freq = b.freq) && decide (a.minc.toNat < b.minc.toNat))

/-- The element of the queue with the smallest key, and the rest of the queue. -/
def popMin : List (Nat × Node) → Option ((Nat × Node) × List (Nat × Node))
  | [] => none
  | e :: q =>
    match popMin q with
    | none => some (e, [])
    | some (m, rest) => if keyLt m.2 e.2 then some (m, e :: rest) else some (e, q)

/-- The node made of the first removed node a (left) and the second b (right) (43 R193). -/
def joinNodes (a b : Nat × Node) : Node :=
  .internal (a.2.freq + b.2.freq)
    (if a.2.minc.toNat ≤ b.2.minc.toNat then a.2.minc else b.2.minc) a.1 b.1

/-- The loop "while |Q| > 1" of 43 R193; the queue holds handles with their nodes. Answers TREE,
NNODES and ROOT. Each turn makes the queue one shorter, so |Q| turns are enough. -/
def combine : Nat → List (Nat × Node) → Memory Node → Nat → Option (Memory Node × Nat × Nat)
  | 0, _, _, _ => none
  | n + 1, q, tree, k =>
    match popMin q with
    | none => none
    | some (a, q1) =>
      match popMin q1 with
      | none => some (tree, k, a.1)
      | some (b, q2) =>
        let j := joinNodes a b
        combine n ((k, j) :: q2) (Memory.write tree k [j]) (k + 1)

/-- HBUILD.RUN (43 R193). On an all-zero table it is never issued and has no behaviour (R198). -/
def hbuildRun (s : State) : Res Unit :=
  let leaves := leavesOf s.freq
  match combine leaves.length (Memory.run 0 leaves) (Memory.write s.tree 0 leaves) leaves.length with
  | none => .refused .emptyTable
  | some (tree, k, r) => .ok () { s with tree := tree, nnodes := k, root := r }

/-! ### HGEN.RUN -/

/-- `Walk(h, w)` (44 R211): the words of the leaves under h, whose path from ROOT is w. The first
argument bounds the depth; child handles are below their parent (10 R40), so NNODES is enough. -/
def walk (s : State) : Nat → Nat → List Bool → Memory (List Bool) → Except Fault (Memory (List Bool))
  | 0, _, _, _ => .error (.malformed .tree)
  | n + 1, h, w, ctab =>
    match s.nodeAt h with
    | none => .error (.invalidIndex .tree)
    | some (.leaf c _) => .ok (Memory.write ctab c.toNat [w])
    | some (.internal _ _ l r) =>
      match walk s n l (w ++ [false]) ctab with
      | .error f => .error f
      | .ok t => walk s n r (w ++ [true]) t

/-- HGEN.RUN (44 R211); NNODES >= 1 is its operand condition, and without a tree it is never issued
(43 R198). -/
def hgenRun (s : State) : Res Unit :=
  if s.nnodes = 0 then .refused .emptyTable
  else
    match s.nodeAt s.root with
    | none => .fault (.invalidIndex .tree)
    | some (.leaf c _) => .ok () { s with ctab := Memory.write s.ctab c.toNat [[false]] }
    | some (.internal _ _ _ _) =>
      match walk s s.nnodes s.root [] s.ctab with
      | .error f => .fault f
      | .ok t => .ok () { s with ctab := t }

/-- FREQ.COUNT. -/
def execFreqCount (s : State) : Host.Outcome State Fault Refusal := (freqCount s).outcome

/-- HBUILD.RUN. -/
def execHbuildRun (s : State) : Host.Outcome State Fault Refusal := (hbuildRun s).outcome

/-- HGEN.RUN. -/
def execHgenRun (s : State) : Host.Outcome State Fault Refusal := (hgenRun s).outcome

end Sys2Proof.Machine
end

