-- ==== Sys2Proof/Machine/Dictionary.lean ====
section
/-! DEFINITION. Unit DICT (40_dictionary.md): DICT.SEED, DICT.LOOKUP, DICT.RLOOKUP, DICT.INSERT. -/

namespace Sys2Proof.Machine

/-- The 256 seed records: entry b is (NONE, b) (R131). -/
def seedEntries : List DictEntry :=
  (List.range Config.seedN).map fun b => { parent := none, last := BitVec.ofNat 8 b }

/-- DICT.SEED (R131). -/
def dictSeed (s : State) : State :=
  { s with dict := Memory.write s.dict 0 seedEntries, dsize := Config.seedN }

/-- Entry e of DICT is a valid entry k with 256 ≤ k < DSIZE whose record is (p, b) (R133). -/
def dictHit (dsize : Nat) (p : Code) (b : Byte) (e : Nat × DictEntry) : Bool :=
  decide (Config.seedN ≤ e.1) && decide (e.1 < dsize) && decide (e.2 = { parent := some p, last := b })

/-- The result of DICT.LOOKUP (R133): p = NONE always hits the seed; else the entry with that record.
Where several would match (no run: 10 R47) it is the lowest (log 10). -/
def dictLookup (p : Option Code) (b : Byte) (s : State) : Option Code :=
  match p with
  | none => some (byteCode b)
  | some p => (s.dict.find? (dictHit s.dsize p b)).map fun e => BitVec.ofNat 16 e.1

/-- The string of entry k (10 R36), following the prefix links; a record that breaks p < k, or that
is missing, gives none. The first argument bounds the links still to follow; k + 1 is enough. -/
def strAt (m : Memory DictEntry) : Nat → Nat → Option (List Byte)
  | 0, _ => none
  | n + 1, k =>
    if k < Config.seedN then some [BitVec.ofNat 8 k]
    else
      match Memory.read m k with
      | some { parent := some p, last := b } =>
        if p.toNat < k then (strAt m n p.toNat).map (fun t => t ++ [b]) else none
      | _ => none

/-- `str(k)` (10 R36). -/
def str (m : Memory DictEntry) (k : Nat) : Option (List Byte) := strAt m (k + 1) k

/-- The result of DICT.RLOOKUP (R134): the string, or NONE when k is not below DSIZE. -/
def dictRlookup (k : Code) (s : State) : Res (Option (List Byte)) :=
  if k.toNat < s.dsize then
    match str s.dict k.toNat with
    | some t => .ok (some t) s
    | none => .fault (.malformed .dict)
  else .ok none s

/-- DICT.INSERT (R136): DuplicateEntry first, then DictionaryFull; the new code is DSIZE. A string
whose prefix is no present entry is never offered (R135). -/
def dictInsert (p : Option Code) (b : Byte) (s : State) : Res Code :=
  match p with
  | none => .refused .absentPrefix
  | some c =>
    if s.dsize ≤ c.toNat then .refused .absentPrefix
    else if dictLookup (some c) b s ≠ none then .raised .duplicateEntry s
    else if s.dsize = Config.dictCap then .raised .dictionaryFull s
    else .ok (BitVec.ofNat 16 s.dsize)
      { s with
        dict := Memory.write s.dict s.dsize [{ parent := some c, last := b }]
        dsize := s.dsize + 1 }

/-- DICT.SEED as an operation of its own. -/
def execDictSeed (s : State) : Host.Outcome State Fault Refusal := .next (dictSeed s)

/-- DICT.LOOKUP: operands (p, b) from the latches, the result to its latch (log 4). -/
def execDictLookup (s : State) : Host.Outcome State Fault Refusal :=
  .next { s with resCode := dictLookup s.argP s.argB s }

/-- DICT.RLOOKUP: operand k from the latch, the result to its latch (log 4). -/
def execDictRlookup (s : State) : Host.Outcome State Fault Refusal :=
  ((dictRlookup s.argC s).bind fun r t => .ok () { t with resStr := r }).outcome

/-- DICT.INSERT: operands (p, b) from the latches, the new code to the result latch (log 4). -/
def execDictInsert (s : State) : Host.Outcome State Fault Refusal :=
  ((dictInsert s.argP s.argB s).bind fun k t => .ok () { t with resCode := some k }).outcome

end Sys2Proof.Machine
end

