-- ==== Sys2Proof/Machine/LzwDecoder.lean ====
section
/-! DEFINITION. Unit LZWD (42_lzw_decoder.md): LZWD.RUN, LZWD.FIRST, LZWD.NEXT. -/

namespace Sys2Proof.Machine

/-- LZWD.FIRST(c) (R172). -/
def lzwdFirst (c : Code) (s : State) : Res Unit :=
  (dictRlookup c s).bind fun r t =>
    match r with
    | none => .raised .invalidCode t
    | some w => (append w t).bind fun _ u => .ok () { u with prev := c }

/-- The `cur` of LZWD.NEXT(c) (R173): the string of c; for c = DSIZE, previous + previous[0]. -/
def lzwdCurrent (c : Code) (s : State) : Res (List Byte) :=
  (dictRlookup c s).bind fun r t =>
    match r with
    | some w => .ok w t
    | none =>
      if c.toNat = t.dsize then
        (dictRlookup t.prev t).bind fun q u =>
          match q with
          | some (x :: w) => .ok (x :: w ++ [x]) u
          | _ => .fault (.malformed .dict)
      else .raised .invalidCode t

/-- LZWD.NEXT(c) (R173). -/
def lzwdNext (c : Code) (s : State) : Res Unit :=
  (lzwdCurrent c s).bind fun w t =>
    match w with
    | [] => .fault (.malformed .dict)
    | x :: _ =>
      (append w t).bind fun _ u =>
        (dictInsert (some u.prev) x u).bind fun _ v => .ok () { v with prev := c }

/-- The loop of LZWD.RUN (R171), n passes. -/
def lzwdLoop : Nat → State → Res Unit
  | 0, s => .ok () s
  | n + 1, s =>
    match s.codeAt s.cpos with
    | none => .fault (.invalidIndex .cseq)
    | some c => (lzwdNext c s).bind fun _ t => lzwdLoop n { t with cpos := t.cpos + 1 }

/-- LZWD.RUN (R171). -/
def lzwdRun (s : State) : Res Unit :=
  if s.clen = 0 then .raised .emptyCodeSequenceOnDecode s
  else
    let t := { dictSeed s with outLen := 0 }
    match t.codeAt 0 with
    | none => .fault (.invalidIndex .cseq)
    | some c => (lzwdFirst c t).bind fun _ u => lzwdLoop (s.clen - 1) { u with cpos := 1 }

/-- LZWD.RUN. -/
def execLzwdRun (s : State) : Host.Outcome State Fault Refusal := (lzwdRun s).outcome

/-- LZWD.FIRST: the code from the code latch (log 4). -/
def execLzwdFirst (s : State) : Host.Outcome State Fault Refusal := (lzwdFirst s.argC s).outcome

/-- LZWD.NEXT: the code from the code latch (log 4). -/
def execLzwdNext (s : State) : Host.Outcome State Fault Refusal := (lzwdNext s.argC s).outcome

end Sys2Proof.Machine
end

