-- ==== Sys2Proof/Machine/LzwEncoder.lean ====
section
/-! DEFINITION. Unit LZWE (41_lzw_encoder.md): LZWE.RUN, LZWE.SYM, LZWE.FLUSH. -/

namespace Sys2Proof.Machine

/-- LZWE.SYM(x) (R152). A lookup with p = NONE always hits, so with CUR = EMPTY the match becomes the
one-byte string. -/
def lzweSym (x : Byte) (s : State) : Res Unit :=
  match dictLookup s.cur x s with
  | some k => .ok () { s with cur := some k }
  | none =>
    match s.cur with
    | none => .fault (.malformed .dict)
    | some c =>
      (emit c s).bind fun _ t =>
        (dictInsert (some c) x t).bind fun _ u => .ok () { u with cur := some (byteCode x) }

/-- LZWE.FLUSH (R153). -/
def lzweFlush (s : State) : Res Unit :=
  match s.cur with
  | none => .ok () s
  | some c => emit c s

/-- The loop of LZWE.RUN (R151), n passes. -/
def lzweLoop : Nat → State → Res Unit
  | 0, s => .ok () s
  | n + 1, s =>
    match s.inAt s.ipos with
    | none => .fault (.invalidIndex .inMem)
    | some x => (lzweSym x s).bind fun _ t => lzweLoop n { t with ipos := t.ipos + 1 }

/-- LZWE.RUN (R151). -/
def lzweRun (s : State) : Res Unit :=
  (lzweLoop s.inLen { dictSeed s with cur := none, clen := 0, ipos := 0 }).bind fun _ t => lzweFlush t

/-- LZWE.RUN. -/
def execLzweRun (s : State) : Host.Outcome State Fault Refusal := (lzweRun s).outcome

/-- LZWE.SYM: the symbol from the byte latch (log 4). -/
def execLzweSym (s : State) : Host.Outcome State Fault Refusal := (lzweSym s.argB s).outcome

/-- LZWE.FLUSH. -/
def execLzweFlush (s : State) : Host.Outcome State Fault Refusal := (lzweFlush s).outcome

end Sys2Proof.Machine
end

