-- ==== Sys2Proof/Machine/Dispatch.lean ====
section
/-! DEFINITION. One arm per operation of 30_encoding.md R110. -/

namespace Sys2Proof.Machine

def exec (i : Instr) (s : State) : Host.Outcome State Fault Refusal :=
  match i with
  | .compress => Sys2Proof.Machine.execCompress s
  | .decompress => Sys2Proof.Machine.execDecompress s
  | .inrdRun => Sys2Proof.Machine.execInrdRun s
  | .dictSeed => Sys2Proof.Machine.execDictSeed s
  | .dictLookup => Sys2Proof.Machine.execDictLookup s
  | .dictRlookup => Sys2Proof.Machine.execDictRlookup s
  | .dictInsert => Sys2Proof.Machine.execDictInsert s
  | .lzweRun => Sys2Proof.Machine.execLzweRun s
  | .lzweSym => Sys2Proof.Machine.execLzweSym s
  | .lzweFlush => Sys2Proof.Machine.execLzweFlush s
  | .lzwdRun => Sys2Proof.Machine.execLzwdRun s
  | .lzwdFirst => Sys2Proof.Machine.execLzwdFirst s
  | .lzwdNext => Sys2Proof.Machine.execLzwdNext s
  | .freqCount => Sys2Proof.Machine.execFreqCount s
  | .hbuildRun => Sys2Proof.Machine.execHbuildRun s
  | .hgenRun => Sys2Proof.Machine.execHgenRun s
  | .bpackRun => Sys2Proof.Machine.execBpackRun s
  | .bunpkRun => Sys2Proof.Machine.execBunpkRun s
  | .fwrRun => Sys2Proof.Machine.execFwrRun s
  | .frdRun => Sys2Proof.Machine.execFrdRun s
  | .outwrRun => Sys2Proof.Machine.execOutwrRun s

end Sys2Proof.Machine
end

