-- ==== Sys2Proof/Machine/Sequencer.lean ====
section
/-! DEFINITION. The sequencer's fetch and stage sequence (48_commands.md R284, R290, R296), the
register port (10_state.md R21 to R26) and the host's actions (70_reset_and_hazards.md R362). -/

namespace Sys2Proof.Machine

/-! ### The sequencer -/

/-- The UOP identifier in issue (30 R92): its `unit` field is STATUS.STAGE, its `sub` field the model's own. -/
def State.fetchWord (s : State) : Byte := uopWord s.status.stage s.sub

/-- The stage after operation i (48 R284, R290, with the two choices of R296); 0 is the end of the
command, none that i is not in the running command's sequence. -/
def stageAfter (i : Instr) (s : State) : Option (BitVec 4) :=
  match s.status.op.toNat, i with
  | 1, .inrdRun => some 3
  | 1, .lzweRun => some 5
  | 1, .freqCount => some (if 0 < s.clen then 6 else 10)
  | 1, .hbuildRun => some 7
  | 1, .hgenRun => some 8
  | 1, .bpackRun => some 10
  | 1, .fwrRun => some 12
  | 1, .outwrRun => some 0
  | 2, .inrdRun => some 11
  | 2, .frdRun => some (if 0 < s.entryCnt then 6 else 12)
  | 2, .hbuildRun => some 9
  | 2, .bunpkRun => some 4
  | 2, .lzwdRun => some 12
  | 2, .outwrRun => some 0
  | _, _ => none

/-- What the sequencer does after operation i: nothing when the command has ended by an error (60
R330) or the operation waits for the host (70 R373); else STAGE goes on, or the command ends. -/
def advance (i : Instr) (s : State) : State :=
  if !s.status.busy || s.inOp then s
  else
    match stageAfter i s with
    | none => s
    | some n => if n = 0 then s.endCommand else { s with status := s.status.atStage n, sub := 0 }

/-! ### The register port -/

/-- A natural number as a register reads it; where it does not fit in 32 bits R25 specifies nothing. -/
def natWord (v : Nat) : Option RegWord := if v < 2 ^ 32 then some (BitVec.ofNat 32 v) else none

/-- The information registers 2 to 8 (R25). -/
def infoWord (s : State) (n : Nat) : Option RegWord :=
  match n with
  | 2 => natWord s.inLen
  | 3 => natWord s.outLen
  | 4 => natWord s.clen
  | 5 => natWord s.dsize
  | 6 => some (sext32 s.maxCode)
  | 7 => natWord s.entryCnt
  | 8 => natWord s.totalBits
  | _ => none

/-- The value a read of register n is specified to return, if R21, R22, R25 specify one. -/
def specifiedRead (s : State) (n : Nat) : Option RegWord :=
  if n = 0 then some 0
  else if n = 1 then some s.status.word
  else if 9 ≤ n then some 0
  else if s.status.done && !s.status.err then infoWord s n
  else none

/-- A register read (70 R362): no side effect on the block. Where the value is unspecified it is free (log 6). -/
def readRegister (n : Nat) (s : State) : State :=
  match specifiedRead s n with
  | some v => { s with rdata := v }
  | none => { s with rdata := Config.freeWord s.freeCtr, freeCtr := s.freeCtr + 1 }

/-! ### Whose move it is -/

/-- What a step does: an operation is issued (with the state it is issued in), or the step is already
made, or there is nothing to issue. -/
inductive Move where
  | issue (i : Instr) (s : State)
  | settled (s : State)
  | stop (r : Refusal)

/-- The sequencer issues the operation STAGE and sub name (30 R92). -/
def issueUop (s : State) : Move :=
  match decodeUop s.fetchWord with
  | .ok i => .issue i s
  | .error _ => .stop (.unassignedUop s.fetchWord)

/-- A register write (10 R21, 48 R280, 70 R362): CMD while BUSY = 0 presents a command word; every
other write is ignored. -/
def writeRegister (n : Nat) (v : RegWord) (s : State) : Move :=
  if n = 0 ∧ s.status.busy = false then
    match decodeCmd (v.setWidth 8) with
    | .ok i => .issue i s
    | .error _ => .settled s.illegalCommand
  else .settled s

/-- An item of the host: of the running command's stream while BUSY = 1, else of the next command's
(70 R363; log 8). -/
def supplyItem (x : Item) (s : State) : State :=
  if s.status.busy then { s with input := s.input ++ [x] } else { s with nextInput := s.nextInput ++ [x] }

/-- Whose move it is, and what it is. The host's script decides where its actions fall between the
sequencer's steps (10 R26; log 1); when it is used up the block runs until it is idle. -/
def State.move (s : State) : Move :=
  match s.host with
  | [] => if s.status.busy then issueUop s else .settled s
  | .run :: rest =>
    if s.status.busy then issueUop { s with host := rest } else .settled { s with host := rest }
  | .wait :: rest => if s.status.busy then issueUop s else .settled { s with host := rest }
  | .reset :: rest => .settled (State.resetBlock { s with host := rest })
  | .writeReg n v :: rest => writeRegister n v { s with host := rest }
  | .readReg n :: rest => .settled (readRegister n { s with host := rest })
  | .supply x :: rest => .settled (supplyItem x { s with host := rest })
  | .sink b :: rest => .settled { s with host := rest, nextSink := b }

/-- A state in which the next thing issued is the operation with this opcode-table word: a CMD word is
written to CMD by the host while BUSY = 0; any other word is the UOP in issue of a running sequencer. -/
def State.withUop (s : State) (w : Byte) : State :=
  match decodeCmd w with
  | .ok _ =>
    { s with
      status := { s.status with busy := false }
      host := .writeReg 0 (w.setWidth 32) :: s.host }
  | .error _ =>
    { s with
      status := { s.status with busy := true, stage := uopUnit w }
      sub := uopSub w
      inOp := false
      host := .run :: s.host }

end Sys2Proof.Machine
end

