-- ==== Sys2Proof/Machine/Step.lean ====
section
/-! DEFINITION. One step of the machine (70_reset_and_hazards.md R375: one unit operation, or one action
of the host). -/

namespace Sys2Proof.Machine

/-- A function applied to a next state. -/
def mapNext (f : State → State) : Host.Outcome State Fault Refusal → Host.Outcome State Fault Refusal
  | .next s => .next (f s)
  | .fault x => .fault x
  | .refused x => .refused x

/-- One step: what is to move moves; after a unit operation the sequencer goes on in the command's sequence. -/
def step (s : State) : Host.Outcome State Fault Refusal :=
  match s.move with
  | .issue i t => mapNext (advance i) (exec i t)
  | .settled t => .next t
  | .stop r => .refused r

/-- s with the opcode-table word w as what the next step issues (log 1). Every word is 8 bits. -/
def State.withFetchWord (s : State) (_nbits w : Nat) : State := s.withUop (BitVec.ofNat 8 w)

end Sys2Proof.Machine
end

