-- ==== Sys2Proof/Safety.lean ====
section
/-! DEFINITION. What a legal state is (10_state.md R22 to R24, R46 to R48, R154, R176; 60 R311, R331), the
words claims are stated in, and the source's LZW on strings. -/

namespace Sys2Proof.Machine

/-! ### What a memory holds -/

/-- Every index below n has an element. -/
abbrev Memory.listed {α : Type} (m : Memory α) (n : Nat) : Prop :=
  ∀ i, i < n → (Memory.read m i).isSome = true

/-- n does not exceed a capacity. -/
abbrev withinCap (n : Nat) (cap : Option Nat) : Prop := overCap n cap = false

/-- IN holds exactly these bytes. -/
abbrev State.holdsInput (s : State) (bs : List Byte) : Prop :=
  s.inLen = bs.length ∧ ∀ i, i < bs.length → s.inAt i = bs[i]?

/-- CSEQ holds exactly these codes. -/
abbrev State.holdsCodes (s : State) (cs : List Code) : Prop :=
  s.clen = cs.length ∧ ∀ i, i < cs.length → s.codeAt i = cs[i]?

/-- OUT holds exactly these bytes. -/
abbrev State.holdsOutput (s : State) (bs : List Byte) : Prop :=
  s.outLen = bs.length ∧ ∀ i, i < bs.length → s.outAt i = bs[i]?

/-- The payload (BITS with TOTALBITS) is exactly this bit sequence. -/
abbrev State.holdsBits (s : State) (vs : List Bool) : Prop :=
  s.totalBits = vs.length ∧ ∀ i, i < vs.length → s.bitAt i = vs[i]?

/-! ### STATUS -/

/-- The stages of a command (48 R284, R290); OP 1 is COMPRESS, 2 DECOMPRESS. -/
def commandStages (op : BitVec 2) : List (BitVec 4) :=
  match op.toNat with
  | 1 => [1, 3, 5, 6, 7, 8, 10, 12]
  | 2 => [1, 11, 6, 9, 4, 12]
  | _ => []

/-- The error codes a command can end with at a stage (48 R286, R292, 60 R311): FieldOverflow (7) is
checked by FWR; UnknownCodeDuringEncode (3) is unreachable (45 R223) and not in the list. -/
def errorsAt (op : BitVec 2) (stage : BitVec 4) : List (BitVec 4) :=
  match op.toNat, stage.toNat with
  | 1, 1 => [5, 10]
  | 1, 3 => [10, 8]
  | 1, 8 => [10]
  | 1, 10 => [7, 10]
  | 1, 12 => [5]
  | 2, 1 => [5, 10]
  | 2, 11 => [1, 2, 10]
  | 2, 9 => [1, 10]
  | 2, 4 => [4, 6, 10, 9, 8]
  | 2, 12 => [5]
  | _, _ => []

/-- Idle since reset. -/
abbrev Status.idle (t : Status) : Prop := t = Status.zero

/-- Running: (BUSY, DONE) = (1, 0), a command's stage. -/
abbrev Status.running (t : Status) : Prop :=
  t.busy = true ∧ t.done = false ∧ t.err = false ∧ t.errcode = 0 ∧ t.stage ∈ commandStages t.op

/-- Ended without error. -/
abbrev Status.endedOk (t : Status) : Prop :=
  t.busy = false ∧ t.done = true ∧ t.err = false ∧ t.errcode = 0 ∧ t.stage = 0 ∧ (t.op = 1 ∨ t.op = 2)

/-- Ended with an error one of its stages can raise. -/
abbrev Status.endedErr (t : Status) : Prop :=
  t.busy = false ∧ t.done = true ∧ t.err = true ∧ t.errcode ∈ errorsAt t.op t.stage

/-- An illegal command word was presented (60 R322). -/
abbrev Status.illegalWord (t : Status) : Prop :=
  t.busy = false ∧ t.done = true ∧ t.err = true ∧ t.errcode = 11 ∧ t.stage = 0 ∧ t.op = 0

/-- The values STATUS can have (10 R22 to R24, 60 R311). -/
abbrev Status.legal (t : Status) : Prop :=
  t.idle ∨ t.running ∨ t.endedOk ∨ t.endedErr ∨ t.illegalWord

/-! ### The dictionary and the tree -/

/-- DICT[k] for k >= 256 has a prefix below k (10 R46). -/
def entryShape (m : Memory DictEntry) (k : Nat) : Bool :=
  match Memory.read m k with
  | some { parent := some p, last := _ } => decide (p.toNat < k)
  | _ => false

/-- The dictionary's shape and bijectivity (10 R46, R47) over the valid entries. -/
abbrev State.dictSeeded (s : State) : Prop :=
  256 ≤ s.dsize ∧ s.dsize ≤ 65536
    ∧ (∀ k, k < 256 → Memory.read s.dict k = some { parent := none, last := BitVec.ofNat 8 k })
    ∧ (∀ k, k < s.dsize → 256 ≤ k → entryShape s.dict k = true)
    ∧ (∀ k, k < s.dsize → ∀ j, j < k → 256 ≤ j → Memory.read s.dict j ≠ Memory.read s.dict k)

/-- DICT.SEED has not run in this command, or the dictionary has its shape; CUR and PREV are codes of
present entries (41 R154, 42 R176). -/
abbrev State.dictOk (s : State) : Prop :=
  (s.dsize = 0 ∧ s.cur = none ∧ s.prev = 0)
    ∨ (s.dictSeeded ∧ s.prev.toNat < s.dsize
        ∧ s.cur.all (fun c => decide (c.toNat < s.dsize)) = true)

/-- Handle h is a child of handle p. -/
def childOf (s : State) (p h : Nat) : Bool :=
  match s.nodeAt p with
  | some (.internal _ _ l r) => decide (l = h) || decide (r = h)
  | _ => false

/-- What 43 R193 makes of an internal node's two children. -/
def internalShape (s : State) (h : Nat) : Bool :=
  match s.nodeAt h with
  | some (.internal f m l r) =>
    match s.nodeAt l, s.nodeAt r with
    | some a, some b =>
      decide (l < h) && decide (r < h) && decide (l ≠ r) && decide (f = a.freq + b.freq)
        && decide (m = if a.minc.toNat ≤ b.minc.toNat then a.minc else b.minc)
    | _, _ => false
  | _ => false

/-- The tree's shape for the table FREQ (10 R48). -/
abbrev State.treeOk (s : State) : Prop :=
  0 < s.freq.length ∧ s.nnodes + 1 = 2 * s.freq.length ∧ s.root + 1 = s.nnodes
    ∧ (∀ i, i < s.freq.length →
        s.nodeAt i = (s.freq[i]?).map (fun e => Node.leaf (BitVec.ofNat 16 e.1) e.2))
    ∧ (∀ h, h < s.nnodes → s.freq.length ≤ h → internalShape s h = true)
    ∧ (∀ h, h < s.root → ∃ p, p < s.nnodes ∧ childOf s p h = true)
    ∧ (∀ p, p < s.nnodes → ∀ q, q < p → ∀ h, h < s.nnodes → ¬ (childOf s p h = true ∧ childOf s q h = true))

/-- The node reached from handle h by a sequence of edge labels, left on 0 and right on 1 (44 R211). -/
def State.follow (s : State) : Nat → List Bool → Option Node
  | h, [] => s.nodeAt h
  | h, v :: w =>
    match s.nodeAt h with
    | some (.internal _ _ l r) => State.follow s (if v then r else l) w
    | _ => none

/-- A node is the leaf of code c. -/
def leafOf (c : Code) : Option Node → Bool
  | some (.leaf d _) => decide (d = c)
  | _ => false

/-- A node is INTERNAL. -/
def internalNode : Option Node → Bool
  | some (.internal _ _ _ _) => true
  | _ => false

/-- w is the code word of code c (30 R101, 44 R211): the edge labels of the path from ROOT to its leaf;
"0" in the tree of one leaf. -/
abbrev State.wordOf (s : State) (c : Code) (w : List Bool) : Prop :=
  (s.nnodes = 1 ∧ w = [false] ∧ leafOf c (s.nodeAt s.root) = true)
    ∨ (1 < s.nnodes ∧ leafOf c (s.follow s.root w) = true)

/-! ### Errors by operation -/

/-- The errors each unit operation can raise (60 R311's column "raised by", with the operations that call
Emit, Append and DICT.INSERT). -/
def raisableBy : Instr → List Err
  | .compress => []
  | .decompress => []
  | .inrdRun => [.resourceError, .capacityExceeded]
  | .dictSeed => []
  | .dictLookup => []
  | .dictRlookup => []
  | .dictInsert => [.duplicateEntry, .dictionaryFull]
  | .lzweRun => [.capacityExceeded, .dictionaryFull]
  | .lzweSym => [.capacityExceeded, .dictionaryFull]
  | .lzweFlush => [.capacityExceeded]
  | .lzwdRun => [.emptyCodeSequenceOnDecode, .invalidCode, .capacityExceeded, .duplicateEntry, .dictionaryFull]
  | .lzwdFirst => [.invalidCode, .capacityExceeded]
  | .lzwdNext => [.invalidCode, .capacityExceeded, .duplicateEntry, .dictionaryFull]
  | .freqCount => []
  | .hbuildRun => []
  | .hgenRun => []
  | .bpackRun => [.unknownCodeDuringEncode, .capacityExceeded]
  | .bunpkRun => [.malformedFrame, .capacityExceeded]
  | .fwrRun => [.fieldOverflow, .capacityExceeded]
  | .frdRun => [.malformedFrame, .truncatedInput, .capacityExceeded]
  | .outwrRun => [.resourceError]

/-! ### The invariant -/

/-- Every memory has its canonical form, and FREQ lists codes only. -/
abbrev State.memoryWf (s : State) : Prop :=
  Memory.wf s.inMem ∧ Memory.wf s.dict ∧ Memory.wf s.cseq ∧ freqWf s.freq ∧ Memory.wf s.tree
    ∧ Memory.wf s.ctab ∧ Memory.wf s.bits ∧ Memory.wf s.outMem
    ∧ (∀ e ∈ s.freq, e.1 < 65536)

/-- The ranges 10_state.md gives the registers (R30 to R33), and the capacities of the buffers. -/
abbrev State.rangesOk (s : State) : Prop :=
  s.dsize ≤ 65536 ∧ s.nnodes ≤ 131071 ∧ -1 ≤ s.maxCode ∧ s.maxCode ≤ 65535 ∧ s.entryCnt ≤ 65536
    ∧ s.ipos ≤ s.inLen ∧ s.cpos ≤ s.clen ∧ s.bpos ≤ s.totalBits
    ∧ withinCap s.inLen s.caps.inCap ∧ withinCap s.clen s.caps.cseqCap
    ∧ withinCap s.outLen s.caps.outCap

/-- Every code of CSEQ is counted in FREQ. -/
abbrev State.codesCounted (s : State) : Prop :=
  ∀ i, i < s.clen → (Memory.read s.cseq i).all (fun c => decide (0 < freqAt s.freq c.toNat)) = true

/-- Every code of CSEQ has a word in CTAB (44 R212 (a)). -/
abbrev State.codesHaveWords (s : State) : Prop :=
  ∀ i, i < s.clen →
    (Memory.read s.cseq i).all (fun c => (Memory.read s.ctab c.toNat).isSome) = true

/-- ENTRYCNT and MAXCODE describe FREQ (43 R191, 47 R263). -/
abbrev State.headerOk (s : State) : Prop :=
  s.entryCnt = s.freq.length ∧ s.maxCode = largestCode s.freq

/-- What the earlier stages of the running command have left for the stage named by STAGE
(48 R284, R290). -/
def State.stageData (s : State) : Prop :=
  match s.status.op.toNat, s.status.stage.toNat with
  | 1, 1 => Memory.listed s.inMem s.inLen ∧ s.freq = [] ∧ s.ctab = [] ∧ s.totalBits = 0
      ∧ s.headerOk ∧ s.clen = 0 ∧ s.outLen = 0 ∧ s.dsize = 0 ∧ s.ipos = 0
  | 1, 3 => Memory.listed s.inMem s.inLen ∧ s.freq = [] ∧ s.ctab = [] ∧ s.totalBits = 0
      ∧ s.headerOk ∧ s.clen = 0 ∧ s.dsize = 0
  | 1, 5 => Memory.listed s.cseq s.clen ∧ s.freq = [] ∧ s.ctab = [] ∧ s.totalBits = 0
  | 1, 6 => Memory.listed s.cseq s.clen ∧ s.freq ≠ [] ∧ s.codesCounted ∧ s.headerOk ∧ s.ctab = []
      ∧ s.totalBits = 0
  | 1, 7 => Memory.listed s.cseq s.clen ∧ s.treeOk ∧ s.codesCounted ∧ s.headerOk ∧ s.ctab = []
      ∧ s.totalBits = 0
  | 1, 8 => Memory.listed s.cseq s.clen ∧ s.codesHaveWords ∧ s.headerOk ∧ s.totalBits = 0
  | 1, 10 => Memory.listed s.bits (ceil8 s.totalBits) ∧ s.headerOk
  | 1, 12 => Memory.listed s.outMem s.outLen
  | 2, 1 => Memory.listed s.inMem s.inLen ∧ s.freq = [] ∧ s.outLen = 0 ∧ s.clen = 0 ∧ s.dsize = 0
      ∧ s.totalBits = 0 ∧ s.ipos = 0
  | 2, 11 => Memory.listed s.inMem s.inLen ∧ s.freq = [] ∧ s.outLen = 0 ∧ s.clen = 0 ∧ s.dsize = 0
      ∧ s.totalBits = 0
  | 2, 6 => Memory.listed s.bits (ceil8 s.totalBits) ∧ s.freq ≠ [] ∧ s.headerOk ∧ s.clen = 0
      ∧ s.dsize = 0
  | 2, 9 => Memory.listed s.bits (ceil8 s.totalBits) ∧ s.treeOk ∧ s.headerOk ∧ s.clen = 0
      ∧ s.dsize = 0
  | 2, 4 => Memory.listed s.cseq s.clen ∧ s.headerOk ∧ s.dsize = 0
  | 2, 12 => Memory.listed s.outMem s.outLen
  | _, _ => False

/-- What the sink has, seen with STATUS (20 R76, 60 R331): nothing before stage 12; then the bytes of
OUT in order; the end marker exactly when the command has ended without error. -/
abbrev State.outputOk (s : State) : Prop :=
  (s.status.busy = true → s.sinkEnd = false
      ∧ (s.status.stage ≠ 12 ∨ s.inOp = false → s.sinkGot = [] ∧ s.offers = 0)
      ∧ s.offers = s.sinkGot.length ∧ s.sinkGot.length ≤ s.outLen
      ∧ ∀ i, i < s.sinkGot.length → s.outAt i = s.sinkGot[i]?)
    ∧ (s.status.endedOk → s.sinkEnd = true ∧ s.holdsOutput s.sinkGot)
    ∧ (s.status.endedErr → s.sinkEnd = false ∧ (s.status.stage ≠ 12 → s.sinkGot = []))

/-- The sequencer's own bits (log 3): whole operations only, and a wait only in INRD or OUTWR. -/
abbrev State.sequencerOk (s : State) : Prop :=
  (s.status.busy = true → s.sub = 0)
    ∧ (s.inOp = true → s.status.busy = true ∧ (s.status.stage = 1 ∨ s.status.stage = 12))

/-- The invariant every step keeps. -/
def State.Inv (s : State) : Prop :=
  s.status.legal ∧ s.memoryWf ∧ s.rangesOk ∧ s.dictOk ∧ s.sequencerOk ∧ s.outputOk
    ∧ (s.status.busy = true → s.stageData)

/-! ### The two commands as one computation each (48 R284, R290) -/

/-- `STAGE <- n`. -/
def State.atStage (s : State) (n : BitVec 4) : State :=
  { s with status := s.status.atStage n, sub := 0 }

/-- The sequence of R284 from INRD.RUN on, as written there. -/
def compressSequence (s : State) : Res Unit :=
  (inrdRun (s.atStage 1)).bind fun _ s1 =>
  (lzweRun (s1.atStage 3)).bind fun _ s2 =>
  (freqCount (s2.atStage 5)).bind fun _ s3 =>
  (if 0 < s3.clen then
    (hbuildRun (s3.atStage 6)).bind fun _ s4 =>
    (hgenRun (s4.atStage 7)).bind fun _ s5 =>
    bpackRun (s5.atStage 8)
   else .ok () s3).bind fun _ s6 =>
  (fwrRun (s6.atStage 10)).bind fun _ s7 =>
  (outwrRun (s7.atStage 12)).bind fun _ s8 => .ok () s8.endCommand

/-- The sequence of R290 from INRD.RUN on, as written there. -/
def decompressSequence (s : State) : Res Unit :=
  (inrdRun (s.atStage 1)).bind fun _ s1 =>
  (frdRun (s1.atStage 11)).bind fun _ s2 =>
  (if 0 < s2.entryCnt then
    (hbuildRun (s2.atStage 6)).bind fun _ s3 =>
    (bunpkRun (s3.atStage 9)).bind fun _ s4 =>
    lzwdRun (s4.atStage 4)
   else .ok () s2).bind fun _ s5 =>
  (outwrRun (s5.atStage 12)).bind fun _ s6 => .ok () s6.endCommand

/-! ### The source's LZW, on strings (41 R152, 42 R173; the dictionary as the mapping of 40 R132) -/

/-- The code of a string, the dictionary being the seed and then these strings in order of insertion
from code 256 (40 R132). -/
def stringCode (d : List (List Byte)) (t : List Byte) : Option Nat :=
  match t with
  | [] => none
  | [b] => some b.toNat
  | _ => (d.findIdx? (fun u => decide (u = t))).map (fun i => 256 + i)

/-- "For each incoming symbol s: let candidate = current match + s …" and the flush (41 R152, R153), with
no limit on the dictionary: the codes emitted and the strings inserted. -/
def stringEncode : List Byte → List Byte → List (List Byte) → List Nat → List Nat × List (List Byte)
  | [], cur, d, out =>
    match stringCode d cur with
    | some k => (out ++ [k], d)
    | none => (out, d)
  | x :: xs, cur, d, out =>
    match stringCode d (cur ++ [x]) with
    | some _ => stringEncode xs (cur ++ [x]) d out
    | none => stringEncode xs [x] (d ++ [cur ++ [x]]) (out ++ (stringCode d cur).toList)

/-- The codes LZW gives a byte sequence. -/
def lzwCodes (bs : List Byte) : List Nat := (stringEncode bs [] [] []).1

/-- The strings LZW inserts, in order; their number is the number of misses (41 R155). -/
def lzwInserted (bs : List Byte) : List (List Byte) := (stringEncode bs [] [] []).2

end Sys2Proof.Machine
end

