-- ==== Sys2Proof/Laws/Memory.lean ====
section
/-! SUPPORT. Reading and writing memories (00_scope.md R14): what a read after a write gives, and that
every memory operation keeps the canonical form. -/

namespace Sys2Proof.Machine

variable {α : Type}

@[simp] theorem Memory.read_nil (i : Nat) : Memory.read ([] : Memory α) i = none := rfl

theorem Memory.read_cons (k : Nat) (v : α) (m : Memory α) (i : Nat) :
    Memory.read ((k, v) :: m) i = if k = i then some v else Memory.read m i := rfl

/-- A read of a concatenation looks in the first part, then in the second. -/
theorem Memory.read_append (m₁ m₂ : Memory α) (i : Nat) :
    Memory.read (m₁ ++ m₂) i = (Memory.read m₁ i).or (Memory.read m₂ i) := by
  induction m₁ with
  | nil => simp
  | cons e m ih =>
    obtain ⟨k, v⟩ := e
    by_cases h : k = i <;> simp [Memory.read_cons, h, ih]

/-- A filter on indices keeps exactly the elements whose index passes. -/
theorem Memory.read_filter (p : Nat → Bool) (m : Memory α) (i : Nat) :
    Memory.read (m.filter (fun e => p e.1)) i = if p i then Memory.read m i else none := by
  induction m with
  | nil => simp
  | cons e m ih =>
    obtain ⟨k, v⟩ := e
    by_cases hk : k = i
    · subst hk
      by_cases hp : p k = true <;> simp_all [Memory.read_cons]
    · by_cases hp : p k = true <;> simp_all [Memory.read_cons]

/-- The elements of a run are at consecutive indices. -/
theorem Memory.read_run (a : Nat) (vs : List α) (i : Nat) :
    Memory.read (Memory.run a vs) i = if a ≤ i then vs[i - a]? else none := by
  induction vs generalizing a with
  | nil => simp [Memory.run]
  | cons v vs ih =>
    rw [Memory.run, Memory.read_cons, ih]
    by_cases h : a = i
    · subst h; simp
    · by_cases h' : a ≤ i
      · obtain ⟨d, rfl⟩ : ∃ d, i = a + 1 + d := ⟨i - (a + 1), by omega⟩
        have : a + 1 + d - a = d + 1 := by omega
        simp [h, h', this]
      · have : ¬ a + 1 ≤ i := by omega
        simp [h, h', this]

/-- Read after write: the written elements where they were written, everything else as before. -/
theorem Memory.read_write (m : Memory α) (a : Nat) (vs : List α) (i : Nat) :
    Memory.read (Memory.write m a vs) i
      = if a ≤ i ∧ i < a + vs.length then vs[i - a]? else Memory.read m i := by
  have h1 := Memory.read_filter (fun k => decide (k < a)) m i
  have h2 := Memory.read_filter (fun k => decide (a + vs.length ≤ k)) m i
  rw [Memory.write, Memory.read_append, Memory.read_append, h1, h2, Memory.read_run]
  by_cases ha : a ≤ i
  · by_cases hb : i < a + vs.length
    · have hlt : i - a < vs.length := by omega
      simp [ha, hb, Nat.not_lt.mpr ha, List.getElem?_eq_getElem hlt]
    · have hge : vs.length ≤ i - a := by omega
      simp [ha, hb, Nat.not_lt.mpr ha, List.getElem?_eq_none hge, Nat.not_lt.mp hb]
  · have hlt : i < a := by omega
    simp [ha, hlt]
    cases Memory.read m i <;> simp

/-- Writing one element. -/
theorem Memory.read_write_one (m : Memory α) (a : Nat) (v : α) (i : Nat) :
    Memory.read (Memory.write m a [v]) i = if i = a then some v else Memory.read m i := by
  rw [Memory.read_write]
  by_cases h : i = a
  · subst h; simp
  · have : ¬ (a ≤ i ∧ i < a + [v].length) := by simp; omega
    rw [if_neg this, if_neg h]

theorem Memory.keys_run (a : Nat) (vs : List α) :
    (Memory.run a vs).map Prod.fst = List.range' a vs.length := by
  induction vs generalizing a with
  | nil => rfl
  | cons v vs ih => simp [Memory.run, ih, List.range'_succ]

/-- A run is in canonical form. -/
theorem Memory.wf_run (a : Nat) (vs : List α) : Memory.wf (Memory.run a vs) := by
  rw [Memory.wf, Memory.keys_run]
  exact List.pairwise_lt_range'

/-- A sub-list of a memory in canonical form is in canonical form. -/
theorem Memory.wf_filter {m : Memory α} (h : Memory.wf m) (p : Nat × α → Bool) :
    Memory.wf (m.filter p) :=
  List.Pairwise.sublist (List.Sublist.map _ List.filter_sublist) h

/-- Two memories in canonical form, the first below the second, make one. -/
theorem Memory.wf_append {m₁ m₂ : Memory α} (h₁ : Memory.wf m₁) (h₂ : Memory.wf m₂)
    (h : ∀ e₁ ∈ m₁, ∀ e₂ ∈ m₂, e₁.1 < e₂.1) : Memory.wf (m₁ ++ m₂) := by
  rw [Memory.wf, List.map_append, List.pairwise_append]
  refine ⟨h₁, h₂, ?_⟩
  intro a ha b hb
  obtain ⟨e₁, he₁, rfl⟩ := List.mem_map.mp ha
  obtain ⟨e₂, he₂, rfl⟩ := List.mem_map.mp hb
  exact h e₁ he₁ e₂ he₂

/-- The index of an element of a run. -/
theorem Memory.mem_run_index {a : Nat} {vs : List α} {e : Nat × α} (h : e ∈ Memory.run a vs) :
    a ≤ e.1 ∧ e.1 < a + vs.length := by
  have : e.1 ∈ (Memory.run a vs).map Prod.fst := List.mem_map_of_mem h
  rw [Memory.keys_run, List.mem_range'_1] at this
  exact this

/-- Every write keeps the canonical form. -/
theorem Memory.wf_write {m : Memory α} (h : Memory.wf m) (a : Nat) (vs : List α) :
    Memory.wf (Memory.write m a vs) := by
  refine Memory.wf_append (Memory.wf_append (Memory.wf_filter h _) (Memory.wf_run a vs) ?_)
    (Memory.wf_filter h _) ?_
  · intro e₁ h₁ e₂ h₂
    have := (List.mem_filter.mp h₁).2
    have := Memory.mem_run_index h₂
    simp_all; omega
  · intro e₁ h₁ e₂ h₂
    have h2 := (List.mem_filter.mp h₂).2
    rcases List.mem_append.mp h₁ with h1 | h1
    · have := (List.mem_filter.mp h1).2
      simp_all; omega
    · have := Memory.mem_run_index h1
      simp_all; omega

/-- The elements of a written memory. -/
theorem Memory.mem_write {m : Memory α} {a : Nat} {vs : List α} {e : Nat × α}
    (h : e ∈ Memory.write m a vs) : e ∈ m ∨ (e.2 ∈ vs ∧ a ≤ e.1 ∧ e.1 < a + vs.length) := by
  rcases List.mem_append.mp h with h | h
  · rcases List.mem_append.mp h with h | h
    · exact .inl (List.mem_filter.mp h).1
    · refine .inr ⟨?_, Memory.mem_run_index h⟩
      clear * - h
      induction vs generalizing a with
      | nil => simp [Memory.run] at h
      | cons v vs ih =>
        rw [Memory.run, List.mem_cons] at h
        rcases h with rfl | h
        · simp
        · exact List.mem_cons_of_mem _ (ih h)
  · exact .inl (List.mem_filter.mp h).1

/-- In canonical form an element is in the list exactly when reading its index gives it. -/
theorem Memory.mem_iff_read {m : Memory α} (h : Memory.wf m) (i : Nat) (v : α) :
    (i, v) ∈ m ↔ Memory.read m i = some v := by
  induction m with
  | nil => simp
  | cons e m ih =>
    obtain ⟨k, w⟩ := e
    have hw : Memory.wf m := List.Pairwise.of_cons h
    have hlt : ∀ e ∈ m, k < e.1 := fun e he => List.rel_of_pairwise_cons h (List.mem_map_of_mem he)
    rw [List.mem_cons, Memory.read_cons, ih hw]
    by_cases hk : k = i
    · subst hk
      have hnone : Memory.read m k ≠ some v := fun hr =>
        absurd (hlt (k, v) ((ih hw).mpr hr)) (lt_irrefl k)
      simp [hnone, eq_comm]
    · have : ¬ i = k := fun e => hk e.symm
      simp [hk, this]

/-- Two memories in canonical form with the same elements are the same list. -/
theorem Memory.ext_of_wf {m₁ m₂ : Memory α} (h₁ : Memory.wf m₁) (h₂ : Memory.wf m₂)
    (h : ∀ i, Memory.read m₁ i = Memory.read m₂ i) : m₁ = m₂ := by
  have hmem : ∀ e, e ∈ m₁ ↔ e ∈ m₂ := fun ⟨i, v⟩ => by
    rw [Memory.mem_iff_read h₁, Memory.mem_iff_read h₂, h]
  have hp₁ : m₁.Pairwise (fun a b => a.1 < b.1) := List.pairwise_map.mp h₁
  have hp₂ : m₂.Pairwise (fun a b => a.1 < b.1) := List.pairwise_map.mp h₂
  have hn₁ : m₁.Nodup := hp₁.imp fun hlt he => absurd hlt (by rw [he]; exact lt_irrefl _)
  have hn₂ : m₂.Nodup := hp₂.imp fun hlt he => absurd hlt (by rw [he]; exact lt_irrefl _)
  have hperm : m₁.Perm m₂ := (List.perm_ext_iff_of_nodup hn₁ hn₂).mpr hmem
  refine hperm.eq_of_pairwise ?_ hp₁ hp₂
  intro a b _ _ hab hba
  exact absurd (lt_trans hab hba) (lt_irrefl _)

/-- `MemRead` gives n elements, each the one at its index; it gives them when all are there. -/
theorem Memory.readRun_eq_some {m : Memory α} {a n : Nat} {vs : List α} :
    Memory.readRun m a n = some vs ↔
      vs.length = n ∧ ∀ i, i < n → Memory.read m (a + i) = vs[i]? := by
  induction n generalizing a vs with
  | zero => cases vs <;> simp [Memory.readRun]
  | succ n ih =>
    rw [Memory.readRun]
    cases hv : Memory.read m a with
    | none =>
      simp only [reduceCtorEq, false_iff, not_and, not_forall]
      intro hl
      refine ⟨0, by omega, ?_⟩
      have : vs[0]? ≠ none := by simp [hl]
      simpa [hv, eq_comm] using this
    | some v =>
      cases hr : Memory.readRun m (a + 1) n with
      | none =>
        simp only [reduceCtorEq, false_iff, not_and]
        intro hl hall
        cases vs with
        | nil => simp at hl
        | cons w ws =>
          have := (ih (a := a + 1) (vs := ws)).mpr ⟨by simpa using hl, fun i hi => by
            have := hall (i + 1) (by omega)
            simpa [Nat.add_assoc, Nat.add_comm 1 i] using this⟩
          simp [hr] at this
      | some ws =>
        have hws := ih.mp hr
        constructor
        · rintro h
          obtain rfl : v :: ws = vs := by simpa using h
          refine ⟨by simp [hws.1], ?_⟩
          intro i hi
          cases i with
          | zero => simpa using hv
          | succ i =>
            have := hws.2 i (by omega)
            simpa [Nat.add_assoc, Nat.add_comm 1 i] using this
        · rintro ⟨hl, hall⟩
          cases vs with
          | nil => simp at hl
          | cons w us =>
            have h0 := hall 0 (by omega)
            simp only [Nat.add_zero, hv, List.getElem?_cons_zero] at h0
            have hus : us = ws := by
              have := (ih (a := a + 1) (vs := us)).mpr ⟨by simpa using hl, fun i hi => by
                have := hall (i + 1) (by omega)
                simpa [Nat.add_assoc, Nat.add_comm 1 i] using this⟩
              rw [hr] at this
              exact (Option.some.inj this).symm
            simp_all

/-- A listed range can be read. -/
theorem Memory.readRun_isSome_of_listed {m : Memory α} {a n k : Nat} (h : Memory.listed m k)
    (hle : a + n ≤ k) : (Memory.readRun m a n).isSome = true := by
  induction n generalizing a with
  | zero => rfl
  | succ n ih =>
    have h0 := h a (by omega)
    have h1 := ih (a := a + 1) (by omega)
    obtain ⟨v, hv⟩ := Option.isSome_iff_exists.mp h0
    obtain ⟨vs, hvs⟩ := Option.isSome_iff_exists.mp h1
    simp [Memory.readRun, hv, hvs]

/-- A write keeps a listed range listed. -/
theorem Memory.listed_write {m : Memory α} {n : Nat} (h : Memory.listed m n) (a : Nat) (vs : List α) :
    Memory.listed (Memory.write m a vs) n := by
  intro i hi
  rw [Memory.read_write]
  split
  · rename_i hr
    rw [List.getElem?_eq_getElem (by omega)]; rfl
  · exact h i hi

/-- Appending at the end of a listed range lists the longer range. -/
theorem Memory.listed_append {m : Memory α} {n : Nat} (h : Memory.listed m n) (vs : List α) :
    Memory.listed (Memory.write m n vs) (n + vs.length) := by
  intro i hi
  rw [Memory.read_write]
  split
  · rw [List.getElem?_eq_getElem (by omega)]; rfl
  · rename_i hr
    exact h i (by omega)

/-! ### FREQ -/

/-- FREQ[c] after `FREQ[c] <- f`, and every other element. -/
theorem freqAt_freqWrite (m : Memory Nat) (c f i : Nat) :
    freqAt (freqWrite m c f) i = if i = c then f else freqAt m i := by
  rw [freqAt, freqWrite]
  split
  · rename_i hf
    subst hf
    rw [Memory.read_append, Memory.read_filter (fun k => decide (k < c)),
      Memory.read_filter (fun k => decide (c < k))]
    by_cases h : i = c
    · subst h; simp
    · rcases Nat.lt_or_gt_of_ne h with hlt | hgt
      · simp [hlt, h, Nat.not_lt.mpr hlt.le, freqAt]
      · simp [hgt, h, Nat.not_lt.mpr hgt.le, freqAt]
  · rw [Memory.read_write_one]
    split <;> simp [freqAt]

/-- Writing FREQ keeps its canonical form. -/
theorem freqWf_freqWrite {m : Memory Nat} (h : freqWf m) (c f : Nat) : freqWf (freqWrite m c f) := by
  rw [freqWrite]
  split
  · refine ⟨Memory.wf_append (Memory.wf_filter h.1 _) (Memory.wf_filter h.1 _) ?_, ?_⟩
    · intro e₁ h₁ e₂ h₂
      have := (List.mem_filter.mp h₁).2
      have := (List.mem_filter.mp h₂).2
      simp_all; omega
    · intro e he
      rcases List.mem_append.mp he with he | he <;> exact h.2 e (List.mem_filter.mp he).1
  · refine ⟨Memory.wf_write h.1 _ _, ?_⟩
    intro e he
    rcases Memory.mem_write he with he | ⟨he, _⟩
    · exact h.2 e he
    · have : e.2 = f := by simpa using he
      omega

/-- In canonical form the listed codes are those with a non-zero frequency (10 R39). -/
theorem mem_freqEntries_iff {m : Memory Nat} (h : freqWf m) (c f : Nat) :
    (c, f) ∈ freqEntries m ↔ freqAt m c = f ∧ 0 < f := by
  rw [freqEntries, Memory.mem_iff_read h.1, freqAt]
  constructor
  · intro hr
    exact ⟨by simp [hr], h.2 (c, f) ((Memory.mem_iff_read h.1 c f).mpr hr)⟩
  · rintro ⟨hr, hf⟩
    cases hm : Memory.read m c with
    | none => simp [hm] at hr; omega
    | some v => simp [hm] at hr; simp [hr]

end Sys2Proof.Machine
end

