-- ==== Sys2Proof/Laws/State.lean ====
section
/-! SUPPORT. What each named update of the state leaves in each field, by definition. -/

namespace Sys2Proof.Machine

/-! ### Taking an error (60 R330): STATUS and the in-progress mark, nothing else. -/

@[simp] theorem State.raise_status (e : Err) (s : State) : (State.raise e s).status = s.status.raised e := rfl
@[simp] theorem State.raise_cur (e : Err) (s : State) : (State.raise e s).cur = s.cur := rfl
@[simp] theorem State.raise_prev (e : Err) (s : State) : (State.raise e s).prev = s.prev := rfl
@[simp] theorem State.raise_dsize (e : Err) (s : State) : (State.raise e s).dsize = s.dsize := rfl
@[simp] theorem State.raise_ipos (e : Err) (s : State) : (State.raise e s).ipos = s.ipos := rfl
@[simp] theorem State.raise_cpos (e : Err) (s : State) : (State.raise e s).cpos = s.cpos := rfl
@[simp] theorem State.raise_bpos (e : Err) (s : State) : (State.raise e s).bpos = s.bpos := rfl
@[simp] theorem State.raise_nnodes (e : Err) (s : State) : (State.raise e s).nnodes = s.nnodes := rfl
@[simp] theorem State.raise_root (e : Err) (s : State) : (State.raise e s).root = s.root := rfl
@[simp] theorem State.raise_node (e : Err) (s : State) : (State.raise e s).node = s.node := rfl
@[simp] theorem State.raise_inLen (e : Err) (s : State) : (State.raise e s).inLen = s.inLen := rfl
@[simp] theorem State.raise_clen (e : Err) (s : State) : (State.raise e s).clen = s.clen := rfl
@[simp] theorem State.raise_outLen (e : Err) (s : State) : (State.raise e s).outLen = s.outLen := rfl
@[simp] theorem State.raise_maxCode (e : Err) (s : State) : (State.raise e s).maxCode = s.maxCode := rfl
@[simp] theorem State.raise_entryCnt (e : Err) (s : State) : (State.raise e s).entryCnt = s.entryCnt := rfl
@[simp] theorem State.raise_totalBits (e : Err) (s : State) : (State.raise e s).totalBits = s.totalBits := rfl
@[simp] theorem State.raise_inMem (e : Err) (s : State) : (State.raise e s).inMem = s.inMem := rfl
@[simp] theorem State.raise_dict (e : Err) (s : State) : (State.raise e s).dict = s.dict := rfl
@[simp] theorem State.raise_cseq (e : Err) (s : State) : (State.raise e s).cseq = s.cseq := rfl
@[simp] theorem State.raise_freq (e : Err) (s : State) : (State.raise e s).freq = s.freq := rfl
@[simp] theorem State.raise_tree (e : Err) (s : State) : (State.raise e s).tree = s.tree := rfl
@[simp] theorem State.raise_ctab (e : Err) (s : State) : (State.raise e s).ctab = s.ctab := rfl
@[simp] theorem State.raise_bits (e : Err) (s : State) : (State.raise e s).bits = s.bits := rfl
@[simp] theorem State.raise_outMem (e : Err) (s : State) : (State.raise e s).outMem = s.outMem := rfl
@[simp] theorem State.raise_sub (e : Err) (s : State) : (State.raise e s).sub = s.sub := rfl
@[simp] theorem State.raise_inOp (e : Err) (s : State) : (State.raise e s).inOp = false := rfl
@[simp] theorem State.raise_argP (e : Err) (s : State) : (State.raise e s).argP = s.argP := rfl
@[simp] theorem State.raise_argB (e : Err) (s : State) : (State.raise e s).argB = s.argB := rfl
@[simp] theorem State.raise_argC (e : Err) (s : State) : (State.raise e s).argC = s.argC := rfl
@[simp] theorem State.raise_resCode (e : Err) (s : State) : (State.raise e s).resCode = s.resCode := rfl
@[simp] theorem State.raise_resStr (e : Err) (s : State) : (State.raise e s).resStr = s.resStr := rfl
@[simp] theorem State.raise_freeCtr (e : Err) (s : State) : (State.raise e s).freeCtr = s.freeCtr := rfl
@[simp] theorem State.raise_caps (e : Err) (s : State) : (State.raise e s).caps = s.caps := rfl
@[simp] theorem State.raise_host (e : Err) (s : State) : (State.raise e s).host = s.host := rfl
@[simp] theorem State.raise_input (e : Err) (s : State) : (State.raise e s).input = s.input := rfl
@[simp] theorem State.raise_nextInput (e : Err) (s : State) : (State.raise e s).nextInput = s.nextInput := rfl
@[simp] theorem State.raise_nextSink (e : Err) (s : State) : (State.raise e s).nextSink = s.nextSink := rfl
@[simp] theorem State.raise_sink (e : Err) (s : State) : (State.raise e s).sink = s.sink := rfl
@[simp] theorem State.raise_offers (e : Err) (s : State) : (State.raise e s).offers = s.offers := rfl
@[simp] theorem State.raise_sinkGot (e : Err) (s : State) : (State.raise e s).sinkGot = s.sinkGot := rfl
@[simp] theorem State.raise_sinkEnd (e : Err) (s : State) : (State.raise e s).sinkEnd = s.sinkEnd := rfl
@[simp] theorem State.raise_rdata (e : Err) (s : State) : (State.raise e s).rdata = s.rdata := rfl

/-! ### The end of a command without error (48 R284). -/

@[simp] theorem State.endCommand_status (s : State) : (s.endCommand).status = s.status.ended := rfl
@[simp] theorem State.endCommand_cur (s : State) : (s.endCommand).cur = s.cur := rfl
@[simp] theorem State.endCommand_prev (s : State) : (s.endCommand).prev = s.prev := rfl
@[simp] theorem State.endCommand_dsize (s : State) : (s.endCommand).dsize = s.dsize := rfl
@[simp] theorem State.endCommand_ipos (s : State) : (s.endCommand).ipos = s.ipos := rfl
@[simp] theorem State.endCommand_cpos (s : State) : (s.endCommand).cpos = s.cpos := rfl
@[simp] theorem State.endCommand_bpos (s : State) : (s.endCommand).bpos = s.bpos := rfl
@[simp] theorem State.endCommand_nnodes (s : State) : (s.endCommand).nnodes = s.nnodes := rfl
@[simp] theorem State.endCommand_root (s : State) : (s.endCommand).root = s.root := rfl
@[simp] theorem State.endCommand_node (s : State) : (s.endCommand).node = s.node := rfl
@[simp] theorem State.endCommand_inLen (s : State) : (s.endCommand).inLen = s.inLen := rfl
@[simp] theorem State.endCommand_clen (s : State) : (s.endCommand).clen = s.clen := rfl
@[simp] theorem State.endCommand_outLen (s : State) : (s.endCommand).outLen = s.outLen := rfl
@[simp] theorem State.endCommand_maxCode (s : State) : (s.endCommand).maxCode = s.maxCode := rfl
@[simp] theorem State.endCommand_entryCnt (s : State) : (s.endCommand).entryCnt = s.entryCnt := rfl
@[simp] theorem State.endCommand_totalBits (s : State) : (s.endCommand).totalBits = s.totalBits := rfl
@[simp] theorem State.endCommand_inMem (s : State) : (s.endCommand).inMem = s.inMem := rfl
@[simp] theorem State.endCommand_dict (s : State) : (s.endCommand).dict = s.dict := rfl
@[simp] theorem State.endCommand_cseq (s : State) : (s.endCommand).cseq = s.cseq := rfl
@[simp] theorem State.endCommand_freq (s : State) : (s.endCommand).freq = s.freq := rfl
@[simp] theorem State.endCommand_tree (s : State) : (s.endCommand).tree = s.tree := rfl
@[simp] theorem State.endCommand_ctab (s : State) : (s.endCommand).ctab = s.ctab := rfl
@[simp] theorem State.endCommand_bits (s : State) : (s.endCommand).bits = s.bits := rfl
@[simp] theorem State.endCommand_outMem (s : State) : (s.endCommand).outMem = s.outMem := rfl
@[simp] theorem State.endCommand_sub (s : State) : (s.endCommand).sub = s.sub := rfl
@[simp] theorem State.endCommand_inOp (s : State) : (s.endCommand).inOp = false := rfl
@[simp] theorem State.endCommand_argP (s : State) : (s.endCommand).argP = s.argP := rfl
@[simp] theorem State.endCommand_argB (s : State) : (s.endCommand).argB = s.argB := rfl
@[simp] theorem State.endCommand_argC (s : State) : (s.endCommand).argC = s.argC := rfl
@[simp] theorem State.endCommand_resCode (s : State) : (s.endCommand).resCode = s.resCode := rfl
@[simp] theorem State.endCommand_resStr (s : State) : (s.endCommand).resStr = s.resStr := rfl
@[simp] theorem State.endCommand_freeCtr (s : State) : (s.endCommand).freeCtr = s.freeCtr := rfl
@[simp] theorem State.endCommand_caps (s : State) : (s.endCommand).caps = s.caps := rfl
@[simp] theorem State.endCommand_host (s : State) : (s.endCommand).host = s.host := rfl
@[simp] theorem State.endCommand_input (s : State) : (s.endCommand).input = s.input := rfl
@[simp] theorem State.endCommand_nextInput (s : State) : (s.endCommand).nextInput = s.nextInput := rfl
@[simp] theorem State.endCommand_nextSink (s : State) : (s.endCommand).nextSink = s.nextSink := rfl
@[simp] theorem State.endCommand_sink (s : State) : (s.endCommand).sink = s.sink := rfl
@[simp] theorem State.endCommand_offers (s : State) : (s.endCommand).offers = s.offers := rfl
@[simp] theorem State.endCommand_sinkGot (s : State) : (s.endCommand).sinkGot = s.sinkGot := rfl
@[simp] theorem State.endCommand_sinkEnd (s : State) : (s.endCommand).sinkEnd = s.sinkEnd := rfl
@[simp] theorem State.endCommand_rdata (s : State) : (s.endCommand).rdata = s.rdata := rfl

/-! ### An illegal command word (60 R322). -/

@[simp] theorem State.illegalCommand_status (s : State) : (s.illegalCommand).status = s.status.noCommand.raised .illegalCommand := rfl
@[simp] theorem State.illegalCommand_cur (s : State) : (s.illegalCommand).cur = s.cur := rfl
@[simp] theorem State.illegalCommand_prev (s : State) : (s.illegalCommand).prev = s.prev := rfl
@[simp] theorem State.illegalCommand_dsize (s : State) : (s.illegalCommand).dsize = s.dsize := rfl
@[simp] theorem State.illegalCommand_ipos (s : State) : (s.illegalCommand).ipos = s.ipos := rfl
@[simp] theorem State.illegalCommand_cpos (s : State) : (s.illegalCommand).cpos = s.cpos := rfl
@[simp] theorem State.illegalCommand_bpos (s : State) : (s.illegalCommand).bpos = s.bpos := rfl
@[simp] theorem State.illegalCommand_nnodes (s : State) : (s.illegalCommand).nnodes = s.nnodes := rfl
@[simp] theorem State.illegalCommand_root (s : State) : (s.illegalCommand).root = s.root := rfl
@[simp] theorem State.illegalCommand_node (s : State) : (s.illegalCommand).node = s.node := rfl
@[simp] theorem State.illegalCommand_inLen (s : State) : (s.illegalCommand).inLen = s.inLen := rfl
@[simp] theorem State.illegalCommand_clen (s : State) : (s.illegalCommand).clen = s.clen := rfl
@[simp] theorem State.illegalCommand_outLen (s : State) : (s.illegalCommand).outLen = s.outLen := rfl
@[simp] theorem State.illegalCommand_maxCode (s : State) : (s.illegalCommand).maxCode = s.maxCode := rfl
@[simp] theorem State.illegalCommand_entryCnt (s : State) : (s.illegalCommand).entryCnt = s.entryCnt := rfl
@[simp] theorem State.illegalCommand_totalBits (s : State) : (s.illegalCommand).totalBits = s.totalBits := rfl
@[simp] theorem State.illegalCommand_inMem (s : State) : (s.illegalCommand).inMem = s.inMem := rfl
@[simp] theorem State.illegalCommand_dict (s : State) : (s.illegalCommand).dict = s.dict := rfl
@[simp] theorem State.illegalCommand_cseq (s : State) : (s.illegalCommand).cseq = s.cseq := rfl
@[simp] theorem State.illegalCommand_freq (s : State) : (s.illegalCommand).freq = s.freq := rfl
@[simp] theorem State.illegalCommand_tree (s : State) : (s.illegalCommand).tree = s.tree := rfl
@[simp] theorem State.illegalCommand_ctab (s : State) : (s.illegalCommand).ctab = s.ctab := rfl
@[simp] theorem State.illegalCommand_bits (s : State) : (s.illegalCommand).bits = s.bits := rfl
@[simp] theorem State.illegalCommand_outMem (s : State) : (s.illegalCommand).outMem = s.outMem := rfl
@[simp] theorem State.illegalCommand_sub (s : State) : (s.illegalCommand).sub = s.sub := rfl
@[simp] theorem State.illegalCommand_inOp (s : State) : (s.illegalCommand).inOp = false := rfl
@[simp] theorem State.illegalCommand_argP (s : State) : (s.illegalCommand).argP = s.argP := rfl
@[simp] theorem State.illegalCommand_argB (s : State) : (s.illegalCommand).argB = s.argB := rfl
@[simp] theorem State.illegalCommand_argC (s : State) : (s.illegalCommand).argC = s.argC := rfl
@[simp] theorem State.illegalCommand_resCode (s : State) : (s.illegalCommand).resCode = s.resCode := rfl
@[simp] theorem State.illegalCommand_resStr (s : State) : (s.illegalCommand).resStr = s.resStr := rfl
@[simp] theorem State.illegalCommand_freeCtr (s : State) : (s.illegalCommand).freeCtr = s.freeCtr := rfl
@[simp] theorem State.illegalCommand_caps (s : State) : (s.illegalCommand).caps = s.caps := rfl
@[simp] theorem State.illegalCommand_host (s : State) : (s.illegalCommand).host = s.host := rfl
@[simp] theorem State.illegalCommand_input (s : State) : (s.illegalCommand).input = s.input := rfl
@[simp] theorem State.illegalCommand_nextInput (s : State) : (s.illegalCommand).nextInput = s.nextInput := rfl
@[simp] theorem State.illegalCommand_nextSink (s : State) : (s.illegalCommand).nextSink = s.nextSink := rfl
@[simp] theorem State.illegalCommand_sink (s : State) : (s.illegalCommand).sink = s.sink := rfl
@[simp] theorem State.illegalCommand_offers (s : State) : (s.illegalCommand).offers = s.offers := rfl
@[simp] theorem State.illegalCommand_sinkGot (s : State) : (s.illegalCommand).sinkGot = s.sinkGot := rfl
@[simp] theorem State.illegalCommand_sinkEnd (s : State) : (s.illegalCommand).sinkEnd = s.sinkEnd := rfl
@[simp] theorem State.illegalCommand_rdata (s : State) : (s.illegalCommand).rdata = s.rdata := rfl

/-! ### Acceptance of a command (48 R280, 10 R56). -/

@[simp] theorem State.accept_status (op : BitVec 2) (s : State) : (s.accept op).status = Status.accepted op := rfl
@[simp] theorem State.accept_cur (op : BitVec 2) (s : State) : (s.accept op).cur = none := rfl
@[simp] theorem State.accept_prev (op : BitVec 2) (s : State) : (s.accept op).prev = 0 := rfl
@[simp] theorem State.accept_dsize (op : BitVec 2) (s : State) : (s.accept op).dsize = 0 := rfl
@[simp] theorem State.accept_ipos (op : BitVec 2) (s : State) : (s.accept op).ipos = 0 := rfl
@[simp] theorem State.accept_cpos (op : BitVec 2) (s : State) : (s.accept op).cpos = 0 := rfl
@[simp] theorem State.accept_bpos (op : BitVec 2) (s : State) : (s.accept op).bpos = 0 := rfl
@[simp] theorem State.accept_nnodes (op : BitVec 2) (s : State) : (s.accept op).nnodes = 0 := rfl
@[simp] theorem State.accept_root (op : BitVec 2) (s : State) : (s.accept op).root = 0 := rfl
@[simp] theorem State.accept_node (op : BitVec 2) (s : State) : (s.accept op).node = 0 := rfl
@[simp] theorem State.accept_inLen (op : BitVec 2) (s : State) : (s.accept op).inLen = 0 := rfl
@[simp] theorem State.accept_clen (op : BitVec 2) (s : State) : (s.accept op).clen = 0 := rfl
@[simp] theorem State.accept_outLen (op : BitVec 2) (s : State) : (s.accept op).outLen = 0 := rfl
@[simp] theorem State.accept_maxCode (op : BitVec 2) (s : State) : (s.accept op).maxCode = -1 := rfl
@[simp] theorem State.accept_entryCnt (op : BitVec 2) (s : State) : (s.accept op).entryCnt = 0 := rfl
@[simp] theorem State.accept_totalBits (op : BitVec 2) (s : State) : (s.accept op).totalBits = 0 := rfl
@[simp] theorem State.accept_inMem (op : BitVec 2) (s : State) : (s.accept op).inMem = s.inMem := rfl
@[simp] theorem State.accept_dict (op : BitVec 2) (s : State) : (s.accept op).dict = s.dict := rfl
@[simp] theorem State.accept_cseq (op : BitVec 2) (s : State) : (s.accept op).cseq = s.cseq := rfl
@[simp] theorem State.accept_freq (op : BitVec 2) (s : State) : (s.accept op).freq = [] := rfl
@[simp] theorem State.accept_tree (op : BitVec 2) (s : State) : (s.accept op).tree = s.tree := rfl
@[simp] theorem State.accept_ctab (op : BitVec 2) (s : State) : (s.accept op).ctab = [] := rfl
@[simp] theorem State.accept_bits (op : BitVec 2) (s : State) : (s.accept op).bits = s.bits := rfl
@[simp] theorem State.accept_outMem (op : BitVec 2) (s : State) : (s.accept op).outMem = s.outMem := rfl
@[simp] theorem State.accept_sub (op : BitVec 2) (s : State) : (s.accept op).sub = 0 := rfl
@[simp] theorem State.accept_inOp (op : BitVec 2) (s : State) : (s.accept op).inOp = false := rfl
@[simp] theorem State.accept_argP (op : BitVec 2) (s : State) : (s.accept op).argP = s.argP := rfl
@[simp] theorem State.accept_argB (op : BitVec 2) (s : State) : (s.accept op).argB = s.argB := rfl
@[simp] theorem State.accept_argC (op : BitVec 2) (s : State) : (s.accept op).argC = s.argC := rfl
@[simp] theorem State.accept_resCode (op : BitVec 2) (s : State) : (s.accept op).resCode = s.resCode := rfl
@[simp] theorem State.accept_resStr (op : BitVec 2) (s : State) : (s.accept op).resStr = s.resStr := rfl
@[simp] theorem State.accept_freeCtr (op : BitVec 2) (s : State) : (s.accept op).freeCtr = s.freeCtr := rfl
@[simp] theorem State.accept_caps (op : BitVec 2) (s : State) : (s.accept op).caps = s.caps := rfl
@[simp] theorem State.accept_host (op : BitVec 2) (s : State) : (s.accept op).host = s.host := rfl
@[simp] theorem State.accept_input (op : BitVec 2) (s : State) : (s.accept op).input = s.nextInput := rfl
@[simp] theorem State.accept_nextInput (op : BitVec 2) (s : State) : (s.accept op).nextInput = [] := rfl
@[simp] theorem State.accept_nextSink (op : BitVec 2) (s : State) : (s.accept op).nextSink = .neverFails := rfl
@[simp] theorem State.accept_sink (op : BitVec 2) (s : State) : (s.accept op).sink = s.nextSink := rfl
@[simp] theorem State.accept_offers (op : BitVec 2) (s : State) : (s.accept op).offers = 0 := rfl
@[simp] theorem State.accept_sinkGot (op : BitVec 2) (s : State) : (s.accept op).sinkGot = [] := rfl
@[simp] theorem State.accept_sinkEnd (op : BitVec 2) (s : State) : (s.accept op).sinkEnd = false := rfl
@[simp] theorem State.accept_rdata (op : BitVec 2) (s : State) : (s.accept op).rdata = s.rdata := rfl

/-! ### The reset event (70 R350). -/

@[simp] theorem State.resetBlock_status (s : State) : (s.resetBlock).status = Status.zero := rfl
@[simp] theorem State.resetBlock_cur (s : State) : (s.resetBlock).cur = none := rfl
@[simp] theorem State.resetBlock_prev (s : State) : (s.resetBlock).prev = 0 := rfl
@[simp] theorem State.resetBlock_dsize (s : State) : (s.resetBlock).dsize = 0 := rfl
@[simp] theorem State.resetBlock_ipos (s : State) : (s.resetBlock).ipos = 0 := rfl
@[simp] theorem State.resetBlock_cpos (s : State) : (s.resetBlock).cpos = 0 := rfl
@[simp] theorem State.resetBlock_bpos (s : State) : (s.resetBlock).bpos = 0 := rfl
@[simp] theorem State.resetBlock_nnodes (s : State) : (s.resetBlock).nnodes = 0 := rfl
@[simp] theorem State.resetBlock_root (s : State) : (s.resetBlock).root = 0 := rfl
@[simp] theorem State.resetBlock_node (s : State) : (s.resetBlock).node = 0 := rfl
@[simp] theorem State.resetBlock_inLen (s : State) : (s.resetBlock).inLen = 0 := rfl
@[simp] theorem State.resetBlock_clen (s : State) : (s.resetBlock).clen = 0 := rfl
@[simp] theorem State.resetBlock_outLen (s : State) : (s.resetBlock).outLen = 0 := rfl
@[simp] theorem State.resetBlock_maxCode (s : State) : (s.resetBlock).maxCode = -1 := rfl
@[simp] theorem State.resetBlock_entryCnt (s : State) : (s.resetBlock).entryCnt = 0 := rfl
@[simp] theorem State.resetBlock_totalBits (s : State) : (s.resetBlock).totalBits = 0 := rfl
@[simp] theorem State.resetBlock_inMem (s : State) : (s.resetBlock).inMem = [] := rfl
@[simp] theorem State.resetBlock_dict (s : State) : (s.resetBlock).dict = [] := rfl
@[simp] theorem State.resetBlock_cseq (s : State) : (s.resetBlock).cseq = [] := rfl
@[simp] theorem State.resetBlock_freq (s : State) : (s.resetBlock).freq = [] := rfl
@[simp] theorem State.resetBlock_tree (s : State) : (s.resetBlock).tree = [] := rfl
@[simp] theorem State.resetBlock_ctab (s : State) : (s.resetBlock).ctab = [] := rfl
@[simp] theorem State.resetBlock_bits (s : State) : (s.resetBlock).bits = [] := rfl
@[simp] theorem State.resetBlock_outMem (s : State) : (s.resetBlock).outMem = [] := rfl
@[simp] theorem State.resetBlock_sub (s : State) : (s.resetBlock).sub = 0 := rfl
@[simp] theorem State.resetBlock_inOp (s : State) : (s.resetBlock).inOp = false := rfl
@[simp] theorem State.resetBlock_argP (s : State) : (s.resetBlock).argP = none := rfl
@[simp] theorem State.resetBlock_argB (s : State) : (s.resetBlock).argB = 0 := rfl
@[simp] theorem State.resetBlock_argC (s : State) : (s.resetBlock).argC = 0 := rfl
@[simp] theorem State.resetBlock_resCode (s : State) : (s.resetBlock).resCode = none := rfl
@[simp] theorem State.resetBlock_resStr (s : State) : (s.resetBlock).resStr = none := rfl
@[simp] theorem State.resetBlock_freeCtr (s : State) : (s.resetBlock).freeCtr = s.freeCtr := rfl
@[simp] theorem State.resetBlock_caps (s : State) : (s.resetBlock).caps = s.caps := rfl
@[simp] theorem State.resetBlock_host (s : State) : (s.resetBlock).host = s.host := rfl
@[simp] theorem State.resetBlock_input (s : State) : (s.resetBlock).input = [] := rfl
@[simp] theorem State.resetBlock_nextInput (s : State) : (s.resetBlock).nextInput = s.nextInput := rfl
@[simp] theorem State.resetBlock_nextSink (s : State) : (s.resetBlock).nextSink = s.nextSink := rfl
@[simp] theorem State.resetBlock_sink (s : State) : (s.resetBlock).sink = s.sink := rfl
@[simp] theorem State.resetBlock_offers (s : State) : (s.resetBlock).offers = s.offers := rfl
@[simp] theorem State.resetBlock_sinkGot (s : State) : (s.resetBlock).sinkGot = s.sinkGot := rfl
@[simp] theorem State.resetBlock_sinkEnd (s : State) : (s.resetBlock).sinkEnd = s.sinkEnd := rfl
@[simp] theorem State.resetBlock_rdata (s : State) : (s.resetBlock).rdata = s.rdata := rfl

/-! ### `Put` of FWR.RUN (47 R251). -/

@[simp] theorem put_status (t : List Byte) (s : State) : (put t s).status = s.status := rfl
@[simp] theorem put_cur (t : List Byte) (s : State) : (put t s).cur = s.cur := rfl
@[simp] theorem put_prev (t : List Byte) (s : State) : (put t s).prev = s.prev := rfl
@[simp] theorem put_dsize (t : List Byte) (s : State) : (put t s).dsize = s.dsize := rfl
@[simp] theorem put_ipos (t : List Byte) (s : State) : (put t s).ipos = s.ipos := rfl
@[simp] theorem put_cpos (t : List Byte) (s : State) : (put t s).cpos = s.cpos := rfl
@[simp] theorem put_bpos (t : List Byte) (s : State) : (put t s).bpos = s.bpos := rfl
@[simp] theorem put_nnodes (t : List Byte) (s : State) : (put t s).nnodes = s.nnodes := rfl
@[simp] theorem put_root (t : List Byte) (s : State) : (put t s).root = s.root := rfl
@[simp] theorem put_node (t : List Byte) (s : State) : (put t s).node = s.node := rfl
@[simp] theorem put_inLen (t : List Byte) (s : State) : (put t s).inLen = s.inLen := rfl
@[simp] theorem put_clen (t : List Byte) (s : State) : (put t s).clen = s.clen := rfl
@[simp] theorem put_outLen (t : List Byte) (s : State) : (put t s).outLen = s.outLen + t.length := rfl
@[simp] theorem put_maxCode (t : List Byte) (s : State) : (put t s).maxCode = s.maxCode := rfl
@[simp] theorem put_entryCnt (t : List Byte) (s : State) : (put t s).entryCnt = s.entryCnt := rfl
@[simp] theorem put_totalBits (t : List Byte) (s : State) : (put t s).totalBits = s.totalBits := rfl
@[simp] theorem put_inMem (t : List Byte) (s : State) : (put t s).inMem = s.inMem := rfl
@[simp] theorem put_dict (t : List Byte) (s : State) : (put t s).dict = s.dict := rfl
@[simp] theorem put_cseq (t : List Byte) (s : State) : (put t s).cseq = s.cseq := rfl
@[simp] theorem put_freq (t : List Byte) (s : State) : (put t s).freq = s.freq := rfl
@[simp] theorem put_tree (t : List Byte) (s : State) : (put t s).tree = s.tree := rfl
@[simp] theorem put_ctab (t : List Byte) (s : State) : (put t s).ctab = s.ctab := rfl
@[simp] theorem put_bits (t : List Byte) (s : State) : (put t s).bits = s.bits := rfl
@[simp] theorem put_outMem (t : List Byte) (s : State) : (put t s).outMem = Memory.write s.outMem s.outLen t := rfl
@[simp] theorem put_sub (t : List Byte) (s : State) : (put t s).sub = s.sub := rfl
@[simp] theorem put_inOp (t : List Byte) (s : State) : (put t s).inOp = s.inOp := rfl
@[simp] theorem put_argP (t : List Byte) (s : State) : (put t s).argP = s.argP := rfl
@[simp] theorem put_argB (t : List Byte) (s : State) : (put t s).argB = s.argB := rfl
@[simp] theorem put_argC (t : List Byte) (s : State) : (put t s).argC = s.argC := rfl
@[simp] theorem put_resCode (t : List Byte) (s : State) : (put t s).resCode = s.resCode := rfl
@[simp] theorem put_resStr (t : List Byte) (s : State) : (put t s).resStr = s.resStr := rfl
@[simp] theorem put_freeCtr (t : List Byte) (s : State) : (put t s).freeCtr = s.freeCtr := rfl
@[simp] theorem put_caps (t : List Byte) (s : State) : (put t s).caps = s.caps := rfl
@[simp] theorem put_host (t : List Byte) (s : State) : (put t s).host = s.host := rfl
@[simp] theorem put_input (t : List Byte) (s : State) : (put t s).input = s.input := rfl
@[simp] theorem put_nextInput (t : List Byte) (s : State) : (put t s).nextInput = s.nextInput := rfl
@[simp] theorem put_nextSink (t : List Byte) (s : State) : (put t s).nextSink = s.nextSink := rfl
@[simp] theorem put_sink (t : List Byte) (s : State) : (put t s).sink = s.sink := rfl
@[simp] theorem put_offers (t : List Byte) (s : State) : (put t s).offers = s.offers := rfl
@[simp] theorem put_sinkGot (t : List Byte) (s : State) : (put t s).sinkGot = s.sinkGot := rfl
@[simp] theorem put_sinkEnd (t : List Byte) (s : State) : (put t s).sinkEnd = s.sinkEnd := rfl
@[simp] theorem put_rdata (t : List Byte) (s : State) : (put t s).rdata = s.rdata := rfl

/-! ### DICT.SEED (40 R131). -/

@[simp] theorem dictSeed_status (s : State) : (dictSeed s).status = s.status := rfl
@[simp] theorem dictSeed_cur (s : State) : (dictSeed s).cur = s.cur := rfl
@[simp] theorem dictSeed_prev (s : State) : (dictSeed s).prev = s.prev := rfl
@[simp] theorem dictSeed_dsize (s : State) : (dictSeed s).dsize = 256 := rfl
@[simp] theorem dictSeed_ipos (s : State) : (dictSeed s).ipos = s.ipos := rfl
@[simp] theorem dictSeed_cpos (s : State) : (dictSeed s).cpos = s.cpos := rfl
@[simp] theorem dictSeed_bpos (s : State) : (dictSeed s).bpos = s.bpos := rfl
@[simp] theorem dictSeed_nnodes (s : State) : (dictSeed s).nnodes = s.nnodes := rfl
@[simp] theorem dictSeed_root (s : State) : (dictSeed s).root = s.root := rfl
@[simp] theorem dictSeed_node (s : State) : (dictSeed s).node = s.node := rfl
@[simp] theorem dictSeed_inLen (s : State) : (dictSeed s).inLen = s.inLen := rfl
@[simp] theorem dictSeed_clen (s : State) : (dictSeed s).clen = s.clen := rfl
@[simp] theorem dictSeed_outLen (s : State) : (dictSeed s).outLen = s.outLen := rfl
@[simp] theorem dictSeed_maxCode (s : State) : (dictSeed s).maxCode = s.maxCode := rfl
@[simp] theorem dictSeed_entryCnt (s : State) : (dictSeed s).entryCnt = s.entryCnt := rfl
@[simp] theorem dictSeed_totalBits (s : State) : (dictSeed s).totalBits = s.totalBits := rfl
@[simp] theorem dictSeed_inMem (s : State) : (dictSeed s).inMem = s.inMem := rfl
@[simp] theorem dictSeed_dict (s : State) : (dictSeed s).dict = Memory.write s.dict 0 seedEntries := rfl
@[simp] theorem dictSeed_cseq (s : State) : (dictSeed s).cseq = s.cseq := rfl
@[simp] theorem dictSeed_freq (s : State) : (dictSeed s).freq = s.freq := rfl
@[simp] theorem dictSeed_tree (s : State) : (dictSeed s).tree = s.tree := rfl
@[simp] theorem dictSeed_ctab (s : State) : (dictSeed s).ctab = s.ctab := rfl
@[simp] theorem dictSeed_bits (s : State) : (dictSeed s).bits = s.bits := rfl
@[simp] theorem dictSeed_outMem (s : State) : (dictSeed s).outMem = s.outMem := rfl
@[simp] theorem dictSeed_sub (s : State) : (dictSeed s).sub = s.sub := rfl
@[simp] theorem dictSeed_inOp (s : State) : (dictSeed s).inOp = s.inOp := rfl
@[simp] theorem dictSeed_argP (s : State) : (dictSeed s).argP = s.argP := rfl
@[simp] theorem dictSeed_argB (s : State) : (dictSeed s).argB = s.argB := rfl
@[simp] theorem dictSeed_argC (s : State) : (dictSeed s).argC = s.argC := rfl
@[simp] theorem dictSeed_resCode (s : State) : (dictSeed s).resCode = s.resCode := rfl
@[simp] theorem dictSeed_resStr (s : State) : (dictSeed s).resStr = s.resStr := rfl
@[simp] theorem dictSeed_freeCtr (s : State) : (dictSeed s).freeCtr = s.freeCtr := rfl
@[simp] theorem dictSeed_caps (s : State) : (dictSeed s).caps = s.caps := rfl
@[simp] theorem dictSeed_host (s : State) : (dictSeed s).host = s.host := rfl
@[simp] theorem dictSeed_input (s : State) : (dictSeed s).input = s.input := rfl
@[simp] theorem dictSeed_nextInput (s : State) : (dictSeed s).nextInput = s.nextInput := rfl
@[simp] theorem dictSeed_nextSink (s : State) : (dictSeed s).nextSink = s.nextSink := rfl
@[simp] theorem dictSeed_sink (s : State) : (dictSeed s).sink = s.sink := rfl
@[simp] theorem dictSeed_offers (s : State) : (dictSeed s).offers = s.offers := rfl
@[simp] theorem dictSeed_sinkGot (s : State) : (dictSeed s).sinkGot = s.sinkGot := rfl
@[simp] theorem dictSeed_sinkEnd (s : State) : (dictSeed s).sinkEnd = s.sinkEnd := rfl
@[simp] theorem dictSeed_rdata (s : State) : (dictSeed s).rdata = s.rdata := rfl

/-! ### `STAGE <- n` (48 R284). -/

@[simp] theorem State.atStage_status (s : State) (n : BitVec 4) : (s.atStage n).status = s.status.atStage n := rfl
@[simp] theorem State.atStage_cur (s : State) (n : BitVec 4) : (s.atStage n).cur = s.cur := rfl
@[simp] theorem State.atStage_prev (s : State) (n : BitVec 4) : (s.atStage n).prev = s.prev := rfl
@[simp] theorem State.atStage_dsize (s : State) (n : BitVec 4) : (s.atStage n).dsize = s.dsize := rfl
@[simp] theorem State.atStage_ipos (s : State) (n : BitVec 4) : (s.atStage n).ipos = s.ipos := rfl
@[simp] theorem State.atStage_cpos (s : State) (n : BitVec 4) : (s.atStage n).cpos = s.cpos := rfl
@[simp] theorem State.atStage_bpos (s : State) (n : BitVec 4) : (s.atStage n).bpos = s.bpos := rfl
@[simp] theorem State.atStage_nnodes (s : State) (n : BitVec 4) : (s.atStage n).nnodes = s.nnodes := rfl
@[simp] theorem State.atStage_root (s : State) (n : BitVec 4) : (s.atStage n).root = s.root := rfl
@[simp] theorem State.atStage_node (s : State) (n : BitVec 4) : (s.atStage n).node = s.node := rfl
@[simp] theorem State.atStage_inLen (s : State) (n : BitVec 4) : (s.atStage n).inLen = s.inLen := rfl
@[simp] theorem State.atStage_clen (s : State) (n : BitVec 4) : (s.atStage n).clen = s.clen := rfl
@[simp] theorem State.atStage_outLen (s : State) (n : BitVec 4) : (s.atStage n).outLen = s.outLen := rfl
@[simp] theorem State.atStage_maxCode (s : State) (n : BitVec 4) : (s.atStage n).maxCode = s.maxCode := rfl
@[simp] theorem State.atStage_entryCnt (s : State) (n : BitVec 4) : (s.atStage n).entryCnt = s.entryCnt := rfl
@[simp] theorem State.atStage_totalBits (s : State) (n : BitVec 4) : (s.atStage n).totalBits = s.totalBits := rfl
@[simp] theorem State.atStage_inMem (s : State) (n : BitVec 4) : (s.atStage n).inMem = s.inMem := rfl
@[simp] theorem State.atStage_dict (s : State) (n : BitVec 4) : (s.atStage n).dict = s.dict := rfl
@[simp] theorem State.atStage_cseq (s : State) (n : BitVec 4) : (s.atStage n).cseq = s.cseq := rfl
@[simp] theorem State.atStage_freq (s : State) (n : BitVec 4) : (s.atStage n).freq = s.freq := rfl
@[simp] theorem State.atStage_tree (s : State) (n : BitVec 4) : (s.atStage n).tree = s.tree := rfl
@[simp] theorem State.atStage_ctab (s : State) (n : BitVec 4) : (s.atStage n).ctab = s.ctab := rfl
@[simp] theorem State.atStage_bits (s : State) (n : BitVec 4) : (s.atStage n).bits = s.bits := rfl
@[simp] theorem State.atStage_outMem (s : State) (n : BitVec 4) : (s.atStage n).outMem = s.outMem := rfl
@[simp] theorem State.atStage_sub (s : State) (n : BitVec 4) : (s.atStage n).sub = 0 := rfl
@[simp] theorem State.atStage_inOp (s : State) (n : BitVec 4) : (s.atStage n).inOp = s.inOp := rfl
@[simp] theorem State.atStage_argP (s : State) (n : BitVec 4) : (s.atStage n).argP = s.argP := rfl
@[simp] theorem State.atStage_argB (s : State) (n : BitVec 4) : (s.atStage n).argB = s.argB := rfl
@[simp] theorem State.atStage_argC (s : State) (n : BitVec 4) : (s.atStage n).argC = s.argC := rfl
@[simp] theorem State.atStage_resCode (s : State) (n : BitVec 4) : (s.atStage n).resCode = s.resCode := rfl
@[simp] theorem State.atStage_resStr (s : State) (n : BitVec 4) : (s.atStage n).resStr = s.resStr := rfl
@[simp] theorem State.atStage_freeCtr (s : State) (n : BitVec 4) : (s.atStage n).freeCtr = s.freeCtr := rfl
@[simp] theorem State.atStage_caps (s : State) (n : BitVec 4) : (s.atStage n).caps = s.caps := rfl
@[simp] theorem State.atStage_host (s : State) (n : BitVec 4) : (s.atStage n).host = s.host := rfl
@[simp] theorem State.atStage_input (s : State) (n : BitVec 4) : (s.atStage n).input = s.input := rfl
@[simp] theorem State.atStage_nextInput (s : State) (n : BitVec 4) : (s.atStage n).nextInput = s.nextInput := rfl
@[simp] theorem State.atStage_nextSink (s : State) (n : BitVec 4) : (s.atStage n).nextSink = s.nextSink := rfl
@[simp] theorem State.atStage_sink (s : State) (n : BitVec 4) : (s.atStage n).sink = s.sink := rfl
@[simp] theorem State.atStage_offers (s : State) (n : BitVec 4) : (s.atStage n).offers = s.offers := rfl
@[simp] theorem State.atStage_sinkGot (s : State) (n : BitVec 4) : (s.atStage n).sinkGot = s.sinkGot := rfl
@[simp] theorem State.atStage_sinkEnd (s : State) (n : BitVec 4) : (s.atStage n).sinkEnd = s.sinkEnd := rfl
@[simp] theorem State.atStage_rdata (s : State) (n : BitVec 4) : (s.atStage n).rdata = s.rdata := rfl

/-! ### STATUS -/

@[simp] theorem Status.raised_busy (t : Status) (e : Err) : (t.raised e).busy = false := rfl
@[simp] theorem Status.raised_done (t : Status) (e : Err) : (t.raised e).done = true := rfl
@[simp] theorem Status.raised_err (t : Status) (e : Err) : (t.raised e).err = true := rfl
@[simp] theorem Status.raised_errcode (t : Status) (e : Err) : (t.raised e).errcode = e.code := rfl
@[simp] theorem Status.raised_stage (t : Status) (e : Err) : (t.raised e).stage = t.stage := rfl
@[simp] theorem Status.raised_op (t : Status) (e : Err) : (t.raised e).op = t.op := rfl
@[simp] theorem Status.ended_busy (t : Status) : t.ended.busy = false := rfl
@[simp] theorem Status.ended_done (t : Status) : t.ended.done = true := rfl
@[simp] theorem Status.ended_err (t : Status) : t.ended.err = t.err := rfl
@[simp] theorem Status.ended_errcode (t : Status) : t.ended.errcode = t.errcode := rfl
@[simp] theorem Status.ended_stage (t : Status) : t.ended.stage = 0 := rfl
@[simp] theorem Status.ended_op (t : Status) : t.ended.op = t.op := rfl
@[simp] theorem Status.atStage_busy (t : Status) (n : BitVec 4) : (t.atStage n).busy = t.busy := rfl
@[simp] theorem Status.atStage_done (t : Status) (n : BitVec 4) : (t.atStage n).done = t.done := rfl
@[simp] theorem Status.atStage_err (t : Status) (n : BitVec 4) : (t.atStage n).err = t.err := rfl
@[simp] theorem Status.atStage_errcode (t : Status) (n : BitVec 4) :
    (t.atStage n).errcode = t.errcode := rfl
@[simp] theorem Status.atStage_stage (t : Status) (n : BitVec 4) : (t.atStage n).stage = n := rfl
@[simp] theorem Status.atStage_op (t : Status) (n : BitVec 4) : (t.atStage n).op = t.op := rfl

end Sys2Proof.Machine
end

