-- ==== Sys2Proof/Laws/Ops.lean ====
section
/-! SUPPORT. For each shared operation, once, everything it can do. -/

namespace Sys2Proof.Machine

/-! ### Results -/

section
variable {α β : Type}

@[simp] theorem Res.bind_ok (a : α) (s : State) (f : α → State → Res β) :
    (Res.ok a s).bind f = f a s := rfl
@[simp] theorem Res.bind_raised (e : Err) (s : State) (f : α → State → Res β) :
    (Res.raised e s).bind f = .raised e s := rfl
@[simp] theorem Res.bind_fault (x : Fault) (f : α → State → Res β) :
    (Res.fault x : Res α).bind f = .fault x := rfl
@[simp] theorem Res.bind_refused (x : Refusal) (f : α → State → Res β) :
    (Res.refused x : Res α).bind f = .refused x := rfl
@[simp] theorem Res.outcome_ok (a : α) (s : State) : (Res.ok a s).outcome = .next s := rfl
@[simp] theorem Res.outcome_raised (e : Err) (s : State) :
    (Res.raised e s : Res α).outcome = .next (s.raise e) := rfl
@[simp] theorem Res.outcome_fault (x : Fault) : (Res.fault x : Res α).outcome = .fault x := rfl
@[simp] theorem Res.outcome_refused (x : Refusal) : (Res.refused x : Res α).outcome = .refused x := rfl

/-- Sequential composition ends exactly when both parts end. -/
theorem Res.bind_eq_ok {r : Res α} {f : α → State → Res β} {b : β} {t : State} :
    r.bind f = .ok b t ↔ ∃ a s, r = .ok a s ∧ f a s = .ok b t := by
  cases r <;> simp

/-- Sequential composition raises when a part does, the later one only after the first has ended. -/
theorem Res.bind_eq_raised {r : Res α} {f : α → State → Res β} {e : Err} {t : State} :
    r.bind f = .raised e t ↔ r = .raised e t ∨ ∃ a s, r = .ok a s ∧ f a s = .raised e t := by
  cases r <;> simp

/-- A part without behaviour leaves the whole without one. -/
theorem Res.bind_eq_fault {r : Res α} {f : α → State → Res β} {x : Fault} :
    r.bind f = .fault x ↔ r = .fault x ∨ ∃ a s, r = .ok a s ∧ f a s = .fault x := by
  cases r <;> simp

theorem Res.bind_eq_refused {r : Res α} {f : α → State → Res β} {x : Refusal} :
    r.bind f = .refused x ↔ r = .refused x ∨ ∃ a s, r = .ok a s ∧ f a s = .refused x := by
  cases r <;> simp

/-- Composition is associative. -/
theorem Res.bind_assoc {γ : Type} (r : Res α) (f : α → State → Res β) (g : β → State → Res γ) :
    (r.bind f).bind g = r.bind fun a s => (f a s).bind g := by
  cases r <;> rfl

/-- An operation answers a next state when it ends or raises, and then that one. -/
theorem Res.outcome_eq_next {r : Res α} {t : State} :
    r.outcome = .next t ↔ (∃ a, r = .ok a t) ∨ ∃ e s, r = .raised e s ∧ t = s.raise e := by
  cases r <;> simp [eq_comm]

end

/-! ### Appends -/

/-- `Emit` (41 R150): one more code, or CapacityExceeded with nothing changed. -/
theorem emit_cases (c : Code) (s : State) :
    (s.caps.cseqCap = some s.clen ∧ emit c s = .raised .capacityExceeded s)
      ∨ (s.caps.cseqCap ≠ some s.clen
          ∧ emit c s = .ok () { s with cseq := Memory.write s.cseq s.clen [c], clen := s.clen + 1 }) := by
  by_cases h : s.caps.cseqCap = some s.clen <;> simp [emit, atCap, h]

/-- `Append` (42 R170): the bytes at the end of OUT, or CapacityExceeded with nothing changed. -/
theorem append_cases (t : List Byte) (s : State) :
    (overCap (s.outLen + t.length) s.caps.outCap = true ∧ append t s = .raised .capacityExceeded s)
      ∨ (overCap (s.outLen + t.length) s.caps.outCap = false
          ∧ append t s = .ok ()
              { s with outMem := Memory.write s.outMem s.outLen t, outLen := s.outLen + t.length }) := by
  by_cases h : overCap (s.outLen + t.length) s.caps.outCap = true <;> simp [append, h]

/-- `PutBit` (45 R221): when it ends, one more bit and BITS changed in that bit's byte at most. -/
theorem putBit_ok {v : Bool} {s t : State} (h : putBit v s = .ok () t) :
    t = { s with bits := t.bits, totalBits := s.totalBits + 1 }
      ∧ ∀ i, i ≠ s.totalBits / 8 → Memory.read t.bits i = Memory.read s.bits i := by
  unfold putBit at h
  simp only at h
  split at h
  · split at h
    · simp at h
    · simp only [Res.ok.injEq, true_and] at h
      subst h
      exact ⟨rfl, fun i hi => by rw [Memory.read_write_one, if_neg hi]⟩
  · split at h
    · simp at h
    · simp only [Res.ok.injEq, true_and] at h
      subst h
      refine ⟨rfl, fun i hi => ?_⟩
      cases v
      · rfl
      · simp [Memory.read_write_one, hi]

/-- `PutBit` raises nothing but CapacityExceeded, with nothing changed. -/
theorem putBit_raised {v : Bool} {s t : State} {e : Err} (h : putBit v s = .raised e t) :
    e = .capacityExceeded ∧ t = s := by
  unfold putBit at h
  simp only at h
  split at h
  · split at h
    · simp only [Res.raised.injEq] at h; exact ⟨h.1.symm, h.2.symm⟩
    · simp at h
  · split at h <;> simp at h

/-! ### The dictionary -/

/-- DICT.INSERT (40 R136): the five things it can do. -/
theorem dictInsert_cases (p : Option Code) (b : Byte) (s : State) :
    ((∀ c, p = some c → s.dsize ≤ c.toNat) ∧ dictInsert p b s = .refused .absentPrefix)
      ∨ ∃ c, p = some c ∧ c.toNat < s.dsize ∧
        ((dictLookup p b s ≠ none ∧ dictInsert p b s = .raised .duplicateEntry s)
          ∨ (dictLookup p b s = none ∧ s.dsize = 65536 ∧ dictInsert p b s = .raised .dictionaryFull s)
          ∨ (dictLookup p b s = none ∧ s.dsize ≠ 65536
              ∧ dictInsert p b s = .ok (BitVec.ofNat 16 s.dsize)
                  { s with
                    dict := Memory.write s.dict s.dsize [{ parent := some c, last := b }]
                    dsize := s.dsize + 1 })) := by
  cases p with
  | none => left; exact ⟨by simp, rfl⟩
  | some c =>
    by_cases hc : s.dsize ≤ c.toNat
    · left; exact ⟨by rintro _ ⟨⟩; exact hc, by simp [dictInsert, hc]⟩
    · right
      refine ⟨c, rfl, by omega, ?_⟩
      by_cases hl : dictLookup (some c) b s = none
      · by_cases hd : s.dsize = 65536
        · right; left
          exact ⟨hl, hd, by simp [dictInsert, hl, hd, Config.dictCap]; omega⟩
        · right; right
          exact ⟨hl, hd, by simp [dictInsert, hc, hl, hd, Config.dictCap]⟩
      · left; exact ⟨hl, by simp [dictInsert, hc, hl]⟩

/-- DICT.LOOKUP of a pair answers NONE exactly when no valid entry has that record (40 R133). -/
theorem dictLookup_eq_none {p : Code} {b : Byte} {s : State} (hw : Memory.wf s.dict) :
    dictLookup (some p) b s = none
      ↔ ∀ k, 256 ≤ k → k < s.dsize → Memory.read s.dict k ≠ some { parent := some p, last := b } := by
  simp only [dictLookup, Option.map_eq_none_iff, List.find?_eq_none, dictHit, Config.seedN]
  constructor
  · intro h k h1 h2 hr
    have := h (k, _) ((Memory.mem_iff_read hw k _).mpr hr)
    simp_all
  · rintro h ⟨k, r⟩ he
    simp only [Bool.and_eq_true, not_and, and_imp]
    intro h1 h2 h3
    exact h k (of_decide_eq_true h1) (of_decide_eq_true h2)
      (by rw [(Memory.mem_iff_read hw k r).mp he, of_decide_eq_true h3])

/-- A code DICT.LOOKUP answers for a pair is a valid entry with that record (40 R133). -/
theorem dictLookup_eq_some {p c : Code} {b : Byte} {s : State} (hw : Memory.wf s.dict)
    (hd : s.dsize ≤ 65536) (h : dictLookup (some p) b s = some c) :
    256 ≤ c.toNat ∧ c.toNat < s.dsize
      ∧ Memory.read s.dict c.toNat = some { parent := some p, last := b } := by
  simp only [dictLookup, Option.map_eq_some_iff] at h
  obtain ⟨⟨k, r⟩, hf, rfl⟩ := h
  have hm := List.mem_of_find?_eq_some hf
  have hp := List.find?_some hf
  simp only [dictHit, Config.seedN, Bool.and_eq_true] at hp
  obtain ⟨⟨h1, h2⟩, h3⟩ := hp
  replace h1 := of_decide_eq_true h1
  replace h2 := of_decide_eq_true h2
  replace h3 := of_decide_eq_true h3
  have hk : (BitVec.ofNat 16 k).toNat = k := by
    simp only [BitVec.toNat_ofNat]; omega
  simp only [hk]
  exact ⟨h1, h2, by rw [(Memory.mem_iff_read hw k r).mp hm, h3]⟩

/-- The string of an entry in terms of its prefix's (10 R36). -/
theorem strAt_mono {m : Memory DictEntry} {n k : Nat} {t : List Byte} (h : strAt m n k = some t) :
    ∀ n', n ≤ n' → strAt m n' k = some t := by
  induction n generalizing k t with
  | zero => simp [strAt] at h
  | succ n ih =>
    intro n' hn'
    obtain ⟨n', rfl⟩ : ∃ j, n' = j + 1 := ⟨n' - 1, by omega⟩
    rw [strAt] at h ⊢
    split at h
    · simp_all
    · rename_i hk
      rw [if_neg hk]
      cases hm : Memory.read m k with
      | none => simp [hm] at h
      | some r =>
        obtain ⟨p, b⟩ := r
        cases p with
        | none => simp [hm] at h
        | some p =>
          simp only [hm] at h ⊢
          split at h
          · rename_i hp
            rw [if_pos hp]
            obtain ⟨u, hu, rfl⟩ := Option.map_eq_some_iff.mp h
            rw [ih hu n' (by omega)]; rfl
          · simp at h

/-- With the dictionary's shape (10 R46) every valid entry has a string, non-empty. -/
theorem strAt_isSome {s : State} (h : s.dictSeeded) :
    ∀ n k, k < n → k < s.dsize → ∃ x t, strAt s.dict n k = some (x :: t) := by
  intro n
  induction n with
  | zero => intro k hk; omega
  | succ n ih =>
    intro k hk hd
    rw [strAt]
    by_cases hs : k < Config.seedN
    · exact ⟨_, [], by rw [if_pos hs]⟩
    · have hsh := h.2.2.2.1 k hd (by simpa [Config.seedN] using hs)
      rw [if_neg hs]
      cases hm : Memory.read s.dict k with
      | none => simp [entryShape, hm] at hsh
      | some r =>
        obtain ⟨p, b⟩ := r
        cases p with
        | none => simp [entryShape, hm] at hsh
        | some p =>
          have hp : p.toNat < k := by simpa [entryShape, hm] using hsh
          obtain ⟨x, t, hx⟩ := ih p.toNat (by omega) (by omega)
          exact ⟨x, t ++ [b], by simp [hp, hx]⟩

/-! ### The sink -/

/-- An offer of a byte changes the sink's side only (20 R68, 48 R282). -/
theorem outPut_state (b : Byte) (s : State) :
    (outPut b s).2 = { s with offers := (outPut b s).2.offers, sinkGot := (outPut b s).2.sinkGot } := by
  unfold outPut
  split <;> rfl

/-! ### The step -/

@[simp] theorem mapNext_next (f : State → State) (s : State) : mapNext f (.next s) = .next (f s) := rfl
@[simp] theorem mapNext_fault (f : State → State) (x : Fault) : mapNext f (.fault x) = .fault x := rfl
@[simp] theorem mapNext_refused (f : State → State) (x : Refusal) :
    mapNext f (.refused x) = .refused x := rfl

/-- Everything a step can do: issue an operation, make the host's move, or have nothing to issue. -/
theorem step_eq_next {s t : State} :
    step s = .next t ↔
      (∃ i u v, s.move = .issue i u ∧ exec i u = .next v ∧ t = advance i v) ∨ s.move = .settled t := by
  unfold step
  cases s.move with
  | issue i u =>
    cases h : exec i u <;> simp [h, eq_comm]
  | settled u => simp [eq_comm]
  | stop r => simp

end Sys2Proof.Machine
end

