-- ==== Sys2Proof/Laws/PerInstr.lean ====
section
/-! SUPPORT. Statements about every operation as syntax, one lemma per constructor. -/

namespace Sys2Proof.Laws.DecodeEncode

/-- The operation's word decodes to it, in its own format and as the opcode table numbers it (30 R110). -/
def Statement (i : Instr) : Prop :=
  decode i.format (encode i) = .ok i ∧ decodeTableWord 8 (encode i).toNat = some i
    ∧ wordLegal i.format (encode i) = true ∧ i.wf = true

theorem compress : Statement .compress := ⟨rfl, rfl, rfl, rfl⟩
theorem decompress : Statement .decompress := ⟨rfl, rfl, rfl, rfl⟩
theorem inrdRun : Statement .inrdRun := ⟨rfl, rfl, rfl, rfl⟩
theorem dictSeed : Statement .dictSeed := ⟨rfl, rfl, rfl, rfl⟩
theorem dictLookup : Statement .dictLookup := ⟨rfl, rfl, rfl, rfl⟩
theorem dictRlookup : Statement .dictRlookup := ⟨rfl, rfl, rfl, rfl⟩
theorem dictInsert : Statement .dictInsert := ⟨rfl, rfl, rfl, rfl⟩
theorem lzweRun : Statement .lzweRun := ⟨rfl, rfl, rfl, rfl⟩
theorem lzweSym : Statement .lzweSym := ⟨rfl, rfl, rfl, rfl⟩
theorem lzweFlush : Statement .lzweFlush := ⟨rfl, rfl, rfl, rfl⟩
theorem lzwdRun : Statement .lzwdRun := ⟨rfl, rfl, rfl, rfl⟩
theorem lzwdFirst : Statement .lzwdFirst := ⟨rfl, rfl, rfl, rfl⟩
theorem lzwdNext : Statement .lzwdNext := ⟨rfl, rfl, rfl, rfl⟩
theorem freqCount : Statement .freqCount := ⟨rfl, rfl, rfl, rfl⟩
theorem hbuildRun : Statement .hbuildRun := ⟨rfl, rfl, rfl, rfl⟩
theorem hgenRun : Statement .hgenRun := ⟨rfl, rfl, rfl, rfl⟩
theorem bpackRun : Statement .bpackRun := ⟨rfl, rfl, rfl, rfl⟩
theorem bunpkRun : Statement .bunpkRun := ⟨rfl, rfl, rfl, rfl⟩
theorem fwrRun : Statement .fwrRun := ⟨rfl, rfl, rfl, rfl⟩
theorem frdRun : Statement .frdRun := ⟨rfl, rfl, rfl, rfl⟩
theorem outwrRun : Statement .outwrRun := ⟨rfl, rfl, rfl, rfl⟩

end Sys2Proof.Laws.DecodeEncode
end

