-- ==== Sys2Proof/Certificates/Slice0/Obligations.lean ====
section
/-! DEFINITION. The statements for the provers, in the order of spec/. "next t" is a next state; a frame is
written as an equation `t = { s with … }` that names every field that may differ, with the element-wise
reads of the memories that were written. -/

open Sys2Proof Sys2Proof.Machine

/-! ### Reset, STATUS, words -/

/-- The registers after reset (10 R55): STATUS 0, CUR EMPTY, MAXCODE -1, every other working register 0,
no item in flight. -/
def Obligations.ResetLeavesRegisterValues : Prop :=
  State.reset.status.word = 0 ∧ State.reset.cur = none ∧ State.reset.prev = 0 ∧ State.reset.dsize = 0
    ∧ State.reset.ipos = 0 ∧ State.reset.cpos = 0 ∧ State.reset.bpos = 0
    ∧ State.reset.nnodes = 0 ∧ State.reset.root = 0 ∧ State.reset.node = 0
    ∧ State.reset.inLen = 0 ∧ State.reset.clen = 0 ∧ State.reset.outLen = 0
    ∧ State.reset.maxCode = -1 ∧ State.reset.entryCnt = 0 ∧ State.reset.totalBits = 0
    ∧ State.reset.input = []

/-- The reset event (70 R350, R351), at any moment: STATUS 0, the registers of R55, no item in flight, no
error recorded. That the host's side (the sink's bytes, what is declared for the next command) and the
capacities stay, and `inOp` falls, is the model's choice (log 9). -/
def Obligations.ResetEventMakesIdle : Prop :=
  ∀ (s : State) (rest : List HostEvent), s.host = .reset :: rest →
    ∃ t, step s = .next t ∧ t.status.word = 0 ∧ t.cur = none ∧ t.prev = 0 ∧ t.dsize = 0
      ∧ t.ipos = 0 ∧ t.cpos = 0 ∧ t.bpos = 0 ∧ t.nnodes = 0 ∧ t.root = 0 ∧ t.node = 0
      ∧ t.inLen = 0 ∧ t.clen = 0 ∧ t.outLen = 0 ∧ t.maxCode = -1 ∧ t.entryCnt = 0 ∧ t.totalBits = 0
      ∧ t.inOp = false ∧ t.input = []
      ∧ t.sinkGot = s.sinkGot ∧ t.sinkEnd = s.sinkEnd ∧ t.caps = s.caps ∧ t.host = rest
      ∧ t.nextInput = s.nextInput ∧ t.nextSink = s.nextSink

/-- The bit positions of STATUS (10 R22): BUSY 0, DONE 1, ERR 2, ERRCODE 7:4, STAGE 11:8, OP 13:12, the
other bits 0. -/
def Obligations.StatusWordLayout : Prop :=
  ∀ t : Status,
    t.word.toNat = t.busy.toNat + 2 * t.done.toNat + 4 * t.err.toNat + 16 * t.errcode.toNat
      + 256 * t.stage.toNat + 4096 * t.op.toNat

/-- The number forms of 00_scope.md R13: in `BE_n` the first byte is the most significant (each further byte
multiplies what is before it by 256), `bytesBE_n` is its inverse and has n bytes, and `signed_32` inverts
`sext_32`. -/
def Obligations.FieldNumbersRoundTrip : Prop :=
  (be [] = 0 ∧ ∀ (bs : List Byte) (b : Byte), be (bs ++ [b]) = 256 * be bs + b.toNat)
    ∧ (∀ n v, v < 256 ^ n → (bytesBE n v).length = n ∧ be (bytesBE n v) = v)
    ∧ (∀ bs : List Byte, be bs < 256 ^ bs.length ∧ bytesBE bs.length (be bs) = bs)
    ∧ ∀ v : Int, -(2 ^ 31) ≤ v → v < 2 ^ 31 → signed32 (sext32 v).toNat = v

/-- Decode and encode agree on both formats (30 R91, R92, R104, R107, R110). -/
def Obligations.DecodeEncodeAgree : Prop :=
  (∀ i : Instr, decode i.format (encode i) = .ok i)
    ∧ ∀ (f : Format) (w : Byte) (i : Instr), decode f w = .ok i → i.format = f ∧ encode i = w

/-- Words written out from 30 R110: COMPRESS 0x01, DICT.INSERT 0x23, LZWD.NEXT 0x42, OUTWR.RUN 0xC0; 0x30 is
no command word (R92), and 0x24 is no UOP identifier (R107). -/
def Obligations.WrittenOutWordsDecode : Prop :=
  decode .cmd 0x01 = .ok .compress ∧ decode .uop 0x23 = .ok .dictInsert
    ∧ decode .uop 0x42 = .ok .lzwdNext ∧ decode .uop 0xC0 = .ok .outwrRun
    ∧ decode .cmd 0x30 = .error (.illegalCommand 0x30) ∧ decode .uop 0x24 = .error (.unassignedUop 0x24)

/-! ### The step, the sequencer, the host's actions -/

/-- While BUSY = 1 the block's step is the operation STAGE and `sub` name, followed by the sequencer: when
the host's script is used up, when it lets the block run, and when it waits for the end (the script and
`sub` are the model's own: log 1, log 3). -/
def Obligations.StepRunsDecodedUnitOperation : Prop :=
  ∀ (s : State) (i : Instr), s.status.busy = true →
    decode .uop (s.status.stage ++ s.sub) = .ok i →
    (s.host = [] → step s = mapNext (advance i) (exec i s))
      ∧ (∀ rest, s.host = .run :: rest →
          step s = mapNext (advance i) (exec i { s with host := rest }))
      ∧ (∀ rest, s.host = .wait :: rest → step s = mapNext (advance i) (exec i s))

/-- A word written to CMD while BUSY = 0 that decodes is run (48 R280); bits 31:8 of the write are
ignored (10 R21). The host's script is the model's own (log 1). -/
def Obligations.StepRunsDecodedCommand : Prop :=
  ∀ (s : State) (i : Instr) (v : RegWord) (rest : List HostEvent), s.status.busy = false →
    s.host = .writeReg 0 v :: rest → decode .cmd (BitVec.ofNat 8 (v.toNat % 256)) = .ok i →
    step s = exec i { s with host := rest }

/-- The fixed orders of 48 R284 and R290 with the two choices of R296: what the sequencer does after an
operation of a running command; after an error, or while the operation waits (`inOp`, log 3), nothing. -/
def Obligations.SequencerFollowsFixedOrder : Prop :=
  ∀ t : State,
    (∀ i, t.status.busy = false ∨ t.inOp = true → advance i t = t)
      ∧ (t.status.busy = true → t.inOp = false →
        (∀ i n, (t.status.op = 1 ∧ (i, n) ∈ [(Instr.inrdRun, (3 : BitVec 4)), (.lzweRun, 5),
              (.freqCount, if t.clen = 0 then 10 else 6), (.hbuildRun, 7), (.hgenRun, 8),
              (.bpackRun, 10), (.fwrRun, 12)])
            ∨ (t.status.op = 2 ∧ (i, n) ∈ [(Instr.inrdRun, (11 : BitVec 4)),
              (.frdRun, if t.entryCnt = 0 then 12 else 6), (.hbuildRun, 9), (.bunpkRun, 4),
              (.lzwdRun, 12)]) →
          advance i t = { t with status := { t.status with stage := n }, sub := 0 })
        ∧ (t.status.op = 1 ∨ t.status.op = 2 →
          advance .outwrRun t
            = { t with status := { t.status with busy := false, done := true, stage := 0 } }))

/-- Acceptance of COMPRESS and DECOMPRESS (48 R280, 10 R56, R23): STATUS, the command-start values, the
command's own streams, STAGE at INRD; every other memory and field as before. The staging of the streams
is the model's choice (log 8), and so are `sub` and `inOp` (log 3). -/
def Obligations.LegalCommandIsAccepted : Prop :=
  ∀ (s : State) (i : Instr) (op : BitVec 2), s.status.busy = false →
    (i = .compress ∧ op = 1) ∨ (i = .decompress ∧ op = 2) →
    exec i s = .next { s with
      status := { busy := true, done := false, err := false, errcode := 0, stage := 1, op := op }
      cur := none, prev := 0, dsize := 0, ipos := 0, cpos := 0, bpos := 0
      nnodes := 0, root := 0, node := 0
      inLen := 0, clen := 0, outLen := 0, maxCode := -1, entryCnt := 0, totalBits := 0
      freq := [], ctab := [], sub := 0, inOp := false
      input := s.nextInput, nextInput := [], sink := s.nextSink, nextSink := .neverFails
      offers := 0, sinkGot := [], sinkEnd := false }

/-- A write to CMD while BUSY = 1 is ignored (70 R360): the host's action is over and nothing else has
changed; so the two commands do nothing when BUSY = 1. A write to any other register number is ignored at
any time (70 R362). -/
def Obligations.IgnoredWritesChangeNothing : Prop :=
  ∀ (s : State) (n : Nat) (v : RegWord) (rest : List HostEvent), s.host = .writeReg n v :: rest →
    (s.status.busy = true → step s = .next { s with host := rest }
      ∧ exec .compress s = .next s ∧ exec .decompress s = .next s)
    ∧ (n ≠ 0 → step s = .next { s with host := rest })

/-- Any command word but 0x01 and 0x02 raises IllegalCommand (30 R104, 60 R322): STATUS becomes 0x000000B6
and nothing else of the block changes. That the raise also leaves the wait mark `inOp` false is the model's
choice (log 3). -/
def Obligations.IllegalCommandWordRaises : Prop :=
  ∀ (s : State) (v : RegWord) (rest : List HostEvent), s.status.busy = false →
    s.host = .writeReg 0 v :: rest → v.toNat % 256 ≠ 1 → v.toNat % 256 ≠ 2 →
    ∃ t, step s = .next t ∧ t.status.word = 0x000000B6
      ∧ t = { s with status := t.status, inOp := false, host := rest }

/-- Register reads (10 R21, R22, R25, 70 R362): CMD and absent registers read 0, STATUS its word, the
information registers their values after a command ended without error; in every other case some value,
and no side effect on the block. The free value and its counter are the model's (log 6). -/
def Obligations.RegisterReadsReturnTheirValue : Prop :=
  ∀ (s : State) (n : Nat) (rest : List HostEvent), s.host = .readReg n :: rest →
    (n = 0 ∨ 9 ≤ n → step s = .next { s with host := rest, rdata := 0 })
      ∧ (n = 1 → step s = .next { s with host := rest, rdata := s.status.word })
      ∧ (s.status.done = true → s.status.err = false →
          (n = 6 → step s = .next { s with host := rest, rdata := BitVec.ofInt 32 s.maxCode })
          ∧ ∀ v, (n, v) ∈ [(2, s.inLen), (3, s.outLen), (4, s.clen), (5, s.dsize), (7, s.entryCnt),
                (8, s.totalBits)] →
            (v < 2 ^ 32 → step s = .next { s with host := rest, rdata := BitVec.ofNat 32 v })
            ∧ (2 ^ 32 ≤ v → ∃ x, step s
                = .next { s with host := rest, rdata := x, freeCtr := s.freeCtr + 1 }))
      ∧ (2 ≤ n → n ≤ 8 → ¬ (s.status.done = true ∧ s.status.err = false) →
          ∃ x, step s = .next { s with host := rest, rdata := x, freeCtr := s.freeCtr + 1 })

/-- Which errors each unit operation can end with, and that a unit operation writes STATUS in no other way
(10 R23, 60 R311, R330): its STAGE and OP stay. That a raise leaves the wait mark `inOp` false is the
model's choice (log 3). -/
def Obligations.UnitOperationsRaiseOnlyTheirErrors : Prop :=
  ∀ (i : Instr) (s t : State), i ≠ .compress → i ≠ .decompress → exec i s = .next t →
    t.status = s.status
      ∨ ∃ e, e ∈ raisableBy i ∧ t.inOp = false
          ∧ t.status = { s.status with busy := false, done := true, err := true, errcode := e.code }

/-- Input items are taken by INRD.RUN alone and offers are made by OUTWR.RUN alone (20 R66, R68, R76); the
capacities (00 R9) and the host's script are changed by no operation. -/
def Obligations.StreamsMoveOnlyAtTheBoundaryUnits : Prop :=
  ∀ (i : Instr) (s t : State), i ≠ .compress → i ≠ .decompress → exec i s = .next t →
    (i ≠ .inrdRun → t.input = s.input)
      ∧ (i ≠ .outwrRun → t.offers = s.offers ∧ t.sinkGot = s.sinkGot ∧ t.sinkEnd = s.sinkEnd)
      ∧ t.caps = s.caps ∧ t.host = s.host ∧ t.sink = s.sink
      ∧ t.nextInput = s.nextInput ∧ t.nextSink = s.nextSink

/-- Outside DICT.SEED (and the operations and commands that issue it or clear DSIZE) the dictionary grows by
at most one entry, and no present entry is removed or changed (40 R137, R138). -/
def Obligations.DictionaryOnlyGrows : Prop :=
  ∀ (i : Instr) (s t : State),
    i ∉ [Instr.compress, .decompress, .dictSeed, .lzweRun, .lzwdRun] → exec i s = .next t →
    (t.dsize = s.dsize ∨ t.dsize = s.dsize + 1)
      ∧ ∀ k, k < s.dsize → Memory.read t.dict k = Memory.read s.dict k

/-! ### Unit DICT -/

/-- DICT.SEED (40 R131): entry b is (NONE, b) for every byte b, DSIZE is 256; no element at 256 or above
and nothing else changes. -/
def Obligations.SeedWritesTheAlphabet : Prop :=
  ∀ s : State, ∃ t, exec .dictSeed s = .next t
    ∧ t = { s with dict := t.dict, dsize := 256 }
    ∧ (∀ b : Byte, Memory.read t.dict b.toNat = some { parent := none, last := b })
    ∧ ∀ k, 256 ≤ k → Memory.read t.dict k = Memory.read s.dict k

/-- DICT.LOOKUP (40 R133): with p = NONE the byte's own code; else the valid entry with record (p, b), or
NONE when there is none; only the result latch changes (the latches are the model's own, log 4). -/
def Obligations.LookupFindsTheEntry : Prop :=
  ∀ s : State, Memory.wf s.dict → s.dsize ≤ 65536 →
    ∃ r, exec .dictLookup s = .next { s with resCode := r }
      ∧ (s.argP = none → r = some (BitVec.ofNat 16 s.argB.toNat))
      ∧ ∀ p, s.argP = some p →
        (∀ c, r = some c → 256 ≤ c.toNat ∧ c.toNat < s.dsize
          ∧ Memory.read s.dict c.toNat = some { parent := some p, last := s.argB })
        ∧ (r = none → ∀ k, 256 ≤ k → k < s.dsize →
          Memory.read s.dict k ≠ some { parent := some p, last := s.argB })

/-- DICT.RLOOKUP (40 R134) answers `str(k)` of 10 R36 below DSIZE and NONE from DSIZE on: f is `str`, given by
its two equations; only the result latch changes (log 4). -/
def Obligations.RlookupSpellsTheEntry : Prop :=
  ∀ s : State, s.dictSeeded →
    ∃ f : Nat → List Byte,
      (∀ b : Byte, f b.toNat = [b])
        ∧ (∀ k p b, 256 ≤ k → k < s.dsize →
            Memory.read s.dict k = some { parent := some p, last := b } → f k = f p.toNat ++ [b])
        ∧ ∀ c : Code, exec .dictRlookup { s with argC := c }
            = .next { s with argC := c, resStr := if c.toNat < s.dsize then some (f c.toNat) else none }

/-- DICT.INSERT of an absent string with room (40 R136): entry DSIZE is (p, b), DSIZE is one more, the
result is the new code; no other entry and nothing else changes (the latches: log 4). -/
def Obligations.InsertAddsTheNextEntry : Prop :=
  ∀ (s : State) (p : Code), Memory.wf s.dict → s.argP = some p → p.toNat < s.dsize → s.dsize < 65536 →
    (∀ k, 256 ≤ k → k < s.dsize → Memory.read s.dict k ≠ some { parent := some p, last := s.argB }) →
    ∃ t, exec .dictInsert s = .next t
      ∧ t = { s with dict := t.dict, dsize := s.dsize + 1, resCode := some (BitVec.ofNat 16 s.dsize) }
      ∧ Memory.read t.dict s.dsize = some { parent := some p, last := s.argB }
      ∧ ∀ k, k ≠ s.dsize → Memory.read t.dict k = Memory.read s.dict k

/-- DICT.INSERT's errors in their order (40 R136): DuplicateEntry for a present string, even when the
dictionary is full; DictionaryFull for an absent one when DSIZE = 65536. Nothing but STATUS (and the
model's `inOp`, log 3) changes. A string whose prefix is no present entry is never offered (R135): the
model refuses it (log 12). -/
def Obligations.InsertRefusesInOrder : Prop :=
  ∀ s : State, Memory.wf s.dict → s.dsize ≤ 65536 →
    (∀ p, s.argP = some p → p.toNat < s.dsize →
      ((∃ k, 256 ≤ k ∧ k < s.dsize ∧ Memory.read s.dict k = some { parent := some p, last := s.argB }) →
        exec .dictInsert s = .next { s with
          status := { s.status with busy := false, done := true, err := true, errcode := 9 }
          inOp := false })
      ∧ ((∀ k, 256 ≤ k → k < s.dsize →
            Memory.read s.dict k ≠ some { parent := some p, last := s.argB }) → s.dsize = 65536 →
        exec .dictInsert s = .next { s with
          status := { s.status with busy := false, done := true, err := true, errcode := 8 }
          inOp := false }))
    ∧ ((s.argP = none ∨ ∃ p, s.argP = some p ∧ s.dsize ≤ p.toNat) →
        exec .dictInsert s = .refused .absentPrefix)

/-- DICT.INSERT keeps the dictionary's shape and bijectivity (10 R46, R47), whatever it answers. -/
def Obligations.InsertKeepsDictionaryShape : Prop :=
  ∀ s t : State, Memory.wf s.dict → s.dictSeeded → exec .dictInsert s = .next t → t.dictSeeded

/-! ### Unit LZWE -/

/-- LZWE.SYM when the candidate is in the dictionary (41 R152): CUR becomes its code, nothing else changes;
with CUR = EMPTY it always is. -/
def Obligations.SymbolExtendsTheMatch : Prop :=
  ∀ s : State, Memory.wf s.dict → s.dictSeeded →
    (s.cur = none → exec .lzweSym s = .next { s with cur := some (BitVec.ofNat 16 s.argB.toNat) })
      ∧ ∀ c k, s.cur = some c → 256 ≤ k → k < s.dsize →
        Memory.read s.dict k = some { parent := some c, last := s.argB } →
        exec .lzweSym s = .next { s with cur := some (BitVec.ofNat 16 k) }

/-- LZWE.SYM when the candidate is absent (41 R152): CUR's code is emitted, the candidate is inserted, CUR
becomes the symbol's code. The errors in their order: CSEQ full, with nothing changed but STATUS; then
the dictionary full, with the code emitted. -/
def Obligations.SymbolMissEmitsAndInserts : Prop :=
  ∀ (s : State) (c : Code), Memory.wf s.dict → s.dsize ≤ 65536 → s.cur = some c → c.toNat < s.dsize →
    (∀ k, 256 ≤ k → k < s.dsize → Memory.read s.dict k ≠ some { parent := some c, last := s.argB }) →
    (s.caps.cseqCap = some s.clen → exec .lzweSym s = .next (s.raise .capacityExceeded))
      ∧ (s.caps.cseqCap ≠ some s.clen → s.dsize = 65536 →
          ∃ t : State, exec .lzweSym s = .next (t.raise .dictionaryFull)
            ∧ t = { s with cseq := t.cseq, clen := s.clen + 1 } ∧ Memory.read t.cseq s.clen = some c)
      ∧ (s.caps.cseqCap ≠ some s.clen → s.dsize < 65536 →
          ∃ t, exec .lzweSym s = .next t
            ∧ t = { s with
                cseq := t.cseq, clen := s.clen + 1, dict := t.dict, dsize := s.dsize + 1
                cur := some (BitVec.ofNat 16 s.argB.toNat) }
            ∧ Memory.read t.cseq s.clen = some c
            ∧ (∀ k, k ≠ s.clen → Memory.read t.cseq k = Memory.read s.cseq k)
            ∧ Memory.read t.dict s.dsize = some { parent := some c, last := s.argB }
            ∧ ∀ k, k ≠ s.dsize → Memory.read t.dict k = Memory.read s.dict k)

/-- LZWE.FLUSH (41 R153): the code of a non-empty match is emitted, CUR stays; an empty match emits
nothing; CapacityExceeded when CSEQ is full. -/
def Obligations.FlushEmitsTheMatch : Prop :=
  ∀ s : State,
    (s.cur = none → exec .lzweFlush s = .next s)
      ∧ ∀ c, s.cur = some c →
        (s.caps.cseqCap = some s.clen → exec .lzweFlush s = .next (s.raise .capacityExceeded))
        ∧ (s.caps.cseqCap ≠ some s.clen →
            ∃ t, exec .lzweFlush s = .next t ∧ t = { s with cseq := t.cseq, clen := s.clen + 1 }
              ∧ Memory.read t.cseq s.clen = some c
              ∧ ∀ k, k ≠ s.clen → Memory.read t.cseq k = Memory.read s.cseq k)

/-- LZWE.RUN computes the source's string LZW (41 R151, R152, 10 R36, D3): the codes are those of the
algorithm over whole strings, and entry 256 + j spells the j-th inserted string, for every input with at
most 65280 misses whose codes fit CSEQ. -/
def Obligations.EncoderIsStringLzw : Prop :=
  ∀ (s : State) (bs : List Byte), Memory.wf s.dict → s.holdsInput bs →
    (lzwInserted bs).length ≤ 65280 → withinCap (lzwCodes bs).length s.caps.cseqCap →
    ∃ t, exec .lzweRun s = .next t
      ∧ t = { s with
          dict := t.dict, dsize := 256 + (lzwInserted bs).length, cur := t.cur, ipos := bs.length
          cseq := t.cseq, clen := (lzwCodes bs).length }
      ∧ (t.cur = none ↔ bs = [])
      ∧ (∀ i, i < (lzwCodes bs).length →
          (Memory.read t.cseq i).map BitVec.toNat = (lzwCodes bs)[i]?)
      ∧ (∀ i, (lzwCodes bs).length ≤ i → Memory.read t.cseq i = Memory.read s.cseq i)
      ∧ (∀ j, j < (lzwInserted bs).length → str t.dict (256 + j) = (lzwInserted bs)[j]?)
      ∧ ∀ k, 256 + (lzwInserted bs).length ≤ k → Memory.read t.dict k = Memory.read s.dict k

/-- After LZWE.RUN without error the strings of the emitted codes, in the final dictionary, concatenate to
the input (41 R156), and the counts of R155 hold. -/
def Obligations.EncoderOutputSpellsTheInput : Prop :=
  ∀ (s t : State) (bs : List Byte), Memory.wf s.dict → s.holdsInput bs → s.status.err = false →
    exec .lzweRun s = .next t → t.status.err = false →
    ∃ (cs : List Code) (ws : List (List Byte)), t.holdsCodes cs
      ∧ cs.map (fun c => str t.dict c.toNat) = ws.map some ∧ ws.flatten = bs
      ∧ cs.length ≤ bs.length
      ∧ (bs = [] → cs = [] ∧ t.dsize = 256) ∧ (bs ≠ [] → t.dsize + 1 = 256 + cs.length)
      ∧ ∀ c ∈ cs, c.toNat < t.dsize

/-! ### Unit LZWD -/

/-- LZWD.FIRST (42 R172) in the seeded dictionary: a seed code's byte is appended and PREV is the code; 256
and above is InvalidCode; then OUT full. And the empty sequence (42 R171): in every state with CLEN = 0
LZWD.RUN raises EmptyCodeSequenceOnDecode, before it seeds the dictionary, and changes nothing but STATUS
(and the model's `inOp`, log 3). The code operand of LZWD.FIRST stands in the model's latch (log 4). -/
def Obligations.FirstCodeGivesItsByte : Prop :=
  (∀ s : State, s.dictSeeded → s.dsize = 256 →
    (256 ≤ s.argC.toNat → exec .lzwdFirst s = .next (s.raise .invalidCode))
      ∧ (s.argC.toNat < 256 → overCap (s.outLen + 1) s.caps.outCap = true →
          exec .lzwdFirst s = .next (s.raise .capacityExceeded))
      ∧ (s.argC.toNat < 256 → withinCap (s.outLen + 1) s.caps.outCap →
          ∃ t, exec .lzwdFirst s = .next t
            ∧ t = { s with outMem := t.outMem, outLen := s.outLen + 1, prev := s.argC }
            ∧ Memory.read t.outMem s.outLen = some (BitVec.ofNat 8 s.argC.toNat)
            ∧ ∀ k, k ≠ s.outLen → Memory.read t.outMem k = Memory.read s.outMem k))
    ∧ ∀ s : State, s.clen = 0 → exec .lzwdRun s = .next (s.raise .emptyCodeSequenceOnDecode)

/-- LZWD.NEXT (42 R173): w is the string of code c, or previous + previous[0] when c = DSIZE; it is
appended, (PREV, w[0]) becomes entry DSIZE, PREV is c and spells w (R176). The errors in the order of
60 R333 (d). -/
def Obligations.NextCodeAppendsAndInserts : Prop :=
  ∀ (s : State) (x : Byte) (v : List Byte), Memory.wf s.dict → s.dictSeeded → s.prev.toNat < s.dsize →
    ((s.dsize < s.argC.toNat → exec .lzwdNext s = .next (s.raise .invalidCode))
    ∧ ((s.argC.toNat < s.dsize ∧ str s.dict s.argC.toNat = some (x :: v))
        ∨ (s.argC.toNat = s.dsize ∧ ∃ y u, str s.dict s.prev.toNat = some (y :: u)
            ∧ x :: v = y :: u ++ [y]) →
      (overCap (s.outLen + (x :: v).length) s.caps.outCap = true →
        exec .lzwdNext s = .next (s.raise .capacityExceeded))
      ∧ (withinCap (s.outLen + (x :: v).length) s.caps.outCap →
        ((∃ k, 256 ≤ k ∧ k < s.dsize
            ∧ Memory.read s.dict k = some { parent := some s.prev, last := x }) →
          ∃ t, exec .lzwdNext s = .next t ∧ t.status = s.status.raised .duplicateEntry
            ∧ t.dict = s.dict ∧ t.dsize = s.dsize ∧ t.prev = s.prev)
        ∧ ((∀ k, 256 ≤ k → k < s.dsize →
              Memory.read s.dict k ≠ some { parent := some s.prev, last := x }) →
          (s.dsize = 65536 →
            ∃ t, exec .lzwdNext s = .next t ∧ t.status = s.status.raised .dictionaryFull
              ∧ t.dict = s.dict ∧ t.dsize = s.dsize ∧ t.prev = s.prev)
          ∧ (s.dsize < 65536 →
            ∃ t, exec .lzwdNext s = .next t
              ∧ t = { s with
                  outMem := t.outMem, outLen := s.outLen + (x :: v).length
                  dict := t.dict, dsize := s.dsize + 1, prev := s.argC }
              ∧ (∀ k, k < (x :: v).length → Memory.read t.outMem (s.outLen + k) = (x :: v)[k]?)
              ∧ (∀ k, k < s.outLen ∨ s.outLen + (x :: v).length ≤ k →
                  Memory.read t.outMem k = Memory.read s.outMem k)
              ∧ Memory.read t.dict s.dsize = some { parent := some s.prev, last := x }
              ∧ (∀ k, k ≠ s.dsize → Memory.read t.dict k = Memory.read s.dict k)
              ∧ str t.dict s.argC.toNat = some (x :: v))))))

/-- LZWD.RUN on the LZW codes of a non-empty byte sequence gives it back (42 R171, R178), with one
dictionary entry for each string the encoder inserted. -/
def Obligations.DecoderInvertsStringLzw : Prop :=
  ∀ (s : State) (bs : List Byte), Memory.wf s.dict → bs ≠ [] → (lzwInserted bs).length ≤ 65280 →
    s.holdsCodes ((lzwCodes bs).map (BitVec.ofNat 16)) → withinCap bs.length s.caps.outCap →
    ∃ t, exec .lzwdRun s = .next t
      ∧ t = { s with
          dict := t.dict, dsize := 256 + (lzwInserted bs).length, prev := t.prev, cpos := s.clen
          outMem := t.outMem, outLen := bs.length }
      ∧ t.holdsOutput bs
      ∧ (∀ k, bs.length ≤ k → Memory.read t.outMem k = Memory.read s.outMem k)
      ∧ ∀ j, j < (lzwInserted bs).length → str t.dict (256 + j) = (lzwInserted bs)[j]?

/-- The LZW half of the round trip between the two units (42 R178): what LZWE.RUN makes of a non-empty
input, LZWD.RUN turns back into it; the two final dictionaries are equal, one insertion for each code but
one. -/
def Obligations.LzwUnitsAreInverse : Prop :=
  ∀ (s t r : State) (bs : List Byte) (cs : List Code), Memory.wf s.dict → Memory.wf r.dict →
    s.holdsInput bs → bs ≠ [] → s.status.err = false → exec .lzweRun s = .next t →
    t.status.err = false → t.holdsCodes cs → r.holdsCodes cs → withinCap bs.length r.caps.outCap →
    ∃ u, exec .lzwdRun r = .next u ∧ u.status = r.status ∧ u.holdsOutput bs ∧ u.dsize = t.dsize
      ∧ u.dsize + 1 = 256 + cs.length
      ∧ ∀ k, k < t.dsize → Memory.read u.dict k = Memory.read t.dict k

/-! ### Units FREQ, HBUILD, HGEN -/

/-- FREQ.COUNT (43 R191): FREQ[c] is the number of occurrences of c in CSEQ, ENTRYCNT the number of distinct
codes, MAXCODE the largest or -1; the frequencies sum to CLEN. -/
def Obligations.FrequenciesAreCounted : Prop :=
  ∀ (s : State) (cs : List Code), s.freq = [] → s.holdsCodes cs →
    ∃ t, exec .freqCount s = .next t
      ∧ t = { s with freq := t.freq, cpos := s.clen, entryCnt := t.entryCnt, maxCode := t.maxCode }
      ∧ freqWf t.freq
      ∧ (∀ c : Code, freqAt t.freq c.toNat = cs.count c) ∧ (∀ k, 65536 ≤ k → freqAt t.freq k = 0)
      ∧ (t.freq.map Prod.snd).sum = cs.length
      ∧ t.entryCnt = cs.dedup.length ∧ (1 ≤ t.entryCnt ↔ 1 ≤ s.clen)
      ∧ (cs = [] → t.maxCode = -1)
      ∧ (cs ≠ [] → ∃ c ∈ cs, t.maxCode = (c.toNat : Int) ∧ ∀ d ∈ cs, d.toNat ≤ c.toNat)

/-- HBUILD.RUN on a non-empty table (43 R193, 10 R48): the tree has the shape of R48 for that table, its
root's frequency is the sum of all, and nothing else changes. -/
def Obligations.TreeHasItsShape : Prop :=
  ∀ s : State, freqWf s.freq → (∀ e ∈ s.freq, e.1 < 65536) → s.freq ≠ [] →
    ∃ t, exec .hbuildRun s = .next t
      ∧ t = { s with tree := t.tree, nnodes := t.nnodes, root := t.root }
      ∧ t.treeOk
      ∧ (t.nodeAt t.root).map Node.freq = some ((s.freq.map Prod.snd).sum)
      ∧ ∀ h, t.nnodes ≤ h → Memory.read t.tree h = Memory.read s.tree h

/-- The priority order (43 R193, R194): every internal node joins the two nodes with the smallest keys
(frequency, then smallest leaf code) of those not yet combined when it is made, the smaller on the left. -/
def Obligations.TreeJoinsTheTwoSmallest : Prop :=
  ∀ s t : State, freqWf s.freq → (∀ e ∈ s.freq, e.1 < 65536) → s.freq ≠ [] →
    exec .hbuildRun s = .next t →
    ∀ h f m l r a b, s.freq.length ≤ h → t.nodeAt h = some (.internal f m l r) →
      t.nodeAt l = some a → t.nodeAt r = some b →
      (a.freq < b.freq ∨ (a.freq = b.freq ∧ a.minc.toNat < b.minc.toNat))
        ∧ ∀ g c, g < h → g ≠ l → g ≠ r → (∀ p, p < h → childOf t p g = false) → t.nodeAt g = some c →
          b.freq < c.freq ∨ (b.freq = c.freq ∧ b.minc.toNat < c.minc.toNat)

/-- HBUILD.RUN is a function of FREQ alone, and so is the code table HGEN.RUN then makes (43 R197). -/
def Obligations.TreeDependsOnTheTableAlone : Prop :=
  ∀ s₁ s₂ t₁ t₂ : State, s₁.freq = s₂.freq → exec .hbuildRun s₁ = .next t₁ → exec .hbuildRun s₂ = .next t₂ →
    t₁.nnodes = t₂.nnodes ∧ t₁.root = t₂.root ∧ (∀ h, t₁.nodeAt h = t₂.nodeAt h)
      ∧ ∀ u₁ u₂, s₁.ctab = [] → s₂.ctab = [] → exec .hgenRun t₁ = .next u₁ → exec .hgenRun t₂ = .next u₂ →
        u₁.ctab = u₂.ctab

/-- With nothing to work on HBUILD, HGEN and BUNPK have no behaviour (43 R198): the model refuses an
all-zero table, and a missing tree when it is needed. That BUNPK.RUN with no bit to decode still ends is
the model's choice (log 11). -/
def Obligations.EmptyTableHasNoBehaviour : Prop :=
  ∀ s : State,
    (s.freq = [] → exec .hbuildRun s = .refused .emptyTable)
      ∧ (s.nnodes = 0 → exec .hgenRun s = .refused .emptyTable)
      ∧ (s.nnodes = 0 → ∀ v vs, s.holdsBits (v :: vs) → exec .bunpkRun s = .refused .emptyTable)

/-- HGEN.RUN (44 R211, R212): CTAB holds exactly the path words of the tree's leaves, for exactly the codes
with a non-zero frequency; nothing else changes. -/
def Obligations.CodeWordsArePaths : Prop :=
  ∀ s : State, freqWf s.freq → (∀ e ∈ s.freq, e.1 < 65536) → s.treeOk → s.ctab = [] →
    ∃ t, exec .hgenRun s = .next t ∧ t = { s with ctab := t.ctab } ∧ Memory.wf t.ctab
      ∧ (∀ (c : Code) (w : List Bool), Memory.read t.ctab c.toNat = some w ↔ s.wordOf c w)
      ∧ (∀ c : Code, (Memory.read t.ctab c.toNat).isSome = true ↔ 0 < freqAt s.freq c.toNat)
      ∧ ∀ (c : Code) (w : List Bool), Memory.read t.ctab c.toNat = some w →
          1 ≤ w.length ∧ w.length ≤ max 1 (s.freq.length - 1)

/-- The code table is prefix-free (44 R212 (c), 30 R101): "for all pairs of distinct codes in a generated
Code Table, neither bit string is a prefix of the other". -/
def Obligations.CodeTableIsPrefixFree : Prop :=
  ∀ s t : State, freqWf s.freq → (∀ e ∈ s.freq, e.1 < 65536) → s.treeOk → s.ctab = [] →
    exec .hgenRun s = .next t →
    ∀ (c d : Code) (w v : List Bool), c ≠ d → Memory.read t.ctab c.toNat = some w →
      Memory.read t.ctab d.toNat = some v → ¬ w <+: v ∧ ¬ v <+: w

/-! ### Units BPACK and BUNPK -/

/-- BPACK.RUN (45 R221, R222): the payload is the concatenation of the words of CSEQ's codes, the padding
bits are 0, no byte past the payload changes, and nothing else changes. -/
def Obligations.PackerConcatenatesWords : Prop :=
  ∀ (s : State) (cs : List Code) (ws : List (List Bool)), s.holdsCodes cs →
    cs.map (fun c => Memory.read s.ctab c.toNat) = ws.map some →
    withinCap (ceil8 ws.flatten.length) s.caps.bitsCap →
    ∃ t, exec .bpackRun s = .next t
      ∧ t = { s with bits := t.bits, totalBits := ws.flatten.length, cpos := s.clen }
      ∧ t.holdsBits ws.flatten
      ∧ (∀ j, ws.flatten.length ≤ j → j < 8 * ceil8 ws.flatten.length → t.bitAt j = some false)
      ∧ ∀ k, ceil8 ws.flatten.length ≤ k → Memory.read t.bits k = Memory.read s.bits k

/-- BPACK.RUN's errors (45 R221): a code without a word is UnknownCodeDuringEncode, met before any of its
bits is written; bits that need more bytes than BITS holds are CapacityExceeded. -/
def Obligations.PackerRefusals : Prop :=
  ∀ (s : State) (cs : List Code) (ws : List (List Bool)),
    (∀ c ds, s.holdsCodes (cs ++ c :: ds) →
      cs.map (fun d => Memory.read s.ctab d.toNat) = ws.map some →
      withinCap (ceil8 ws.flatten.length) s.caps.bitsCap → Memory.read s.ctab c.toNat = none →
      ∃ t, exec .bpackRun s = .next t ∧ t.status = s.status.raised .unknownCodeDuringEncode
        ∧ t.holdsBits ws.flatten)
    ∧ (s.holdsCodes cs → cs.map (fun d => Memory.read s.ctab d.toNat) = ws.map some →
      overCap (ceil8 ws.flatten.length) s.caps.bitsCap = true →
      ∃ t, exec .bpackRun s = .next t ∧ t.status = s.status.raised .capacityExceeded)

/-- BUNPK.RUN on the concatenation of code words (46 R236, R239 (b)): CSEQ is the sequence of their codes;
every payload bit is consumed and NODE is back at ROOT; nothing else changes. -/
def Obligations.UnpackerRecoversTheCodes : Prop :=
  ∀ (s : State) (cs : List Code) (ws : List (List Bool)), s.treeOk → cs.length = ws.length →
    (∀ p ∈ cs.zip ws, s.wordOf p.1 p.2) → s.holdsBits ws.flatten →
    withinCap cs.length s.caps.cseqCap →
    ∃ t, exec .bunpkRun s = .next t
      ∧ t = { s with cseq := t.cseq, clen := cs.length, bpos := s.totalBits, node := s.root }
      ∧ t.holdsCodes cs
      ∧ ∀ k, cs.length ≤ k → Memory.read t.cseq k = Memory.read s.cseq k

/-- BUNPK.RUN's refusals (46 R236): bits that end inside a code word, and a 1 bit under a one-leaf tree, are
MalformedFrame; more codes than CSEQ holds are CapacityExceeded. -/
def Obligations.UnpackerRefusals : Prop :=
  ∀ (s : State) (cs : List Code) (ws : List (List Bool)), s.treeOk → cs.length = ws.length →
    (∀ p ∈ cs.zip ws, s.wordOf p.1 p.2) →
    (withinCap cs.length s.caps.cseqCap →
      (∀ v, v ≠ [] → internalNode (s.follow s.root v) = true → s.holdsBits (ws.flatten ++ v) →
        ∃ t, exec .bunpkRun s = .next t ∧ t.status = s.status.raised .malformedFrame)
      ∧ (s.nnodes = 1 → ∀ vs, s.holdsBits (ws.flatten ++ true :: vs) →
        ∃ t, exec .bunpkRun s = .next t ∧ t.status = s.status.raised .malformedFrame))
    ∧ (∀ vs, overCap cs.length s.caps.cseqCap = true → s.holdsBits (ws.flatten ++ vs) →
        ∃ t, exec .bunpkRun s = .next t ∧ t.status = s.status.raised .capacityExceeded)

/-! ### Units FWR and FRD -/

/-- FWR.RUN (47 R251) writes the frame of 20 R70: each field at its offset, big-endian, the entries in
ascending order of code, then the payload; OUTLEN is the frame's length (R71); nothing else changes. -/
def Obligations.WriterLaysOutTheFrame : Prop :=
  ∀ s : State, freqWf s.freq → (∀ e ∈ s.freq, e.1 < 65536 ∧ e.2 ≤ 2147483647) → s.headerOk →
    s.totalBits ≤ 2147483647 → Memory.listed s.bits (ceil8 s.totalBits) →
    withinCap (12 + 6 * s.entryCnt + ceil8 s.totalBits) s.caps.outCap →
    ∃ t, exec .fwrRun s = .next t
      ∧ t = { s with outMem := t.outMem, outLen := 12 + 6 * s.entryCnt + ceil8 s.totalBits }
      ∧ (Memory.readRun t.outMem 0 4).map be = some (BitVec.ofInt 32 s.maxCode).toNat
      ∧ (Memory.readRun t.outMem 4 4).map be = some s.entryCnt
      ∧ (∀ i, i < s.entryCnt →
          (Memory.readRun t.outMem (8 + 6 * i) 2).map be = s.freq[i]?.map Prod.fst
          ∧ (Memory.readRun t.outMem (8 + 6 * i + 2) 4).map be = s.freq[i]?.map Prod.snd)
      ∧ (Memory.readRun t.outMem (8 + 6 * s.entryCnt) 4).map be = some s.totalBits
      ∧ (∀ j, j < ceil8 s.totalBits →
          Memory.read t.outMem (12 + 6 * s.entryCnt + j) = Memory.read s.bits j)
      ∧ ∀ k, 12 + 6 * s.entryCnt + ceil8 s.totalBits ≤ k →
          Memory.read t.outMem k = Memory.read s.outMem k

/-- FWR.RUN's errors in their order (47 R251, R252): a frequency or TOTALBITS above 2147483647 is
FieldOverflow; then a frame longer than OUT is CapacityExceeded; no byte of OUT is written. -/
def Obligations.WriterRefusesInOrder : Prop :=
  ∀ s : State,
    (((∃ e ∈ s.freq, 2147483647 < e.2) ∨ 2147483647 < s.totalBits) →
        exec .fwrRun s = .next (s.raise .fieldOverflow))
      ∧ ((∀ e ∈ s.freq, e.2 ≤ 2147483647) → s.totalBits ≤ 2147483647 →
          overCap (12 + 6 * s.entryCnt + ceil8 s.totalBits) s.caps.outCap = true →
          exec .fwrRun s = .next (s.raise .capacityExceeded))

/-- Frame symmetry (47 R267): FRD.RUN on what FWR.RUN wrote recovers MAXCODE, ENTRYCNT, FREQ, TOTALBITS and the
valid bytes of BITS. -/
def Obligations.ReaderInvertsWriter : Prop :=
  ∀ (s t r : State) (bs : List Byte), freqWf s.freq → (∀ e ∈ s.freq, e.1 < 65536) → s.headerOk →
    (s.entryCnt = 0 → s.totalBits = 0) → s.status.err = false → exec .fwrRun s = .next t →
    t.status.err = false → t.holdsOutput bs → r.holdsInput bs → r.freq = [] →
    withinCap (ceil8 s.totalBits) r.caps.bitsCap →
    ∃ u, exec .frdRun r = .next u
      ∧ u = { r with
          ipos := bs.length, maxCode := s.maxCode, entryCnt := s.entryCnt, freq := s.freq
          totalBits := s.totalBits, bits := u.bits }
      ∧ (∀ j, j < ceil8 s.totalBits → Memory.read u.bits j = Memory.read s.bits j)
      ∧ ∀ j, ceil8 s.totalBits ≤ j → Memory.read u.bits j = Memory.read r.bits j

/-- FRD.RUN on a consistent frame, its entries in any order (47 R261 to R265): it ends without error, IN is
all consumed, FREQ has exactly the entries' frequencies, BITS the payload; nothing else changes. -/
def Obligations.ReaderReadsConsistentFrames : Prop :=
  ∀ (r : State) (es : List (Nat × Nat)) (m : Int) (n : Nat) (p : List Byte),
    (es.map Prod.fst).Nodup → (∀ e ∈ es, (e.1 : Int) ≤ m ∧ 1 ≤ e.2 ∧ e.2 ≤ 2147483647) →
    (es = [] → m = -1 ∧ n = 0) → (es ≠ [] → m ≤ 65535 ∧ ∃ e ∈ es, (e.1 : Int) = m) →
    n ≤ 2147483647 → p.length = ceil8 n →
    r.holdsInput (bytesBE 4 (BitVec.ofInt 32 m).toNat ++ bytesBE 4 es.length
      ++ es.flatMap (fun e => bytesBE 2 e.1 ++ bytesBE 4 e.2) ++ bytesBE 4 n ++ p) →
    r.freq = [] → withinCap p.length r.caps.bitsCap →
    ∃ u, exec .frdRun r = .next u
      ∧ u = { r with
          ipos := r.inLen, maxCode := m, entryCnt := es.length, freq := u.freq, totalBits := n
          bits := u.bits }
      ∧ freqWf u.freq ∧ (∀ e ∈ es, freqAt u.freq e.1 = e.2)
      ∧ (∀ k, k ∉ es.map Prod.fst → freqAt u.freq k = 0)
      ∧ (∀ j, j < p.length → Memory.read u.bits j = p[j]?)
      ∧ ∀ j, p.length ≤ j → Memory.read u.bits j = Memory.read r.bits j

/-- What a frame FRD.RUN accepts is (47 R261 to R265, 30 R105): its fields are the bytes at the offsets of
20 R70, its entries are distinct, non-zero and at most maxCode (FREQ's listed codes are those of the entries,
as many as there are entries), maxCode is the largest, and the frame ends with the payload. -/
def Obligations.ReaderAcceptsOnlyConsistentFrames : Prop :=
  ∀ (r u : State) (bs : List Byte), r.freq = [] → r.holdsInput bs → r.status.err = false →
    exec .frdRun r = .next u → u.status.err = false →
    u.maxCode = signed32 (be (bs.take 4))
      ∧ (u.entryCnt : Int) = signed32 (be ((bs.drop 4).take 4))
      ∧ freqWf u.freq ∧ u.headerOk
      ∧ (∀ e ∈ u.freq, e.1 < 65536 ∧ e.2 ≤ 2147483647)
      ∧ (∀ i, i < u.entryCnt →
          freqAt u.freq (be ((bs.drop (8 + 6 * i)).take 2)) = be ((bs.drop (8 + 6 * i + 2)).take 4))
      ∧ (∀ e ∈ u.freq, ∃ i, i < u.entryCnt ∧ e.1 = be ((bs.drop (8 + 6 * i)).take 2))
      ∧ (u.totalBits : Int) = signed32 (be ((bs.drop (8 + 6 * u.entryCnt)).take 4))
      ∧ (u.entryCnt = 0 → u.totalBits = 0)
      ∧ bs.length = 12 + 6 * u.entryCnt + ceil8 u.totalBits
      ∧ (∀ j, j < ceil8 u.totalBits → Memory.read u.bits j = bs[12 + 6 * u.entryCnt + j]?)
      ∧ u = { r with
          ipos := bs.length, maxCode := u.maxCode, entryCnt := u.entryCnt, freq := u.freq
          totalBits := u.totalBits, bits := u.bits }

/-- The payload length (47 R265): an accepted frame cut inside its payload is TruncatedInput, cut inside
its header or table it is MalformedFrame, and with bytes after the payload it is MalformedFrame. -/
def Obligations.ReaderChecksThePayloadLength : Prop :=
  ∀ (r u q : State) (bs : List Byte), r.freq = [] → r.holdsInput bs → r.status.err = false →
    exec .frdRun r = .next u → u.status.err = false → q.freq = [] →
    (∀ n, n < bs.length → q.holdsInput (bs.take n) →
      ∃ t, exec .frdRun q = .next t
        ∧ t.status = q.status.raised
            (if n < 12 + 6 * u.entryCnt then .malformedFrame else .truncatedInput))
    ∧ ∀ x xs, q.holdsInput (bs ++ x :: xs) →
      ∃ t, exec .frdRun q = .next t ∧ t.status = q.status.raised .malformedFrame

/-! ### The boundary units -/

/-- INRD.RUN on an ended stream that fits (48 R281): IN is the bytes before EOS, in order; they and EOS are
taken and nothing after; an element of IN past them and everything else is as before. -/
def Obligations.InputReaderTakesTheWholeInput : Prop :=
  ∀ (s : State) (bs : List Byte) (rest : List Item), s.inOp = false →
    s.input = bs.map Item.data ++ .eos :: rest → withinCap bs.length s.caps.inCap →
    ∃ t, exec .inrdRun s = .next t
      ∧ t = { s with inMem := t.inMem, inLen := bs.length, input := rest }
      ∧ (∀ i, i < bs.length → Memory.read t.inMem i = bs[i]?)
      ∧ ∀ i, bs.length ≤ i → Memory.read t.inMem i = Memory.read s.inMem i

/-- INRD.RUN, beginning (bs empty) or going on after a wait with bs read (48 R281, 60 R333 (a), 70 R373): the
first of FAIL and of a byte that does not fit ends it, with that item taken and nothing after; EOS ends it
with the whole input in IN; a stream not yet ended leaves it waiting with BUSY as it was and everything so
far in IN, ready to go on. The wait is the model's `inOp` (log 3), the staged stream its choice (log 8). -/
def Obligations.InputReaderFailsOrWaits : Prop :=
  ∀ (s : State) (bs cs : List Byte) (rest : List Item),
    (s.inOp = false ∧ bs = []) ∨ (s.inOp = true ∧ s.holdsInput bs) →
    withinCap (bs ++ cs).length s.caps.inCap →
    (s.input = cs.map Item.data ++ .fail :: rest →
      ∃ t, exec .inrdRun s = .next t
        ∧ t = { s with
            status := s.status.raised .resourceError, inOp := false
            inMem := t.inMem, inLen := (bs ++ cs).length, input := rest })
    ∧ (∀ b, s.input = cs.map Item.data ++ .data b :: rest → s.caps.inCap = some (bs ++ cs).length →
      ∃ t, exec .inrdRun s = .next t
        ∧ t = { s with
            status := s.status.raised .capacityExceeded, inOp := false
            inMem := t.inMem, inLen := (bs ++ cs).length, input := rest })
    ∧ (s.input = cs.map Item.data ++ .eos :: rest →
      ∃ t, exec .inrdRun s = .next t ∧ t.holdsInput (bs ++ cs)
        ∧ t = { s with inMem := t.inMem, inLen := (bs ++ cs).length, input := rest, inOp := false })
    ∧ (s.input = cs.map Item.data →
      ∃ t, exec .inrdRun s = .next t ∧ t.holdsInput (bs ++ cs)
        ∧ t = { s with inMem := t.inMem, inLen := (bs ++ cs).length, input := [], inOp := true })

/-- OUTWR.RUN with a sink that answers OK to every offer it gets (48 R282): the sink has every byte of OUT in
order and the end marker; nothing in the block changes. -/
def Obligations.OutputWriterDeliversEverything : Prop :=
  ∀ (s : State) (bs : List Byte), s.inOp = false → s.holdsOutput bs →
    (s.sink = .neverFails
      ∨ ∃ k, bs.length < k ∧ (s.sink = .failsAt k ∨ s.sink = .silentAt k)) →
    exec .outwrRun s
      = .next { s with offers := bs.length + 1, sinkGot := s.sinkGot ++ bs, sinkEnd := true }

/-- OUTWR.RUN with a sink that fails at offer k (48 R282 (b)): it has the first k bytes and no end marker,
and the command ends with ResourceError; with one that does not answer offer k (70 R373) it waits (the
model's `inOp`, log 3). -/
def Obligations.OutputWriterStopsAtTheSink : Prop :=
  ∀ (s : State) (bs : List Byte) (k : Nat), s.inOp = false → s.holdsOutput bs → k ≤ bs.length →
    (s.sink = .failsAt k →
      exec .outwrRun s = .next { s with
        status := { s.status with busy := false, done := true, err := true, errcode := 5 }
        offers := k, sinkGot := s.sinkGot ++ bs.take k })
    ∧ (s.sink = .silentAt k →
      exec .outwrRun s
        = .next { s with offers := k, sinkGot := s.sinkGot ++ bs.take k, inOp := true })

/-! ### Whole commands -/

/-- A command written to CMD runs its sequence (48 R284, R290): in at most nine steps the machine is in the
state that the sequence, written as one computation, ends or raises in (one unit operation a step: log 2;
the host's script: log 1). -/
def Obligations.CommandRunsItsSequence : Prop :=
  ∀ (s t : State) (v : RegWord) (rest : List HostEvent), s.status.busy = false →
    s.host = .writeReg 0 v :: .wait :: rest → inputWf s.nextInput = true →
    (∀ k, s.nextSink ≠ .silentAt k) →
    ((v.toNat % 256 = 1 ∧ (compressSequence (State.accept 1 { s with host := .wait :: rest })).outcome = .next t)
      ∨ (v.toNat % 256 = 2
        ∧ (decompressSequence (State.accept 2 { s with host := .wait :: rest })).outcome = .next t)) →
    ∃ n, n ≤ 9 ∧ Sys2Proof.core.run n s = .next t ∧ t.status.busy = false

/-- Every command ends (70 R372): from a legal idle state, with an ended input and a sink that answers, at
most nine steps (log 2) after the command word is written BUSY is 0 and DONE is 1. -/
def Obligations.EveryCommandEnds : Prop :=
  ∀ (s : State) (v : RegWord) (rest : List HostEvent), s.Inv → s.status.busy = false →
    s.host = .writeReg 0 v :: .wait :: rest → v.toNat % 256 = 1 ∨ v.toNat % 256 = 2 →
    inputWf s.nextInput = true → (∀ k, s.nextSink ≠ .silentAt k) →
    ∃ n t, n ≤ 9 ∧ Sys2Proof.core.run n s = .next t
      ∧ t.status.busy = false ∧ t.status.done = true ∧ t.host = .wait :: rest

/-- The result of a command does not depend on any command that ran before it (10 R57): two legal idle
states of equal capacities in which the host does the same from a legal command word on show the same
STATUS, the same sink, and the same information registers, at every later step. -/
def Obligations.CommandsAreIndependentOfThePast : Prop :=
  ∀ (s₁ s₂ : State) (v : RegWord) (rest : List HostEvent), s₁.Inv → s₂.Inv →
    s₁.status.busy = false → s₂.status.busy = false →
    s₁.host = .writeReg 0 v :: rest → s₂.host = .writeReg 0 v :: rest →
    v.toNat % 256 = 1 ∨ v.toNat % 256 = 2 →
    s₁.caps = s₂.caps → s₁.nextInput = s₂.nextInput → s₁.nextSink = s₂.nextSink →
    ∀ n t₁ t₂, Sys2Proof.core.run (n + 1) s₁ = .next t₁ → Sys2Proof.core.run (n + 1) s₂ = .next t₂ →
      t₁.status = t₂.status ∧ t₁.sinkGot = t₂.sinkGot ∧ t₁.sinkEnd = t₂.sinkEnd
        ∧ (t₁.status.done = true → t₁.status.err = false →
          t₁.inLen = t₂.inLen ∧ t₁.outLen = t₂.outLen ∧ t₁.clen = t₂.clen ∧ t₁.dsize = t₂.dsize
            ∧ t₁.maxCode = t₂.maxCode ∧ t₁.entryCnt = t₂.entryCnt ∧ t₁.totalBits = t₂.totalBits)

/-- The round trip (48 R297): if COMPRESS of the bytes bs ends without error with frame F, DECOMPRESS of F, on
a block whose capacities suffice, ends without error and its output is bs. -/
def Obligations.DecompressInvertsCompress : Prop :=
  ∀ (s t r : State) (bs : List Byte), s.Inv → r.Inv → s.status.busy = false → r.status.busy = false →
    s.host = [.writeReg 0 1] → s.nextInput = bs.map Item.data ++ [.eos] → s.nextSink = .neverFails →
    Sys2Proof.core.run 9 s = .next t → t.status.err = false →
    r.host = [.writeReg 0 2] → r.nextInput = t.sinkGot.map Item.data ++ [.eos] →
    r.nextSink = .neverFails → withinCap t.sinkGot.length r.caps.inCap →
    withinCap (ceil8 t.totalBits) r.caps.bitsCap → withinCap t.clen r.caps.cseqCap →
    withinCap bs.length r.caps.outCap →
    ∃ u, Sys2Proof.core.run 9 r = .next u ∧ u.status.word = 0x00002002 ∧ u.sinkGot = bs
      ∧ u.sinkEnd = true

/-! ### The invariant -/

/-- The state after reset is legal. -/
def Obligations.ResetMeetsTheInvariant : Prop := State.reset.Inv

/-- Every step keeps the invariant: STATUS is one of the values of 10 R22 to R24 with the errors of 48 R286
and R292, the memories are canonical, the dictionary and tree have their shape, each stage finds what the
earlier ones leave, and the sink has what 60 R331 says. -/
def Obligations.EveryStepKeepsTheInvariant : Prop :=
  ∀ s t : State, s.Inv → step s = .next t → t.Inv

/-- From a legal state a step always answers a next state: no fault, no refusal (70 R372 "There is no stuck
state"; 20 R66 to 46 R236's "always a valid element"). -/
def Obligations.LegalStatesNeverStop : Prop :=
  ∀ s : State, s.Inv → ∃ t, step s = .next t

/-! ### The host's side of the streams -/

/-- An item the host supplies while a command runs is the last of that command's stream (70 R362, 20 R66,
R67); while none runs it is kept for the next command, as the sink declared then is (the model's choice,
log 8). Nothing else changes. -/
def Obligations.SuppliedItemsJoinTheirStream : Prop :=
  ∀ (s : State) (rest : List HostEvent),
    (∀ x, s.host = .supply x :: rest →
      (s.status.busy = true → step s = .next { s with host := rest, input := s.input ++ [x] })
        ∧ (s.status.busy = false → step s = .next { s with host := rest, nextInput := s.nextInput ++ [x] }))
    ∧ ∀ b, s.host = .sink b :: rest → step s = .next { s with host := rest, nextSink := b }
end

