-- ==== Sys2Proof/Tests/Slice0.lean ====
section
/-! SUPPORT. Tests on small states, with expected values from the words of 30_encoding.md R110 and from the
vectors V<n> of 95_test_vectors.md, and, for every statement with hypotheses, states and operands that
meet them (`witness_<statement>`). -/

namespace Sys2Proof.Tests

set_option Elab.async false

open Sys2Proof Sys2Proof.Machine

/-! ### Helpers -/

/-- The answer is a next state with this property. -/
def answers (o : Host.Outcome State Fault Refusal) (p : State → Bool) : Bool :=
  match o with
  | .next t => p t
  | .fault _ => false
  | .refused _ => false

theorem answers_iff (o : Host.Outcome State Fault Refusal) (p : State → Bool) :
    answers o p = true ↔ ∃ t, o = .next t ∧ p t = true := by
  cases o <;> simp [answers]

/-- The answer is a next state whose command has ended with this error. -/
def raises (o : Host.Outcome State Fault Refusal) (e : Err) : Bool :=
  answers o fun t => t.status.err && t.status.done && !t.status.busy && t.status.errcode == e.code

def bytes (l : List Nat) : List Byte := l.map (BitVec.ofNat 8)
def codes (l : List Nat) : List Code := l.map (BitVec.ofNat 16)

def withIn (s : State) (l : List Nat) : State :=
  { s with inMem := Memory.run 0 (bytes l), inLen := l.length }
def withCodes (s : State) (l : List Nat) : State :=
  { s with cseq := Memory.run 0 (codes l), clen := l.length }
def withOut (s : State) (l : List Nat) : State :=
  { s with outMem := Memory.run 0 (bytes l), outLen := l.length }
def withBits (s : State) (l : List Nat) (n : Nat) : State :=
  { s with bits := Memory.run 0 (bytes l), totalBits := n }
/-- A seeded dictionary with these (prefix, last byte) entries from 256 on. -/
def withDict (s : State) (es : List (Code × Byte)) : State :=
  { s with
    dict := Memory.run 0 (seedEntries ++ es.map fun e => ⟨some e.1, e.2⟩)
    dsize := 256 + es.length }
/-- A running COMPRESS at a stage. -/
def atRun (s : State) (stage : BitVec 4) : State :=
  { s with status := ⟨true, false, false, 0, stage, 1⟩ }
/-- The state after HBUILD.RUN on a table (no answer: the table itself). -/
def withTree (s : State) (m : Memory Nat) : State :=
  match exec .hbuildRun { s with freq := m } with
  | .next t => t
  | .fault _ => s
  | .refused _ => s
def caps4 (a b c d : Option Nat) : State := State.resetWith ⟨a, b, c, d⟩

/-- Frame A of 95_test_vectors.md. -/
def frameA : List Nat :=
  [0, 0, 1, 0, 0, 0, 0, 2, 0, 0x41, 0, 0, 0, 2, 1, 0, 0, 0, 0, 1, 0, 0, 0, 3, 0xA0]

/-- The dictionaries of `withDict` have the shape of 10 R46, R47 when each prefix is an earlier entry and no
record stands twice. -/
theorem withDict_seeded (s : State) (es : List (Code × Byte)) (hl : es.length ≤ 65280)
    (hp : ∀ i (h : i < es.length), (es[i]).1.toNat < 256 + i) (hd : es.Nodup) :
    (withDict s es).dictSeeded := by
  have hs : seedEntries.length = 256 := by simp [seedEntries, Config.seedN]
  have hread : ∀ k, Memory.read (withDict s es).dict k
      = (seedEntries ++ es.map fun e => (⟨some e.1, e.2⟩ : DictEntry))[k]? := by
    intro k; simp [withDict, Memory.read_run]
  have hhigh : ∀ i (h : i < es.length), Memory.read (withDict s es).dict (256 + i)
      = some ⟨some es[i].1, es[i].2⟩ := by
    intro i h
    rw [hread, List.getElem?_append_right (by omega), hs]
    simp [h]
  refine ⟨by simp [withDict], by simp [withDict]; omega, ?_, ?_, ?_⟩
  · intro k hk
    rw [hread, List.getElem?_append_left (by omega)]
    simp [seedEntries, Config.seedN, hk]
  · intro k hk h256
    obtain ⟨i, rfl⟩ := Nat.exists_eq_add_of_le h256
    have hi : i < es.length := by simp [withDict] at hk; omega
    simp [entryShape, hhigh i hi, hp i hi]
  · intro k hk j hj h256
    obtain ⟨a, rfl⟩ := Nat.exists_eq_add_of_le h256
    obtain ⟨b, rfl⟩ := Nat.exists_eq_add_of_le (Nat.le_of_lt (Nat.lt_of_le_of_lt h256 hj))
    have hb : b < es.length := by simp [withDict] at hk; omega
    have ha : a < es.length := by omega
    rw [hhigh a ha, hhigh b hb]
    intro h
    simp at h
    have := (List.Nodup.getElem_inj_iff hd (hi := ha) (hj := hb)).mp (Prod.ext h.1 h.2)
    omega

/-- n entries in which entry k is (k - 1, 0x00); with 65280 of them a dictionary is full. -/
def chain (n : Nat) : List (Code × Byte) := (List.range n).map fun i => (BitVec.ofNat 16 (255 + i), 0)

theorem chain_length (n : Nat) : (chain n).length = n := by simp [chain]

theorem chain_get (n i : Nat) (h : i < (chain n).length) :
    (chain n)[i] = (BitVec.ofNat 16 (255 + i), 0) := by
  simp [chain]

theorem chain_seeded (s : State) (n : Nat) (hn : n ≤ 65280) : (withDict s (chain n)).dictSeeded := by
  refine withDict_seeded s (chain n) (by rwa [chain_length]) ?_ ?_
  · intro i h
    rw [chain_get]
    rw [chain_length] at h
    simp [BitVec.toNat_ofNat]
    omega
  · rw [chain, List.nodup_map_iff_inj_on List.nodup_range]
    intro a ha b hb h
    simp at ha hb
    have := congrArg (fun e : Code × Byte => e.1.toNat) h
    simp [BitVec.toNat_ofNat] at this
    omega

/-! ### WellFormed: what each check refuses -/

theorem test_cmd_word_refused : cmdWordLegal 0x00 = false ∧ cmdWordLegal 0x03 = false := by decide
theorem test_cmd_word_legal : cmdWordLegal 0x01 = true ∧ cmdWordLegal 0x02 = true := by decide
theorem test_uop_unit_refused :
    uopWordLegal 0x00 = false ∧ uopWordLegal 0xD0 = false ∧ uopWordLegal 0xF0 = false := by decide
theorem test_uop_sub_refused :
    uopWordLegal 0x11 = false ∧ uopWordLegal 0x24 = false ∧ uopWordLegal 0x33 = false
      ∧ uopWordLegal 0x43 = false ∧ uopWordLegal 0xC1 = false := by decide
theorem test_word_of_other_format_refused :
    wordLegal .cmd 0x10 = false ∧ wordLegal .uop 0x01 = false := by decide
theorem test_input_without_end_refused :
    inputWf [] = false ∧ inputWf [.data 0x41] = false := by decide
theorem test_input_after_end_refused :
    inputWf [.eos, .data 0x41] = false ∧ inputWf [.fail, .eos] = false := by decide

/-! ### Decode: every operation from its word of 30 R110, written bit by bit (UOP: unit, then sub) -/

theorem test_decode_cmd :
    decode .cmd 0b00000001 = .ok .compress ∧ decode .cmd 0b00000010 = .ok .decompress := ⟨rfl, rfl⟩
theorem test_decode_inrd_outwr :
    decode .uop 0b00010000 = .ok .inrdRun ∧ decode .uop 0b11000000 = .ok .outwrRun := ⟨rfl, rfl⟩
theorem test_decode_dict :
    decode .uop 0b00100000 = .ok .dictSeed ∧ decode .uop 0b00100001 = .ok .dictLookup
      ∧ decode .uop 0b00100010 = .ok .dictRlookup ∧ decode .uop 0b00100011 = .ok .dictInsert :=
  ⟨rfl, rfl, rfl, rfl⟩
theorem test_decode_lzwe :
    decode .uop 0b00110000 = .ok .lzweRun ∧ decode .uop 0b00110001 = .ok .lzweSym
      ∧ decode .uop 0b00110010 = .ok .lzweFlush := ⟨rfl, rfl, rfl⟩
theorem test_decode_lzwd :
    decode .uop 0b01000000 = .ok .lzwdRun ∧ decode .uop 0b01000001 = .ok .lzwdFirst
      ∧ decode .uop 0b01000010 = .ok .lzwdNext := ⟨rfl, rfl, rfl⟩
theorem test_decode_huffman :
    decode .uop 0b01010000 = .ok .freqCount ∧ decode .uop 0b01100000 = .ok .hbuildRun
      ∧ decode .uop 0b01110000 = .ok .hgenRun := ⟨rfl, rfl, rfl⟩
theorem test_decode_bits_frame :
    decode .uop 0b10000000 = .ok .bpackRun ∧ decode .uop 0b10010000 = .ok .bunpkRun
      ∧ decode .uop 0b10100000 = .ok .fwrRun ∧ decode .uop 0b10110000 = .ok .frdRun :=
  ⟨rfl, rfl, rfl, rfl⟩
theorem test_decode_refused :
    decode .cmd 0x10 = .error (.illegalCommand 0x10) ∧ decode .uop 0x01 = .error (.unassignedUop 0x01)
      ∧ decodeBytes .cmd [] = .error .noWord := ⟨rfl, rfl, rfl⟩
theorem test_decode_table_word :
    decodeTableWord 8 0x23 = some .dictInsert ∧ decodeTableWord 8 0x03 = none
      ∧ decodeTableWord 16 0x23 = none := by decide

/-! ### One step from reset -/

theorem test_step_compress :
    answers (step (State.reset.withFetchWord 8 0x01)) (fun t => t.status.word == 0x00001101#32) = true := by
  decide
theorem test_step_freq_count :
    answers (step (State.reset.withFetchWord 8 0x50)) (fun t => t.maxCode == -1) = true := by decide

/-! ### One operation on a small state -/

theorem test_compress_busy_ignored :
    answers (exec .compress (atRun State.reset 5)) (fun t => t.status.stage == 5) = true := by decide
theorem test_decompress_accepted :
    answers (exec .decompress State.reset) (fun t => t.status.word == 0x00002101#32) = true := by decide
theorem test_inrd_run :
    answers (exec .inrdRun { State.reset with input := [.data 0x41, .data 0x42, .eos, .data 0x43] })
      (fun t => t.inLen == 2 && t.inAt 1 == some 0x42 && t.input == [.data 0x43]) = true := by decide
theorem test_inrd_run_fail :
    raises (exec .inrdRun { State.reset with input := [.data 0x41, .fail] }) .resourceError = true := by decide
/-- V1 -/
theorem test_dict_seed :
    answers (exec .dictSeed State.reset)
      (fun t => t.dsize == 256 && t.dictAt 65 == some ⟨none, 0x41⟩ && t.dictAt 255 == some ⟨none, 0xFF⟩)
      = true := by decide +kernel
/-- V2, V3 -/
theorem test_dict_lookup :
    answers (exec .dictLookup { withDict State.reset [] with argB := 0x41 })
        (fun t => t.resCode == some 65) = true
      ∧ answers (exec .dictLookup { withDict State.reset [] with argP := some 65, argB := 0x41 })
        (fun t => t.resCode == none) = true := by decide +kernel
/-- V8 -/
theorem test_dict_rlookup :
    answers (exec .dictRlookup { withDict State.reset [(65, 0x42), (256, 0x41)] with argC := 257 })
        (fun t => t.resStr == some [0x41, 0x42, 0x41]) = true := by decide +kernel
/-- V4, V5 -/
theorem test_dict_insert :
    answers (exec .dictInsert { withDict State.reset [] with argP := some 65, argB := 0x41 })
        (fun t => t.resCode == some 256 && t.dsize == 257 && t.dictAt 256 == some ⟨some 65, 0x41⟩) = true
      ∧ raises (exec .dictInsert { withDict State.reset [(65, 0x41)] with argP := some 65, argB := 0x41 })
        .duplicateEntry = true := by decide +kernel
/-- V10 -/
theorem test_lzwe_run :
    answers (exec .lzweRun (withIn State.reset [0x41, 0x41, 0x41, 0x41]))
      (fun t => t.cseq == Memory.run 0 (codes [65, 256, 65]) && t.clen == 3 && t.dsize == 258) = true := by
  decide +kernel
/-- V20d -/
theorem test_lzwe_run_capacity :
    raises (exec .lzweRun (withIn (caps4 none (some 2) none none) [0x41, 0x41, 0x41, 0x41]))
      .capacityExceeded = true := by decide +kernel
/-- The second symbol of V15 -/
theorem test_lzwe_sym :
    answers (exec .lzweSym { withDict State.reset [] with cur := some 65, argB := 0x42 })
      (fun t => t.codeAt 0 == some 65 && t.cur == some 66 && t.dictAt 256 == some ⟨some 65, 0x42⟩) = true := by
  decide +kernel
theorem test_lzwe_flush :
    answers (exec .lzweFlush { State.reset with cur := some 66 })
      (fun t => t.codeAt 0 == some 66 && t.cur == some 66) = true := by decide
/-- V23 -/
theorem test_lzwd_run :
    answers (exec .lzwdRun (withCodes State.reset [65, 256, 65]))
      (fun t => t.outMem == Memory.run 0 (bytes [0x41, 0x41, 0x41, 0x41]) && t.outLen == 4 && t.dsize == 258)
      = true := by decide +kernel
/-- V29 -/
theorem test_lzwd_run_duplicate :
    raises (exec .lzwdRun (withCodes State.reset [65, 65, 65])) .duplicateEntry = true := by decide +kernel
/-- V21, V28 -/
theorem test_lzwd_first :
    answers (exec .lzwdFirst { withDict State.reset [] with argC := 65 })
        (fun t => t.outAt 0 == some 0x41 && t.prev == 65) = true
      ∧ raises (exec .lzwdFirst { withDict State.reset [] with argC := 256 }) .invalidCode = true := by
  decide +kernel
/-- The second code of V24 and of V28a -/
theorem test_lzwd_next :
    answers (exec .lzwdNext { withDict State.reset [] with prev := 65, argC := 256 })
        (fun t => t.outMem == Memory.run 0 (bytes [0x41, 0x41]) && t.dictAt 256 == some ⟨some 65, 0x41⟩) = true
      ∧ raises (exec .lzwdNext { withDict State.reset [] with prev := 65, argC := 257 }) .invalidCode
        = true := by decide +kernel
/-- V30b -/
theorem test_freq_count :
    answers (exec .freqCount (withCodes State.reset [66, 65, 78, 257, 65]))
      (fun t => t.freq == [(65, 2), (66, 1), (78, 1), (257, 1)] && t.entryCnt == 4 && t.maxCode == 257)
      = true := by decide +kernel
/-- V32 -/
theorem test_hbuild_run :
    answers (exec .hbuildRun { State.reset with freq := [(65, 2), (66, 1), (78, 1), (257, 1)] })
      (fun t => t.nodeAt 4 == some (.internal 2 66 1 2) && t.nodeAt 5 == some (.internal 3 65 3 0)
        && t.nodeAt 6 == some (.internal 5 65 4 5) && t.root == 6 && t.nnodes == 7) = true := by
  decide +kernel
/-- V33 -/
theorem test_hbuild_run_tie :
    answers (exec .hbuildRun { State.reset with freq := [(1, 1), (2, 1), (3, 2)] })
      (fun t => t.nodeAt 3 == some (.internal 2 1 0 1) && t.nodeAt 4 == some (.internal 4 1 3 2)) = true := by
  decide +kernel
/-- V36 -/
theorem test_hgen_run :
    answers (exec .hgenRun (withTree State.reset [(65, 2), (66, 1), (78, 1), (257, 1)]))
      (fun t => t.ctab == [(65, [true, true]), (66, [false, false]), (78, [false, true]), (257, [true, false])])
      = true := by decide +kernel
/-- V37 -/
theorem test_hgen_run_one_leaf :
    answers (exec .hgenRun (withTree State.reset [(7, 100)])) (fun t => t.ctab == [(7, [false])])
      = true := by decide +kernel
/-- V39 -/
theorem test_bpack_run :
    answers (exec .bpackRun { withCodes State.reset [66, 65, 78, 257, 65] with
        ctab := [(65, [true, true]), (66, [false, false]), (78, [false, true]), (257, [true, false])] })
      (fun t => t.bits == Memory.run 0 (bytes [0x36, 0xC0]) && t.totalBits == 10) = true := by decide +kernel
/-- V40b -/
theorem test_bpack_run_unknown_code :
    raises (exec .bpackRun { withCodes State.reset [65, 256, 65] with ctab := [(65, [true])] })
      .unknownCodeDuringEncode = true := by decide +kernel
/-- V46, V46a -/
theorem test_bunpk_run :
    answers (exec .bunpkRun (withBits (withTree State.reset [(65, 2), (66, 1), (78, 1), (257, 1)]) [0x36, 0xC0] 10))
      (fun t => t.cseq == Memory.run 0 (codes [66, 65, 78, 257, 65]) && t.clen == 5) = true
      ∧ raises (exec .bunpkRun
          (withBits (withTree State.reset [(65, 2), (66, 1), (78, 1), (257, 1)]) [0x36, 0xC0] 9))
        .malformedFrame = true := by decide +kernel
/-- V47a -/
theorem test_bunpk_run_one_leaf :
    raises (exec .bunpkRun (withBits (withTree State.reset [(7, 100)]) [0x80] 1)) .malformedFrame = true := by
  decide +kernel
/-- V50 -/
theorem test_fwr_run :
    answers (exec .fwrRun { withBits State.reset [0xA0] 3 with
        maxCode := 256, entryCnt := 2, freq := [(65, 2), (256, 1)] })
      (fun t => t.outMem == Memory.run 0 (bytes frameA) && t.outLen == 25) = true := by decide +kernel
/-- V52b -/
theorem test_fwr_run_overflow :
    raises (exec .fwrRun { State.reset with
        maxCode := 65, entryCnt := 1, freq := [(65, 2147483648)] }) .fieldOverflow = true := by decide
/-- V53's frame at FRD -/
theorem test_frd_run :
    answers (exec .frdRun (withIn State.reset frameA))
      (fun t => t.maxCode == 256 && t.entryCnt == 2 && t.freq == [(65, 2), (256, 1)] && t.totalBits == 3
        && t.bits == Memory.run 0 (bytes [0xA0])) = true := by decide +kernel
/-- V62, V66 -/
theorem test_frd_run_refused :
    raises (exec .frdRun (withIn State.reset ((frameA.take 14) ++ [0, 0x41] ++ frameA.drop 16)))
        .malformedFrame = true
      ∧ raises (exec .frdRun (withIn State.reset (frameA.take 24))) .truncatedInput = true := by
  decide +kernel
theorem test_outwr_run :
    answers (exec .outwrRun (withOut State.reset [0x41, 0x42]))
      (fun t => t.sinkGot == [0x41, 0x42] && t.sinkEnd && t.offers == 3) = true := by decide
theorem test_outwr_run_fail :
    answers (exec .outwrRun { withOut State.reset [0x41, 0x42] with sink := .failsAt 1 })
      (fun t => t.sinkGot == [0x41] && !t.sinkEnd && t.status.errcode == 5) = true := by decide

/-! ### States and operands that meet the statements' hypotheses -/

theorem witness_ResetEventMakesIdle :
    ({ atRun State.reset 8 with host := [.reset, .readReg 1] } : State).host = .reset :: [.readReg 1] := rfl

theorem witness_FieldNumbersRoundTrip :
    (65535 : Nat) < 256 ^ 2 ∧ -(2 ^ 31) ≤ (-(2 ^ 31) : Int) ∧ (-(2 ^ 31) : Int) < 2 ^ 31 := by decide

theorem witness_DecodeEncodeAgree : decode .uop 0xC0 = .ok .outwrRun := rfl

/-- One state for each case of the host's script. -/
theorem witness_StepRunsDecodedUnitOperation :
    (atRun State.reset 5).status.busy = true
      ∧ decode .uop ((atRun State.reset 5).status.stage ++ (atRun State.reset 5).sub) = .ok .freqCount
      ∧ (atRun State.reset 5).host = []
      ∧ ({ atRun State.reset 5 with host := [.run] } : State).host = .run :: []
      ∧ ({ atRun State.reset 5 with host := [.wait] } : State).host = .wait :: [] := ⟨rfl, rfl, rfl, rfl, rfl⟩

theorem witness_StepRunsDecodedCommand :
    ({ State.reset with host := [.writeReg 0 0xFFFFFF02] } : State).status.busy = false
      ∧ ({ State.reset with host := [.writeReg 0 0xFFFFFF02] } : State).host = .writeReg 0 0xFFFFFF02 :: []
      ∧ decode .cmd (BitVec.ofNat 8 ((0xFFFFFF02 : RegWord).toNat % 256)) = .ok .decompress :=
  ⟨rfl, rfl, rfl⟩

/-- Ended; waiting; after FREQ.COUNT of a COMPRESS (both of R296's choices); before OUTWR's end. -/
theorem witness_SequencerFollowsFixedOrder :
    State.reset.status.busy = false
      ∧ ({ atRun State.reset 1 with inOp := true } : State).inOp = true
      ∧ ((atRun State.reset 5).status.busy = true ∧ (atRun State.reset 5).inOp = false
        ∧ (atRun State.reset 5).status.op = 1
        ∧ (Instr.freqCount, (10 : BitVec 4)) ∈ [(Instr.inrdRun, (3 : BitVec 4)), (.lzweRun, 5),
              (.freqCount, if (atRun State.reset 5).clen = 0 then 10 else 6)])
      ∧ (Instr.freqCount, (6 : BitVec 4)) ∈ [(Instr.inrdRun, (3 : BitVec 4)), (.lzweRun, 5),
              (.freqCount, if (withCodes (atRun State.reset 5) [65]).clen = 0 then 10 else 6)]
      ∧ ({ atRun State.reset 12 with status := ⟨true, false, false, 0, 12, 2⟩ } : State).status.op = 2 := by
  decide

theorem witness_LegalCommandIsAccepted :
    State.reset.status.busy = false
      ∧ ((Instr.compress = .compress ∧ (1 : BitVec 2) = 1) ∨ Instr.compress = .decompress ∧ (1 : BitVec 2) = 2)
      ∧ ((Instr.decompress = .compress ∧ (2 : BitVec 2) = 1)
        ∨ Instr.decompress = .decompress ∧ (2 : BitVec 2) = 2) := by decide

/-- CMD while BUSY = 1; the first and a far register number that is not CMD. -/
theorem witness_IgnoredWritesChangeNothing :
    (({ atRun State.reset 3 with host := [.writeReg 0 1] } : State).host = .writeReg 0 1 :: []
        ∧ (atRun State.reset 3).status.busy = true)
      ∧ ({ State.reset with host := [.writeReg 1 1] } : State).host = .writeReg 1 1 :: []
      ∧ (1 : Nat) ≠ 0
      ∧ ({ State.reset with host := [.writeReg 9 1] } : State).host = .writeReg 9 1 :: [] ∧ (9 : Nat) ≠ 0 := by
  decide

/-- The words beside the legal ones. -/
theorem witness_IllegalCommandWordRaises :
    State.reset.status.busy = false
      ∧ ({ State.reset with host := [.writeReg 0 256] } : State).host = .writeReg 0 256 :: []
      ∧ (∀ n ∈ [0, 3, 255, 256], (BitVec.ofNat 32 n).toNat % 256 ≠ 1 ∧ (BitVec.ofNat 32 n).toNat % 256 ≠ 2) := by
  decide

/-- A state after a command that ended without error, with CLEN at the two sides of 2^32. -/
def endedState (n : Nat) : State :=
  { State.reset with status := ⟨false, true, false, 0, 0, 1⟩, clen := n, host := [.readReg 4] }

theorem witness_RegisterReadsReturnTheirValue :
    (endedState 5).host = .readReg 4 :: []
      ∧ (∀ n ∈ [0, 1, 2, 6, 8, 9],
        ({ endedState 5 with host := [.readReg n] } : State).host = .readReg n :: [])
      ∧ (endedState 5).status.done = true ∧ (endedState 5).status.err = false
      ∧ (4, 4294967295) ∈ [(2, 0), (3, 0), (4, (endedState 4294967295).clen)] ∧ 4294967295 < 2 ^ 32
      ∧ (4, 4294967296) ∈ [(2, 0), (3, 0), (4, (endedState 4294967296).clen)] ∧ 2 ^ 32 ≤ 4294967296
      ∧ (2 ≤ 2 ∧ 2 ≤ 8 ∧ ¬ (State.reset.status.done = true ∧ State.reset.status.err = false)) := by decide

/-- An operation that ends and one that raises. -/
theorem witness_UnitOperationsRaiseOnlyTheirErrors :
    (Instr.freqCount ≠ .compress ∧ Instr.freqCount ≠ .decompress
        ∧ answers (exec .freqCount (withCodes State.reset [65])) (fun t => t.status == State.reset.status) = true)
      ∧ (Instr.lzwdRun ≠ .compress ∧ Instr.lzwdRun ≠ .decompress
        ∧ answers (exec .lzwdRun State.reset)
          (fun t => t.status == State.reset.status.raised .emptyCodeSequenceOnDecode) = true) := by decide

theorem witness_StreamsMoveOnlyAtTheBoundaryUnits :
    (Instr.outwrRun ≠ .compress ∧ Instr.outwrRun ≠ .decompress
        ∧ answers (exec .outwrRun (withOut State.reset [0x41])) (fun t => t.input == []) = true)
      ∧ (Instr.inrdRun ≠ .compress ∧ Instr.inrdRun ≠ .decompress
        ∧ answers (exec .inrdRun { State.reset with input := [.eos] }) (fun t => t.offers == 0) = true) := by decide

theorem witness_DictionaryOnlyGrows :
    Instr.dictInsert ∉ [Instr.compress, .decompress, .dictSeed, .lzweRun, .lzwdRun]
      ∧ answers (exec .dictInsert { withDict State.reset [] with argP := some 65, argB := 0x41 })
        (fun t => t.dsize == 257) = true := by decide +kernel

theorem seeded (s : State) : (withDict s []).dictSeeded :=
  withDict_seeded s [] (by simp) (by simp) (by simp)

theorem seeded_one (s : State) : (withDict s [(65, 0x41)]).dictSeeded :=
  withDict_seeded s _ (by decide) (by simp) (by simp)

theorem withDict_wf (s : State) (es : List (Code × Byte)) : Memory.wf (withDict s es).dict :=
  Memory.wf_run 0 _

theorem withDict_dsize (s : State) (es : List (Code × Byte)) : (withDict s es).dsize = 256 + es.length := rfl

/-- No entry from 256 on below 256. -/
theorem no_entries {m : Memory DictEntry} {x : Option DictEntry} :
    ∀ k, 256 ≤ k → k < 256 → Memory.read m k ≠ x := fun k h h' => absurd h' (by omega)

theorem chain_dsize (s : State) (n : Nat) : (withDict s (chain n)).dsize = 256 + n := by
  rw [withDict_dsize, chain_length]

theorem chain_read (s : State) (n k : Nat) (h : 256 ≤ k) (h' : k < 256 + n) :
    Memory.read (withDict s (chain n)).dict k = some ⟨some (BitVec.ofNat 16 (k - 1)), 0⟩ := by
  have hs : seedEntries.length = 256 := by simp [seedEntries, Config.seedN]
  obtain ⟨i, rfl⟩ := Nat.exists_eq_add_of_le h
  have hi : i < (chain n).length := by rw [chain_length]; omega
  have hg := chain_get n i hi
  have he : 256 + i - 1 = 255 + i := by omega
  simp only [withDict, Memory.read_run]
  rw [if_pos (by omega), Nat.sub_zero, List.getElem?_append_right (by omega), hs]
  simp only [Nat.add_sub_cancel_left, List.getElem?_map, List.getElem?_eq_getElem hi, hg, Option.map_some, he]

/-- No entry of a chain has another last byte, or a prefix that is no entry but the last. -/
theorem chain_ne (s : State) (n : Nat) (p : Code) (b : Byte) (hn : n ≤ 65280)
    (h : b ≠ 0 ∨ p.toNat = 255 + n) :
    ∀ k, 256 ≤ k → k < 256 + n → Memory.read (withDict s (chain n)).dict k ≠ some ⟨some p, b⟩ := by
  intro k hk hk' he
  rw [chain_read s n k hk hk'] at he
  simp at he
  rcases h with h | h
  · exact h he.2.symm
  · rw [← he.1, BitVec.toNat_ofNat] at h
    omega

/-- Prefix NONE; a prefix with a hit; a prefix without one. -/
theorem witness_LookupFindsTheEntry :
    Memory.wf (withDict State.reset [(65, 0x41)]).dict ∧ (withDict State.reset [(65, 0x41)]).dsize ≤ 65536
      ∧ (withDict State.reset [(65, 0x41)]).argP = none
      ∧ answers (exec .dictLookup { withDict State.reset [(65, 0x41)] with argP := some 65, argB := 0x41 })
        (fun t => t.resCode == some 256) = true
      ∧ answers (exec .dictLookup { withDict State.reset [(65, 0x41)] with argP := some 65, argB := 0x42 })
        (fun t => t.resCode == none) = true :=
  ⟨withDict_wf _ _, by decide, rfl, by decide +kernel, by decide +kernel⟩

theorem witness_RlookupSpellsTheEntry :
    (withDict State.reset [(65, 0x41)]).dictSeeded
      ∧ Memory.read (withDict State.reset [(65, 0x41)]).dict 256 = some ⟨some 65, 0x41⟩ :=
  ⟨seeded_one _, by decide +kernel⟩

/-- The first free entry. -/
theorem witness_InsertAddsTheNextEntry :
    Memory.wf ({ withDict State.reset [] with argP := some 255, argB := 0x41 } : State).dict
      ∧ ({ withDict State.reset [] with argP := some 255, argB := 0x41 } : State).argP = some 255
      ∧ (255 : Code).toNat < (withDict State.reset []).dsize ∧ (withDict State.reset []).dsize < 65536
      ∧ ∀ k, 256 ≤ k → k < 256 → Memory.read (withDict State.reset []).dict k ≠ some ⟨some 255, 0x41⟩ :=
  ⟨withDict_wf State.reset [], rfl, by decide, by decide, no_entries⟩

/-- A present string and then an absent one, both in a full dictionary; no prefix; the first absent prefix. -/
theorem witness_InsertRefusesInOrder :
    (∀ p b, Memory.wf ({ withDict State.reset (chain 65280) with argP := some p, argB := b } : State).dict
        ∧ ({ withDict State.reset (chain 65280) with argP := some p, argB := b } : State).dsize = 65536
        ∧ ({ withDict State.reset (chain 65280) with argP := some p, argB := b } : State).argP = some p
        ∧ p.toNat < ({ withDict State.reset (chain 65280) with argP := some p, argB := b } : State).dsize)
      ∧ Memory.read (withDict State.reset (chain 65280)).dict (256 + 65279)
          = some ⟨some (BitVec.ofNat 16 65534), 0⟩
      ∧ (∀ k, 256 ≤ k → k < 256 + 65280 →
          Memory.read (withDict State.reset (chain 65280)).dict k ≠ some ⟨some 65535, 0x41⟩)
      ∧ State.reset.argP = none
      ∧ (∃ p : Code, ({ withDict State.reset [] with argP := some 256 } : State).argP = some p
        ∧ (withDict State.reset []).dsize ≤ p.toNat) := by
  have hd := chain_dsize State.reset 65280
  refine ⟨fun p b => ⟨withDict_wf State.reset (chain 65280), hd, rfl, ?_⟩, ?_,
    chain_ne _ _ _ _ (by omega) (.inl (by decide)), rfl, 256, rfl, by decide⟩
  · exact Nat.lt_of_lt_of_eq p.isLt hd.symm
  · rw [chain_read _ _ _ (by omega) (by omega), show 256 + 65279 - 1 = 65534 by omega]

theorem witness_InsertKeepsDictionaryShape :
    Memory.wf (withDict State.reset []).dict ∧ (withDict State.reset []).dictSeeded
      ∧ answers (exec .dictInsert { withDict State.reset [] with argP := some 65 }) (fun t => t.dsize == 257)
        = true := ⟨withDict_wf State.reset [], seeded _, by decide +kernel⟩

/-- An empty match; a match whose extension is entry 256. -/
theorem witness_SymbolExtendsTheMatch :
    Memory.wf (withDict State.reset [(65, 0x41)]).dict ∧ (withDict State.reset [(65, 0x41)]).dictSeeded
      ∧ (withDict State.reset [(65, 0x41)]).cur = none
      ∧ ({ withDict State.reset [(65, 0x41)] with cur := some 65 } : State).cur = some 65
      ∧ Memory.read (withDict State.reset [(65, 0x41)]).dict 256 = some ⟨some 65, 0x41⟩
      ∧ 256 < (withDict State.reset [(65, 0x41)]).dsize :=
  ⟨withDict_wf _ _, seeded_one _, rfl, rfl, by decide +kernel, by decide⟩

/-- The last present code as the match; CSEQ full; the dictionary full; room for both. -/
theorem witness_SymbolMissEmitsAndInserts :
    (Memory.wf ({ withDict (caps4 none (some 0) none none) [] with cur := some 255 } : State).dict
        ∧ (255 : Code).toNat < (withDict (caps4 none (some 0) none none) []).dsize
        ∧ (∀ k, 256 ≤ k → k < 256 →
          Memory.read (withDict (caps4 none (some 0) none none) []).dict k ≠ some ⟨some 255, 0⟩)
        ∧ (caps4 none (some 0) none none).caps.cseqCap = some (caps4 none (some 0) none none).clen)
      ∧ (State.reset.caps.cseqCap ≠ some State.reset.clen ∧ (withDict State.reset []).dsize < 65536)
      ∧ ((withDict State.reset (chain 65280)).dsize = 65536
        ∧ Memory.wf (withDict State.reset (chain 65280)).dict
        ∧ (65535 : Code).toNat < (withDict State.reset (chain 65280)).dsize
        ∧ ∀ k, 256 ≤ k → k < 256 + 65280 →
          Memory.read (withDict State.reset (chain 65280)).dict k ≠ some ⟨some 65535, 0⟩) := by
  have h1 : 65535 < 256 + 65280 := by omega
  rw [chain_dsize]
  exact ⟨⟨withDict_wf (caps4 none (some 0) none none) [], by decide, no_entries, rfl⟩, ⟨by decide, by decide⟩,
    by omega, withDict_wf _ _, h1, chain_ne _ _ _ _ (by omega) (.inr (by decide))⟩

theorem witness_FlushEmitsTheMatch :
    State.reset.cur = none
      ∧ ({ caps4 none (some 0) none none with cur := some 65 } : State).cur = some 65
      ∧ (caps4 none (some 0) none none).caps.cseqCap = some (caps4 none (some 0) none none).clen
      ∧ State.reset.caps.cseqCap ≠ some State.reset.clen := by decide

/-- CSEQ with no place to spare. -/
theorem witness_EncoderIsStringLzw :
    Memory.wf (withIn (caps4 none (some 3) none none) [65, 65, 65, 65]).dict
      ∧ (withIn (caps4 none (some 3) none none) [65, 65, 65, 65]).holdsInput (bytes [65, 65, 65, 65])
      ∧ (lzwInserted (bytes [65, 65, 65, 65])).length ≤ 65280
      ∧ withinCap (lzwCodes (bytes [65, 65, 65, 65])).length (some 3) := by decide +kernel

theorem witness_EncoderOutputSpellsTheInput :
    Memory.wf (withIn State.reset [65, 65, 65, 65]).dict
      ∧ (withIn State.reset [65, 65, 65, 65]).holdsInput (bytes [65, 65, 65, 65])
      ∧ (withIn State.reset [65, 65, 65, 65]).status.err = false
      ∧ answers (exec .lzweRun (withIn State.reset [65, 65, 65, 65])) (fun t => !t.status.err) = true := by
  decide +kernel

/-- The codes on both sides of 256; OUT full and not full; no code, with an empty dictionary. -/
theorem witness_FirstCodeGivesItsByte :
    (∀ (s : State) (c : Code), ({ withDict s [] with argC := c } : State).dictSeeded
        ∧ ({ withDict s [] with argC := c } : State).dsize = 256)
      ∧ 256 ≤ (256 : Code).toNat ∧ (255 : Code).toNat < 256
      ∧ overCap ((caps4 none none none (some 0)).outLen + 1) (some 0) = true
      ∧ withinCap ((caps4 none none none (some 1)).outLen + 1) (some 1)
      ∧ State.reset.clen = 0 ∧ State.reset.dsize = 0 :=
  ⟨fun s _ => ⟨seeded s, rfl⟩, by decide, by decide, by decide, by decide, rfl, rfl⟩

/-- LZWD.NEXT's operands: a dictionary, OUT_CAP, PREV and the code. -/
def nextState (cap : Option Nat) (es : List (Code × Byte)) (prev c : Code) : State :=
  { withDict (caps4 none none none cap) es with prev := prev, argC := c }

/-- A full dictionary without (65535, 0x41). -/
theorem next_full (n : Nat) (hn : n = 65280) :
    (nextState none (chain n) 65535 65).dictSeeded
      ∧ (nextState none (chain n) 65535 65).dsize = 65536
      ∧ (65535 : Code).toNat < 256 + n
      ∧ str (nextState none (chain n) 65535 65).dict (65 : Code).toNat = some [0x41]
      ∧ ∀ k, 256 ≤ k → k < 256 + n →
        Memory.read (nextState none (chain n) 65535 65).dict k ≠ some ⟨some 65535, 0x41⟩ := by
  have h1 : 65535 < 256 + n := by omega
  refine ⟨chain_seeded (caps4 none none none none) n (by omega), ?_, h1, by simp [str, strAt, Config.seedN],
    chain_ne (caps4 none none none none) n _ _ (by omega) (.inl (by decide))⟩
  exact (chain_dsize (caps4 none none none none) n).trans (by omega)

/-- One state for each branch: a code above DSIZE; OUT one byte short, and exactly large enough, for a present
code and for c = DSIZE; a present string; an absent one with room; an absent one in a full dictionary. -/
theorem witness_NextCodeAppendsAndInserts :
    (∀ cap prev c, (Memory.wf (nextState cap [(65, 0x41)] prev c).dict
        ∧ (nextState cap [(65, 0x41)] prev c).dictSeeded ∧ (nextState cap [(65, 0x41)] prev c).dsize = 257))
      ∧ (256 : Code).toNat < 257 ∧ 257 < (258 : Code).toNat
      ∧ (str (nextState none [(65, 0x41)] 65 256).dict (256 : Code).toNat = some [0x41, 0x41]
        ∧ overCap (0 + [(0x41 : Byte), 0x41].length) (some 1) = true
        ∧ withinCap (0 + [(0x41 : Byte), 0x41].length) (some 2))
      ∧ ((257 : Code).toNat = 257 ∧ str (nextState none [(65, 0x41)] 256 257).dict (256 : Code).toNat
          = some [0x41, 0x41] ∧ ([0x41, 0x41, 0x41] : List Byte) = 0x41 :: [0x41] ++ [0x41]
        ∧ withinCap (0 + [(0x41 : Byte), 0x41, 0x41].length) (some 3))
      ∧ Memory.read (nextState none [(65, 0x41)] 65 65).dict 256 = some ⟨some 65, 0x41⟩
      ∧ (∀ k, 256 ≤ k → k < 257 →
        Memory.read (nextState none [(65, 0x41)] 256 257).dict k ≠ some ⟨some 256, 0x41⟩)
      ∧ ((nextState none (chain 65280) 65535 65).dictSeeded
        ∧ (nextState none (chain 65280) 65535 65).dsize = 65536
        ∧ (65535 : Code).toNat < 256 + 65280
        ∧ str (nextState none (chain 65280) 65535 65).dict (65 : Code).toNat = some [0x41]
        ∧ ∀ k, 256 ≤ k → k < 256 + 65280 →
          Memory.read (nextState none (chain 65280) 65535 65).dict k ≠ some ⟨some 65535, 0x41⟩) := by
  refine ⟨fun cap prev c => ⟨withDict_wf (caps4 none none none cap) [(65, 0x41)],
    seeded_one (caps4 none none none cap), rfl⟩, by decide, by decide,
    by decide +kernel, by decide +kernel, by decide +kernel, ?_, ?_⟩
  · intro k h h'
    obtain rfl : k = 256 := by omega
    decide +kernel
  · exact next_full 65280 rfl

theorem witness_DecoderInvertsStringLzw :
    Memory.wf (withCodes (caps4 none none none (some 4)) [65, 256, 65]).dict
      ∧ bytes [65, 65, 65, 65] ≠ [] ∧ (lzwInserted (bytes [65, 65, 65, 65])).length ≤ 65280
      ∧ (withCodes (caps4 none none none (some 4)) [65, 256, 65]).holdsCodes
        ((lzwCodes (bytes [65, 65, 65, 65])).map (BitVec.ofNat 16))
      ∧ withinCap (bytes [65, 65, 65, 65]).length (some 4) := by decide +kernel

theorem witness_LzwUnitsAreInverse :
    Memory.wf (withIn State.reset [65, 65, 65, 65]).dict
      ∧ Memory.wf (withCodes State.reset [65, 256, 65]).dict
      ∧ (withIn State.reset [65, 65, 65, 65]).holdsInput (bytes [65, 65, 65, 65])
      ∧ bytes [65, 65, 65, 65] ≠ [] ∧ (withIn State.reset [65, 65, 65, 65]).status.err = false
      ∧ answers (exec .lzweRun (withIn State.reset [65, 65, 65, 65]))
        (fun t => !t.status.err && decide (t.holdsCodes (codes [65, 256, 65]))) = true
      ∧ (withCodes State.reset [65, 256, 65]).holdsCodes (codes [65, 256, 65])
      ∧ withinCap (bytes [65, 65, 65, 65]).length (withCodes State.reset [65, 256, 65]).caps.outCap := by
  decide +kernel

/-- Some codes; the largest code; none. -/
theorem witness_FrequenciesAreCounted :
    (withCodes State.reset [65, 256, 65]).freq = []
      ∧ (withCodes State.reset [65, 256, 65]).holdsCodes (codes [65, 256, 65])
      ∧ (withCodes State.reset [65535]).holdsCodes (codes [65535])
      ∧ State.reset.holdsCodes [] := by decide

/-- One leaf, of the largest code; and two. -/
theorem witness_TreeHasItsShape :
    (freqWf [(65535, 1)] ∧ (∀ e ∈ [((65535 : Nat), 1)], e.1 < 65536) ∧ [((65535 : Nat), 1)] ≠ [])
      ∧ freqWf [(65, 2), (256, 1)] ∧ (∀ e ∈ [((65 : Nat), 2), (256, 1)], e.1 < 65536)
      ∧ [((65 : Nat), 2), (256, 1)] ≠ [] := by decide

/-- V33 at its first internal node, with code 3's leaf not yet combined. -/
theorem witness_TreeJoinsTheTwoSmallest :
    freqWf [(1, 1), (2, 1), (3, 2)] ∧ (∀ e ∈ [((1 : Nat), 1), (2, 1), (3, 2)], e.1 < 65536)
      ∧ [((1 : Nat), 1), (2, 1), (3, 2)] ≠ [] ∧ [((1 : Nat), 1), (2, 1), (3, 2)].length ≤ 3
      ∧ answers (exec .hbuildRun { State.reset with freq := [(1, 1), (2, 1), (3, 2)] }) (fun t =>
        t.nodeAt 3 == some (.internal 2 1 0 1) && t.nodeAt 0 == some (.leaf 1 1)
          && t.nodeAt 1 == some (.leaf 2 1) && t.nodeAt 2 == some (.leaf 3 2)
          && !(childOf t 0 2 || childOf t 1 2 || childOf t 2 2)) = true := by decide +kernel

/-- The same table with nothing in TREE and with an old tree there. -/
theorem witness_TreeDependsOnTheTableAlone :
    ({ State.reset with freq := [(65, 2), (256, 1)] } : State).freq
        = ({ withTree State.reset [(7, 100)] with freq := [(65, 2), (256, 1)] } : State).freq
      ∧ State.reset.ctab = [] ∧ (withTree State.reset [(7, 100)]).ctab = []
      ∧ answers (exec .hbuildRun { State.reset with freq := [(65, 2), (256, 1)] })
        (fun t => answers (exec .hgenRun t) fun _ => true) = true
      ∧ answers (exec .hbuildRun { withTree State.reset [(7, 100)] with freq := [(65, 2), (256, 1)] })
        (fun t => answers (exec .hgenRun t) fun _ => true) = true := by decide +kernel

theorem witness_EmptyTableHasNoBehaviour :
    State.reset.freq = [] ∧ State.reset.nnodes = 0
      ∧ (withBits State.reset [0x80] 1).nnodes = 0 ∧ (withBits State.reset [0x80] 1).holdsBits [true] := by
  decide

/-- The table of V31 and its tree; and one leaf. -/
theorem witness_CodeWordsArePaths :
    freqWf (withTree State.reset [(65, 2), (256, 1)]).freq
      ∧ (∀ e ∈ (withTree State.reset [(65, 2), (256, 1)]).freq, e.1 < 65536)
      ∧ (withTree State.reset [(65, 2), (256, 1)]).treeOk
      ∧ (withTree State.reset [(65, 2), (256, 1)]).ctab = []
      ∧ (withTree State.reset [(7, 100)]).treeOk := by
  refine ⟨?_, ?_, ?_, ?_, ?_⟩ <;> decide +kernel

theorem witness_CodeTableIsPrefixFree :
    freqWf (withTree State.reset [(65, 2), (256, 1)]).freq
      ∧ (∀ e ∈ (withTree State.reset [(65, 2), (256, 1)]).freq, e.1 < 65536)
      ∧ (withTree State.reset [(65, 2), (256, 1)]).treeOk
      ∧ (withTree State.reset [(65, 2), (256, 1)]).ctab = []
      ∧ answers (exec .hgenRun (withTree State.reset [(65, 2), (256, 1)])) (fun t =>
        Memory.read t.ctab (65 : Code).toNat == some [true]
          && Memory.read t.ctab (256 : Code).toNat == some [false]) = true
      ∧ (65 : Code) ≠ 256 := by
  refine ⟨?_, ?_, ?_, ?_, ?_, ?_⟩ <;> decide +kernel

/-- BPACK.RUN's operands. -/
def packState (cap : Option Nat) (cs : List Nat) (t : Memory (List Bool)) : State :=
  { withCodes (caps4 none none cap none) cs with ctab := t }

/-- V38, with BITS full to its last byte. -/
theorem witness_PackerConcatenatesWords :
    (packState (some 1) [65, 256, 65] [(65, [true]), (256, [false])]).holdsCodes (codes [65, 256, 65])
      ∧ (codes [65, 256, 65]).map
          (fun c => Memory.read (packState (some 1) [65, 256, 65] [(65, [true]), (256, [false])]).ctab c.toNat)
        = [[true], [false], [true]].map some
      ∧ withinCap (ceil8 ([[true], [false], [true]] : List (List Bool)).flatten.length)
        (packState (some 1) [65, 256, 65] [(65, [true]), (256, [false])]).caps.bitsCap := by decide

/-- V40b: words before the unknown code, BITS full to its last byte; V40c: no byte to write to. -/
theorem witness_PackerRefusals :
    ((packState (some 1) [65, 256] [(65, [true])]).holdsCodes (codes [65] ++ (256 : Code) :: [])
        ∧ (codes [65]).map (fun d => Memory.read (packState (some 1) [65, 256] [(65, [true])]).ctab d.toNat)
          = [[true]].map some
        ∧ withinCap (ceil8 ([[true]] : List (List Bool)).flatten.length) (some 1)
        ∧ Memory.read (packState (some 1) [65, 256] [(65, [true])]).ctab (256 : Code).toNat = none)
      ∧ (packState (some 0) [65] [(65, [true])]).holdsCodes (codes [65])
      ∧ (codes [65]).map (fun d => Memory.read (packState (some 0) [65] [(65, [true])]).ctab d.toNat)
        = [[true]].map some
      ∧ overCap (ceil8 ([[true]] : List (List Bool)).flatten.length) (some 0) = true := by decide

/-- V45, with CSEQ full to its last code. -/
theorem witness_UnpackerRecoversTheCodes :
    (withBits (withTree (caps4 none (some 3) none none) [(65, 2), (256, 1)]) [0xA0] 3).treeOk
      ∧ (codes [65, 256, 65]).length = [[true], [false], [true]].length
      ∧ (∀ p ∈ (codes [65, 256, 65]).zip [[true], [false], [true]],
        (withBits (withTree (caps4 none (some 3) none none) [(65, 2), (256, 1)]) [0xA0] 3).wordOf p.1 p.2)
      ∧ (withBits (withTree (caps4 none (some 3) none none) [(65, 2), (256, 1)]) [0xA0] 3).holdsBits
        [[true], [false], [true]].flatten
      ∧ withinCap (codes [65, 256, 65]).length (some 3) := by
  refine ⟨by decide +kernel, rfl, ?_, by decide +kernel, by decide⟩
  simp only [codes, List.map, List.zip_cons_cons, List.zip_nil_right, List.forall_mem_cons]
  refine ⟨?_, ?_, ?_, by simp⟩ <;> decide +kernel

/-- V46a's cut word; V47a's one leaf; V49's full CSEQ. -/
theorem witness_UnpackerRefusals :
    ((withBits (withTree State.reset [(1, 1), (2, 1), (3, 2)]) [0x00] 1).treeOk
        ∧ internalNode ((withTree State.reset [(1, 1), (2, 1), (3, 2)]).follow
          (withTree State.reset [(1, 1), (2, 1), (3, 2)]).root [false]) = true
        ∧ (withBits (withTree State.reset [(1, 1), (2, 1), (3, 2)]) [0x00] 1).holdsBits ([] ++ [false]))
      ∧ ((withBits (withTree State.reset [(7, 100)]) [0x80] 1).treeOk
        ∧ (withTree State.reset [(7, 100)]).nnodes = 1
        ∧ (withBits (withTree State.reset [(7, 100)]) [0x80] 1).holdsBits ([] ++ true :: []))
      ∧ ((withBits (withTree State.reset [(7, 100)]) [0x00] 1).wordOf 7 [false]
        ∧ overCap [(7 : Code)].length (some 0) = true
        ∧ (withBits (withTree State.reset [(7, 100)]) [0x00] 1).holdsBits ([[false]].flatten ++ [])) := by
  refine ⟨⟨?_, ?_, ?_⟩, ⟨?_, ?_, ?_⟩, ?_, ?_, ?_⟩ <;> decide +kernel

/-- The operands of FWR in V50. -/
def fwrState (c : Option Nat) : State :=
  { withBits (caps4 none none none c) [0xA0] 3 with
    maxCode := 256, entryCnt := 2, freq := [(65, 2), (256, 1)] }

/-- OUT full to its last byte. -/
theorem witness_WriterLaysOutTheFrame :
    freqWf (fwrState (some 25)).freq ∧ (∀ e ∈ (fwrState (some 25)).freq, e.1 < 65536 ∧ e.2 ≤ 2147483647)
      ∧ (fwrState (some 25)).headerOk ∧ (fwrState (some 25)).totalBits ≤ 2147483647
      ∧ Memory.listed (fwrState (some 25)).bits (ceil8 (fwrState (some 25)).totalBits)
      ∧ withinCap (12 + 6 * (fwrState (some 25)).entryCnt + ceil8 (fwrState (some 25)).totalBits) (some 25) := by
  decide

/-- A frequency and a payload one above the limit; at the limits, OUT one byte short. -/
theorem witness_WriterRefusesInOrder :
    (∃ e ∈ [((65 : Nat), 2147483648)], 2147483647 < e.2) ∧ (2147483647 : Nat) < 2147483648
      ∧ (∀ e ∈ (fwrState (some 24)).freq, e.2 ≤ 2147483647)
      ∧ overCap (12 + 6 * (fwrState (some 24)).entryCnt + ceil8 (fwrState (some 24)).totalBits) (some 24)
        = true := by decide

theorem witness_ReaderInvertsWriter :
    freqWf (fwrState none).freq ∧ (∀ e ∈ (fwrState none).freq, e.1 < 65536)
      ∧ (fwrState none).headerOk ∧ ((fwrState none).entryCnt = 0 → (fwrState none).totalBits = 0)
      ∧ (fwrState none).status.err = false
      ∧ answers (exec .fwrRun (fwrState none)) (fun t => !t.status.err && decide (t.holdsOutput (bytes frameA)))
        = true
      ∧ (withIn (caps4 none none (some 1) none) frameA).holdsInput (bytes frameA)
      ∧ (withIn (caps4 none none (some 1) none) frameA).freq = []
      ∧ withinCap (ceil8 (fwrState none).totalBits) (some 1) := by decide +kernel

/-- V54 (entries not in order), V51 (none), and the limits of both fields. -/
theorem witness_ReaderReadsConsistentFrames :
    ([((256 : Nat), 1), (65, 2)].map Prod.fst).Nodup
      ∧ (∀ e ∈ [((256 : Nat), 1), (65, 2)], (e.1 : Int) ≤ 256 ∧ 1 ≤ e.2 ∧ e.2 ≤ 2147483647)
      ∧ (∃ e ∈ [((256 : Nat), 1), (65, 2)], (e.1 : Int) = 256)
      ∧ (bytes [0xA0]).length = ceil8 3
      ∧ (withIn (caps4 none none (some 1) none)
          ((frameA.take 8) ++ [1, 0, 0, 0, 0, 1, 0, 0x41, 0, 0, 0, 2] ++ frameA.drop 20)).holdsInput
        (bytesBE 4 (BitVec.ofInt 32 256).toNat ++ bytesBE 4 2
          ++ [((256 : Nat), 1), (65, 2)].flatMap (fun e => bytesBE 2 e.1 ++ bytesBE 4 e.2) ++ bytesBE 4 3
          ++ bytes [0xA0])
      ∧ withinCap (bytes [0xA0]).length (some 1)
      ∧ (withIn State.reset [255, 255, 255, 255, 0, 0, 0, 0, 0, 0, 0, 0]).holdsInput
        (bytesBE 4 (BitVec.ofInt 32 (-1)).toNat ++ bytesBE 4 0 ++ [] ++ bytesBE 4 0 ++ [])
      ∧ ((65535 : Nat) : Int) ≤ 65535 := by decide +kernel

theorem witness_ReaderAcceptsOnlyConsistentFrames :
    State.reset.freq = [] ∧ (withIn State.reset frameA).holdsInput (bytes frameA)
      ∧ State.reset.status.err = false
      ∧ answers (exec .frdRun (withIn State.reset frameA)) (fun t => !t.status.err) = true := by decide +kernel

/-- The frame cut on both sides of byte 24, and one byte longer. -/
theorem witness_ReaderChecksThePayloadLength :
    (withIn State.reset frameA).holdsInput (bytes frameA)
      ∧ answers (exec .frdRun (withIn State.reset frameA)) (fun t => !t.status.err && t.entryCnt == 2) = true
      ∧ (withIn State.reset (frameA.take 23)).holdsInput ((bytes frameA).take 23)
      ∧ 23 < 12 + 6 * 2 ∧ ¬ 24 < 12 + 6 * 2
      ∧ (withIn State.reset (frameA.take 24)).holdsInput ((bytes frameA).take 24)
      ∧ (withIn State.reset (frameA ++ [0])).holdsInput (bytes frameA ++ 0 :: []) := by decide +kernel

/-- IN full to its last byte. -/
theorem witness_InputReaderTakesTheWholeInput :
    (caps4 (some 2) none none none).inOp = false
      ∧ ({ caps4 (some 2) none none none with input := [.data 65, .data 66, .eos, .eos] } : State).input
        = (bytes [65, 66]).map Item.data ++ .eos :: [.eos]
      ∧ withinCap (bytes [65, 66]).length (some 2) := by decide

/-- A reader that begins (with 0x41 to read), and one that waits with 0x41 read, IN_CAP one or two bytes. -/
def reader (cap : Nat) (waiting : Bool) (items : List Item) : State :=
  if waiting then { withIn (caps4 (some cap) none none none) [0x41] with inOp := true, input := items }
  else { caps4 (some cap) none none none with input := items }

/-- Begun and resumed; into FAIL, a byte that does not fit, EOS, and a first and a second wait, each with IN
full to its last byte. -/
theorem witness_InputReaderFailsOrWaits :
    (∀ cap items, (reader cap false items).inOp = false ∧ (reader cap false items).input = items
        ∧ (reader cap true items).inOp = true ∧ (reader cap true items).holdsInput (bytes [0x41])
        ∧ (reader cap true items).input = items ∧ (reader cap false items).caps.inCap = some cap
        ∧ (reader cap true items).caps.inCap = some cap)
      ∧ withinCap (([] : List Byte) ++ bytes [0x41]).length (some 1)
      ∧ withinCap (bytes [0x41] ++ bytes [0x42]).length (some 2)
      ∧ [Item.data 0x42, .fail, .eos] = (bytes [0x42]).map Item.data ++ .fail :: [.eos]
      ∧ ([Item.data 0x42, .data 0x43] = (bytes [0x42]).map Item.data ++ .data 0x43 :: []
        ∧ some 2 = some (bytes [0x41] ++ bytes [0x42]).length)
      ∧ [Item.data 0x42, .eos] = (bytes [0x42]).map Item.data ++ .eos :: []
      ∧ [Item.data 0x42] = (bytes [0x42]).map Item.data ∧ ([] : List Item) = (bytes []).map Item.data := by
  refine ⟨fun cap items => ⟨rfl, rfl, rfl, ⟨rfl, fun i hi => ?_⟩, rfl, rfl, rfl⟩, by decide⟩
  obtain rfl : i = 0 := by simpa [bytes] using hi
  rfl

theorem witness_OutputWriterDeliversEverything :
    (withOut State.reset [65, 66]).inOp = false ∧ (withOut State.reset [65, 66]).holdsOutput (bytes [65, 66])
      ∧ State.reset.sink = .neverFails ∧ (bytes [65, 66]).length < 3
      ∧ ({ State.reset with sink := .failsAt 3 } : State).sink = .failsAt 3 := by decide

/-- The first offer, and the offer of the end marker. -/
theorem witness_OutputWriterStopsAtTheSink :
    (withOut State.reset [65, 66]).inOp = false ∧ (withOut State.reset [65, 66]).holdsOutput (bytes [65, 66])
      ∧ 0 ≤ (bytes [65, 66]).length ∧ 2 ≤ (bytes [65, 66]).length
      ∧ ({ State.reset with sink := .failsAt 0 } : State).sink = .failsAt 0
      ∧ ({ State.reset with sink := .silentAt 2 } : State).sink = .silentAt 2 := by decide

/-- Idle, with a command word to write and an input. -/
def ready (w : RegWord) (l : List Nat) (script : List HostEvent) : State :=
  { State.reset with host := .writeReg 0 w :: script, nextInput := (bytes l).map Item.data ++ [.eos] }

theorem ready_inv (w : RegWord) (l : List Nat) (script : List HostEvent) : (ready w l script).Inv := by
  refine ⟨Or.inl rfl, ?_, ?_, ?_, ?_, ?_, fun h => absurd (show false = true from h) (by decide)⟩
  · change State.reset.memoryWf; decide
  · change State.reset.rangesOk; decide
  · change State.reset.dictOk; decide
  · change State.reset.sequencerOk; decide
  · change State.reset.outputOk; decide

theorem witness_CommandRunsItsSequence :
    (ready 1 [65, 66] [.wait]).status.busy = false
      ∧ (ready 1 [65, 66] [.wait]).host = .writeReg 0 1 :: .wait :: []
      ∧ inputWf (ready 1 [65, 66] [.wait]).nextInput = true
      ∧ (ready 1 [65, 66] [.wait]).nextSink = .neverFails
      ∧ answers (compressSequence (State.accept 1 { ready 1 [65, 66] [.wait] with host := [.wait] })).outcome
        (fun t => t.status.done) = true
      ∧ answers (decompressSequence (State.accept 2 { ready 2 frameA [.wait] with host := [.wait] })).outcome
        (fun t => t.sinkGot == bytes [65, 65, 65, 65]) = true := by decide +kernel

theorem witness_EveryCommandEnds :
    (ready 2 frameA [.wait]).Inv ∧ (ready 2 frameA [.wait]).status.busy = false
      ∧ (ready 2 frameA [.wait]).host = .writeReg 0 2 :: .wait :: []
      ∧ inputWf (ready 2 frameA [.wait]).nextInput = true
      ∧ (ready 2 frameA [.wait]).nextSink = .neverFails := ⟨ready_inv _ _ _, by decide⟩

/-- Two different pasts. -/
theorem witness_CommandsAreIndependentOfThePast :
    (ready 1 [65] []).Inv ∧ ({ ready 1 [65] [] with sinkGot := [0x41], prev := 0, freeCtr := 3 } : State).Inv
      ∧ (ready 1 [65] []).host = .writeReg 0 1 :: []
      ∧ answers (Sys2Proof.core.run 2 (ready 1 [65] [])) (fun t => t.inLen == 1) = true := by
  refine ⟨ready_inv _ _ _, ?_, rfl, by decide⟩
  exact ⟨by decide, by decide, by decide, by decide, by decide, by decide, fun h => absurd h (by decide)⟩

/-- COMPRESS of one byte, and DECOMPRESS of its frame (V82). -/
theorem witness_DecompressInvertsCompress :
    (ready 1 [65] []).Inv ∧ (ready 1 [65] []).host = [.writeReg 0 1]
      ∧ (ready 1 [65] []).nextInput = (bytes [65]).map Item.data ++ [.eos]
      ∧ answers (Sys2Proof.core.run 9 (ready 1 [65] [])) (fun t => !t.status.err && t.sinkGot
          == bytes [0, 0, 0, 65, 0, 0, 0, 1, 0, 65, 0, 0, 0, 1, 0, 0, 0, 1, 0]) = true
      ∧ (ready 2 [0, 0, 0, 65, 0, 0, 0, 1, 0, 65, 0, 0, 0, 1, 0, 0, 0, 1, 0] []).Inv
      ∧ (ready 2 [] []).nextSink = .neverFails ∧ withinCap 19 (ready 2 [] []).caps.inCap :=
  ⟨ready_inv _ _ _, rfl, rfl, by decide +kernel, ready_inv _ _ _, rfl, rfl⟩

/-- A legal state, idle and running, and the step it takes. -/
theorem witness_EveryStepKeepsTheInvariant :
    (ready 1 [65] []).Inv ∧ answers (step (ready 1 [65] [])) (fun t => t.status.busy) = true :=
  ⟨ready_inv _ _ _, by decide⟩

theorem witness_LegalStatesNeverStop : (ready 2 [] [.run]).Inv := ready_inv _ _ _

/-- A running and an idle block. -/
theorem witness_SuppliedItemsJoinTheirStream :
    (({ atRun State.reset 1 with host := [.supply .eos] } : State).host = .supply .eos :: []
        ∧ (atRun State.reset 1).status.busy = true)
      ∧ (({ State.reset with host := [.supply (.data 0x41)] } : State).host = .supply (.data 0x41) :: []
        ∧ State.reset.status.busy = false)
      ∧ ({ State.reset with host := [.sink (.failsAt 0)] } : State).host = .sink (.failsAt 0) :: [] := by decide

end Sys2Proof.Tests
end

section
/-!
The number forms of 00_scope.md R13: what the first byte of a big-endian number contributes, the range of `n`
bytes, the two inverses, and the two's-complement reading of a register word.
-/
namespace Sys2Proof.Proofs.FieldNumbers
open Sys2Proof Sys2Proof.Machine

/-! ### `BE_n` -/

@[simp] theorem be_nil : be [] = 0 := rfl

theorem be_append (as bs : List Byte) : be (as ++ bs) = be as * 256 ^ bs.length + be bs := by
  induction bs using List.reverseRecOn with
  | nil => simp
  | append_singleton bs b ih =>
    have be_snoc (cs : List Byte) : be (cs ++ [b]) = be cs * 256 + b.toNat := by simp [be]
    rw [← List.append_assoc, be_snoc, be_snoc, ih, List.length_append, List.length_singleton]
    ring

@[simp] theorem be_singleton (b : Byte) : be [b] = b.toNat := by simp [be]

theorem be_cons (b : Byte) (bs : List Byte) : be (b :: bs) = b.toNat * 256 ^ bs.length + be bs := by
  rw [← List.singleton_append, be_append, be_singleton]

theorem be_lt (bs : List Byte) : be bs < 256 ^ bs.length := by
  induction bs with
  | nil => simp
  | cons b bs ih =>
    rw [be_cons, List.length_cons]
    calc b.toNat * 256 ^ bs.length + be bs
        < b.toNat * 256 ^ bs.length + 256 ^ bs.length := by omega
      _ = (b.toNat + 1) * 256 ^ bs.length := by ring
      _ ≤ 256 * 256 ^ bs.length := Nat.mul_le_mul_right _ b.isLt
      _ = 256 ^ (bs.length + 1) := by ring

/-- The first byte is the most significant: what `BE_n` holds above the bytes after it. -/
theorem be_cons_div (b : Byte) (bs : List Byte) : be (b :: bs) / 256 ^ bs.length = b.toNat := by
  rw [be_cons, Nat.mul_comm, Nat.mul_add_div (by positivity), Nat.div_eq_of_lt (be_lt bs), Nat.add_zero]

/-- `n` bytes are determined by their number: equal numbers have equal first bytes, and so equal rests. -/
theorem be_injective_of_length_eq {as bs : List Byte} (hlen : as.length = bs.length)
    (hbe : be as = be bs) : as = bs := by
  induction as generalizing bs with
  | nil => exact (List.length_eq_zero_iff.mp hlen.symm).symm
  | cons a as ih =>
    cases bs with
    | nil => simp at hlen
    | cons b bs =>
      have htail : as.length = bs.length := by simpa using hlen
      have hhead : a = b := BitVec.eq_of_toNat_eq <| by
        rw [← be_cons_div a as, ← be_cons_div b bs, hbe, htail]
      subst hhead
      rw [be_cons, be_cons, htail, Nat.add_left_cancel_iff] at hbe
      rw [ih htail hbe]

/-! ### `bytesBE_n` -/

@[simp] theorem bytesBE_length (n v : Nat) : (bytesBE n v).length = n := by
  induction n with
  | zero => rfl
  | succ n ih => simp [bytesBE, ih]

/-- `bytesBE_n` looks only at the low `n` bytes of its operand, so `BE_n` gives back those. -/
theorem be_bytesBE (n v : Nat) : be (bytesBE n v) = v % 256 ^ n := by
  induction n with
  | zero => simp [bytesBE, Nat.mod_one]
  | succ n ih =>
    rw [bytesBE, be_cons, bytesBE_length, ih, Nat.mod_pow_succ, BitVec.toNat_ofNat]
    ring

theorem bytesBE_be (bs : List Byte) : bytesBE bs.length (be bs) = bs :=
  be_injective_of_length_eq (bytesBE_length _ _) <| by
    rw [be_bytesBE, Nat.mod_eq_of_lt (be_lt bs)]

/-! ### `signed_32` -/

/-- `signed_32` is the two's-complement reading of the word. -/
theorem signed32_toNat (w : RegWord) : signed32 w.toNat = w.toInt := by
  rw [BitVec.toInt_eq_toNat_cond, signed32]
  have hhalf : w.toNat < 2 ^ 31 ↔ 2 * w.toNat < 2 ^ 32 := by omega
  simp only [hhalf, Nat.cast_pow, Nat.cast_ofNat]

theorem signed32_sext32 {v : Int} (hlo : -(2 ^ 31) ≤ v) (hhi : v < 2 ^ 31) :
    signed32 (sext32 v).toNat = v := by
  rw [signed32_toNat, sext32]
  exact BitVec.toInt_ofInt_eq_self (by decide) hlo hhi

/-- Settles O4: from the weight of the first byte, the range of `n` bytes and their injectivity. -/
theorem fieldNumbersRoundTrip : Obligations.FieldNumbersRoundTrip := by
  refine ⟨⟨be_nil, fun bs b => ?_⟩, fun n v hv => ⟨bytesBE_length n v, ?_⟩,
    fun bs => ⟨be_lt bs, bytesBE_be bs⟩, fun v hlo hhi => signed32_sext32 hlo hhi⟩
  · rw [be_append, be_singleton, List.length_singleton, pow_one, Nat.mul_comm]
  · rw [be_bytesBE, Nat.mod_eq_of_lt hv]

end Sys2Proof.Proofs.FieldNumbers
end

section
/-!
The register port (10_state.md R21, R22, R25): the word of STATUS as a number, and what one read of a register
leaves in the state.
-/
namespace Sys2Proof.Proofs.Registers
open Sys2Proof Sys2Proof.Machine

/-! ### The word of STATUS -/

theorem flagBit_toNat (b : Bool) : (flagBit b).toNat = b.toNat := by cases b <;> rfl

/-- Settles O3: a concatenation puts each field above the widths of those to its right. -/
theorem statusWordLayout : Obligations.StatusWordLayout := by
  intro t
  have hbusy := t.busy.toNat_lt
  have hdone := t.done.toNat_lt
  have herr := t.err.toNat_lt
  have herrcode := t.errcode.isLt
  have hstage := t.stage.isLt
  have hop := t.op.isLt
  simp only [Status.word, BitVec.toNat_append, flagBit_toNat, BitVec.toNat_ofNat,
    ← Nat.shiftLeft_add_eq_or_of_lt, hop, hstage, herrcode, hbusy, hdone, herr]
  simp only [Nat.shiftLeft_eq, Nat.zero_mod, Nat.or_zero]
  omega

/-- Settles O1: R55 lists the registers one by one, and so does the model's reset state. -/
theorem resetLeavesRegisterValues : Obligations.ResetLeavesRegisterValues :=
  ⟨rfl, rfl, rfl, rfl, rfl, rfl, rfl, rfl, rfl, rfl, rfl, rfl, rfl, rfl, rfl, rfl, rfl⟩

/-! ### Register reads -/

section
variable {s : State} {n : Nat} {rest : List HostEvent}

theorem step_readReg (hhost : s.host = .readReg n :: rest) :
    step s = .next (readRegister n { s with host := rest }) := by
  simp [step, State.move, hhost]

theorem step_readReg_specified {v : RegWord} (hhost : s.host = .readReg n :: rest)
    (hv : specifiedRead s n = some v) : step s = .next { s with host := rest, rdata := v } := by
  have hv' : specifiedRead { s with host := rest } n = some v := hv
  rw [step_readReg hhost, readRegister, hv']

theorem step_readReg_free (hhost : s.host = .readReg n :: rest) (hv : specifiedRead s n = none) :
    ∃ x, step s = .next { s with host := rest, rdata := x, freeCtr := s.freeCtr + 1 } := by
  have hv' : specifiedRead { s with host := rest } n = none := hv
  exact ⟨Config.freeWord s.freeCtr, by rw [step_readReg hhost, readRegister, hv']⟩

/-- CMD (R21) and the register numbers R25 leaves out read 0. -/
theorem specifiedRead_absent (hn : n = 0 ∨ 9 ≤ n) : specifiedRead s n = some 0 := by
  rcases hn with rfl | hn
  · rfl
  · have h0 : n ≠ 0 := by omega
    have h1 : n ≠ 1 := by omega
    simp [specifiedRead, h0, h1, hn]

theorem specifiedRead_info (hlo : 2 ≤ n) (hhi : n ≤ 8) :
    specifiedRead s n = if s.status.done && !s.status.err then infoWord s n else none := by
  have h0 : n ≠ 0 := by omega
  have h1 : n ≠ 1 := by omega
  have h9 : ¬ 9 ≤ n := by omega
  simp [specifiedRead, h0, h1, h9]

/-- The register numbers of the six counters of R25, and what each holds. -/
theorem infoWord_counter {v : Nat}
    (hv : (n, v) ∈ [(2, s.inLen), (3, s.outLen), (4, s.clen), (5, s.dsize), (7, s.entryCnt), (8, s.totalBits)]) :
    2 ≤ n ∧ n ≤ 8 ∧ infoWord s n = natWord v := by
  simp only [List.mem_cons, Prod.mk.injEq, List.not_mem_nil, or_false] at hv
  rcases hv with ⟨rfl, rfl⟩ | ⟨rfl, rfl⟩ | ⟨rfl, rfl⟩ | ⟨rfl, rfl⟩ | ⟨rfl, rfl⟩ | ⟨rfl, rfl⟩ <;>
    exact ⟨by decide, by decide, rfl⟩

end

/-- Settles O13: a read is a host action of its own, and the register number alone says which rule gives
its value. -/
theorem registerReadsReturnTheirValue : Obligations.RegisterReadsReturnTheirValue := by
  intro s n rest hhost
  refine ⟨fun hn => step_readReg_specified hhost (specifiedRead_absent hn), ?status, ?ended, ?unspecified⟩
  case status => rintro rfl; exact step_readReg_specified hhost rfl
  case ended =>
    intro hdone herr
    have hread (hlo : 2 ≤ n) (hhi : n ≤ 8) : specifiedRead s n = infoWord s n := by
      simp [specifiedRead_info hlo hhi, hdone, herr]
    refine ⟨?_, fun v hv => ?_⟩
    · rintro rfl
      exact step_readReg_specified hhost (hread (by decide) (by decide))
    · obtain ⟨hlo, hhi, hinfo⟩ := infoWord_counter hv
      rw [hinfo] at hread
      refine ⟨fun hfits => ?_, fun hbig => ?_⟩
      · exact step_readReg_specified hhost (by rw [hread hlo hhi, natWord, if_pos hfits])
      · exact step_readReg_free hhost (by rw [hread hlo hhi, natWord, if_neg (by omega)])
  case unspecified =>
    intro hlo hhi hnot
    refine step_readReg_free hhost ?_
    rw [specifiedRead_info hlo hhi, if_neg (by simpa using hnot)]

end Sys2Proof.Proofs.Registers
end

section
/-!
Unit DICT (40_dictionary.md): DICT.SEED makes the dictionary's shape (10_state.md R46, R47) and DICT.INSERT
keeps it.
-/
namespace Sys2Proof.Proofs.DictShape
open Sys2Proof Sys2Proof.Machine

variable {s t : State}

/-! ### DICT.SEED -/

theorem seedEntries_length : seedEntries.length = 256 := by simp [seedEntries, Config.seedN]

theorem seedEntries_get {k : Nat} (hk : k < 256) :
    seedEntries[k]? = some { parent := none, last := BitVec.ofNat 8 k } := by
  simp [seedEntries, Config.seedN, hk]

theorem dictSeed_seeded (s : State) : (dictSeed s).dictSeeded := by
  refine ⟨le_refl 256, by simp, fun k hk => ?_, fun k hk hk' => ?_, fun k hk j hj hj' => ?_⟩
  · rw [dictSeed_dict, Memory.read_write, seedEntries_length, if_pos ⟨k.zero_le, by omega⟩]
    exact seedEntries_get hk
  · rw [dictSeed_dsize] at hk; omega
  · rw [dictSeed_dsize] at hk; omega

/-! ### DICT.INSERT -/

/-- The dictionary's shape speaks of DICT and DSIZE alone. -/
theorem dictSeeded_congr (h : s.dictSeeded) (hdict : t.dict = s.dict) (hdsize : t.dsize = s.dsize) :
    t.dictSeeded := by
  rw [State.dictSeeded, hdict, hdsize]; exact h

theorem entryShape_of_read {m : Memory DictEntry} {k : Nat} {p : Code} {b : Byte}
    (hread : Memory.read m k = some { parent := some p, last := b }) (hp : p.toNat < k) :
    entryShape m k = true := by
  simp [entryShape, hread, hp]

theorem entryShape_congr {m m' : Memory DictEntry} {k : Nat} (h : Memory.read m' k = Memory.read m k) :
    entryShape m' k = entryShape m k := by
  simp only [entryShape, h]

/-- A record that no valid entry has, appended at DSIZE, keeps the shape and the bijectivity. -/
theorem dictSeeded_append {p : Code} {b : Byte} (h : s.dictSeeded) (hroom : s.dsize ≠ 65536)
    (hp : p.toNat < s.dsize)
    (habsent : ∀ k, 256 ≤ k → k < s.dsize → Memory.read s.dict k ≠ some { parent := some p, last := b })
    (hdict : t.dict = Memory.write s.dict s.dsize [{ parent := some p, last := b }])
    (hdsize : t.dsize = s.dsize + 1) : t.dictSeeded := by
  obtain ⟨hlo, hhi, hseed, hshape, hinj⟩ := h
  have hnew : Memory.read t.dict s.dsize = some { parent := some p, last := b } := by
    rw [hdict, Memory.read_write_one, if_pos rfl]
  have hold {k : Nat} (hk : k < s.dsize) : Memory.read t.dict k = Memory.read s.dict k := by
    rw [hdict, Memory.read_write_one, if_neg (by omega)]
  refine ⟨by omega, by omega, fun k hk => ?seed, fun k hk hk' => ?shape, fun k hk j hj hj' => ?injective⟩
  case seed => rw [hold (by omega)]; exact hseed k hk
  case shape =>
    rcases Nat.lt_succ_iff_lt_or_eq.mp (hdsize ▸ hk) with hk | rfl
    · rw [entryShape_congr (hold hk)]; exact hshape k hk hk'
    · exact entryShape_of_read hnew hp
  case injective =>
    rcases Nat.lt_succ_iff_lt_or_eq.mp (hdsize ▸ hk) with hk | rfl
    · rw [hold hk, hold (by omega)]; exact hinj k hk j hj hj'
    · rw [hnew, hold hj]; exact habsent j hj' hj

/-- A new entry: DICT.INSERT leaves the dictionary seeded, one entry longer, and answers its code. -/
theorem dictInsert_ok {p : Option Code} {b : Byte} {k : Code} (hwf : Memory.wf s.dict) (h : s.dictSeeded)
    (hins : dictInsert p b s = .ok k t) :
    t = { s with dict := t.dict, dsize := s.dsize + 1 } ∧ t.dictSeeded ∧ Memory.wf t.dict := by
  rcases dictInsert_cases p b s with ⟨-, hr⟩ | ⟨c, rfl, hc, ⟨-, hr⟩ | ⟨-, -, hr⟩ | ⟨hl, hroom, hr⟩⟩ <;>
    rw [hr] at hins <;> cases hins
  exact ⟨rfl, dictSeeded_append h hroom hc ((dictLookup_eq_none hwf).mp hl) rfl rfl, Memory.wf_write hwf _ _⟩

/-- An error of DICT.INSERT: nothing has changed. -/
theorem dictInsert_raised {p : Option Code} {b : Byte} {e : Err} (hins : dictInsert p b s = .raised e t) :
    t = s ∧ (e = .duplicateEntry ∧ dictLookup p b s ≠ none ∨ e = .dictionaryFull) := by
  rcases dictInsert_cases p b s with ⟨-, hr⟩ | ⟨c, rfl, -, ⟨hl, hr⟩ | ⟨-, -, hr⟩ | ⟨-, -, hr⟩⟩ <;>
    rw [hr] at hins <;> cases hins
  · exact ⟨rfl, .inl ⟨rfl, hl⟩⟩
  · exact ⟨rfl, .inr rfl⟩

/-- Settles O22: an error leaves the dictionary as it is, and a new entry is one that no valid entry equals. -/
theorem insertKeepsDictionaryShape : Obligations.InsertKeepsDictionaryShape := by
  intro s t hwf h hstep
  rcases Res.outcome_eq_next.mp hstep with ⟨_, hok⟩ | ⟨e, u, hraised, rfl⟩
  · obtain ⟨k, u, hins, hu⟩ := Res.bind_eq_ok.mp hok
    obtain ⟨-, hseeded, -⟩ := dictInsert_ok hwf h hins
    cases hu
    exact dictSeeded_congr hseeded rfl rfl
  · rcases Res.bind_eq_raised.mp hraised with hins | ⟨k, v, -, hbad⟩
    · obtain ⟨rfl, -⟩ := dictInsert_raised hins
      exact dictSeeded_congr h rfl rfl
    · cases hbad

end Sys2Proof.Proofs.DictShape
end

section
/-!
The invariant of a running command in three parts: the memories and registers (`Sound`), what only the sequencer
and the two boundary units write (`control`), and the data of the stage. A unit operation is described by what
holds where it ends and what holds where it raises (`Meets`), and the sequencer turns such a description into the
invariant of the next state.
-/
namespace Sys2Proof.Proofs.Invariant
open Sys2Proof Sys2Proof.Machine

/-! ### What a part of a unit operation answers -/

section
variable {α β : Type} {r : Res α} {f : α → State → Res β} {P P' : α → State → Prop} {Q : β → State → Prop}
  {E : Err → State → Prop}

/-- Where `r` ends, `P` holds of its result and state; where it raises, `E` holds of the error and state. -/
def Meets (r : Res α) (P : α → State → Prop) (E : Err → State → Prop) : Prop :=
  (∀ a t, r = .ok a t → P a t) ∧ ∀ e t, r = .raised e t → E e t

@[simp] theorem meets_ok {a : α} {t : State} : Meets (.ok a t) P E ↔ P a t := by simp [Meets]

@[simp] theorem meets_raised {e : Err} {t : State} : Meets (.raised e t : Res α) P E ↔ E e t := by simp [Meets]

@[simp] theorem meets_fault {x : Fault} : Meets (.fault x : Res α) P E := by simp [Meets]

@[simp] theorem meets_refused {x : Refusal} : Meets (.refused x : Res α) P E := by simp [Meets]

theorem Meets.bind (h : Meets r P E) (hf : ∀ a t, P a t → Meets (f a t) Q E) : Meets (r.bind f) Q E := by
  cases r with
  | ok a t => exact hf a t (h.1 a t rfl)
  | raised e t => exact meets_raised.mpr (h.2 e t rfl)
  | fault x => exact meets_fault
  | refused x => exact meets_refused

theorem Meets.weaken (h : Meets r P E) (hP : ∀ a t, P a t → P' a t) : Meets r P' E :=
  ⟨fun a t hr => hP a t (h.1 a t hr), h.2⟩

end

/-! ### The parts of the invariant -/

/-- What the sequencer and the boundary units alone write while a command runs. -/
def control (s : State) : Status × BitVec 4 × Bool × Nat × List Byte × Bool :=
  (s.status, s.sub, s.inOp, s.offers, s.sinkGot, s.sinkEnd)

theorem control_eq_iff {s t : State} :
    control t = control s ↔ t.status = s.status ∧ t.sub = s.sub ∧ t.inOp = s.inOp ∧ t.offers = s.offers
      ∧ t.sinkGot = s.sinkGot ∧ t.sinkEnd = s.sinkEnd := by
  simp only [control, Prod.mk.injEq]

/-- The part of the invariant that speaks of the memories and the working registers, with its clauses named. -/
structure Sound (s : State) : Prop where
  inMem : Memory.wf s.inMem
  dict : Memory.wf s.dict
  cseq : Memory.wf s.cseq
  freq : freqWf s.freq
  tree : Memory.wf s.tree
  ctab : Memory.wf s.ctab
  bits : Memory.wf s.bits
  outMem : Memory.wf s.outMem
  freqCodes : ∀ e ∈ s.freq, e.1 < 65536
  dsize : s.dsize ≤ 65536
  nnodes : s.nnodes ≤ 131071
  maxCodeLow : -1 ≤ s.maxCode
  maxCodeHigh : s.maxCode ≤ 65535
  entryCnt : s.entryCnt ≤ 65536
  ipos : s.ipos ≤ s.inLen
  cpos : s.cpos ≤ s.clen
  bpos : s.bpos ≤ s.totalBits
  inLen : withinCap s.inLen s.caps.inCap
  clen : withinCap s.clen s.caps.cseqCap
  outLen : withinCap s.outLen s.caps.outCap
  dictOk : s.dictOk

theorem sound_iff {s : State} : Sound s ↔ s.memoryWf ∧ s.rangesOk ∧ s.dictOk := by
  constructor
  · intro h
    exact ⟨⟨h.inMem, h.dict, h.cseq, h.freq, h.tree, h.ctab, h.bits, h.outMem, h.freqCodes⟩,
      ⟨h.dsize, h.nnodes, h.maxCodeLow, h.maxCodeHigh, h.entryCnt, h.ipos, h.cpos, h.bpos, h.inLen, h.clen,
        h.outLen⟩, h.dictOk⟩
  · rintro ⟨⟨h1, h2, h3, h4, h5, h6, h7, h8, h9⟩, ⟨k1, k2, k3, k4, k5, k6, k7, k8, k9, k10, k11⟩, hd⟩
    exact ⟨h1, h2, h3, h4, h5, h6, h7, h8, h9, k1, k2, k3, k4, k5, k6, k7, k8, k9, k10, k11, hd⟩

theorem inv_iff {s : State} :
    s.Inv ↔ s.status.legal ∧ Sound s ∧ s.sequencerOk ∧ s.outputOk ∧ (s.status.busy = true → s.stageData) := by
  rw [sound_iff]
  constructor
  · rintro ⟨hlegal, hmem, hranges, hdict, hrest⟩
    exact ⟨hlegal, ⟨hmem, hranges, hdict⟩, hrest⟩
  · rintro ⟨hlegal, ⟨hmem, hranges, hdict⟩, hrest⟩
    exact ⟨hlegal, hmem, hranges, hdict, hrest⟩

/-- `Sound` speaks of no field outside its own: STATUS, the sequencer's bits and the host's side may change. -/
theorem Sound.atStage {s : State} (h : Sound s) (n : BitVec 4) : Sound (s.atStage n) := { h with }

theorem Sound.endCommand {s : State} (h : Sound s) : Sound s.endCommand := { h with }

theorem Sound.raise {s : State} (h : Sound s) (e : Err) : Sound (s.raise e) := { h with }

/-- The operation in issue is a whole one while a command runs (log 3). -/
theorem sub_of_inv {s : State} (h : s.Inv) (hbusy : s.status.busy = true) : s.sub = 0 := by
  obtain ⟨-, -, ⟨hsub, -⟩, -⟩ := inv_iff.mp h
  exact hsub hbusy

/-- The output side at every stage before OUTWR's offers: the operation in issue is a whole one, and the sink
has nothing. -/
def Unoffered (s : State) : Prop :=
  s.sub = 0 ∧ s.offers = 0 ∧ s.sinkGot = [] ∧ s.sinkEnd = false

theorem Unoffered.congr {s t : State} (h : Unoffered s) (hctl : control t = control s) : Unoffered t := by
  obtain ⟨-, hsub, -, hoffers, hgot, hend⟩ := control_eq_iff.mp hctl
  rw [Unoffered, hsub, hoffers, hgot, hend]; exact h

theorem unoffered_of_inv {s : State} (h : s.Inv) (hbusy : s.status.busy = true)
    (hbefore : s.status.stage ≠ 12 ∨ s.inOp = false) : Unoffered s := by
  obtain ⟨-, -, ⟨hsub, -⟩, ⟨hout, -, -⟩, -⟩ := inv_iff.mp h
  obtain ⟨hend, hgot, -⟩ := hout hbusy
  obtain ⟨hgot, hoffers⟩ := hgot hbefore
  exact ⟨hsub hbusy, hoffers, hgot, hend⟩

/-! ### From a description of a unit operation to the invariant -/

theorem running_of_legal {t : Status} (h : t.legal) (hbusy : t.busy = true) : t.running := by
  rcases h with h | h | h | h | h
  · rw [h] at hbusy; cases hbusy
  · exact h
  all_goals exact absurd (h.1.symm.trans hbusy) Bool.false_ne_true

/-- STATUS.OP of a running command (10_state.md R22). -/
theorem op_of_running {t : Status} (h : t.running) : t.op = 1 ∨ t.op = 2 := by
  obtain ⟨-, -, -, -, hstage⟩ := h
  generalize t.op = op, t.stage = stage at hstage
  revert op stage
  decide

/-- A stage of the running command with nothing offered: every state before the first offer. -/
theorem inv_of_running {s : State} (hrun : s.status.running) (hsound : Sound s) (hun : Unoffered s)
    (hwait : s.inOp = true → s.status.stage = 1) (hdata : s.stageData) : s.Inv := by
  obtain ⟨hsub, hoffers, hgot, hend⟩ := hun
  have hnot : s.status.busy ≠ false := by simp [hrun.1]
  refine inv_iff.mpr ⟨.inr (.inl hrun), hsound, ⟨fun _ => hsub, fun hw => ⟨hrun.1, .inl (hwait hw)⟩⟩,
    ⟨fun _ => ?_, ?_, ?_⟩, fun _ => hdata⟩
  · simp [hend, hgot, hoffers]
  · exact fun h => absurd h.1 hnot
  · exact fun h => absurd h.1 hnot

/-- The sequencer's own part: an operation that ended hands over to the stage `n`. -/
theorem inv_advance {i : Instr} {t : State} {n : BitVec 4} (hrun : t.status.running) (hsound : Sound t)
    (hun : Unoffered t) (hinOp : t.inOp = false) (hn : n ≠ 0) (hmem : n ∈ commandStages t.status.op)
    (hafter : stageAfter i t = some n) (hdata : (t.atStage n).stageData) : (advance i t).Inv := by
  obtain ⟨hbusy, hdone, herr, hcode, -⟩ := hrun
  have hadv : advance i t = t.atStage n := by
    rw [advance, if_neg (by simp [hbusy, hinOp]), hafter]
    exact if_neg hn
  rw [hadv]
  exact inv_of_running ⟨hbusy, hdone, herr, hcode, hmem⟩ (hsound.atStage n) ⟨rfl, hun.2⟩
    (fun hw => absurd (hinOp.symm.trans hw) Bool.false_ne_true) hdata

/-- An error taken by a running command whose sink has nothing, or whose stage is OUTWR's. -/
theorem inv_raise {s : State} {e : Err} (hsound : Sound s) (hend : s.sinkEnd = false)
    (hgot : s.status.stage ≠ 12 → s.sinkGot = []) (hcode : e.code ∈ errorsAt s.status.op s.status.stage) :
    (s.raise e).Inv := by
  refine inv_iff.mpr ⟨.inr (.inr (.inr (.inl ⟨rfl, rfl, rfl, hcode⟩))), hsound.raise e, ?_, ?_, by simp⟩
  · exact ⟨by simp, by simp⟩
  · exact ⟨by simp, fun h => absurd h.2.2.1 (by simp), fun _ => ⟨hend, hgot⟩⟩

/-- A legal state in which the sequencer issues the whole operation of a stage between the boundary units. -/
structure Issued (op : BitVec 2) (stage : BitVec 4) (s : State) : Prop where
  inv : s.Inv
  busy : s.status.busy = true
  op_eq : s.status.op = op
  stage_eq : s.status.stage = stage
  whole : s.inOp = false

section
variable {op : BitVec 2} {stage n : BitVec 4} {s t v : State} {i : Instr} {r : Res Unit} {errs : List Err}

theorem Issued.sound (h : Issued op stage s) : Sound s := by
  obtain ⟨-, hsound, -⟩ := inv_iff.mp h.inv
  exact hsound

theorem Issued.running (h : Issued op stage s) : s.status.running := running_of_legal (inv_iff.mp h.inv).1 h.busy

theorem Issued.unoffered (h : Issued op stage s) : Unoffered s := unoffered_of_inv h.inv h.busy (.inr h.whole)

theorem Issued.stageData (h : Issued op stage s) : s.stageData := by
  obtain ⟨-, -, -, -, hdata⟩ := inv_iff.mp h.inv
  exact hdata h.busy

/-- A stage that follows another in a command is one of the command's (48_commands.md R284, R290). -/
theorem stageAfter_mem (hafter : stageAfter i t = some n) (hn : n ≠ 0) : n ∈ commandStages t.status.op := by
  unfold stageAfter at hafter
  unfold commandStages
  split at hafter
  case h_3 => split at hafter <;> cases hafter <;> simp_all
  case h_10 => split at hafter <;> cases hafter <;> simp_all
  all_goals simp_all

/-- What a unit operation that raises leaves: the error is one of its own and nothing else is touched that the
invariant does not let it touch. -/
def Fails (s : State) (errs : List Err) (e : Err) (t : State) : Prop :=
  Sound t ∧ control t = control s ∧ e ∈ errs

/-- What a unit operation that ends leaves: the data of the stage the sequencer goes on to. -/
def GoesOn (i : Instr) (s t : State) : Prop :=
  Sound t ∧ control t = control s ∧ ∃ n : BitVec 4, n ≠ 0 ∧ stageAfter i t = some n ∧ (t.atStage n).stageData

/-- The step of a unit operation between the two boundary units keeps the invariant. -/
theorem Issued.keeps_inv (h : Issued op stage s) (hexec : exec i s = r.outcome) (hnext : exec i s = .next v)
    (hr : Meets r (fun _ => GoesOn i s) (Fails s errs)) (herrs : ∀ e ∈ errs, e.code ∈ errorsAt op stage) :
    (advance i v).Inv := by
  rw [hexec] at hnext
  rcases Res.outcome_eq_next.mp hnext with ⟨_, hok⟩ | ⟨e, t, hraised, rfl⟩
  · obtain ⟨hsound, hctl, n, hn, hafter, hdata⟩ := hr.1 _ _ hok
    obtain ⟨hstatus, -, hwait, -⟩ := control_eq_iff.mp hctl
    exact inv_advance (hstatus ▸ h.running) hsound (h.unoffered.congr hctl) (hwait.trans h.whole) hn
      (stageAfter_mem hafter hn) hafter hdata
  · obtain ⟨hsound, hctl, he⟩ := hr.2 _ _ hraised
    obtain ⟨-, -, hgot, hend⟩ := h.unoffered.congr hctl
    obtain ⟨hstatus, -⟩ := control_eq_iff.mp hctl
    have hadv : advance i (t.raise e) = t.raise e := by simp [advance]
    rw [hadv]
    refine inv_raise hsound hend (fun _ => hgot) ?_
    rw [hstatus, h.op_eq, h.stage_eq]
    exact herrs e he

end

end Sys2Proof.Proofs.Invariant
end

section
/-!
INRD.RUN and OUTWR.RUN (48_commands.md R281, R282) keep the invariant: the reader lists IN byte by byte, and the
sink has exactly the bytes of OUT that have been offered.
-/
namespace Sys2Proof.Proofs.BoundaryUnits
open Sys2Proof Sys2Proof.Machine Sys2Proof.Proofs.Invariant

/-! ### Capacities -/

theorem withinCap_zero (cap : Option Nat) : withinCap 0 cap := by cases cap <;> simp [withinCap, overCap]

theorem withinCap_succ {n : Nat} {cap : Option Nat} (h : withinCap n cap) (hcap : atCap n cap ≠ true) :
    withinCap (n + 1) cap := by
  cases cap with
  | none => rfl
  | some c =>
    have hne : c ≠ n := by simpa [atCap] using hcap
    have hle : ¬ c < n := by simpa [withinCap, overCap] using h
    have hlt : ¬ c < n + 1 := by omega
    simpa [withinCap, overCap] using hlt

/-! ### INRD.RUN -/

/-- What the reader may have done to `s` when it ends, waits or raises. -/
def ReadsInput (s t : State) : Prop :=
  Sound t ∧ Memory.listed t.inMem t.inLen
    ∧ t = { s with inMem := t.inMem, inLen := t.inLen, input := t.input, inOp := t.inOp }

def inrdErrors : List Err := [.resourceError, .capacityExceeded]

theorem inrdLoop_meets (items : List Item) : ∀ s : State, Sound s → Memory.listed s.inMem s.inLen →
    Meets (inrdLoop items s) (fun _ t => ReadsInput s t) (fun e t => ReadsInput s t ∧ e ∈ inrdErrors) := by
  induction items with
  | nil => exact fun s hs hl => meets_ok.mpr ⟨{ hs with }, hl, rfl⟩
  | cons x rest ih =>
    intro s hs hl
    cases x with
    | fail => exact meets_raised.mpr ⟨⟨{ hs with }, hl, rfl⟩, by simp [inrdErrors]⟩
    | eos => exact meets_ok.mpr ⟨{ hs with }, hl, rfl⟩
    | data b =>
      rw [inrdLoop]
      split
      next => exact meets_raised.mpr ⟨⟨{ hs with }, hl, rfl⟩, by simp [inrdErrors]⟩
      next hcap =>
        exact ih _
          { hs with
            inMem := Memory.wf_write hs.inMem _ _
            inLen := withinCap_succ hs.inLen hcap
            ipos := Nat.le_succ_of_le hs.ipos }
          (Memory.listed_append hl [b])

theorem inrdRun_meets {s : State} (hs : Sound s) (hl : Memory.listed s.inMem s.inLen) (hipos : s.ipos = 0) :
    Meets (inrdRun s) (fun _ t => ReadsInput s t) (fun e t => ReadsInput s t ∧ e ∈ inrdErrors) := by
  rw [inrdRun]
  split
  next => exact inrdLoop_meets _ _ hs hl
  next =>
    exact inrdLoop_meets s.input { s with inLen := 0 }
      { hs with inLen := withinCap_zero _, ipos := hipos.le } (fun i hi => absurd hi (Nat.not_lt_zero i))

/-- The data of stage 1 leaves IN listed and IPOS at 0, in either command. -/
theorem inrd_stageData {s : State} (hrun : s.status.running) (hstage : s.status.stage = 1) (h : s.stageData) :
    (s.status.op = 1 ∨ s.status.op = 2) ∧ Memory.listed s.inMem s.inLen ∧ s.ipos = 0 := by
  have hop := op_of_running hrun
  refine ⟨hop, ?_⟩
  rcases hop with hop | hop <;> simp only [State.stageData, hop, hstage] at h
  · obtain ⟨hl, -, -, -, -, -, -, -, hipos⟩ := h
    exact ⟨hl, hipos⟩
  · obtain ⟨hl, -, -, -, -, -, hipos⟩ := h
    exact ⟨hl, hipos⟩

theorem inrdErrors_allowed : ∀ e ∈ inrdErrors, e.code ∈ errorsAt 1 1 ∧ e.code ∈ errorsAt 2 1 := by decide

/-- The data of stage 1 stays true of a reader that waits. -/
theorem stageData_of_readsInput {s t : State} (hop : s.status.op = 1 ∨ s.status.op = 2)
    (hstage : s.status.stage = 1) (h : s.stageData) (ht : ReadsInput s t) : t.stageData := by
  obtain ⟨-, hl, ht⟩ := ht
  rw [ht]
  rcases hop with hop | hop <;> simp only [State.stageData, hop, hstage] at h ⊢ <;> exact ⟨hl, h.2⟩

/-- The step of INRD.RUN keeps the invariant, whether the reader ends, waits or raises. -/
theorem inrd_keeps_inv {s v : State} (h : s.Inv) (hbusy : s.status.busy = true) (hstage : s.status.stage = 1)
    (hnext : exec .inrdRun s = .next v) : (advance .inrdRun v).Inv := by
  have hun := unoffered_of_inv h hbusy (.inl (by rw [hstage]; decide))
  obtain ⟨hlegal, hsound, -, -, hdata⟩ := inv_iff.mp h
  replace hdata := hdata hbusy
  have hrun := running_of_legal hlegal hbusy
  obtain ⟨hop, hl, hipos⟩ := inrd_stageData hrun hstage hdata
  have hmeets := inrdRun_meets hsound hl hipos
  have hkept {t : State} (ht : ReadsInput s t) : t.status = s.status ∧ Sound t ∧ Unoffered t := by
    obtain ⟨hs, -, hframe⟩ := ht
    refine ⟨by rw [hframe], hs, ?_⟩
    rw [hframe]; exact hun
  rcases Res.outcome_eq_next.mp hnext with ⟨_, hok⟩ | ⟨e, t, hraised, rfl⟩
  · have hread := hmeets.1 _ _ hok
    obtain ⟨hstatus, hsound', hun'⟩ := hkept hread
    have hrun' : v.status.running := hstatus ▸ hrun
    cases hwait : v.inOp with
    | true =>
      have hadv : advance .inrdRun v = v := by simp [advance, hwait]
      rw [hadv]
      exact inv_of_running hrun' hsound' hun' (fun _ => hstatus ▸ hstage)
        (stageData_of_readsInput hop hstage hdata hread)
    | false =>
      have hdata' := stageData_of_readsInput hop hstage hdata hread
      rcases hop with hop | hop
      · refine inv_advance (n := 3) hrun' hsound' hun' hwait (by decide) ?_ ?_ ?_
        · rw [hstatus, hop]; decide
        · simp [stageAfter, hstatus, hop]
        · simp only [State.stageData, hstatus, hop, hstage, State.atStage_status, Status.atStage_op,
            Status.atStage_stage] at hdata' ⊢
          obtain ⟨hl, hfreq, hctab, hbits, hheader, hclen, -, hdsize, -⟩ := hdata'
          exact ⟨hl, hfreq, hctab, hbits, hheader, hclen, hdsize⟩
      · refine inv_advance (n := 11) hrun' hsound' hun' hwait (by decide) ?_ ?_ ?_
        · rw [hstatus, hop]; decide
        · simp [stageAfter, hstatus, hop]
        · simp only [State.stageData, hstatus, hop, hstage, State.atStage_status, Status.atStage_op,
            Status.atStage_stage] at hdata' ⊢
          obtain ⟨hl, hfreq, hout, hclen, hdsize, hbits, -⟩ := hdata'
          exact ⟨hl, hfreq, hout, hclen, hdsize, hbits⟩
  · obtain ⟨hread, he⟩ := hmeets.2 _ _ hraised
    obtain ⟨hstatus, hsound', -, -, hgot, hend⟩ := hkept hread
    have hadv : advance .inrdRun (t.raise e) = t.raise e := by simp [advance]
    rw [hadv]
    refine inv_raise hsound' hend (fun _ => hgot) ?_
    rw [hstatus, hstage]
    obtain ⟨hcompress, hdecompress⟩ := inrdErrors_allowed e he
    rcases hop with hop | hop <;> rwa [hop]

/-! ### OUTWR.RUN -/

/-- The sink has a first part of OUT (20_memory.md R76). -/
def Delivered (s : State) : Prop :=
  s.sinkGot.length ≤ s.outLen ∧ ∀ i, i < s.sinkGot.length → s.outAt i = s.sinkGot[i]?

/-- One more offered byte. -/
theorem delivered_snoc {s t : State} {b : Byte} (h : Delivered s) (hoffers : s.offers = s.sinkGot.length)
    (hb : s.outAt s.offers = some b) (hout : t.outAt = s.outAt) (hlen : t.outLen = s.outLen)
    (hgot : t.sinkGot = s.sinkGot ++ [b]) : Delivered t := by
  have hlt : s.offers < s.outLen := by
    by_contra hge
    simp [State.outAt, hge] at hb
  rw [Delivered, hgot, hout, hlen]
  refine ⟨by simp; omega, fun i hi => ?_⟩
  rw [List.length_append, List.length_singleton] at hi
  rcases Nat.lt_succ_iff_lt_or_eq.mp hi with hi | rfl
  · rw [List.getElem?_append_left hi, h.2 i hi]
  · rw [← hoffers, hb, hoffers, List.getElem?_concat_length]

/-- What the writer may have done to `s` when it ends, waits or raises. -/
def WritesOutput (s t : State) : Prop :=
  Delivered t
    ∧ t = { s with offers := t.offers, sinkGot := t.sinkGot, sinkEnd := t.sinkEnd, inOp := t.inOp }

/-- Where the writer comes to an end: everything delivered, or waiting for the sink's answer. -/
def WriterStops (t : State) : Prop :=
  (t.inOp = false ∧ t.sinkEnd = true ∧ t.sinkGot.length = t.outLen)
    ∨ (t.inOp = true ∧ t.sinkEnd = false ∧ t.offers = t.sinkGot.length)

theorem outwrLoop_meets (n : Nat) : ∀ s : State, Delivered s → s.offers = s.sinkGot.length →
    s.sinkEnd = false → n + s.offers = s.outLen →
    Meets (outwrLoop n s) (fun _ t => WritesOutput s t ∧ WriterStops t)
      (fun e t => WritesOutput s t ∧ e = .resourceError ∧ t.sinkEnd = false) := by
  induction n with
  | zero =>
    intro s hd hoffers hend hn
    rw [outwrLoop, outEnd]
    cases sinkAnswer s.sink s.offers with
    | ok => exact meets_ok.mpr ⟨⟨hd, rfl⟩, .inl ⟨rfl, rfl, by simpa [hoffers] using hn⟩⟩
    | fail => exact meets_raised.mpr ⟨⟨hd, rfl⟩, rfl, hend⟩
    | silent => exact meets_ok.mpr ⟨⟨hd, rfl⟩, .inr ⟨rfl, hend, hoffers⟩⟩
  | succ n ih =>
    intro s hd hoffers hend hn
    rw [outwrLoop]
    split
    next => exact meets_fault
    next b hb =>
      rw [outPut]
      cases sinkAnswer s.sink s.offers with
      | ok =>
        exact ih _ (delivered_snoc hd hoffers hb rfl rfl rfl) (by simp [hoffers]) hend (by simp only; omega)
      | fail => exact meets_raised.mpr ⟨⟨hd, rfl⟩, rfl, hend⟩
      | silent => exact meets_ok.mpr ⟨⟨hd, rfl⟩, .inr ⟨rfl, hend, hoffers⟩⟩

theorem outwrRun_meets {s : State} (hd : Delivered s) (hoffers : s.offers = s.sinkGot.length)
    (hend : s.sinkEnd = false) (hfresh : s.inOp = false → s.offers = 0) :
    Meets (outwrRun s) (fun _ t => WritesOutput s t ∧ WriterStops t)
      (fun e t => WritesOutput s t ∧ e = .resourceError ∧ t.sinkEnd = false) := by
  have hle : s.offers ≤ s.outLen := hoffers ▸ hd.1
  have hsame : (if s.inOp then s else { s with offers := 0 }) = s := by
    split
    next => rfl
    next hw => rw [← hfresh (by simpa using hw)]
  rw [outwrRun, hsame]
  exact outwrLoop_meets _ s hd hoffers hend (by omega)

/-- OUTWR.RUN is the last stage of both commands (48_commands.md R284, R290). -/
theorem outwr_stageData {s : State} (hrun : s.status.running) (hstage : s.status.stage = 12) (h : s.stageData) :
    (s.status.op = 1 ∨ s.status.op = 2) ∧ Memory.listed s.outMem s.outLen := by
  have hop := op_of_running hrun
  refine ⟨hop, ?_⟩
  rcases hop with hop | hop <;> simp only [State.stageData, hop, hstage] at h <;> exact h

/-- The end of a command without error: the sink has all of OUT and the end marker (60_exceptions.md R331). -/
theorem inv_endCommand {t : State} (hrun : t.status.running) (hop : t.status.op = 1 ∨ t.status.op = 2)
    (hsound : Sound t) (hd : Delivered t) (hall : t.sinkGot.length = t.outLen) (hend : t.sinkEnd = true) :
    t.endCommand.Inv := by
  obtain ⟨-, -, herr, hcode, -⟩ := hrun
  refine inv_iff.mpr ⟨.inr (.inr (.inl ⟨rfl, rfl, herr, hcode, rfl, hop⟩)), hsound.endCommand, ⟨by simp, by simp⟩,
    ⟨by simp, fun _ => ⟨hend, hall.symm, hd.2⟩, ?_⟩, by simp⟩
  exact fun h => absurd (herr.symm.trans h.2.2.1) Bool.false_ne_true

/-- A writer that waits has offered a first part of OUT. -/
theorem inv_outwr_waits {t : State} (hrun : t.status.running) (hstage : t.status.stage = 12) (hsub : t.sub = 0)
    (hsound : Sound t) (hd : Delivered t) (hwait : t.inOp = true) (hend : t.sinkEnd = false)
    (hoffers : t.offers = t.sinkGot.length) (hdata : t.stageData) : t.Inv := by
  have hnot : t.status.busy ≠ false := by simp [hrun.1]
  refine inv_iff.mpr ⟨.inr (.inl hrun), hsound, ⟨fun _ => hsub, fun _ => ⟨hrun.1, .inr hstage⟩⟩,
    ⟨fun _ => ⟨hend, ?_, hoffers, hd⟩, ?_, ?_⟩, fun _ => hdata⟩
  · simp [hstage, hwait]
  · exact fun h => absurd h.1 hnot
  · exact fun h => absurd h.1 hnot

/-- The step of OUTWR.RUN keeps the invariant, whether the writer ends, waits or raises. -/
theorem outwr_keeps_inv {s v : State} (h : s.Inv) (hbusy : s.status.busy = true) (hstage : s.status.stage = 12)
    (hnext : exec .outwrRun s = .next v) : (advance .outwrRun v).Inv := by
  obtain ⟨hlegal, hsound, ⟨hsub, -⟩, ⟨hout, -, -⟩, hdata⟩ := inv_iff.mp h
  replace hdata := hdata hbusy
  have hrun := running_of_legal hlegal hbusy
  obtain ⟨hop, -⟩ := outwr_stageData hrun hstage hdata
  obtain ⟨hend, hfresh, hoffers, hd⟩ := hout hbusy
  have hmeets := outwrRun_meets hd hoffers hend fun hw => (hfresh (.inr hw)).2
  have hkept {t : State} (ht : WritesOutput s t) :
      t.status = s.status ∧ Sound t ∧ t.sub = 0 ∧ t.stageData := by
    rw [ht.2]
    refine ⟨rfl, { hsound with }, hsub hbusy, ?_⟩
    rcases hop with hop | hop <;> simp only [State.stageData, hop, hstage] at hdata ⊢ <;> exact hdata
  rcases Res.outcome_eq_next.mp hnext with ⟨_, hok⟩ | ⟨e, t, hraised, rfl⟩
  · obtain ⟨hwrites, hstops⟩ := hmeets.1 _ _ hok
    obtain ⟨hstatus, hsound', hsub', hdata'⟩ := hkept hwrites
    have hrun' : v.status.running := hstatus ▸ hrun
    rcases hstops with ⟨hwait, hend', hall⟩ | ⟨hwait, hend', hoffers'⟩
    · have hadv : advance .outwrRun v = v.endCommand := by
        rcases hop with hop | hop <;> simp [advance, hbusy, hwait, stageAfter, hstatus, hop]
      rw [hadv]
      exact inv_endCommand hrun' (hstatus ▸ hop) hsound' hwrites.1 hall hend'
    · have hadv : advance .outwrRun v = v := by simp [advance, hwait]
      rw [hadv]
      exact inv_outwr_waits hrun' (hstatus ▸ hstage) hsub' hsound' hwrites.1 hwait hend' hoffers' hdata'
  · obtain ⟨hwrites, rfl, hend'⟩ := hmeets.2 _ _ hraised
    obtain ⟨hstatus, hsound', -⟩ := hkept hwrites
    have hadv : advance .outwrRun (t.raise .resourceError) = t.raise .resourceError := by simp [advance]
    rw [hadv]
    refine inv_raise hsound' hend' (fun hne => absurd (hstatus ▸ hstage) hne) ?_
    rw [hstatus, hstage]
    rcases hop with hop | hop <;> rw [hop] <;> decide

end Sys2Proof.Proofs.BoundaryUnits
end

section
/-!
HBUILD.RUN (43_huffman_tree_builder.md R193) builds a tree of the shape of 10_state.md R48. Between two turns of
its loop TREE is a forest whose roots are the nodes in the queue; each turn gives two of them a common parent.
-/
namespace Sys2Proof.Proofs.TreeBuilder
open Sys2Proof Sys2Proof.Machine

/-! ### One more node -/

/-- The state with the node `j` written at handle NNODES. -/
def grow (s : State) (j : Node) : State :=
  { s with tree := Memory.write s.tree s.nnodes [j], nnodes := s.nnodes + 1 }

theorem lt_nnodes_of_nodeAt {s : State} {h : Nat} {n : Node} (hn : s.nodeAt h = some n) : h < s.nnodes := by
  by_contra hge
  simp [State.nodeAt, hge] at hn

theorem nodeAt_grow (s : State) (j : Node) (h : Nat) :
    (grow s j).nodeAt h = if h = s.nnodes then some j else s.nodeAt h := by
  simp only [State.nodeAt, grow, Memory.read_write_one]
  by_cases heq : h = s.nnodes
  · simp [heq]
  · have hiff : h < s.nnodes + 1 ↔ h < s.nnodes := by omega
    simp [heq, hiff]

theorem nodeAt_grow_of_some {s : State} {h : Nat} {n : Node} (j : Node) (hn : s.nodeAt h = some n) :
    (grow s j).nodeAt h = some n := by
  rw [nodeAt_grow, if_neg (Nat.ne_of_lt (lt_nnodes_of_nodeAt hn)), hn]

theorem childOf_eq_true {s : State} {p h : Nat} :
    childOf s p h = true ↔ ∃ f m l r, s.nodeAt p = some (.internal f m l r) ∧ (l = h ∨ r = h) := by
  unfold childOf
  split
  next f m l r hp => simp [hp]
  next hne => simpa using fun f m l r hp => absurd hp (hne f m l r)

theorem lt_nnodes_of_childOf {s : State} {p h : Nat} (hc : childOf s p h = true) : p < s.nnodes := by
  obtain ⟨_, _, _, _, hp, -⟩ := childOf_eq_true.mp hc
  exact lt_nnodes_of_nodeAt hp

theorem childOf_grow {s : State} {a b : Nat × Node} {p h : Nat} :
    childOf (grow s (joinNodes a b)) p h = true
      ↔ (p = s.nnodes ∧ (a.1 = h ∨ b.1 = h)) ∨ childOf s p h = true := by
  rw [childOf_eq_true, childOf_eq_true, nodeAt_grow]
  by_cases hp : p = s.nnodes
  · have hnone : s.nodeAt p = none := by simp [State.nodeAt, hp]
    simp [hp, hp ▸ hnone, joinNodes]
  · simp [hp]

theorem internalShape_eq_true {s : State} {h : Nat} :
    internalShape s h = true ↔ ∃ f m l r a b, s.nodeAt h = some (.internal f m l r) ∧ s.nodeAt l = some a
      ∧ s.nodeAt r = some b ∧ l < h ∧ r < h ∧ l ≠ r ∧ f = a.freq + b.freq
      ∧ m = if a.minc.toNat ≤ b.minc.toNat then a.minc else b.minc := by
  constructor
  · intro hs
    unfold internalShape at hs
    split at hs
    next f m l r hh =>
      split at hs
      next a b hl hr =>
        simp only [Bool.and_eq_true, decide_eq_true_eq] at hs
        obtain ⟨⟨⟨⟨hlh, hrh⟩, hlr⟩, hf⟩, hm⟩ := hs
        exact ⟨f, m, l, r, a, b, hh, hl, hr, hlh, hrh, hlr, hf, hm⟩
      next => cases hs
    next => cases hs
  · rintro ⟨f, m, l, r, a, b, hh, hl, hr, hlh, hrh, hlr, hf, hm⟩
    simp only [internalShape, hh, hl, hr, Bool.and_eq_true, decide_eq_true_eq]
    exact ⟨⟨⟨⟨hlh, hrh⟩, hlr⟩, hf⟩, hm⟩

theorem internalShape_grow {s : State} {h : Nat} (j : Node) (hs : internalShape s h = true) :
    internalShape (grow s j) h = true := by
  obtain ⟨f, m, l, r, a, b, hh, hl, hr, hrest⟩ := internalShape_eq_true.mp hs
  exact internalShape_eq_true.mpr ⟨f, m, l, r, a, b, nodeAt_grow_of_some j hh, nodeAt_grow_of_some j hl,
    nodeAt_grow_of_some j hr, hrest⟩

theorem internalShape_join {s : State} {a b : Nat × Node} (ha : s.nodeAt a.1 = some a.2)
    (hb : s.nodeAt b.1 = some b.2) (hne : a.1 ≠ b.1) :
    internalShape (grow s (joinNodes a b)) s.nnodes = true :=
  internalShape_eq_true.mpr ⟨_, _, a.1, b.1, a.2, b.2, by rw [nodeAt_grow, if_pos rfl]; rfl,
    nodeAt_grow_of_some _ ha, nodeAt_grow_of_some _ hb, lt_nnodes_of_nodeAt ha, lt_nnodes_of_nodeAt hb, hne, rfl, rfl⟩

/-! ### The queue -/

theorem popMin_eq_none {q : List (Nat × Node)} : popMin q = none ↔ q = [] := by
  cases q with
  | nil => simp [popMin]
  | cons e q =>
    rw [popMin]
    split
    next => simp
    next => split <;> simp

theorem popMin_perm {q rest : List (Nat × Node)} {e : Nat × Node} (h : popMin q = some (e, rest)) :
    q.Perm (e :: rest) := by
  induction q generalizing e rest with
  | nil => cases h
  | cons x q ih =>
    rw [popMin] at h
    split at h
    next hnone =>
      cases h
      rw [popMin_eq_none.mp hnone]
    next m r hm =>
      split at h
      · cases h
        exact (List.Perm.cons x (ih hm)).trans (List.Perm.swap e x r)
      · cases h
        exact List.Perm.refl _

/-! ### The forest -/

/-- Between two turns of HBUILD's loop: the leaves and internal nodes have their shape, the nodes without a parent
are those in the queue, and the last node made is one of them. -/
structure Forest (s : State) (q : List (Nat × Node)) : Prop where
  wf : Memory.wf s.tree
  count : s.nnodes + q.length = 2 * s.freq.length
  leavesFirst : s.freq.length ≤ s.nnodes
  leaf : ∀ i, i < s.freq.length → s.nodeAt i = (s.freq[i]?).map fun e => Node.leaf (BitVec.ofNat 16 e.1) e.2
  shape : ∀ h, h < s.nnodes → s.freq.length ≤ h → internalShape s h = true
  queued : ∀ e ∈ q, s.nodeAt e.1 = some e.2
  distinct : (q.map Prod.fst).Nodup
  last : ∃ e ∈ q, e.1 + 1 = s.nnodes
  parent : ∀ h, h < s.nnodes → h ∈ q.map Prod.fst ∨ ∃ p, p < s.nnodes ∧ childOf s p h = true
  orphan : ∀ h ∈ q.map Prod.fst, ∀ p, ¬ childOf s p h = true
  oneParent : ∀ p, p < s.nnodes → ∀ q', q' < p → ∀ h, h < s.nnodes → ¬ (childOf s p h = true ∧ childOf s q' h = true)

theorem child_lt {s : State} {p h : Nat}
    (hleaf : ∀ i, i < s.freq.length → s.nodeAt i = (s.freq[i]?).map fun e => Node.leaf (BitVec.ofNat 16 e.1) e.2)
    (hshape : ∀ h, h < s.nnodes → s.freq.length ≤ h → internalShape s h = true)
    (hc : childOf s p h = true) : h < p := by
  obtain ⟨f, m, l, r, hp, hlr⟩ := childOf_eq_true.mp hc
  by_cases hlen : p < s.freq.length
  · rw [hleaf p hlen, List.getElem?_eq_getElem hlen] at hp
    cases hp
  · obtain ⟨f', m', l', r', a, b, hp', -, -, hl, hr, -⟩ :=
      internalShape_eq_true.mp (hshape p (lt_nnodes_of_nodeAt hp) (by omega))
    rw [hp] at hp'
    cases hp'
    rcases hlr with rfl | rfl <;> assumption

theorem Forest.child_lt {s : State} {q : List (Nat × Node)} {p h : Nat} (hf : Forest s q)
    (hc : childOf s p h = true) : h < p :=
  TreeBuilder.child_lt hf.leaf hf.shape hc

theorem Forest.perm {s : State} {q q' : List (Nat × Node)} (h : Forest s q) (hp : q.Perm q') : Forest s q' := by
  have hfst : ∀ x, x ∈ q'.map Prod.fst ↔ x ∈ q.map Prod.fst := fun x => (hp.map Prod.fst).mem_iff.symm
  exact { h with
    count := hp.length_eq ▸ h.count
    queued := fun e he => h.queued e (hp.mem_iff.mpr he)
    distinct := (hp.map Prod.fst).nodup_iff.mp h.distinct
    last := h.last.imp fun e he => ⟨hp.mem_iff.mp he.1, he.2⟩
    parent := fun x hx => (h.parent x hx).imp_left (hfst x).mpr
    orphan := fun x hx => h.orphan x ((hfst x).mp hx) }

/-- One turn: the two nodes taken from the queue get a parent, which goes into the queue. -/
theorem Forest.join {s : State} {a b : Nat × Node} {q : List (Nat × Node)} (h : Forest s (a :: b :: q)) :
    Forest (grow s (joinNodes a b)) ((s.nnodes, joinNodes a b) :: q) := by
  have ha := h.queued a (by simp)
  have hb := h.queued b (by simp)
  have hlt {e : Nat × Node} (he : e ∈ a :: b :: q) : e.1 < s.nnodes := lt_nnodes_of_nodeAt (h.queued e he)
  have hdistinct := h.distinct
  simp only [List.map_cons, List.nodup_cons, List.mem_cons, not_or] at hdistinct
  obtain ⟨⟨hab, haq⟩, hbq, hq⟩ := hdistinct
  have hold {x : Nat} (hx : x ∈ q.map Prod.fst) : x < s.nnodes ∧ x ∈ (a :: b :: q).map Prod.fst := by
    obtain ⟨e, he, rfl⟩ := List.mem_map.mp hx
    exact ⟨hlt (by simp [he]), by simp [hx]⟩
  refine
    { wf := Memory.wf_write h.wf _ _
      count := ?count
      leavesFirst := Nat.le_succ_of_le h.leavesFirst
      leaf := fun i hi => ?leaf
      shape := fun x hx hge => ?shape
      queued := fun e he => ?queued
      distinct := ?distinct
      last := ⟨_, List.mem_cons_self, rfl⟩
      parent := fun x hx => ?parent
      orphan := fun x hx p hc => ?orphan
      oneParent := fun p hp p' hp' x hx => ?oneParent }
  case count =>
    have := h.count
    simp only [grow, List.length_cons] at this ⊢
    omega
  case leaf =>
    rw [nodeAt_grow, if_neg (Nat.ne_of_lt (lt_of_lt_of_le hi h.leavesFirst))]
    exact h.leaf i hi
  case shape =>
    rcases Nat.lt_succ_iff_lt_or_eq.mp hx with hx | rfl
    · exact internalShape_grow _ (h.shape x hx hge)
    · exact internalShape_join ha hb hab
  case queued =>
    rcases List.mem_cons.mp he with rfl | he
    · rw [nodeAt_grow, if_pos rfl]
    · exact nodeAt_grow_of_some _ (h.queued e (by simp [he]))
  case distinct =>
    rw [List.map_cons, List.nodup_cons]
    exact ⟨fun hx => absurd (hold hx).1 (lt_irrefl _), hq⟩
  case parent =>
    rcases Nat.lt_succ_iff_lt_or_eq.mp hx with hx | rfl
    · rcases h.parent x hx with hin | ⟨p, hp, hc⟩
      · simp only [List.map_cons, List.mem_cons] at hin
        rcases hin with rfl | rfl | hin
        · exact .inr ⟨s.nnodes, Nat.lt_succ_self _, childOf_grow.mpr (.inl ⟨rfl, .inl rfl⟩)⟩
        · exact .inr ⟨s.nnodes, Nat.lt_succ_self _, childOf_grow.mpr (.inl ⟨rfl, .inr rfl⟩)⟩
        · exact .inl (List.mem_cons_of_mem _ hin)
      · exact .inr ⟨p, Nat.lt_succ_of_lt hp, childOf_grow.mpr (.inr hc)⟩
    · exact .inl List.mem_cons_self
  case orphan =>
    rw [List.map_cons, List.mem_cons] at hx
    rcases childOf_grow.mp hc with ⟨-, rfl | rfl⟩ | hc
    · exact hx.elim (fun he => absurd (hlt (e := a) (by simp)) (by simp [he])) haq
    · exact hx.elim (fun he => absurd (hlt (e := b) (by simp)) (by simp [he])) hbq
    · rcases hx with rfl | hx
      · exact absurd ((h.child_lt hc).trans (lt_nnodes_of_childOf hc)) (lt_irrefl _)
      · exact h.orphan x (hold hx).2 p hc
  case oneParent =>
    rintro ⟨hc, hc'⟩
    rcases childOf_grow.mp hc with ⟨rfl, hab'⟩ | hc <;> rcases childOf_grow.mp hc' with ⟨rfl, -⟩ | hc'
    · exact absurd hp' (lt_irrefl _)
    · rcases hab' with rfl | rfl
      · exact h.orphan a.1 (by simp) p' hc'
      · exact h.orphan b.1 (by simp) p' hc'
    · exact absurd (hp'.trans (lt_nnodes_of_childOf hc)) (lt_irrefl _)
    · have hp := lt_nnodes_of_childOf hc
      exact h.oneParent p hp p' hp' x ((h.child_lt hc).trans hp) ⟨hc, hc'⟩

/-- The forest of the leaves alone, before the first turn (43 R193). -/
theorem forest_leaves {s : State} (hwf : Memory.wf s.tree) (hne : s.freq ≠ []) :
    Forest { s with tree := Memory.write s.tree 0 (leavesOf s.freq), nnodes := s.freq.length }
      (Memory.run 0 (leavesOf s.freq)) := by
  set t : State := { s with tree := Memory.write s.tree 0 (leavesOf s.freq), nnodes := s.freq.length } with ht
  have hlen : (leavesOf s.freq).length = s.freq.length := by simp [leavesOf, freqEntries]
  have hpos : 0 < s.freq.length := List.length_pos_iff.mpr hne
  have hget (i : Nat) : (leavesOf s.freq)[i]? = (s.freq[i]?).map fun e => Node.leaf (BitVec.ofNat 16 e.1) e.2 := by
    simp [leavesOf, freqEntries]
  have hnode {i : Nat} (hi : i < s.freq.length) : t.nodeAt i = (leavesOf s.freq)[i]? := by
    simp only [ht, State.nodeAt, Memory.read_write]
    simp [hi, hlen]
  have hkeys : (Memory.run 0 (leavesOf s.freq)).map Prod.fst = List.range' 0 s.freq.length := by
    rw [Memory.keys_run, hlen]
  have hleaf (i : Nat) (hi : i < s.freq.length) : ∃ c f, t.nodeAt i = some (.leaf c f) := by
    rw [hnode hi, hget, List.getElem?_eq_getElem hi]
    exact ⟨_, _, rfl⟩
  have hnoChild (p h : Nat) : ¬ childOf t p h = true := by
    intro hc
    obtain ⟨_, _, _, _, hp, -⟩ := childOf_eq_true.mp hc
    obtain ⟨c, f, hl⟩ := hleaf p (lt_nnodes_of_nodeAt hp)
    rw [hl] at hp
    cases hp
  have hrun : (Memory.run 0 (leavesOf s.freq)).length = s.freq.length := by
    simpa using congrArg List.length hkeys
  exact
    { wf := Memory.wf_write hwf _ _
      count := by rw [hrun]; exact (Nat.two_mul _).symm
      leavesFirst := le_refl _
      leaf := fun i hi => (hnode hi).trans (hget i)
      shape := fun h hh hge => absurd hh (Nat.not_lt.mpr hge)
      queued := fun e he => by
        have hmem := (Memory.mem_iff_read (Memory.wf_run 0 _) e.1 e.2).mp he
        rw [Memory.read_run] at hmem
        have hlt := (Memory.mem_run_index he).2
        rw [hnode (by omega)]
        simpa using hmem
      distinct := hkeys ▸ List.nodup_range'
      last := by
        have hin : s.freq.length - 1 ∈ (Memory.run 0 (leavesOf s.freq)).map Prod.fst := by
          rw [hkeys, List.mem_range'_1]; omega
        obtain ⟨e, he, heq⟩ := List.mem_map.mp hin
        exact ⟨e, he, by rw [heq]; exact Nat.sub_add_cancel hpos⟩
      parent := fun h hh => .inl (by rw [hkeys]; simpa [ht] using hh)
      orphan := fun h _ p => hnoChild p h
      oneParent := fun p _ q _ h _ hc => hnoChild p h hc.1 }

/-- The loop ends with one node in the queue. -/
theorem combine_forest {s : State} (n : Nat) : ∀ {q : List (Nat × Node)} {tree tree' : Memory Node} {k k' r : Nat},
    Forest { s with tree := tree, nnodes := k } q → combine n q tree k = some (tree', k', r) →
    ∃ node, Forest { s with tree := tree', nnodes := k' } [(r, node)] := by
  induction n with
  | zero => intro q tree tree' k k' r _ h; cases h
  | succ n ih =>
    intro q tree tree' k k' r hf h
    rw [combine] at h
    split at h
    next => cases h
    next a q₁ ha =>
      have hfa := hf.perm (popMin_perm ha)
      split at h
      next hnone =>
        cases h
        rw [popMin_eq_none.mp hnone] at hfa
        exact ⟨a.2, hfa⟩
      next b q₂ hb => exact ih (hfa.perm (List.Perm.cons a (popMin_perm hb))).join h

/-- A forest of one tree has the shape of 10_state.md R48. -/
theorem treeOk_of_forest {s : State} {r : Nat} {node : Node} (h : Forest s [(r, node)]) :
    State.treeOk { s with root := r } := by
  have hcount : s.nnodes + 1 = 2 * s.freq.length := h.count
  have hroot : r + 1 = s.nnodes := by
    obtain ⟨e, he, hlast⟩ := h.last
    rw [List.mem_singleton.mp he] at hlast
    exact hlast
  have hpos : 0 < s.freq.length := by omega
  refine ⟨hpos, hcount, hroot, h.leaf, h.shape, fun x hx => ?_, h.oneParent⟩
  rcases h.parent x (hx.trans (hroot ▸ Nat.lt_succ_self r)) with hin | hp
  · rw [List.map_cons, List.map_nil, List.mem_singleton] at hin
    exact absurd hx (hin ▸ lt_irrefl _)
  · exact hp

/-- HBUILD.RUN on a table with an entry: the tree, and nothing else of the state. -/
theorem hbuildRun_ok {s t : State} (hwf : Memory.wf s.tree) (hne : s.freq ≠ []) (h : hbuildRun s = .ok () t) :
    t = { s with tree := t.tree, nnodes := t.nnodes, root := t.root } ∧ t.treeOk ∧ Memory.wf t.tree := by
  rw [hbuildRun] at h
  split at h
  next => cases h
  next tree k r hcombine =>
    have hlen : (leavesOf s.freq).length = s.freq.length := by simp [leavesOf, freqEntries]
    rw [hlen] at hcombine
    obtain ⟨node, hforest⟩ := combine_forest _ (forest_leaves hwf hne) hcombine
    cases h
    exact ⟨rfl, treeOk_of_forest hforest, hforest.wf⟩

theorem hbuildRun_not_raised {s t : State} {e : Err} : hbuildRun s ≠ .raised e t := by
  rw [hbuildRun]
  split <;> simp

end Sys2Proof.Proofs.TreeBuilder
end

section
/-!
The tables between the units: how many codes FREQ can list and which is the largest (10_state.md R39, 43 R191),
and that HGEN.RUN's walk gives a word to every leaf below ROOT (44 R211).
-/
namespace Sys2Proof.Proofs.Tables
open Sys2Proof Sys2Proof.Machine Sys2Proof.Proofs.TreeBuilder

/-! ### FREQ -/

section
variable {m : Memory Nat} {c f : Nat}

/-- Rising indices below a bound are at most as many as the bound. -/
theorem length_le_of_wf {α : Type} {m : Memory α} {n : Nat} (hwf : Memory.wf m) (hlt : ∀ e ∈ m, e.1 < n) :
    m.length ≤ n := by
  have hsub : m.map Prod.fst ⊆ List.range n := fun k hk => by
    obtain ⟨e, he, rfl⟩ := List.mem_map.mp hk
    exact List.mem_range.mpr (hlt e he)
  have hle := (List.subperm_of_subset hwf.nodup hsub).length_le
  simpa using hle

@[simp] theorem largestCode_nil : largestCode [] = -1 := rfl

theorem le_largestCode (hwf : Memory.wf m) {e : Nat × Nat} (he : e ∈ m) : (e.1 : Int) ≤ largestCode m := by
  obtain ⟨init, top, rfl⟩ : ∃ init top, m = init ++ [top] :=
    ⟨_, _, (List.dropLast_append_getLast (List.ne_nil_of_mem he)).symm⟩
  have htop : largestCode (init ++ [top]) = top.1 := by simp [largestCode, freqEntries]
  rw [htop]
  rcases List.mem_append.mp he with he | he
  · have hlt := (List.pairwise_append.mp (List.pairwise_map.mp hwf)).2.2 e he top (by simp)
    exact_mod_cast hlt.le
  · rw [List.mem_singleton.mp he]

theorem largestCode_mem (hne : m ≠ []) : ∃ e ∈ m, largestCode m = e.1 :=
  ⟨m.getLast hne, List.getLast_mem hne, by simp [largestCode, freqEntries, List.getLast?_eq_some_getLast hne]⟩

theorem neg_one_le_largestCode (m : Memory Nat) : -1 ≤ largestCode m := by
  by_cases hne : m = []
  · rw [hne]; rfl
  · obtain ⟨e, -, he⟩ := largestCode_mem hne
    omega

theorem largestCode_lt {n : Nat} (hlt : ∀ e ∈ m, e.1 < n) : largestCode m < n := by
  by_cases hne : m = []
  · rw [hne, largestCode_nil]; omega
  · obtain ⟨e, hmem, he⟩ := largestCode_mem hne
    have := hlt e hmem
    omega

theorem read_eq_none_of_freqAt (hwf : freqWf m) (h : freqAt m c = 0) : Memory.read m c = none := by
  cases hr : Memory.read m c with
  | none => rfl
  | some v =>
    have hpos := hwf.2 (c, v) ((Memory.mem_iff_read hwf.1 c v).mpr hr)
    simp [freqAt, hr] at h
    omega

theorem freqWrite_of_pos (hf : 0 < f) : freqWrite m c f = Memory.write m c [f] := by
  simp [freqWrite, Nat.ne_of_gt hf]

theorem mem_freqWrite (hwf : freqWf m) (hf : 0 < f) {i v : Nat} :
    (i, v) ∈ freqWrite m c f ↔ if i = c then f = v else (i, v) ∈ m := by
  rw [freqWrite_of_pos hf, Memory.mem_iff_read (Memory.wf_write hwf.1 _ _), Memory.read_write_one,
    Memory.mem_iff_read hwf.1]
  split <;> simp

/-- A code written with a frequency joins the codes of FREQ, which stay below any bound. -/
theorem freqWrite_codes {n : Nat} (hwf : freqWf m) (hf : 0 < f) (hc : c < n) (hlt : ∀ e ∈ m, e.1 < n) :
    ∀ e ∈ freqWrite m c f, e.1 < n := by
  rintro ⟨i, v⟩ he
  rw [mem_freqWrite hwf hf] at he
  split at he
  next heq => exact heq ▸ hc
  next => exact hlt _ he

/-- A new code makes FREQ one entry longer (47 R263). -/
theorem length_freqWrite_new (hwf : freqWf m) (hf : 0 < f) (hnew : freqAt m c = 0) :
    (freqWrite m c f).length = m.length + 1 := by
  have hne {e : Nat × Nat} (he : e ∈ m) : e.1 ≠ c := by
    rintro rfl
    have hr := (Memory.mem_iff_read hwf.1 e.1 e.2).mp he
    rw [read_eq_none_of_freqAt hwf hnew] at hr
    cases hr
  have hright : m.filter (fun e => decide (c + [f].length ≤ e.1)) = m.filter (fun e => !decide (e.1 < c)) :=
    List.filter_congr fun e he => by
      have := hne he
      simp only [List.length_singleton, ← decide_not, decide_eq_decide]
      omega
  have hsplit := List.length_eq_length_filter_add (l := m) (fun e => decide (e.1 < c))
  rw [freqWrite_of_pos hf, Memory.write, hright, List.length_append, List.length_append]
  simp only [Memory.run, List.length_singleton]
  omega

theorem largestCode_freqWrite (hwf : freqWf m) (hf : 0 < f) :
    largestCode (freqWrite m c f) = max (largestCode m) c := by
  have hwf' := freqWf_freqWrite hwf c f
  have hin : (c, f) ∈ freqWrite m c f := (mem_freqWrite hwf hf).mpr (by simp)
  have hold (e : Nat × Nat) (he : e ∈ m) : (e.1 : Int) ≤ largestCode (freqWrite m c f) := by
    by_cases heq : e.1 = c
    · exact heq ▸ le_largestCode hwf'.1 hin
    · exact le_largestCode hwf'.1 ((mem_freqWrite hwf hf (i := e.1) (v := e.2)).mpr (by simpa [heq] using he))
  refine le_antisymm ?_ (max_le ?_ (le_largestCode hwf'.1 hin))
  · obtain ⟨⟨i, v⟩, hmem, htop⟩ := largestCode_mem (List.ne_nil_of_mem hin)
    rw [htop]
    rw [mem_freqWrite hwf hf] at hmem
    split at hmem
    next heq => exact heq ▸ le_max_right _ _
    next => exact (le_largestCode hwf.1 hmem).trans (le_max_left _ _)
  · by_cases hne : m = []
    · rw [hne, largestCode_nil]; exact neg_one_le_largestCode _
    · obtain ⟨e, hmem, htop⟩ := largestCode_mem hne
      exact htop ▸ hold e hmem

end

/-! ### The walk of HGEN.RUN -/

section
variable {s : State}

theorem follow_cons {h : Nat} {v : Bool} {path : List Bool} {n : Node} (hf : s.follow h (v :: path) = some n) :
    ∃ f m l r, s.nodeAt h = some (.internal f m l r) ∧ s.follow (if v then r else l) path = some n := by
  rw [State.follow] at hf
  split at hf
  next f m l r hh => exact ⟨f, m, l, r, hh, hf⟩
  next => cases hf

theorem follow_snoc {v : Bool} {f l r : Nat} {m : Code} {path : List Bool} : ∀ {h : Nat},
    s.follow h path = some (.internal f m l r) →
      s.follow h (path ++ [v]) = s.nodeAt (if v then r else l) := by
  induction path with
  | nil =>
    intro h hf
    rw [State.follow] at hf
    simp [State.follow, hf]
  | cons u path ih =>
    intro h hf
    obtain ⟨f', m', l', r', hh, hrest⟩ := follow_cons hf
    rw [List.cons_append, State.follow, hh]
    exact ih hrest

/-- `Walk` (44 R211) keeps every word and gives one to every leaf below the handle. -/
theorem walk_ok (n : Nat) : ∀ {h : Nat} {w : List Bool} {ctab t : Memory (List Bool)},
    walk s n h w ctab = .ok t →
      (Memory.wf ctab → Memory.wf t)
        ∧ (∀ c, (Memory.read ctab c).isSome = true → (Memory.read t c).isSome = true)
        ∧ ∀ path c f, s.follow h path = some (.leaf c f) → (Memory.read t c.toNat).isSome = true := by
  induction n with
  | zero => intro h w ctab t hw; cases hw
  | succ n ih =>
    intro h w ctab t hw
    rw [walk] at hw
    split at hw
    next => cases hw
    next d g hh =>
      cases hw
      refine ⟨fun hwf => Memory.wf_write hwf _ _, fun c hc => ?_, fun path c f hf => ?_⟩
      · rw [Memory.read_write_one]; split
        · rfl
        · exact hc
      · cases path with
        | nil =>
          rw [State.follow, hh] at hf
          cases hf
          rw [Memory.read_write_one, if_pos rfl]; rfl
        | cons v path =>
          obtain ⟨_, _, _, _, hi, -⟩ := follow_cons hf
          rw [hh] at hi
          cases hi
    next f₀ m₀ l r hh =>
      split at hw
      next => cases hw
      next u hu =>
        obtain ⟨hwfl, hkeepl, hleafl⟩ := ih hu
        obtain ⟨hwfr, hkeepr, hleafr⟩ := ih hw
        refine ⟨hwfr ∘ hwfl, fun c hc => hkeepr c (hkeepl c hc), fun path c f hf => ?_⟩
        cases path with
        | nil =>
          rw [State.follow, hh] at hf
          cases hf
        | cons v path =>
          obtain ⟨_, _, _, _, hi, hrest⟩ := follow_cons hf
          rw [hh] at hi
          cases hi
          cases v with
          | false => exact hkeepr _ (hleafl path c f hrest)
          | true => exact hleafr path c f hrest

/-- With the shape of 10_state.md R48 every node is below ROOT. -/
theorem reachable_of_treeOk (h : s.treeOk) : ∀ n g, g < s.nnodes → s.nnodes ≤ g + n →
    ∃ path, s.follow s.root path = s.nodeAt g := by
  obtain ⟨-, -, hroot, hleaf, hshape, hparent, -⟩ := h
  intro n
  induction n with
  | zero => intro g hlt hge; omega
  | succ n ih =>
    intro g hlt hge
    by_cases hg : g = s.root
    · exact ⟨[], by rw [State.follow, hg]⟩
    · obtain ⟨p, hp, hc⟩ := hparent g (by omega)
      have hgp : g < p := child_lt hleaf hshape hc
      obtain ⟨path, hpath⟩ := ih p hp (by omega)
      obtain ⟨f, m, l, r, hnode, hlr⟩ := childOf_eq_true.mp hc
      rw [hnode] at hpath
      rcases hlr with rfl | rfl
      · exact ⟨path ++ [false], follow_snoc hpath⟩
      · exact ⟨path ++ [true], follow_snoc hpath⟩

/-- Every code with a frequency has a leaf below ROOT. -/
theorem leaf_reachable {c : Code} (h : s.treeOk) (hwf : freqWf s.freq) (hc : 0 < freqAt s.freq c.toNat) :
    ∃ path f, s.follow s.root path = some (.leaf c f) := by
  obtain ⟨i, hi, hget⟩ := List.mem_iff_getElem.mp ((mem_freqEntries_iff hwf c.toNat _).mpr ⟨rfl, hc⟩)
  have hi' : i < s.freq.length := hi
  have hget' : s.freq[i]? = some (c.toNat, freqAt s.freq c.toNat) := List.getElem?_eq_some_iff.mpr ⟨hi, hget⟩
  obtain ⟨hpos, hcount, -, hleaf, -⟩ := id h
  have hnode := hleaf i hi'
  rw [hget', Option.map_some, BitVec.ofNat_toNat, BitVec.setWidth_eq] at hnode
  obtain ⟨path, hpath⟩ := reachable_of_treeOk h s.nnodes i (by omega) (by omega)
  exact ⟨path, _, hpath.trans hnode⟩

/-- HGEN.RUN on a tree: CTAB alone changes, and every code with a frequency has a word (44 R212 (a)). -/
theorem hgenRun_ok {t : State} (htree : s.treeOk) (hfreq : freqWf s.freq) (hctab : Memory.wf s.ctab)
    (h : hgenRun s = .ok () t) :
    t = { s with ctab := t.ctab } ∧ Memory.wf t.ctab
      ∧ ∀ c : Code, 0 < freqAt s.freq c.toNat → (Memory.read t.ctab c.toNat).isSome = true := by
  rw [hgenRun] at h
  split at h
  next => cases h
  next =>
    split at h
    next => cases h
    next d f hroot =>
      cases h
      refine ⟨rfl, Memory.wf_write hctab _ _, fun c hc => ?_⟩
      obtain ⟨path, g, hpath⟩ := leaf_reachable htree hfreq hc
      cases path with
      | nil =>
        rw [State.follow, hroot] at hpath
        cases hpath
        rw [Memory.read_write_one, if_pos rfl]; rfl
      | cons v path =>
        obtain ⟨_, _, _, _, hi, -⟩ := follow_cons hpath
        rw [hroot] at hi
        cases hi
    next =>
      split at h
      next => cases h
      next ctab hw =>
        cases h
        obtain ⟨hwf, -, hleaf⟩ := walk_ok _ hw
        refine ⟨rfl, hwf hctab, fun c hc => ?_⟩
        obtain ⟨path, g, hpath⟩ := leaf_reachable htree hfreq hc
        exact hleaf path c g hpath

theorem hgenRun_not_raised {t : State} {e : Err} : hgenRun s ≠ .raised e t := by
  rw [hgenRun]
  repeat' split
  all_goals simp

end

end Sys2Proof.Proofs.Tables
end

section
/-!
The units of COMPRESS between the boundary units (48_commands.md R284) keep the invariant: what each leaves when it
ends, when it raises, and the data of the next stage.
-/
namespace Sys2Proof.Proofs.CompressUnits
open Sys2Proof Sys2Proof.Machine Sys2Proof.Proofs.Invariant Sys2Proof.Proofs.BoundaryUnits
open Sys2Proof.Proofs.DictShape Sys2Proof.Proofs.TreeBuilder Sys2Proof.Proofs.Tables

/-! ### Rules for the shared operations -/

section
variable {s : State}

/-- `Emit` (41 R150) keeps CSEQ listed. -/
theorem emit_meets (c : Code) (hs : Sound s) (hl : Memory.listed s.cseq s.clen) :
    Meets (emit c s)
      (fun _ t => Sound t ∧ Memory.listed t.cseq t.clen ∧ t = { s with cseq := t.cseq, clen := t.clen })
      (fun e t => e = .capacityExceeded ∧ t = s) := by
  rcases emit_cases c s with ⟨-, h⟩ | ⟨hcap, h⟩ <;> rw [h]
  · exact meets_raised.mpr ⟨rfl, rfl⟩
  · refine meets_ok.mpr ⟨{ hs with cseq := Memory.wf_write hs.cseq _ _, clen := ?_, cpos := ?_ },
      Memory.listed_append hl [c], rfl⟩
    · exact Nat.le_succ_of_le hs.cpos
    · exact withinCap_succ hs.clen (by simpa [atCap] using hcap)

/-- Where DICT has been seeded, CUR and PREV are codes of present entries. -/
theorem codes_present (hs : Sound s) (hseeded : s.dictSeeded) :
    s.prev.toNat < s.dsize ∧ ∀ c, s.cur = some c → c.toNat < s.dsize := by
  rcases hs.dictOk with ⟨hzero, -⟩ | ⟨-, hprev, hcur⟩
  · exact absurd hseeded.1 (by omega)
  · exact ⟨hprev, fun c hc => by simpa [hc] using hcur⟩

theorem dictOk_of_codes_present (hseeded : s.dictSeeded) (hprev : s.prev.toNat < s.dsize)
    (hcur : ∀ c, s.cur = some c → c.toNat < s.dsize) : s.dictOk := by
  refine .inr ⟨hseeded, hprev, ?_⟩
  cases hc : s.cur with
  | none => rfl
  | some c => simpa using hcur c hc

/-- DICT.INSERT (40 R136) keeps CUR and PREV codes of present entries. -/
theorem dictInsert_meets (p : Option Code) (b : Byte) (hs : Sound s) (hseeded : s.dictSeeded) :
    Meets (dictInsert p b s)
      (fun _ t => Sound t ∧ t.dictSeeded ∧ t = { s with dict := t.dict, dsize := s.dsize + 1 })
      (fun e t => t = s ∧ (e = .duplicateEntry ∧ dictLookup p b s ≠ none ∨ e = .dictionaryFull)) := by
  refine ⟨fun k t hins => ?_, fun e t hins => dictInsert_raised hins⟩
  obtain ⟨ht, hseeded', hwf⟩ := dictInsert_ok hs.dict hseeded hins
  refine ⟨?_, hseeded', ht⟩
  obtain ⟨hprev, hcur⟩ := codes_present hs hseeded
  have hdsize : t.dsize = s.dsize + 1 := by rw [ht]
  have hok : t.dictOk := by
    refine dictOk_of_codes_present hseeded' ?_ fun c hc => ?_
    · rw [hdsize, ht]; exact Nat.lt_succ_of_lt hprev
    · rw [ht] at hc; exact hdsize ▸ Nat.lt_succ_of_lt (hcur c hc)
  have hle := hseeded'.2.1
  rw [ht] at hwf hok hle ⊢
  exact { hs with dict := hwf, dsize := hle, dictOk := hok }

end

/-! ### LZWE.RUN (41 R151 to R153) -/

theorem byteCode_lt (b : Byte) : (byteCode b).toNat < 256 := by
  have := b.isLt
  simp only [byteCode, BitVec.toNat_setWidth]
  omega

/-- What the encoder has done to `s` at any moment of its run. -/
structure Encodes (s t : State) : Prop where
  sound : Sound t
  seeded : t.dictSeeded
  listed : Memory.listed t.cseq t.clen
  frame : t = { s with
    cur := t.cur, dsize := t.dsize, ipos := t.ipos, clen := t.clen, dict := t.dict, cseq := t.cseq }

def lzweErrors : List Err := [.capacityExceeded, .dictionaryFull]

/-- A new match whose code is present. -/
theorem Encodes.setCur {s t : State} {k : Code} (h : Encodes s t) (hk : k.toNat < t.dsize) :
    Encodes s { t with cur := some k } := by
  obtain ⟨hs, hseeded, hl, ht⟩ := h
  refine ⟨{ hs with dictOk := ?_ }, hseeded, hl, ?_⟩
  · exact dictOk_of_codes_present hseeded (codes_present hs hseeded).1
      (by rintro _ ⟨⟩; exact hk)
  · rw [ht]

theorem encodes_emit {s t : State} (c : Code) (h : Encodes s t) :
    Meets (emit c t)
      (fun _ u => Encodes s u ∧ u = { t with cseq := u.cseq, clen := u.clen })
      (fun e u => Encodes s u ∧ e ∈ lzweErrors) := by
  obtain ⟨hs, hseeded, hl, ht⟩ := h
  obtain ⟨hok, hraised⟩ := emit_meets c hs hl
  refine ⟨fun a u hr => ?_, fun e u hr => ?_⟩
  · obtain ⟨hs', hl', hu⟩ := hok a u hr
    refine ⟨⟨hs', ?_, hl', ?_⟩, hu⟩
    · exact dictSeeded_congr hseeded (by rw [hu]) (by rw [hu])
    · rw [hu, ht]
  · obtain ⟨rfl, rfl⟩ := hraised e u hr
    exact ⟨⟨hs, hseeded, hl, ht⟩, by simp [lzweErrors]⟩

theorem lzweSym_meets {s t : State} (x : Byte) (h : Encodes s t) :
    Meets (lzweSym x t) (fun _ u => Encodes s u ∧ u.ipos = t.ipos ∧ u.inLen = t.inLen)
      (fun e u => Encodes s u ∧ e ∈ lzweErrors) := by
  obtain ⟨hs, hseeded, -, -⟩ := id h
  rw [lzweSym]
  split
  next k hhit =>
    refine meets_ok.mpr ⟨h.setCur ?_, rfl, rfl⟩
    cases hcur : t.cur with
    | none =>
      rw [hcur] at hhit
      cases hhit
      exact lt_of_lt_of_le (byteCode_lt x) hseeded.1
    | some c => exact (dictLookup_eq_some hs.dict hs.dsize (hcur ▸ hhit)).2.1
  next hmiss =>
    split
    next => exact meets_fault
    next c hcur =>
      rw [hcur] at hmiss
      refine (encodes_emit c h).bind fun _ u ⟨hu, hequ⟩ => ?_
      have hmiss' : dictLookup (some c) x u = none := by rw [hequ]; exact hmiss
      obtain ⟨hsu, hseededu, hlu, hframeu⟩ := hu
      obtain ⟨hok, hraised⟩ := dictInsert_meets (some c) x hsu hseededu
      refine Meets.bind (P := fun _ v => Encodes s v ∧ v.ipos = t.ipos ∧ v.inLen = t.inLen)
        ⟨fun k v hr => ?_, fun e v hr => ?_⟩ ?_
      · obtain ⟨hsv, hseededv, hv⟩ := hok k v hr
        have hlv : Memory.listed v.cseq v.clen := by rw [hv]; exact hlu
        exact ⟨⟨hsv, hseededv, hlv, by rw [hv, hframeu]⟩, by rw [hv, hequ], by rw [hv, hequ]⟩
      · obtain ⟨rfl, ⟨-, hdup⟩ | rfl⟩ := hraised e v hr
        · exact absurd hmiss' hdup
        · exact ⟨⟨hsu, hseededu, hlu, hframeu⟩, by simp [lzweErrors]⟩
      · rintro _ v ⟨hv, hipos, hinLen⟩
        exact meets_ok.mpr ⟨hv.setCur (lt_of_lt_of_le (byteCode_lt x) hv.seeded.1), hipos, hinLen⟩

theorem lzweLoop_meets {s : State} (n : Nat) : ∀ {t : State}, Encodes s t →
    Meets (lzweLoop n t) (fun _ u => Encodes s u) (fun e u => Encodes s u ∧ e ∈ lzweErrors) := by
  induction n with
  | zero => exact fun h => meets_ok.mpr h
  | succ n ih =>
    intro t h
    rw [lzweLoop]
    split
    next => exact meets_fault
    next x hx =>
      have hlt : t.ipos < t.inLen := by
        by_contra hge
        simp [State.inAt, hge] at hx
      refine (lzweSym_meets x h).bind fun _ u ⟨hu, hipos, hinLen⟩ => ih ?_
      obtain ⟨hs, hseeded, hl, hframe⟩ := hu
      have hle : u.ipos + 1 ≤ u.inLen := by omega
      exact ⟨{ hs with ipos := hle }, hseeded, hl, by rw [hframe]⟩

theorem lzweRun_meets {s : State} (hs : Sound s) (hclen : s.clen = 0) (hdsize : s.dsize = 0) :
    Meets (lzweRun s) (fun _ u => Encodes s u) (fun e u => Encodes s u ∧ e ∈ lzweErrors) := by
  have hprev : s.prev = 0 := by
    rcases hs.dictOk with ⟨-, -, hprev⟩ | ⟨hseeded, -⟩
    · exact hprev
    · exact absurd hseeded.1 (by omega)
  have hseeded := dictSeed_seeded s
  have hcpos : s.cpos ≤ 0 := hclen ▸ hs.cpos
  have hstart : Encodes s { dictSeed s with cur := none, clen := 0, ipos := 0 } := by
    refine ⟨{ hs with
      dict := Memory.wf_write hs.dict _ _
      dsize := hseeded.2.1
      ipos := Nat.zero_le _
      cpos := hcpos
      clen := withinCap_zero _
      dictOk := ?_ }, hseeded, fun i hi => absurd hi (Nat.not_lt_zero i), rfl⟩
    refine dictOk_of_codes_present hseeded ?_ (by rintro _ ⟨⟩)
    have hzero : ({ dictSeed s with cur := none, clen := 0, ipos := 0 } : State).prev = 0 := hprev
    rw [hzero]; exact Nat.lt_of_lt_of_le (by decide) hseeded.1
  rw [lzweRun]
  refine (lzweLoop_meets _ hstart).bind fun _ t ht => ?_
  rw [lzweFlush]
  split
  next => exact meets_ok.mpr ht
  next c hc => exact (encodes_emit c ht).weaken fun _ u hu => hu.1

theorem lzweErrors_allowed : ∀ e ∈ lzweErrors, e.code ∈ errorsAt 1 3 := by decide

theorem lzwe_keeps_inv {s v : State} (h : Issued 1 3 s) (hnext : exec .lzweRun s = .next v) :
    (advance .lzweRun v).Inv := by
  have hdata := h.stageData
  simp only [State.stageData, h.op_eq, h.stage_eq] at hdata
  obtain ⟨-, hfreq, hctab, hbits, -, hclen, hdsize⟩ := hdata
  have hctl {t : State} (ht : Encodes s t) : control t = control s := by rw [ht.frame]; rfl
  obtain ⟨hok, hraised⟩ := lzweRun_meets h.sound hclen hdsize
  refine h.keeps_inv (errs := lzweErrors) rfl hnext ⟨fun a t hr => ?_, fun e t hr => ?_⟩ lzweErrors_allowed
  · have ht := hok a t hr
    have hstatus := (control_eq_iff.mp (hctl ht)).1
    refine ⟨ht.sound, hctl ht, 5, by decide, by simp [stageAfter, hstatus, h.op_eq], ?_⟩
    simp only [State.stageData, State.atStage_status, Status.atStage_op, Status.atStage_stage, hstatus, h.op_eq]
    obtain ⟨-, -, hl, hframe⟩ := ht
    exact ⟨hl, by rw [hframe]; exact hfreq, by rw [hframe]; exact hctab, by rw [hframe]; exact hbits⟩
  · obtain ⟨ht, he⟩ := hraised e t hr
    exact ⟨ht.sound, hctl ht, he⟩

/-! ### FREQ.COUNT (43 R191) -/

/-- What the count has done to `s` at any moment of its run. -/
structure Counts (s t : State) : Prop where
  sound : Sound t
  counted : ∀ i, i < t.cpos → (Memory.read t.cseq i).all (fun c => decide (0 < freqAt t.freq c.toNat)) = true
  frame : t = { s with freq := t.freq, cpos := t.cpos }

theorem lt_clen_of_codeAt {s : State} {i : Nat} {c : Code} (hc : s.codeAt i = some c) :
    i < s.clen ∧ Memory.read s.cseq i = some c := by
  unfold State.codeAt at hc
  split at hc
  next hlt => exact ⟨hlt, hc⟩
  next => cases hc

theorem Counts.count {s t : State} {c : Code} (h : Counts s t) (hc : t.codeAt t.cpos = some c) :
    Counts s { t with freq := freqWrite t.freq c.toNat (freqAt t.freq c.toNat + 1), cpos := t.cpos + 1 } := by
  obtain ⟨hs, hcounted, ht⟩ := h
  obtain ⟨hlt, hread⟩ := lt_clen_of_codeAt hc
  refine ⟨{ hs with
    freq := freqWf_freqWrite hs.freq c.toNat (freqAt t.freq c.toNat + 1)
    freqCodes := freqWrite_codes hs.freq (Nat.succ_pos _) c.isLt hs.freqCodes
    cpos := hlt }, fun i hi => ?_, by rw [ht]⟩
  have hgrow (d : Nat) : freqAt t.freq d ≤ freqAt (freqWrite t.freq c.toNat (freqAt t.freq c.toNat + 1)) d := by
    rw [freqAt_freqWrite]
    split
    next heq => exact heq ▸ Nat.le_succ _
    next => exact le_refl _
  rcases Nat.lt_succ_iff_lt_or_eq.mp hi with hi | rfl
  · refine (Option.all_eq_true _ _).mpr fun d hd => ?_
    have hold := (Option.all_eq_true _ _).mp (hcounted i hi) d hd
    exact decide_eq_true ((of_decide_eq_true hold).trans_le (hgrow _))
  · simp [hread, freqAt_freqWrite]

theorem freqLoop_meets {s : State} (n : Nat) : ∀ {t : State}, Counts s t → t.cpos + n = t.clen →
    Meets (freqLoop n t) (fun _ u => Counts s u ∧ u.cpos = u.clen) (fun _ _ => False) := by
  induction n with
  | zero => exact fun h hn => meets_ok.mpr ⟨h, hn⟩
  | succ n ih =>
    intro t h hn
    rw [freqLoop]
    split
    next => exact meets_fault
    next c hc => exact ih (h.count hc) (by simp only; omega)

theorem freqCount_meets {s : State} (hs : Sound s) :
    Meets (freqCount s)
      (fun _ t => Sound t ∧ t.codesCounted ∧ t.headerOk
        ∧ t = { s with freq := t.freq, cpos := t.cpos, entryCnt := t.entryCnt, maxCode := t.maxCode })
      (fun _ _ => False) := by
  have hstart : Counts s { s with cpos := 0 } :=
    ⟨{ hs with cpos := Nat.zero_le _ }, fun i hi => absurd hi (Nat.not_lt_zero i), rfl⟩
  refine (freqLoop_meets s.clen hstart (Nat.zero_add _)).bind fun _ t ⟨ht, hall⟩ => meets_ok.mpr ?_
  obtain ⟨hst, hcounted, hframe⟩ := ht
  have htop := largestCode_lt (n := 65536) hst.freqCodes
  refine ⟨{ hst with
    entryCnt := length_le_of_wf hst.freq.1 hst.freqCodes
    maxCodeLow := neg_one_le_largestCode _
    maxCodeHigh := Int.lt_add_one_iff.mp htop }, hall ▸ hcounted, ⟨rfl, rfl⟩, ?_⟩
  rw [hframe]

/-- A table that counts a listed code is not empty. -/
theorem freq_ne_nil {s : State} (hl : Memory.listed s.cseq s.clen) (hcounted : s.codesCounted) (hpos : 0 < s.clen) :
    s.freq ≠ [] := by
  intro hnil
  obtain ⟨c, hc⟩ := Option.isSome_iff_exists.mp (hl 0 hpos)
  have := hcounted 0 hpos
  simp [hc, hnil, freqAt] at this

theorem freq_keeps_inv {s v : State} (h : Issued 1 5 s) (hnext : exec .freqCount s = .next v) :
    (advance .freqCount v).Inv := by
  have hdata := h.stageData
  simp only [State.stageData, h.op_eq, h.stage_eq] at hdata
  obtain ⟨hl, -, hctab, hbits⟩ := hdata
  obtain ⟨hok, hraised⟩ := freqCount_meets h.sound
  refine h.keeps_inv (errs := []) rfl hnext ⟨fun a t hr => ?_, fun e t hr => (hraised e t hr).elim⟩ (by simp)
  obtain ⟨hst, hcounted, hheader, hframe⟩ := hok a t hr
  have hctl : control t = control s := by rw [hframe]; rfl
  have hstatus := (control_eq_iff.mp hctl).1
  have hl' : Memory.listed t.cseq t.clen := by rw [hframe]; exact hl
  have hbits' : t.totalBits = 0 := by rw [hframe]; exact hbits
  have hctab' : t.ctab = [] := by rw [hframe]; exact hctab
  by_cases hpos : 0 < t.clen
  · refine ⟨hst, hctl, 6, by decide, by simp [stageAfter, hstatus, h.op_eq, hpos], ?_⟩
    simp only [State.stageData, State.atStage_status, Status.atStage_op, Status.atStage_stage, hstatus, h.op_eq]
    exact ⟨hl', freq_ne_nil hl' hcounted hpos, hcounted, hheader, hctab', hbits'⟩
  · refine ⟨hst, hctl, 10, by decide, by simp [stageAfter, hstatus, h.op_eq, hpos], ?_⟩
    simp only [State.stageData, State.atStage_status, Status.atStage_op, Status.atStage_stage, hstatus, h.op_eq]
    refine ⟨fun i hi => ?_, hheader⟩
    rw [State.atStage_totalBits, hbits'] at hi
    exact absurd hi (by simp [ceil8])

/-! ### HBUILD.RUN and HGEN.RUN (43 R193, 44 R211) -/

/-- HBUILD.RUN in either command: the tree, and a state as sound as before. -/
theorem hbuildRun_meets {s : State} (hs : Sound s) (hne : s.freq ≠ []) :
    Meets (hbuildRun s)
      (fun _ t => Sound t ∧ t.treeOk ∧ t = { s with tree := t.tree, nnodes := t.nnodes, root := t.root })
      (fun _ _ => False) := by
  refine ⟨fun _ t hr => ?_, fun e t hr => hbuildRun_not_raised hr⟩
  obtain ⟨hframe, htree, hwf⟩ := hbuildRun_ok hs.tree hne hr
  refine ⟨?_, htree, hframe⟩
  have hnodes : t.nnodes ≤ 131071 := by
    have hcount := htree.2.1
    have hlen : t.freq.length ≤ 65536 := by rw [hframe]; exact length_le_of_wf hs.freq.1 hs.freqCodes
    omega
  rw [hframe] at hwf hnodes ⊢
  exact { hs with tree := hwf, nnodes := hnodes }

theorem hbuild_compress_keeps_inv {s v : State} (h : Issued 1 6 s) (hnext : exec .hbuildRun s = .next v) :
    (advance .hbuildRun v).Inv := by
  have hdata := h.stageData
  simp only [State.stageData, h.op_eq, h.stage_eq] at hdata
  obtain ⟨hl, hne, hcounted, hheader, hctab, hbits⟩ := hdata
  obtain ⟨hok, hraised⟩ := hbuildRun_meets h.sound hne
  refine h.keeps_inv (errs := []) rfl hnext ⟨fun a t hr => ?_, fun e t hr => (hraised e t hr).elim⟩ (by simp)
  obtain ⟨hst, htree, hframe⟩ := hok a t hr
  have hctl : control t = control s := by rw [hframe]; rfl
  have hstatus := (control_eq_iff.mp hctl).1
  refine ⟨hst, hctl, 7, by decide, by simp [stageAfter, hstatus, h.op_eq], ?_⟩
  simp only [State.stageData, State.atStage_status, Status.atStage_op, Status.atStage_stage, hstatus, h.op_eq]
  have hkept : Memory.listed t.cseq t.clen ∧ t.codesCounted ∧ t.headerOk ∧ t.ctab = [] ∧ t.totalBits = 0 := by
    rw [hframe]; exact ⟨hl, hcounted, hheader, hctab, hbits⟩
  obtain ⟨hl, hcounted, hheader, hctab, hbits⟩ := hkept
  exact ⟨hl, htree, hcounted, hheader, hctab, hbits⟩

theorem hgen_keeps_inv {s v : State} (h : Issued 1 7 s) (hnext : exec .hgenRun s = .next v) :
    (advance .hgenRun v).Inv := by
  have hdata := h.stageData
  simp only [State.stageData, h.op_eq, h.stage_eq] at hdata
  obtain ⟨hl, htree, hcounted, hheader, -, hbits⟩ := hdata
  refine h.keeps_inv (errs := []) rfl hnext ⟨fun a t hr => ?_, fun e t hr => absurd hr hgenRun_not_raised⟩ (by simp)
  obtain ⟨hframe, hwf, hwords⟩ := hgenRun_ok htree h.sound.freq h.sound.ctab hr
  have hctl : control t = control s := by rw [hframe]; rfl
  have hstatus := (control_eq_iff.mp hctl).1
  have hst : Sound t := by
    rw [hframe] at hwf ⊢
    exact { h.sound with ctab := hwf }
  refine ⟨hst, hctl, 8, by decide, by simp [stageAfter, hstatus, h.op_eq], ?_⟩
  simp only [State.stageData, State.atStage_status, Status.atStage_op, Status.atStage_stage, hstatus, h.op_eq]
  have hkept : Memory.listed t.cseq t.clen ∧ t.codesCounted ∧ t.headerOk ∧ t.totalBits = 0
      ∧ t.freq = s.freq := by
    rw [hframe]; exact ⟨hl, hcounted, hheader, hbits, rfl⟩
  obtain ⟨hl, hcounted, hheader, hbits, hfreq⟩ := hkept
  refine ⟨hl, fun i hi => (Option.all_eq_true _ _).mpr fun c hc => ?_, hheader, hbits⟩
  have hpos := of_decide_eq_true ((Option.all_eq_true _ _).mp (hcounted i hi) c hc)
  exact hwords c (hfreq ▸ hpos)

end Sys2Proof.Proofs.CompressUnits
end

section
/-!
BPACK.RUN and FWR.RUN (45_bit_packer.md R221, 47_frame_serdes.md R251) keep the invariant: BITS is listed up to the
last bit, and OUT up to the end of the frame.
-/
namespace Sys2Proof.Proofs.FrameOutput
open Sys2Proof Sys2Proof.Machine Sys2Proof.Proofs.Invariant Sys2Proof.Proofs.BoundaryUnits
open Sys2Proof.Proofs.CompressUnits Sys2Proof.Proofs.FieldNumbers

/-! ### BPACK.RUN -/

/-- What the packer has done to `s` at any moment of its run. -/
structure Packs (s t : State) : Prop where
  sound : Sound t
  listed : Memory.listed t.bits (ceil8 t.totalBits)
  frame : t = { s with bits := t.bits, totalBits := t.totalBits, cpos := t.cpos }

/-- The byte of the next bit is the one after the last listed byte, or that byte. -/
theorem ceil8_succ (n : Nat) : ceil8 (n + 1) = if n % 8 = 0 then n / 8 + 1 else ceil8 n := by
  unfold ceil8
  split <;> omega

theorem ceil8_of_mod {n : Nat} (h : n % 8 = 0) : ceil8 n = n / 8 := by
  unfold ceil8
  omega

theorem putBit_packs {s t : State} (v : Bool) (h : Packs s t) :
    Meets (putBit v t) (fun _ u => Packs s u ∧ u.cpos = t.cpos) (fun e u => Packs s u ∧ e = .capacityExceeded) := by
  obtain ⟨hs, hl, ht⟩ := h
  have hbpos : t.bpos ≤ t.totalBits + 1 := Nat.le_succ_of_le hs.bpos
  have hceil := ceil8_succ t.totalBits
  unfold putBit
  simp only
  split
  next hr =>
    rw [if_pos hr] at hceil
    rw [ceil8_of_mod hr] at hl
    split
    next => exact meets_raised.mpr ⟨⟨hs, by rw [ceil8_of_mod hr]; exact hl, ht⟩, rfl⟩
    next =>
      refine meets_ok.mpr ⟨⟨{ hs with bits := Memory.wf_write hs.bits _ _, bpos := hbpos }, ?_, ?_⟩, rfl⟩
      · simp only [hceil]
        exact Memory.listed_append hl _
      · rw [ht]
  next hr =>
    rw [if_neg hr] at hceil
    split
    next => exact meets_fault
    next b hb =>
      refine meets_ok.mpr ⟨⟨{ hs with bits := ?_, bpos := hbpos }, ?_, ?_⟩, rfl⟩
      · cases v
        · exact hs.bits
        · exact Memory.wf_write hs.bits _ _
      · simp only [hceil]
        cases v
        · exact hl
        · exact Memory.listed_write hl _ _
      · rw [ht]

theorem putBits_packs {s : State} (w : List Bool) : ∀ {t : State}, Packs s t →
    Meets (putBits w t) (fun _ u => Packs s u ∧ u.cpos = t.cpos) (fun e u => Packs s u ∧ e = .capacityExceeded) := by
  induction w with
  | nil => exact fun h => meets_ok.mpr ⟨h, rfl⟩
  | cons v w ih =>
    intro t h
    rw [putBits]
    exact (putBit_packs v h).bind fun _ u ⟨hu, hcpos⟩ => (ih hu).weaken fun _ x hx => ⟨hx.1, hx.2.trans hcpos⟩

theorem bpackLoop_packs {s : State} (hwords : s.codesHaveWords) (n : Nat) : ∀ {t : State}, Packs s t →
    Meets (bpackLoop n t) (fun _ u => Packs s u) (fun e u => Packs s u ∧ e = .capacityExceeded) := by
  induction n with
  | zero => exact fun h => meets_ok.mpr h
  | succ n ih =>
    intro t h
    have hframe : t.cseq = s.cseq ∧ t.clen = s.clen ∧ t.ctab = s.ctab := by rw [h.frame]; exact ⟨rfl, rfl, rfl⟩
    obtain ⟨hcseq, hclen, hctab⟩ := hframe
    rw [bpackLoop]
    split
    next => exact meets_fault
    next c hc =>
      obtain ⟨hlt, hread⟩ := lt_clen_of_codeAt hc
      split
      next hnone =>
        have hsome := (Option.all_eq_true _ _).mp (hwords t.cpos (hclen ▸ hlt)) c (hcseq ▸ hread)
        rw [← hctab, hnone] at hsome
        cases hsome
      next w _ =>
        refine (putBits_packs w h).bind fun _ u ⟨hu, hcpos⟩ => ih ?_
        obtain ⟨hs, hl, hu⟩ := hu
        have hclen' : u.clen = s.clen := by rw [hu]
        have hle : u.cpos + 1 ≤ u.clen := by rw [hcpos, hclen', ← hclen]; exact hlt
        exact ⟨{ hs with cpos := hle }, hl, by rw [hu]⟩

theorem bpack_keeps_inv {s v : State} (h : Issued 1 8 s) (hnext : exec .bpackRun s = .next v) :
    (advance .bpackRun v).Inv := by
  have hdata := h.stageData
  simp only [State.stageData, h.op_eq, h.stage_eq] at hdata
  obtain ⟨-, hwords, hheader, hbits⟩ := hdata
  have hstart : Packs s { s with totalBits := 0, cpos := 0 } := by
    have hbpos : s.bpos ≤ 0 := hbits ▸ h.sound.bpos
    exact ⟨{ h.sound with cpos := Nat.zero_le _, bpos := hbpos }, fun i hi => absurd hi (by simp [ceil8]), rfl⟩
  have hctl {t : State} (ht : Packs s t) : control t = control s := by rw [ht.frame]; rfl
  obtain ⟨hok, hraised⟩ := bpackLoop_packs hwords s.clen hstart
  refine h.keeps_inv (errs := [.capacityExceeded]) rfl hnext ⟨fun a t hr => ?_, fun e t hr => ?_⟩ (by decide)
  · have ht := hok a t hr
    have hstatus := (control_eq_iff.mp (hctl ht)).1
    refine ⟨ht.sound, hctl ht, 10, by decide, by simp [stageAfter, hstatus, h.op_eq], ?_⟩
    simp only [State.stageData, State.atStage_status, Status.atStage_op, Status.atStage_stage, hstatus, h.op_eq]
    have hheader' : t.headerOk := by rw [ht.frame]; exact hheader
    exact ⟨ht.listed, hheader'⟩
  · obtain ⟨ht, rfl⟩ := hraised e t hr
    exact ⟨ht.sound, hctl ht, List.mem_singleton_self _⟩

/-! ### FWR.RUN -/

@[simp] theorem field32_length (v : Int) : (field32 v).length = 4 := bytesBE_length _ _

@[simp] theorem entryBytes_length (m : Memory Nat) : (entryBytes m).length = 6 * m.length := by
  induction m with
  | nil => rfl
  | cons e m ih =>
    simp only [entryBytes, freqEntries, List.flatMap_cons, List.length_append, field16, bytesBE_length,
      field32_length, List.length_cons] at ih ⊢
    omega

/-- What the writer has done to `s` after any of its fields. -/
structure Writes (s t : State) : Prop where
  wf : Memory.wf t.outMem
  listed : Memory.listed t.outMem t.outLen
  frame : t = { s with outMem := t.outMem, outLen := t.outLen }

theorem Writes.put {s t : State} (h : Writes s t) (bs : List Byte) : Writes s (put bs t) := by
  obtain ⟨hwf, hl, ht⟩ := h
  exact ⟨Memory.wf_write hwf _ _, Memory.listed_append hl bs, by rw [ht]; rfl⟩

/-- FWR.RUN (47 R251): OUT holds a frame of the length R71 gives, and nothing else of the state changes. -/
theorem fwrRun_ok {s t : State} (hwf : Memory.wf s.outMem) (hheader : s.headerOk) (h : fwrRun s = .ok () t) :
    Writes s t ∧ withinCap t.outLen s.caps.outCap := by
  rw [fwrRun] at h
  split at h
  next => cases h
  next =>
    split at h
    next => cases h
    next hfits =>
      split at h
      next => cases h
      next payload hpayload =>
        have hlen : payload.length = ceil8 s.totalBits := by
          unfold State.bitsRun at hpayload
          split at hpayload
          next => exact (Memory.readRun_eq_some.mp hpayload).1
          next => cases hpayload
        cases h
        have hstart : Writes s { s with outLen := 0 } := ⟨hwf, fun i hi => absurd hi (Nat.not_lt_zero i), rfl⟩
        refine ⟨((((hstart.put _).put _).put _).put _).put _, ?_⟩
        have htotal : 0 + 4 + 4 + 6 * s.freq.length + 4 + ceil8 s.totalBits = frameLength s := by
          rw [frameLength, hheader.1]; omega
        simp only [put_outLen, field32_length, entryBytes_length, hlen, htotal]
        simpa using hfits

theorem fwrRun_raised {s t : State} {e : Err} (h : fwrRun s = .raised e t) :
    t = s ∧ e ∈ [Err.fieldOverflow, .capacityExceeded] := by
  rw [fwrRun] at h
  split at h
  next => cases h; exact ⟨rfl, by simp⟩
  next =>
    split at h
    next => cases h; exact ⟨rfl, by simp⟩
    next => split at h <;> cases h

theorem fwr_keeps_inv {s v : State} (h : Issued 1 10 s) (hnext : exec .fwrRun s = .next v) :
    (advance .fwrRun v).Inv := by
  have hdata := h.stageData
  simp only [State.stageData, h.op_eq, h.stage_eq] at hdata
  obtain ⟨-, hheader⟩ := hdata
  refine h.keeps_inv (errs := [.fieldOverflow, .capacityExceeded]) rfl hnext
    ⟨fun a t hr => ?_, fun e t hr => ?_⟩ (by decide)
  · obtain ⟨⟨hwf, hl, hframe⟩, hcap⟩ := fwrRun_ok h.sound.outMem hheader hr
    have hctl : control t = control s := by rw [hframe]; rfl
    have hstatus := (control_eq_iff.mp hctl).1
    have hst : Sound t := by
      rw [hframe] at hwf ⊢
      exact { h.sound with outMem := hwf, outLen := hcap }
    refine ⟨hst, hctl, 12, by decide, by simp [stageAfter, hstatus, h.op_eq], ?_⟩
    simp only [State.stageData, State.atStage_status, Status.atStage_op, Status.atStage_stage, hstatus, h.op_eq]
    exact hl
  · obtain ⟨rfl, he⟩ := fwrRun_raised hr
    exact ⟨h.sound, rfl, he⟩

end Sys2Proof.Proofs.FrameOutput
end

section
/-!
The units of DECOMPRESS between the boundary units (48_commands.md R290) keep the invariant: what each leaves when
it ends, when it raises, and the data of the next stage.
-/
namespace Sys2Proof.Proofs.DecompressUnits
open Sys2Proof Sys2Proof.Machine Sys2Proof.Proofs.Invariant Sys2Proof.Proofs.BoundaryUnits
open Sys2Proof.Proofs.DictShape Sys2Proof.Proofs.Tables Sys2Proof.Proofs.CompressUnits
open Sys2Proof.Proofs.FieldNumbers

/-! ### FRD.RUN (47 R261) -/

/-- What the reader has done to `s` at any moment of its run. -/
structure Parses (s t : State) : Prop where
  sound : Sound t
  frame : t = { s with
    ipos := t.ipos, maxCode := t.maxCode, entryCnt := t.entryCnt, freq := t.freq, totalBits := t.totalBits
    bits := t.bits }

def frdErrors : List Err := [.malformedFrame, .truncatedInput, .capacityExceeded]

/-- Where FRD.RUN raises. -/
def ParseFails (s : State) (e : Err) (t : State) : Prop := Parses s t ∧ e ∈ frdErrors

section
variable {s t : State}

theorem Parses.malformed (h : Parses s t) : ParseFails s .malformedFrame t := ⟨h, by simp [frdErrors]⟩

/-- `Take(n)`: IPOS alone moves, and the number has n bytes. -/
theorem take_meets (n : Nat) (h : Parses s t) :
    Meets (take n t) (fun v u => Parses s u ∧ v < 256 ^ n ∧ u = { t with ipos := u.ipos }) (ParseFails s) := by
  rw [take]
  split
  next => exact meets_raised.mpr h.malformed
  next hlen =>
    split
    next => exact meets_fault
    next bs hbs =>
      obtain ⟨hs, ht⟩ := h
      unfold State.inRun at hbs
      split at hbs
      next hle =>
        have hbytes := (Memory.readRun_eq_some.mp hbs).1
        exact meets_ok.mpr ⟨⟨{ hs with ipos := hle }, by rw [ht]⟩, hbytes ▸ be_lt bs, rfl⟩
      next => cases hbs

theorem takeSigned_meets (h : Parses s t) :
    Meets (takeSigned t) (fun _ u => Parses s u ∧ u = { t with ipos := u.ipos }) (ParseFails s) :=
  (take_meets 4 h).bind fun _ _ ⟨hu, _, heq⟩ => meets_ok.mpr ⟨hu, heq⟩

/-- Parts 1 and 2 leave FREQ alone. -/
theorem readHeader_meets (h : Parses s t) :
    Meets (readHeader t) (fun _ u => Parses s u ∧ u.freq = t.freq) (ParseFails s) := by
  rw [readHeader]
  refine (takeSigned_meets h).bind fun m u ⟨hu, hequ⟩ => ?_
  split
  next => exact meets_raised.mpr hu.malformed
  next hm =>
    have hbounds : -1 ≤ m ∧ m ≤ 65535 := by omega
    have hmax : Parses s { u with maxCode := m } := by
      obtain ⟨hs, hframe⟩ := hu
      exact ⟨{ hs with maxCodeLow := hbounds.1, maxCodeHigh := hbounds.2 }, by rw [hframe]⟩
    refine (takeSigned_meets hmax).bind fun e v ⟨hv, heqv⟩ => ?_
    split
    next => exact meets_raised.mpr hv.malformed
    next he =>
      have hcnt : e.toNat ≤ 65536 := by omega
      obtain ⟨hs, hframe⟩ := hv
      refine meets_ok.mpr ⟨⟨{ hs with entryCnt := hcnt }, by rw [hframe]⟩, ?_⟩
      have hfreq : v.freq = u.freq := by rw [heqv]
      exact hfreq.trans (by rw [hequ])

/-- One entry of part 3: FREQ has one code more, which may be the largest. -/
theorem readEntry_meets (m : Int) (h : Parses s t) :
    Meets (readEntry m t)
      (fun c u => Parses s u ∧ u.freq.length = t.freq.length + 1
        ∧ largestCode u.freq = max (largestCode t.freq) (c : Int) ∧ u.maxCode = t.maxCode ∧ u.entryCnt = t.entryCnt)
      (ParseFails s) := by
  rw [readEntry]
  refine (take_meets 2 h).bind fun c u ⟨hu, hc, hequ⟩ => ?_
  split
  next => exact meets_raised.mpr hu.malformed
  next =>
    split
    next => exact meets_raised.mpr hu.malformed
    next hnew =>
      refine (takeSigned_meets hu).bind fun f v ⟨hv, heqv⟩ => ?_
      split
      next => exact meets_raised.mpr hv.malformed
      next hf =>
        have hpos : 0 < f.toNat := by omega
        have hkept : v.freq = t.freq ∧ v.maxCode = t.maxCode ∧ v.entryCnt = t.entryCnt := by
          rw [heqv, hequ]; exact ⟨rfl, rfl, rfl⟩
        obtain ⟨hfreq, hmax, hcnt⟩ := hkept
        have hfrequ : u.freq = t.freq := by rw [hequ]
        rw [not_not, hfrequ] at hnew
        obtain ⟨hs, hframe⟩ := hv
        have hwf : freqWf t.freq := hfreq ▸ hs.freq
        have hcodes : ∀ e ∈ freqWrite v.freq c f.toNat, e.1 < 65536 :=
          freqWrite_codes hs.freq hpos hc hs.freqCodes
        refine meets_ok.mpr ⟨⟨{ hs with freq := freqWf_freqWrite hs.freq c f.toNat, freqCodes := hcodes }, ?_⟩,
          ?_, ?_, hmax, hcnt⟩
        · rw [hframe]
        · simp only [hfreq]; exact length_freqWrite_new hwf hpos hnew
        · simp only [hfreq]; exact largestCode_freqWrite hwf hpos

theorem readEntries_meets (m : Int) (n : Nat) : ∀ {t : State}, Parses s t →
    Meets (readEntries m n (largestCode t.freq) t)
      (fun top u => Parses s u ∧ u.freq.length = t.freq.length + n ∧ top = largestCode u.freq
        ∧ u.maxCode = t.maxCode ∧ u.entryCnt = t.entryCnt) (ParseFails s) := by
  induction n with
  | zero => exact fun h => meets_ok.mpr ⟨h, rfl, rfl, rfl, rfl⟩
  | succ n ih =>
    intro t h
    rw [readEntries]
    refine (readEntry_meets m h).bind fun c u ⟨hu, hlen, htop, hmax, hcnt⟩ => ?_
    rw [← htop]
    refine (ih hu).weaken fun top v ⟨hv, hlen', htop', hmax', hcnt'⟩ => ?_
    exact ⟨hv, by omega, htop', hmax'.trans hmax, hcnt'.trans hcnt⟩

/-- Part 3 on an empty FREQ: ENTRYCNT and MAXCODE describe it (R263). -/
theorem readTable_meets (h : Parses s t) (hempty : t.freq = []) :
    Meets (readTable t) (fun _ u => Parses s u ∧ u.headerOk) (ParseFails s) := by
  have htop : (-1 : Int) = largestCode t.freq := by rw [hempty, largestCode_nil]
  rw [readTable, htop]
  refine (readEntries_meets t.maxCode t.entryCnt h).bind fun top u ⟨hu, hlen, htop, hmax, hcnt⟩ => ?_
  split
  next => exact meets_raised.mpr hu.malformed
  next heq =>
    rw [not_not] at heq
    refine meets_ok.mpr ⟨hu, ?_, heq.symm.trans htop⟩
    rw [hlen, hempty, List.length_nil, Nat.zero_add]; exact hcnt

theorem readTotalBits_meets (h : Parses s t) (hheader : t.headerOk) (hbpos : s.bpos = 0) :
    Meets (readTotalBits t) (fun _ u => Parses s u ∧ u.headerOk) (ParseFails s) := by
  rw [readTotalBits]
  refine (takeSigned_meets h).bind fun b u ⟨hu, hequ⟩ => ?_
  split
  next => exact meets_raised.mpr hu.malformed
  next =>
    split
    next => exact meets_raised.mpr hu.malformed
    next =>
      have hheader' : u.headerOk := by rw [hequ]; exact hheader
      obtain ⟨hs, hframe⟩ := hu
      have hle : u.bpos ≤ b.toNat := by
        have hzero : u.bpos = 0 := by rw [hframe]; exact hbpos
        omega
      exact meets_ok.mpr ⟨⟨{ hs with bpos := hle }, by rw [hframe]⟩, hheader'⟩

/-- Part 5: BITS is listed up to the last byte of the payload. -/
theorem readPayload_meets (h : Parses s t) (hheader : t.headerOk) :
    Meets (readPayload t) (fun _ u => Parses s u ∧ u.headerOk ∧ Memory.listed u.bits (ceil8 u.totalBits))
      (ParseFails s) := by
  unfold readPayload
  simp only
  split
  next => exact meets_raised.mpr ⟨h, by simp [frdErrors]⟩
  next =>
    split
    next => exact meets_raised.mpr h.malformed
    next =>
      split
      next => exact meets_raised.mpr ⟨h, by simp [frdErrors]⟩
      next =>
        split
        next => exact meets_fault
        next bs hbs =>
          obtain ⟨hs, hframe⟩ := h
          unfold State.inRun at hbs
          split at hbs
          next hle =>
            have hlen := (Memory.readRun_eq_some.mp hbs).1
            have hlisted : Memory.listed (Memory.write t.bits 0 bs) (ceil8 t.totalBits) := by
              have hnone : Memory.listed t.bits 0 := fun i hi => absurd hi (Nat.not_lt_zero i)
              simpa [hlen] using Memory.listed_append hnone bs
            exact meets_ok.mpr ⟨⟨{ hs with bits := Memory.wf_write hs.bits 0 bs, ipos := hle }, by rw [hframe]⟩,
              hheader, hlisted⟩
          next => cases hbs

theorem frdRun_meets (hs : Sound s) (hempty : s.freq = []) (hbpos : s.bpos = 0) :
    Meets (frdRun s) (fun _ u => Parses s u ∧ u.headerOk ∧ Memory.listed u.bits (ceil8 u.totalBits))
      (ParseFails s) := by
  have hstart : Parses s { s with ipos := 0 } := ⟨{ hs with ipos := Nat.zero_le _ }, rfl⟩
  rw [frdRun]
  refine (readHeader_meets hstart).bind fun _ t ⟨ht, hfreq⟩ => ?_
  refine (readTable_meets ht (hfreq.trans hempty)).bind fun _ u ⟨hu, hheader⟩ => ?_
  refine (readTotalBits_meets hu hheader hbpos).bind fun _ v ⟨hv, hheader'⟩ => readPayload_meets hv hheader'

end

theorem frd_keeps_inv {s v : State} (h : Issued 2 11 s) (hnext : exec .frdRun s = .next v) :
    (advance .frdRun v).Inv := by
  have hdata := h.stageData
  simp only [State.stageData, h.op_eq, h.stage_eq] at hdata
  obtain ⟨-, hempty, hout, hclen, hdsize, hbits⟩ := hdata
  have hbpos : s.bpos = 0 := Nat.le_zero.mp (hbits ▸ h.sound.bpos)
  have hctl {t : State} (ht : Parses s t) : control t = control s := by rw [ht.frame]; rfl
  obtain ⟨hok, hraised⟩ := frdRun_meets h.sound hempty hbpos
  refine h.keeps_inv (errs := frdErrors) rfl hnext ⟨fun a t hr => ?_, fun e t hr => ?_⟩ (by decide)
  · obtain ⟨ht, hheader, hl⟩ := hok a t hr
    have hstatus := (control_eq_iff.mp (hctl ht)).1
    have hkept : t.outLen = 0 ∧ t.clen = 0 ∧ t.dsize = 0 := by rw [ht.frame]; exact ⟨hout, hclen, hdsize⟩
    obtain ⟨hout', hclen', hdsize'⟩ := hkept
    by_cases hpos : 0 < t.entryCnt
    · refine ⟨ht.sound, hctl ht, 6, by decide, by simp [stageAfter, hstatus, h.op_eq, hpos], ?_⟩
      simp only [State.stageData, State.atStage_status, Status.atStage_op, Status.atStage_stage, hstatus, h.op_eq]
      have hne : t.freq ≠ [] := fun hnil => by rw [hheader.1, hnil] at hpos; exact absurd hpos (by simp)
      exact ⟨hl, hne, hheader, hclen', hdsize'⟩
    · refine ⟨ht.sound, hctl ht, 12, by decide, by simp [stageAfter, hstatus, h.op_eq, hpos], ?_⟩
      simp only [State.stageData, State.atStage_status, Status.atStage_op, Status.atStage_stage, hstatus, h.op_eq]
      intro i hi
      rw [State.atStage_outLen, hout'] at hi
      exact absurd hi (Nat.not_lt_zero i)
  · obtain ⟨ht, he⟩ := hraised e t hr
    exact ⟨ht.sound, hctl ht, he⟩

/-! ### HBUILD.RUN (43 R193) -/

theorem hbuild_decompress_keeps_inv {s v : State} (h : Issued 2 6 s) (hnext : exec .hbuildRun s = .next v) :
    (advance .hbuildRun v).Inv := by
  have hdata := h.stageData
  simp only [State.stageData, h.op_eq, h.stage_eq] at hdata
  obtain ⟨hl, hne, hheader, hclen, hdsize⟩ := hdata
  obtain ⟨hok, hraised⟩ := hbuildRun_meets h.sound hne
  refine h.keeps_inv (errs := []) rfl hnext ⟨fun a t hr => ?_, fun e t hr => (hraised e t hr).elim⟩ (by simp)
  obtain ⟨hst, htree, hframe⟩ := hok a t hr
  have hctl : control t = control s := by rw [hframe]; rfl
  have hstatus := (control_eq_iff.mp hctl).1
  refine ⟨hst, hctl, 9, by decide, by simp [stageAfter, hstatus, h.op_eq], ?_⟩
  simp only [State.stageData, State.atStage_status, Status.atStage_op, Status.atStage_stage, hstatus, h.op_eq]
  have hkept : Memory.listed t.bits (ceil8 t.totalBits) ∧ t.headerOk ∧ t.clen = 0 ∧ t.dsize = 0 := by
    rw [hframe]; exact ⟨hl, hheader, hclen, hdsize⟩
  obtain ⟨hl, hheader, hclen, hdsize⟩ := hkept
  exact ⟨hl, htree, hheader, hclen, hdsize⟩

/-! ### BUNPK.RUN (46 R236) -/

/-- What the unpacker has done to `s` at any moment of its run. -/
structure Unpacks (s t : State) : Prop where
  sound : Sound t
  listed : Memory.listed t.cseq t.clen
  frame : t = { s with bpos := t.bpos, node := t.node, clen := t.clen, cseq := t.cseq }

def bunpkErrors : List Err := [.malformedFrame, .capacityExceeded]

section
variable {s t : State}

theorem Unpacks.setNode (h : Unpacks s t) (n : Nat) : Unpacks s { t with node := n } := by
  obtain ⟨hs, hl, ht⟩ := h
  exact ⟨{ hs with }, hl, by rw [ht]⟩

theorem unpacks_emit (c : Code) (h : Unpacks s t) :
    Meets (emit c t) (fun _ u => Unpacks s u ∧ u.bpos = t.bpos) (fun e u => Unpacks s u ∧ e ∈ bunpkErrors) := by
  obtain ⟨hs, hl, ht⟩ := h
  obtain ⟨hok, hraised⟩ := emit_meets c hs hl
  refine ⟨fun a u hr => ?_, fun e u hr => ?_⟩
  · obtain ⟨hs', hl', hu⟩ := hok a u hr
    exact ⟨⟨hs', hl', by rw [hu, ht]⟩, by rw [hu]⟩
  · obtain ⟨rfl, rfl⟩ := hraised e u hr
    exact ⟨⟨hs, hl, ht⟩, by simp [bunpkErrors]⟩

theorem bunpkBit_unpacks (v : Bool) (h : Unpacks s t) :
    Meets (bunpkBit v t) (fun _ u => Unpacks s u ∧ u.bpos = t.bpos) (fun e u => Unpacks s u ∧ e ∈ bunpkErrors) := by
  unfold bunpkBit
  split
  next => split <;> simp
  next =>
    split
    next => exact meets_raised.mpr ⟨h, by simp [bunpkErrors]⟩
    next => exact unpacks_emit _ h
  next =>
    split
    next => exact meets_fault
    next => exact meets_fault
    next _ _ l r _ =>
      simp only
      generalize (if v = true then r else l) = child
      split
      next => exact meets_fault
      next c _ _ =>
        exact (unpacks_emit c (h.setNode child)).bind fun _ u ⟨hu, hbpos⟩ =>
          meets_ok.mpr ⟨hu.setNode u.root, hbpos⟩
      next => exact meets_ok.mpr ⟨h.setNode child, rfl⟩

theorem bunpkLoop_unpacks (n : Nat) : ∀ {t : State}, Unpacks s t → t.bpos + n = s.totalBits →
    Meets (bunpkLoop n t) (fun _ u => Unpacks s u) (fun e u => Unpacks s u ∧ e ∈ bunpkErrors) := by
  induction n with
  | zero =>
    intro t h _
    rw [bunpkLoop]
    split
    next => exact meets_raised.mpr ⟨h, by simp [bunpkErrors]⟩
    next => exact meets_ok.mpr h
  | succ n ih =>
    intro t h hn
    rw [bunpkLoop]
    split
    next => exact meets_fault
    next v _ =>
      have hnext : Unpacks s { t with bpos := t.bpos + 1 } := by
        obtain ⟨hs, hl, ht⟩ := h
        have htotal : t.totalBits = s.totalBits := by rw [ht]
        have hle : t.bpos + 1 ≤ t.totalBits := by omega
        exact ⟨{ hs with bpos := hle }, hl, by rw [ht]⟩
      refine (bunpkBit_unpacks v hnext).bind fun _ u ⟨hu, hbpos⟩ => ih hu ?_
      simp only at hbpos
      omega

end

theorem bunpk_keeps_inv {s v : State} (h : Issued 2 9 s) (hnext : exec .bunpkRun s = .next v) :
    (advance .bunpkRun v).Inv := by
  have hdata := h.stageData
  simp only [State.stageData, h.op_eq, h.stage_eq] at hdata
  obtain ⟨-, -, hheader, hclen, hdsize⟩ := hdata
  have hstart : Unpacks s { s with clen := 0, bpos := 0, node := s.root } := by
    have hcpos : s.cpos ≤ 0 := hclen ▸ h.sound.cpos
    exact ⟨{ h.sound with clen := withinCap_zero _, cpos := hcpos, bpos := Nat.zero_le _ },
      fun i hi => absurd hi (Nat.not_lt_zero i), rfl⟩
  have hctl {t : State} (ht : Unpacks s t) : control t = control s := by rw [ht.frame]; rfl
  obtain ⟨hok, hraised⟩ := bunpkLoop_unpacks s.totalBits hstart (Nat.zero_add _)
  refine h.keeps_inv (errs := bunpkErrors) rfl hnext ⟨fun a t hr => ?_, fun e t hr => ?_⟩ (by decide)
  · have ht := hok a t hr
    have hstatus := (control_eq_iff.mp (hctl ht)).1
    refine ⟨ht.sound, hctl ht, 4, by decide, by simp [stageAfter, hstatus, h.op_eq], ?_⟩
    simp only [State.stageData, State.atStage_status, Status.atStage_op, Status.atStage_stage, hstatus, h.op_eq]
    have hkept : t.headerOk ∧ t.dsize = 0 := by rw [ht.frame]; exact ⟨hheader, hdsize⟩
    exact ⟨ht.listed, hkept⟩
  · obtain ⟨ht, he⟩ := hraised e t hr
    exact ⟨ht.sound, hctl ht, he⟩

/-! ### LZWD.RUN (42 R171 to R173) -/

/-- What the decoder has done to `s` at any moment of its run. -/
structure Decodes (s t : State) : Prop where
  sound : Sound t
  seeded : t.dictSeeded
  listed : Memory.listed t.outMem t.outLen
  frame : t = { s with
    prev := t.prev, dsize := t.dsize, cpos := t.cpos, outLen := t.outLen, dict := t.dict, outMem := t.outMem }

def lzwdErrors : List Err :=
  [.emptyCodeSequenceOnDecode, .invalidCode, .capacityExceeded, .duplicateEntry, .dictionaryFull]

section
variable {s t : State}

theorem Decodes.fails {e : Err} (h : Decodes s t) (he : e ∈ lzwdErrors) : Fails s lzwdErrors e t :=
  ⟨h.sound, by rw [h.frame]; rfl, he⟩

/-- `Append` (42 R170) keeps OUT listed. -/
theorem decodes_append (bs : List Byte) (h : Decodes s t) :
    Meets (append bs t) (fun _ u => Decodes s u ∧ u.dsize = t.dsize ∧ u.cpos = t.cpos) (Fails s lzwdErrors) := by
  rcases append_cases bs t with ⟨-, hr⟩ | ⟨hcap, hr⟩ <;> rw [hr]
  · exact meets_raised.mpr (h.fails (by simp [lzwdErrors]))
  · obtain ⟨hs, hseeded, hl, ht⟩ := h
    exact meets_ok.mpr ⟨⟨{ hs with outMem := Memory.wf_write hs.outMem _ _, outLen := hcap }, hseeded,
      Memory.listed_append hl bs, by rw [ht]⟩, rfl, rfl⟩

/-- PREV becomes the code of a present entry. -/
theorem Decodes.setPrev {c : Code} (h : Decodes s t) (hc : c.toNat < t.dsize) : Decodes s { t with prev := c } := by
  obtain ⟨hs, hseeded, hl, ht⟩ := h
  exact ⟨{ hs with dictOk := dictOk_of_codes_present hseeded hc (codes_present hs hseeded).2 }, hseeded, hl,
    by rw [ht]⟩

theorem Decodes.setCpos {n : Nat} (h : Decodes s t) (hn : n ≤ t.clen) : Decodes s { t with cpos := n } := by
  obtain ⟨hs, hseeded, hl, ht⟩ := h
  exact ⟨{ hs with cpos := hn }, hseeded, hl, by rw [ht]⟩

theorem decodes_insert (p : Code) (b : Byte) (h : Decodes s t) :
    Meets (dictInsert (some p) b t) (fun _ u => Decodes s u ∧ u.dsize = t.dsize + 1 ∧ u.cpos = t.cpos)
      (Fails s lzwdErrors) := by
  obtain ⟨hs, hseeded, hl, ht⟩ := h
  obtain ⟨hok, hraised⟩ := dictInsert_meets (some p) b hs hseeded
  refine ⟨fun k u hr => ?_, fun e u hr => ?_⟩
  · obtain ⟨hs', hseeded', hu⟩ := hok k u hr
    have hl' : Memory.listed u.outMem u.outLen := by rw [hu]; exact hl
    exact ⟨⟨hs', hseeded', hl', by rw [hu, ht]⟩, by rw [hu], by rw [hu]⟩
  · obtain ⟨rfl, ⟨rfl, -⟩ | rfl⟩ := hraised e u hr <;>
      exact Decodes.fails ⟨hs, hseeded, hl, ht⟩ (by simp [lzwdErrors])

/-- DICT.RLOOKUP answers a string exactly below DSIZE, and changes nothing (40 R134). -/
theorem dictRlookup_meets (k : Code) (E : Err → State → Prop) :
    Meets (dictRlookup k t) (fun r u => u = t ∧ (r.isSome = true ↔ k.toNat < t.dsize)) E := by
  unfold dictRlookup
  split
  next hlt =>
    split
    next => exact meets_ok.mpr ⟨rfl, by simp [hlt]⟩
    next => exact meets_fault
  next hge => exact meets_ok.mpr ⟨rfl, by simp [hge]⟩

/-- The string of a code is found for the codes up to DSIZE, and nothing changes (42 R173). -/
theorem lzwdCurrent_meets (c : Code) (h : Decodes s t) :
    Meets (lzwdCurrent c t) (fun _ u => u = t ∧ c.toNat ≤ t.dsize) (Fails s lzwdErrors) := by
  refine (dictRlookup_meets c _).bind fun r u hu => ?_
  obtain ⟨rfl, hr⟩ := hu
  split
  next w => exact meets_ok.mpr ⟨rfl, (hr.mp rfl).le⟩
  next =>
    split
    next heq =>
      refine (dictRlookup_meets _ _).bind fun q v hv => ?_
      obtain ⟨rfl, -⟩ := hv
      split
      next => exact meets_ok.mpr ⟨rfl, heq.le⟩
      next => exact meets_fault
    next => exact meets_raised.mpr (h.fails (by simp [lzwdErrors]))

theorem lzwdFirst_meets (c : Code) (h : Decodes s t) :
    Meets (lzwdFirst c t) (fun _ u => Decodes s u) (Fails s lzwdErrors) := by
  refine (dictRlookup_meets c _).bind fun r u hu => ?_
  obtain ⟨rfl, hr⟩ := hu
  split
  next => exact meets_raised.mpr (h.fails (by simp [lzwdErrors]))
  next w =>
    refine (decodes_append w h).bind fun _ v ⟨hv, hdsize, _⟩ => meets_ok.mpr (hv.setPrev ?_)
    exact hdsize ▸ hr.mp rfl

theorem lzwdNext_meets (c : Code) (h : Decodes s t) :
    Meets (lzwdNext c t) (fun _ u => Decodes s u ∧ u.cpos = t.cpos) (Fails s lzwdErrors) := by
  refine (lzwdCurrent_meets c h).bind fun w u hu => ?_
  obtain ⟨rfl, hc⟩ := hu
  split
  next => exact meets_fault
  next x w =>
    refine (decodes_append (x :: w) h).bind fun _ v ⟨hv, hdsize, hcpos⟩ => ?_
    refine (decodes_insert v.prev x hv).bind fun _ z ⟨hz, hdsize', hcpos'⟩ => ?_
    have hlt : c.toNat < z.dsize := by omega
    exact meets_ok.mpr ⟨hz.setPrev hlt, hcpos'.trans hcpos⟩

theorem lzwdLoop_meets (n : Nat) : ∀ {t : State}, Decodes s t →
    Meets (lzwdLoop n t) (fun _ u => Decodes s u) (Fails s lzwdErrors) := by
  induction n with
  | zero => exact fun h => meets_ok.mpr h
  | succ n ih =>
    intro t h
    rw [lzwdLoop]
    split
    next => exact meets_fault
    next c hc =>
      refine (lzwdNext_meets c h).bind fun _ u ⟨hu, hcpos⟩ => ih (hu.setCpos ?_)
      have hclen : u.clen = t.clen := by rw [hu.frame, h.frame]
      rw [hclen, hcpos]
      exact (lt_clen_of_codeAt hc).1

/-- LZWD.RUN: on no code it raises at once, with nothing changed. -/
theorem lzwdRun_meets (hs : Sound s) (hdsize : s.dsize = 0) :
    Meets (lzwdRun s) (fun _ u => Decodes s u) (Fails s lzwdErrors) := by
  rw [lzwdRun]
  split
  next => exact meets_raised.mpr ⟨hs, rfl, by simp [lzwdErrors]⟩
  next hclen =>
    have hseeded := dictSeed_seeded s
    obtain ⟨hcur, hprev⟩ : s.cur = none ∧ s.prev = 0 := by
      rcases hs.dictOk with ⟨-, hcur, hprev⟩ | ⟨hseeded, -⟩
      · exact ⟨hcur, hprev⟩
      · exact absurd hseeded.1 (by omega)
    have hstart : Decodes s { dictSeed s with outLen := 0 } := by
      refine ⟨{ hs with
        dict := Memory.wf_write hs.dict _ _
        dsize := hseeded.2.1
        outLen := withinCap_zero _
        dictOk := ?_ }, hseeded, fun i hi => absurd hi (Nat.not_lt_zero i), rfl⟩
      refine dictOk_of_codes_present hseeded ?_ fun c hc => ?_
      · have hzero : ({ dictSeed s with outLen := 0 } : State).prev = 0 := hprev
        rw [hzero]; exact Nat.lt_of_lt_of_le (by decide) hseeded.1
      · have hnone : ({ dictSeed s with outLen := 0 } : State).cur = none := hcur
        rw [hnone] at hc; cases hc
    simp only
    split
    next => exact meets_fault
    next c _ =>
      refine (lzwdFirst_meets c hstart).bind fun _ u hu => lzwdLoop_meets _ (hu.setCpos ?_)
      have hclen' : u.clen = s.clen := by rw [hu.frame]
      omega

end

theorem lzwd_keeps_inv {s v : State} (h : Issued 2 4 s) (hnext : exec .lzwdRun s = .next v) :
    (advance .lzwdRun v).Inv := by
  have hdata := h.stageData
  simp only [State.stageData, h.op_eq, h.stage_eq] at hdata
  obtain ⟨-, -, hdsize⟩ := hdata
  obtain ⟨hok, hraised⟩ := lzwdRun_meets h.sound hdsize
  refine h.keeps_inv (errs := lzwdErrors) rfl hnext ⟨fun a t hr => ?_, hraised⟩ (by decide)
  obtain ⟨hs, -, hl, hframe⟩ := hok a t hr
  have hctl : control t = control s := by rw [hframe]; rfl
  have hstatus := (control_eq_iff.mp hctl).1
  refine ⟨hs, hctl, 12, by decide, by simp [stageAfter, hstatus, h.op_eq], ?_⟩
  simp only [State.stageData, State.atStage_status, Status.atStage_op, Status.atStage_stage, hstatus, h.op_eq]
  exact hl

end Sys2Proof.Proofs.DecompressUnits
end

section
/-!
Every step keeps the invariant: the host's actions, the acceptance of a command, and the operation the sequencer
issues at each stage of the two commands.
-/
namespace Sys2Proof.Proofs.StepInvariant
open Sys2Proof Sys2Proof.Machine Sys2Proof.Proofs.Invariant Sys2Proof.Proofs.BoundaryUnits
open Sys2Proof.Proofs.CompressUnits Sys2Proof.Proofs.FrameOutput Sys2Proof.Proofs.DecompressUnits

variable {s t u : State}

/-! ### The host's actions -/

/-- `t` differs from `s` in nothing but the host's side of the register port and of the streams to come. -/
def HostSide (s t : State) : Prop :=
  t = { s with
    host := t.host, input := t.input, nextInput := t.nextInput, nextSink := t.nextSink, rdata := t.rdata
    freeCtr := t.freeCtr }

theorem hostSide_refl (s : State) : HostSide s s := rfl

theorem hostSide_host (s : State) (rest : List HostEvent) : HostSide s { s with host := rest } := rfl

theorem inv_of_hostSide (h : s.Inv) (ht : HostSide s t) : t.Inv := by
  rw [ht]; exact h

theorem hostSide_readRegister (n : Nat) (s : State) : HostSide s (readRegister n s) := by
  unfold readRegister
  split <;> rfl

theorem hostSide_supplyItem (x : Item) (s : State) : HostSide s (supplyItem x s) := by
  unfold supplyItem
  split <;> rfl

/-- The state after a reset event, in any state, is legal. -/
theorem resetBlock_inv (s : State) : s.resetBlock.Inv := by
  have hnil {α : Type} : Memory.wf ([] : Memory α) := List.Pairwise.nil
  refine inv_iff.mpr ⟨.inl rfl, ?_, ⟨by simp, by simp⟩, ⟨by simp [Status.zero], ?_, ?_⟩, by simp [Status.zero]⟩
  · exact {
      inMem := hnil, dict := hnil, cseq := hnil, freq := ⟨hnil, by simp⟩, tree := hnil, ctab := hnil, bits := hnil
      outMem := hnil, freqCodes := by simp, dsize := by simp, nnodes := by simp
      maxCodeLow := by simp, maxCodeHigh := by simp, entryCnt := by simp
      ipos := le_refl _, cpos := le_refl _, bpos := le_refl _
      inLen := withinCap_zero _, clen := withinCap_zero _, outLen := withinCap_zero _
      dictOk := .inl ⟨rfl, rfl, rfl⟩ }
  · exact fun h => absurd h.2.1 Bool.false_ne_true
  · exact fun h => absurd h.2.1 Bool.false_ne_true

/-- An illegal command word at an idle block (60_exceptions.md R322). -/
theorem illegalCommand_inv (h : s.Inv) : s.illegalCommand.Inv := by
  obtain ⟨-, hsound, -, -, -⟩ := inv_iff.mp h
  refine inv_iff.mpr ⟨.inr (.inr (.inr (.inr ⟨rfl, rfl, rfl, rfl, rfl, rfl⟩))), { hsound with },
    ⟨by simp, by simp⟩, ⟨by simp, ?_, ?_⟩, by simp⟩
  · exact fun h => absurd h.2.2.1 (by simp)
  · exact fun h => absurd h.2.2.2 (by simp [Status.noCommand, errorsAt])

/-- The acceptance of a command (10_state.md R56): nothing is left of what came before. -/
theorem accept_inv (h : s.Inv) {op : BitVec 2} (hop : op = 1 ∨ op = 2) : (s.accept op).Inv := by
  obtain ⟨-, hsound, -, -, -⟩ := inv_iff.mp h
  have hsound' : Sound (s.accept op) :=
    { hsound with
      freq := ⟨List.Pairwise.nil, by simp⟩, ctab := List.Pairwise.nil, freqCodes := by simp, dsize := by simp
      nnodes := by simp, maxCodeLow := by simp, maxCodeHigh := by simp, entryCnt := by simp
      ipos := le_refl _, cpos := le_refl _, bpos := le_refl _
      inLen := withinCap_zero _, clen := withinCap_zero _, outLen := withinCap_zero _
      dictOk := .inl ⟨rfl, rfl, rfl⟩ }
  have hlisted : Memory.listed (s.accept op).inMem (s.accept op).inLen := fun i hi => absurd hi (Nat.not_lt_zero i)
  refine inv_of_running ⟨rfl, rfl, rfl, rfl, ?_⟩ hsound' ⟨rfl, rfl, rfl, rfl⟩ (by simp) ?_
  · rcases hop with rfl | rfl <;> simp [Status.accepted, commandStages]
  · rcases hop with rfl | rfl
    · exact ⟨hlisted, rfl, rfl, rfl, ⟨rfl, rfl⟩, rfl, rfl, rfl, rfl⟩
    · exact ⟨hlisted, rfl, rfl, rfl, rfl, rfl, rfl⟩

/-! ### Whose move it is -/

/-- What is issued: a command at an idle block, or the operation that STAGE names. -/
theorem move_issue {i : Instr} (hmove : s.move = .issue i u) :
    HostSide s u
      ∧ ((s.status.busy = false ∧ (i = .compress ∨ i = .decompress))
        ∨ (s.status.busy = true ∧ decodeUop u.fetchWord = .ok i)) := by
  have huop {w : State} (hbusy : s.status.busy = true) (hw : HostSide s w) (hissue : issueUop w = .issue i u) :
      HostSide s u ∧ ((s.status.busy = false ∧ (i = .compress ∨ i = .decompress))
        ∨ (s.status.busy = true ∧ decodeUop u.fetchWord = .ok i)) := by
    unfold issueUop at hissue
    split at hissue
    next hdec => cases hissue; exact ⟨hw, .inr ⟨hbusy, hdec⟩⟩
    next => cases hissue
  unfold State.move at hmove
  split at hmove
  case h_1 | h_3 =>
    split at hmove
    next hbusy => exact huop hbusy (hostSide_refl s) hmove
    next => cases hmove
  case h_2 =>
    split at hmove
    next hbusy => exact huop hbusy (hostSide_host s _) hmove
    next => cases hmove
  case h_5 n v rest _ =>
    unfold writeRegister at hmove
    split at hmove
    next hidle =>
      split at hmove
      next j hdec =>
        cases hmove
        refine ⟨rfl, .inl ⟨hidle.2, ?_⟩⟩
        unfold decodeCmd at hdec
        split at hdec
        · cases hdec; exact .inl rfl
        · split at hdec <;> cases hdec
          exact .inr rfl
      next => cases hmove
    next => cases hmove
  all_goals cases hmove

/-- A step that issues nothing keeps the invariant. -/
theorem move_settled (h : s.Inv) (hmove : s.move = .settled t) : t.Inv := by
  have hissue {w : State} : issueUop w ≠ .settled t := by
    unfold issueUop
    split <;> simp
  have hhost (rest : List HostEvent) : State.Inv { s with host := rest } := inv_of_hostSide h (hostSide_host s rest)
  unfold State.move at hmove
  split at hmove
  case h_1 =>
    split at hmove
    next => exact absurd hmove hissue
    next => cases hmove; exact h
  case h_2 | h_3 =>
    split at hmove
    next => exact absurd hmove hissue
    next => cases hmove; exact hhost _
  case h_4 => cases hmove; exact resetBlock_inv _
  case h_5 n v rest _ =>
    unfold writeRegister at hmove
    split at hmove
    next =>
      split at hmove
      next => cases hmove
      next => cases hmove; exact illegalCommand_inv (hhost rest)
    next => cases hmove; exact hhost rest
  case h_6 => cases hmove; exact inv_of_hostSide (hhost _) (hostSide_readRegister _ _)
  case h_7 => cases hmove; exact inv_of_hostSide (hhost _) (hostSide_supplyItem _ _)
  case h_8 b rest _ =>
    have hside : HostSide s { s with host := rest, nextSink := b } := rfl
    cases hmove; exact inv_of_hostSide h hside

/-! ### What is issued -/

/-- No operation follows a command word: the sequencer waits for its first step. -/
theorem advance_acceptCommand {i : Instr} {op : BitVec 2} (hidle : s.status.busy = false)
    (hi : op = 1 ∧ i = .compress ∨ op = 2 ∧ i = .decompress) :
    advance i (acceptCommand op s) = s.accept op := by
  rcases hi with ⟨rfl, rfl⟩ | ⟨rfl, rfl⟩ <;> simp [acceptCommand, hidle, advance, stageAfter, Status.accepted]

/-- A command word at an idle block. -/
theorem command_keeps_inv {i : Instr} (h : s.Inv) (hidle : s.status.busy = false)
    (hi : i = .compress ∨ i = .decompress) (hnext : exec i s = .next t) : (advance i t).Inv := by
  rcases hi with rfl | rfl <;> cases hnext
  · rw [advance_acceptCommand hidle (.inl ⟨rfl, rfl⟩)]; exact accept_inv h (.inl rfl)
  · rw [advance_acceptCommand hidle (.inr ⟨rfl, rfl⟩)]; exact accept_inv h (.inr rfl)

/-- The operation of the stage of a running command. -/
theorem uop_keeps_inv {i : Instr} (h : s.Inv) (hbusy : s.status.busy = true)
    (hdec : decodeUop s.fetchWord = .ok i) (hnext : exec i s = .next t) : (advance i t).Inv := by
  obtain ⟨hlegal, -, ⟨-, hwait⟩, -, -⟩ := inv_iff.mp h
  have hrun := running_of_legal hlegal hbusy
  obtain ⟨-, -, -, -, hstages⟩ := id hrun
  rw [State.fetchWord, sub_of_inv h hbusy] at hdec
  have hissued {op : BitVec 2} {stage : BitVec 4} (hop : s.status.op = op) (hstage : s.status.stage = stage)
      (hinner : stage ≠ 1 ∧ stage ≠ 12) : Issued op stage s := by
    refine ⟨h, hbusy, hop, hstage, Bool.eq_false_iff.mpr fun hw => ?_⟩
    rw [hstage] at hwait
    exact (hwait hw).2.elim hinner.1 hinner.2
  have hi {stage : BitVec 4} {j : Instr} (hstage : s.status.stage = stage)
      (hj : decodeUop (uopWord stage 0) = .ok j) : i = j := by
    rw [hstage] at hdec
    exact Except.ok.inj (hdec.symm.trans hj)
  rcases op_of_running hrun with hop | hop <;> rw [hop] at hstages
  · change s.status.stage ∈ [1, 3, 5, 6, 7, 8, 10, 12] at hstages
    simp only [List.mem_cons, List.not_mem_nil, or_false] at hstages
    rcases hstages with hst | hst | hst | hst | hst | hst | hst | hst
    · obtain rfl := hi hst (j := .inrdRun) rfl
      exact inrd_keeps_inv h hbusy hst hnext
    · obtain rfl := hi hst (j := .lzweRun) rfl
      exact lzwe_keeps_inv (hissued hop hst (by decide)) hnext
    · obtain rfl := hi hst (j := .freqCount) rfl
      exact freq_keeps_inv (hissued hop hst (by decide)) hnext
    · obtain rfl := hi hst (j := .hbuildRun) rfl
      exact hbuild_compress_keeps_inv (hissued hop hst (by decide)) hnext
    · obtain rfl := hi hst (j := .hgenRun) rfl
      exact hgen_keeps_inv (hissued hop hst (by decide)) hnext
    · obtain rfl := hi hst (j := .bpackRun) rfl
      exact bpack_keeps_inv (hissued hop hst (by decide)) hnext
    · obtain rfl := hi hst (j := .fwrRun) rfl
      exact fwr_keeps_inv (hissued hop hst (by decide)) hnext
    · obtain rfl := hi hst (j := .outwrRun) rfl
      exact outwr_keeps_inv h hbusy hst hnext
  · change s.status.stage ∈ [1, 11, 6, 9, 4, 12] at hstages
    simp only [List.mem_cons, List.not_mem_nil, or_false] at hstages
    rcases hstages with hst | hst | hst | hst | hst | hst
    · obtain rfl := hi hst (j := .inrdRun) rfl
      exact inrd_keeps_inv h hbusy hst hnext
    · obtain rfl := hi hst (j := .frdRun) rfl
      exact frd_keeps_inv (hissued hop hst (by decide)) hnext
    · obtain rfl := hi hst (j := .hbuildRun) rfl
      exact hbuild_decompress_keeps_inv (hissued hop hst (by decide)) hnext
    · obtain rfl := hi hst (j := .bunpkRun) rfl
      exact bunpk_keeps_inv (hissued hop hst (by decide)) hnext
    · obtain rfl := hi hst (j := .lzwdRun) rfl
      exact lzwd_keeps_inv (hissued hop hst (by decide)) hnext
    · obtain rfl := hi hst (j := .outwrRun) rfl
      exact outwr_keeps_inv h hbusy hst hnext

/-- Settles O58. -/
theorem everyStepKeepsTheInvariant : Obligations.EveryStepKeepsTheInvariant := by
  intro s t h hstep
  rcases step_eq_next.mp hstep with ⟨i, u, v, hmove, hexec, rfl⟩ | hmove
  · obtain ⟨hside, hissue⟩ := move_issue hmove
    have hu := inv_of_hostSide h hside
    have hbusy : u.status.busy = s.status.busy := by rw [hside]
    rcases hissue with ⟨hidle, hi⟩ | ⟨hrun, hdec⟩
    · exact command_keeps_inv hu (hbusy.trans hidle) hi hexec
    · exact uop_keeps_inv hu (hbusy.trans hrun) hdec hexec
  · exact move_settled h hmove

/-- Settles O57: the reset state is what a reset event leaves of itself. -/
theorem resetMeetsTheInvariant : Obligations.ResetMeetsTheInvariant :=
  resetBlock_inv State.reset

end Sys2Proof.Proofs.StepInvariant
end

section
/-!
What a running command can depend on (10_state.md R57): the registers, and of each memory the elements below its
length register. A unit operation that starts from this part of a state ends in the same part of its next state.
-/
namespace Sys2Proof.Proofs.LiveState
open Sys2Proof Sys2Proof.Machine Sys2Proof.Proofs.DictShape

/-! ### The elements below a length register -/

section
variable {α : Type}

/-- The elements of a memory at indices below `n`. -/
def below (n : Nat) (m : Memory α) : Memory α := m.filter fun e => decide (e.1 < n)

theorem read_below (n : Nat) (m : Memory α) (i : Nat) :
    Memory.read (below n m) i = if i < n then Memory.read m i else none := by
  have h := Memory.read_filter (fun k => decide (k < n)) m i
  simpa [below] using h

@[simp] theorem below_below (a b : Nat) (m : Memory α) : below a (below b m) = below (min a b) m := by
  simp only [below, List.filter_filter, lt_min_iff, Bool.decide_and]

@[simp] theorem below_zero (m : Memory α) : below 0 m = [] := by
  simp [below]

/-- Elements written at the end of the valid range join it, whatever was there before. -/
theorem below_write (m : Memory α) (a : Nat) (vs : List α) :
    below (a + vs.length) (Memory.write m a vs) = below a m ++ Memory.run a vs := by
  have hrun : (Memory.run a vs).filter (fun e => decide (e.1 < a + vs.length)) = Memory.run a vs :=
    List.filter_eq_self.mpr fun e he => decide_eq_true (Memory.mem_run_index he).2
  have hleft : ∀ e : Nat × α, (decide (e.1 < a + vs.length) && decide (e.1 < a)) = decide (e.1 < a) := fun e => by
    by_cases h : e.1 < a
    · have : e.1 < a + vs.length := by omega
      simp [h, this]
    · simp [h]
  have hright : ∀ e : Nat × α, (decide (e.1 < a + vs.length) && decide (a + vs.length ≤ e.1)) = false := fun e => by
    by_cases h : e.1 < a + vs.length <;> simp [h]
  simp only [below, Memory.write, List.filter_append, List.filter_filter, hrun, hleft, hright, List.filter_false,
    List.append_nil]

theorem below_write_one (m : Memory α) (a : Nat) (v : α) :
    below (a + 1) (Memory.write m a [v]) = below a m ++ [(a, v)] := below_write m a [v]

theorem readRun_below (m : Memory α) (n : Nat) (k : Nat) : ∀ a, a + k ≤ n →
    Memory.readRun (below n m) a k = Memory.readRun m a k := by
  induction k with
  | zero => exact fun _ _ => rfl
  | succ k ih =>
    intro a hle
    rw [Memory.readRun, Memory.readRun, ih (a + 1) (by omega), read_below, if_pos (by omega)]

end

/-! ### The live part of a state -/

/-- What a running command can depend on. -/
def live (s : State) : State :=
  { s with
    inMem := below s.inLen s.inMem, dict := below s.dsize s.dict, cseq := below s.clen s.cseq
    tree := below s.nnodes s.tree, bits := below (ceil8 s.totalBits) s.bits, outMem := below s.outLen s.outMem
    argP := none, argB := 0, argC := 0, resCode := none, resStr := none, freeCtr := 0, rdata := 0 }

/-- What stays of it after an error. FRD.RUN writes TOTALBITS before BITS, so an error between the two leaves
bytes in BITS that no command wrote. -/
def shown (s : State) : State := { live s with bits := [] }

@[simp] theorem live_live (s : State) : live (live s) = live s := by
  simp [live]

@[simp] theorem shown_live (s : State) : shown (live s) = shown s := by
  rw [shown, live_live, shown]

section
variable (s : State)

@[simp] theorem inAt_live (i : Nat) : (live s).inAt i = s.inAt i := by
  simp only [State.inAt, live, read_below]
  split <;> rfl

@[simp] theorem codeAt_live (i : Nat) : (live s).codeAt i = s.codeAt i := by
  simp only [State.codeAt, live, read_below]
  split <;> rfl

@[simp] theorem nodeAt_live (h : Nat) : (live s).nodeAt h = s.nodeAt h := by
  simp only [State.nodeAt, live, read_below]
  split <;> rfl

@[simp] theorem outAt_live (i : Nat) : (live s).outAt i = s.outAt i := by
  simp only [State.outAt, live, read_below]
  split <;> rfl

@[simp] theorem bitsAt_live (i : Nat) : (live s).bitsAt i = s.bitsAt i := by
  simp only [State.bitsAt, live, read_below]
  split <;> rfl

@[simp] theorem bitAt_live (i : Nat) : (live s).bitAt i = s.bitAt i := by
  simp only [State.bitAt, bitsAt_live]

@[simp] theorem inRun_live (a n : Nat) : (live s).inRun a n = s.inRun a n := by
  simp only [State.inRun, live]
  by_cases hle : a + n ≤ s.inLen
  · simp only [hle, if_true, readRun_below _ _ _ _ hle]
  · simp only [hle, if_false]

@[simp] theorem bitsRun_live (a n : Nat) : (live s).bitsRun a n = s.bitsRun a n := by
  simp only [State.bitsRun, live]
  by_cases hle : a + n ≤ ceil8 s.totalBits
  · simp only [hle, if_true, readRun_below _ _ _ _ hle]
  · simp only [hle, if_false]

@[simp] theorem dictLookup_live (p : Option Code) (b : Byte) : dictLookup p b (live s) = dictLookup p b s := by
  cases p with
  | none => rfl
  | some p =>
    have hhit (e : Nat × DictEntry) :
        decide (decide (e.1 < s.dsize) = true ∧ dictHit s.dsize p b e = true) = dictHit s.dsize p b e := by
      by_cases h : e.1 < s.dsize <;> simp [dictHit, h]
    simp only [dictLookup, live, below, List.find?_filter, hhit]

theorem strAt_below (m : Memory DictEntry) (d n : Nat) : ∀ k, k < d → strAt (below d m) n k = strAt m n k := by
  induction n with
  | zero => exact fun _ _ => rfl
  | succ n ih =>
    intro k hk
    rw [strAt, strAt, read_below, if_pos hk]
    split
    next => rfl
    next =>
      split
      next p b _ =>
        split
        next hp => rw [ih p.toNat (hp.trans hk)]
        next => rfl
      next => rfl

@[simp] theorem walk_live (n : Nat) : ∀ (h : Nat) (w : List Bool) (ctab : Memory (List Bool)),
    walk (live s) n h w ctab = walk s n h w ctab := by
  induction n with
  | zero => exact fun _ _ _ => rfl
  | succ n ih =>
    intro h w ctab
    simp only [walk, nodeAt_live, ih]

end

/-! ### What a unit operation shows of its answer -/

section
variable {α β : Type}

/-- An answer with the live part of its state alone. -/
def view : Res α → Res α
  | .ok a s => .ok a (live s)
  | .raised e s => .raised e (shown s)
  | .fault x => .fault x
  | .refused x => .refused x

@[simp] theorem view_ok (a : α) (s : State) : view (.ok a s) = .ok a (live s) := rfl
@[simp] theorem view_raised (e : Err) (s : State) : view (.raised e s : Res α) = .raised e (shown s) := rfl
@[simp] theorem view_fault (x : Fault) : view (.fault x : Res α) = .fault x := rfl
@[simp] theorem view_refused (x : Refusal) : view (.refused x : Res α) = .refused x := rfl

/-- A unit operation, or a part of one, that depends on the live part of its state alone. -/
def Blind (f : State → Res α) : Prop := ∀ s, view (f (live s)) = view (f s)

theorem Blind.congr {f : State → Res α} (hf : Blind f) {s t : State} (h : live s = live t) :
    view (f s) = view (f t) := by
  rw [← hf s, h, hf t]

theorem view_bind {r r' : Res α} {f : α → State → Res β} (hr : view r = view r') (hf : ∀ a, Blind (f a)) :
    view (r.bind f) = view (r'.bind f) := by
  cases r <;> cases r' <;> simp only [view_ok, view_raised, view_fault, view_refused, reduceCtorEq] at hr
  case ok.ok a s b t =>
    obtain ⟨rfl, hst⟩ := Res.ok.inj hr
    exact (hf a).congr hst
  all_goals simpa using hr

theorem Blind.bind {f : State → Res α} {g : α → State → Res β} (hf : Blind f) (hg : ∀ a, Blind (g a)) :
    Blind fun s => (f s).bind g :=
  fun s => view_bind (hf s) hg

end

end Sys2Proof.Proofs.LiveState
end

section
/-!
Every unit operation that the sequencer issues depends on the live part of its state alone.
-/
namespace Sys2Proof.Proofs.BlindUnits
open Sys2Proof Sys2Proof.Machine Sys2Proof.Proofs.DictShape Sys2Proof.Proofs.LiveState

/-! ### The shared operations -/

/-- DICT.SEED leaves nothing of the old dictionary below DSIZE. -/
theorem below_seed (m : Memory DictEntry) :
    below Config.seedN (Memory.write m 0 seedEntries) = Memory.run 0 seedEntries := by
  simpa [seedEntries_length, Config.seedN] using below_write m 0 seedEntries

theorem dictSeed_blind : Blind fun s => Res.ok () (dictSeed s) := by
  intro s
  simp [live, dictSeed, below_seed]

theorem emit_blind (c : Code) : Blind (emit c) := by
  intro s
  have hcap : atCap (live s).clen (live s).caps.cseqCap = atCap s.clen s.caps.cseqCap := rfl
  unfold emit
  rw [hcap]
  split
  next => simp
  next => simp [live, below_write_one]

theorem append_blind (bs : List Byte) : Blind (append bs) := by
  intro s
  have hcap : overCap ((live s).outLen + bs.length) (live s).caps.outCap
      = overCap (s.outLen + bs.length) s.caps.outCap := rfl
  unfold append
  rw [hcap]
  split
  next => simp
  next => simp [live, below_write]

theorem live_put (bs : List Byte) (s : State) : live (put bs (live s)) = live (put bs s) := by
  simp [live, put, below_write]

theorem live_put_congr (bs : List Byte) {s t : State} (h : live s = live t) : live (put bs s) = live (put bs t) := by
  rw [← live_put bs s, h, live_put bs t]

theorem putBit_blind (v : Bool) : Blind (putBit v) := by
  intro s
  have htotal : (live s).totalBits = s.totalBits := rfl
  have hcap : (live s).caps = s.caps := rfl
  unfold putBit
  simp only [bitsAt_live, htotal, hcap]
  split
  next hr =>
    have hceil : ceil8 (s.totalBits + 1) = s.totalBits / 8 + 1 := by unfold ceil8; omega
    have hceil' : ceil8 s.totalBits = s.totalBits / 8 := by unfold ceil8; omega
    split
    next => simp
    next => simp [live, hceil, hceil', below_write_one]
  next hr =>
    have hceil : ceil8 (s.totalBits + 1) = s.totalBits / 8 + 1 := by unfold ceil8; omega
    have hceil' : ceil8 s.totalBits = s.totalBits / 8 + 1 := by unfold ceil8; omega
    split
    next => rfl
    next b _ => cases v <;> simp [live, hceil, hceil', below_write_one]

theorem putBits_blind (w : List Bool) : Blind (putBits w) := by
  induction w with
  | nil => exact fun s => by simp [putBits]
  | cons v w ih => exact (putBit_blind v).bind fun _ => ih

/-! ### INRD and OUTWR -/

theorem inrdLoop_blind (items : List Item) : Blind (inrdLoop items) := by
  induction items with
  | nil => exact fun s => by simp [inrdLoop, live]
  | cons x rest ih =>
    intro s
    cases x with
    | fail => simp [inrdLoop, shown, live]
    | eos => simp [inrdLoop, live]
    | data b =>
      have hcap : atCap (live s).inLen (live s).caps.inCap = atCap s.inLen s.caps.inCap := rfl
      rw [inrdLoop, inrdLoop, hcap]
      split
      next => simp [shown, live]
      next => exact ih.congr (by simp [live, below_write_one])

theorem inrdRun_blind : Blind inrdRun := by
  intro s
  unfold inrdRun
  refine (inrdLoop_blind s.input).congr ?_
  have hwait : (live s).inOp = s.inOp := rfl
  rw [hwait]
  split
  next => exact live_live s
  next => simp [live]

theorem outPut_live (b : Byte) (s : State) : outPut b (live s) = ((outPut b s).1, live (outPut b s).2) := by
  have hanswer : sinkAnswer (live s).sink (live s).offers = sinkAnswer s.sink s.offers := rfl
  unfold outPut
  rw [hanswer]
  cases sinkAnswer s.sink s.offers <;> rfl

theorem outEnd_live (s : State) : outEnd (live s) = ((outEnd s).1, live (outEnd s).2) := by
  have hanswer : sinkAnswer (live s).sink (live s).offers = sinkAnswer s.sink s.offers := rfl
  unfold outEnd
  rw [hanswer]
  cases sinkAnswer s.sink s.offers <;> rfl

theorem outwrLoop_blind (n : Nat) : Blind (outwrLoop n) := by
  induction n with
  | zero =>
    intro s
    rw [outwrLoop, outwrLoop, outEnd_live]
    obtain ⟨answer, t⟩ := outEnd s
    cases answer with
    | ok => simp [live]
    | fail => simp
    | silent => simp [live]
  | succ n ih =>
    intro s
    have hoffers : (live s).offers = s.offers := rfl
    rw [outwrLoop, outwrLoop, outAt_live, hoffers]
    cases s.outAt s.offers with
    | none => rfl
    | some b =>
      simp only [outPut_live]
      obtain ⟨answer, t⟩ := outPut b s
      cases answer with
      | ok => exact ih t
      | fail => simp
      | silent => simp [live]

theorem outwrRun_blind : Blind outwrRun := by
  intro s
  have hstart : (if (live s).inOp then live s else { live s with offers := 0 })
      = live (if s.inOp then s else { s with offers := 0 }) := by
    have hwait : (live s).inOp = s.inOp := rfl
    rw [hwait]
    split <;> rfl
  unfold outwrRun
  rw [hstart]
  exact outwrLoop_blind _ _

/-! ### DICT, LZWE and LZWD -/

theorem dictInsert_blind (p : Option Code) (b : Byte) : Blind (dictInsert p b) := by
  intro s
  have hdsize : (live s).dsize = s.dsize := rfl
  unfold dictInsert
  cases p with
  | none => rfl
  | some c =>
    simp only [dictLookup_live, hdsize]
    split
    next => rfl
    next =>
      split
      next => simp
      next =>
        split
        next => simp
        next => simp [live, below_write_one]

theorem dictRlookup_blind (k : Code) : Blind (dictRlookup k) := by
  intro s
  unfold dictRlookup
  by_cases hk : k.toNat < s.dsize
  · have hk' : k.toNat < (live s).dsize := hk
    have hstr : str (live s).dict k.toNat = str s.dict k.toNat := strAt_below s.dict s.dsize _ _ hk
    rw [if_pos hk, if_pos hk', hstr]
    cases str s.dict k.toNat <;> simp
  · have hk' : ¬ k.toNat < (live s).dsize := hk
    rw [if_neg hk, if_neg hk']
    simp

theorem lzweSym_blind (x : Byte) : Blind (lzweSym x) := by
  intro s
  have hcur : (live s).cur = s.cur := rfl
  unfold lzweSym
  rw [hcur, dictLookup_live]
  split
  next => simp [live]
  next =>
    split
    next => rfl
    next c _ =>
      exact view_bind (emit_blind c s) fun _ => (dictInsert_blind _ x).bind fun _ u => by simp [live]

theorem lzweLoop_blind (n : Nat) : Blind (lzweLoop n) := by
  induction n with
  | zero => exact fun s => by simp [lzweLoop]
  | succ n ih =>
    intro s
    have hipos : (live s).ipos = s.ipos := rfl
    simp only [lzweLoop, inAt_live, hipos]
    split
    next => rfl
    next x _ => exact view_bind (lzweSym_blind x s) fun _ t => ih.congr (by simp [live])

theorem lzweFlush_blind : Blind lzweFlush := by
  intro s
  have hcur : (live s).cur = s.cur := rfl
  unfold lzweFlush
  rw [hcur]
  split
  next => simp
  next c _ => exact emit_blind c s

theorem lzweRun_blind : Blind lzweRun := by
  intro s
  have hstart : live { dictSeed (live s) with cur := none, clen := 0, ipos := 0 }
      = live { dictSeed s with cur := none, clen := 0, ipos := 0 } := by
    simp [live, dictSeed, below_seed]
  exact view_bind ((lzweLoop_blind s.inLen).congr hstart) fun _ => lzweFlush_blind

theorem lzwdFirst_blind (c : Code) : Blind (lzwdFirst c) := by
  refine (dictRlookup_blind c).bind fun r s => ?_
  cases r with
  | none => simp
  | some w => exact view_bind (append_blind w s) fun _ t => by simp [live]

theorem lzwdCurrent_blind (c : Code) : Blind (lzwdCurrent c) := by
  refine (dictRlookup_blind c).bind fun r s => ?_
  cases r with
  | some w => simp
  | none =>
    have hdsize : (live s).dsize = s.dsize := rfl
    simp only [hdsize]
    split
    next =>
      refine view_bind (dictRlookup_blind s.prev s) fun q t => ?_
      split <;> simp
    next => simp

theorem lzwdNext_blind (c : Code) : Blind (lzwdNext c) := by
  refine (lzwdCurrent_blind c).bind fun w => ?_
  cases w with
  | nil => exact fun _ => rfl
  | cons x w =>
    refine (append_blind (x :: w)).bind fun _ s => ?_
    exact view_bind (dictInsert_blind (some s.prev) x s) fun _ t => by simp [live]

theorem lzwdLoop_blind (n : Nat) : Blind (lzwdLoop n) := by
  induction n with
  | zero => exact fun s => by simp [lzwdLoop]
  | succ n ih =>
    intro s
    have hcpos : (live s).cpos = s.cpos := rfl
    simp only [lzwdLoop, codeAt_live, hcpos]
    split
    next => rfl
    next c _ => exact view_bind (lzwdNext_blind c s) fun _ t => ih.congr (by simp [live])

theorem lzwdRun_blind : Blind lzwdRun := by
  intro s
  have hclen : (live s).clen = s.clen := rfl
  have hstart : live { dictSeed (live s) with outLen := 0 } = live { dictSeed s with outLen := 0 } := by
    simp [live, dictSeed, below_seed]
  have hcode : State.codeAt { dictSeed (live s) with outLen := 0 } 0
      = State.codeAt { dictSeed s with outLen := 0 } 0 := codeAt_live s 0
  unfold lzwdRun
  simp only [hclen, hcode]
  split
  next => simp
  next =>
    split
    next => rfl
    next c _ =>
      exact view_bind ((lzwdFirst_blind c).congr hstart) fun _ t => (lzwdLoop_blind _).congr (by simp [live])

/-! ### FREQ, HBUILD and HGEN -/

theorem freqLoop_blind (n : Nat) : Blind (freqLoop n) := by
  induction n with
  | zero => exact fun s => by simp [freqLoop]
  | succ n ih =>
    intro s
    have hcpos : (live s).cpos = s.cpos := rfl
    have hfreq : (live s).freq = s.freq := rfl
    simp only [freqLoop, codeAt_live, hcpos, hfreq]
    split
    next => rfl
    next c _ => exact ih.congr (by simp [live])

theorem freqCount_blind : Blind freqCount := fun s =>
  view_bind ((freqLoop_blind s.clen).congr (by simp [live])) fun _ t => by simp [live]

/-- The loop of HBUILD.RUN makes the same tree of the same queue, whatever TREE holds from NNODES on. -/
theorem combine_below (n : Nat) : ∀ (q : List (Nat × Node)) {m m' : Memory Node} (k : Nat), below k m = below k m' →
    (combine n q m k).map (fun r => (below r.2.1 r.1, r.2)) = (combine n q m' k).map fun r => (below r.2.1 r.1, r.2) := by
  induction n with
  | zero => exact fun _ _ _ _ _ => rfl
  | succ n ih =>
    intro q m m' k h
    rw [combine, combine]
    split
    next => rfl
    next a q₁ _ =>
      split
      next => simp [h]
      next b q₂ _ => exact ih _ (k + 1) (by rw [below_write_one, below_write_one, h])

theorem hbuildRun_blind : Blind hbuildRun := by
  intro s
  have hstart : below (leavesOf s.freq).length (Memory.write (live s).tree 0 (leavesOf s.freq))
      = below (leavesOf s.freq).length (Memory.write s.tree 0 (leavesOf s.freq)) := by
    have hrun (m : Memory Node) := below_write m 0 (leavesOf s.freq)
    simp only [Nat.zero_add, below_zero] at hrun
    rw [hrun, hrun]
  have hcombine := combine_below (leavesOf s.freq).length (Memory.run 0 (leavesOf s.freq)) _ hstart
  have hfreq : (live s).freq = s.freq := rfl
  unfold hbuildRun
  simp only [hfreq]
  revert hcombine
  cases combine (leavesOf s.freq).length (Memory.run 0 (leavesOf s.freq))
      (Memory.write (live s).tree 0 (leavesOf s.freq)) (leavesOf s.freq).length with
  | none =>
    cases combine (leavesOf s.freq).length (Memory.run 0 (leavesOf s.freq))
        (Memory.write s.tree 0 (leavesOf s.freq)) (leavesOf s.freq).length with
    | none => exact fun _ => rfl
    | some r => intro h; cases h
  | some r =>
    cases combine (leavesOf s.freq).length (Memory.run 0 (leavesOf s.freq))
        (Memory.write s.tree 0 (leavesOf s.freq)) (leavesOf s.freq).length with
    | none => intro h; cases h
    | some r' =>
      obtain ⟨tree, k, root⟩ := r
      obtain ⟨tree', k', root'⟩ := r'
      intro h
      simp only [Option.map_some, Option.some.injEq, Prod.mk.injEq] at h
      obtain ⟨htree, rfl, rfl⟩ := h
      simp [live, htree]

theorem hgenRun_blind : Blind hgenRun := by
  intro s
  have hsame : (live s).nnodes = s.nnodes ∧ (live s).root = s.root ∧ (live s).ctab = s.ctab := ⟨rfl, rfl, rfl⟩
  unfold hgenRun
  simp only [hsame, nodeAt_live, walk_live]
  split
  next => rfl
  next =>
    split
    next => rfl
    next => simp [live]
    next =>
      split
      next => rfl
      next => simp [live]

/-! ### BPACK and BUNPK -/

theorem bpackLoop_blind (n : Nat) : Blind (bpackLoop n) := by
  induction n with
  | zero => exact fun s => by simp [bpackLoop]
  | succ n ih =>
    intro s
    have hsame : (live s).cpos = s.cpos ∧ (live s).ctab = s.ctab := ⟨rfl, rfl⟩
    simp only [bpackLoop, codeAt_live, hsame]
    split
    next => rfl
    next =>
      split
      next => simp
      next w _ => exact view_bind (putBits_blind w s) fun _ t => ih.congr (by simp [live])

theorem bpackRun_blind : Blind bpackRun := fun s => (bpackLoop_blind s.clen).congr (by simp [live, ceil8])

theorem bunpkBit_blind (v : Bool) : Blind (bunpkBit v) := by
  intro s
  have hsame : (live s).root = s.root ∧ (live s).nnodes = s.nnodes ∧ (live s).node = s.node := ⟨rfl, rfl, rfl⟩
  simp only [bunpkBit, hsame, nodeAt_live]
  split
  next => split <;> rfl
  next =>
    split
    next => simp
    next => exact emit_blind _ s
  next =>
    split
    next => rfl
    next => rfl
    next =>
      split
      next => rfl
      next c _ _ =>
        exact view_bind ((emit_blind c).congr (by simp [live])) fun _ t => by simp [live]
      next => simp [live]

theorem bunpkLoop_blind (n : Nat) : Blind (bunpkLoop n) := by
  induction n with
  | zero =>
    intro s
    have hsame : (live s).node = s.node ∧ (live s).root = s.root := ⟨rfl, rfl⟩
    simp only [bunpkLoop, hsame]
    split <;> simp
  | succ n ih =>
    intro s
    have hbpos : (live s).bpos = s.bpos := rfl
    simp only [bunpkLoop, bitAt_live, hbpos]
    split
    next => rfl
    next v _ => exact view_bind ((bunpkBit_blind v).congr (by simp [live])) fun _ => ih

theorem bunpkRun_blind : Blind bunpkRun := fun s => (bunpkLoop_blind s.totalBits).congr (by simp [live])

/-! ### FWR and FRD -/

theorem fwrRun_blind : Blind fwrRun := by
  intro s
  have hsame : (live s).totalBits = s.totalBits ∧ (live s).caps = s.caps ∧ (live s).freq = s.freq
      ∧ (live s).entryCnt = s.entryCnt ∧ (live s).maxCode = s.maxCode ∧ fieldOverflows (live s) = fieldOverflows s
      ∧ frameLength (live s) = frameLength s := ⟨rfl, rfl, rfl, rfl, rfl, rfl, rfl⟩
  have hstart : live { live s with outLen := 0 } = live { s with outLen := 0 } := by simp [live]
  simp only [fwrRun, hsame, bitsRun_live]
  split
  next => simp
  next =>
    split
    next => simp
    next =>
      split
      next => rfl
      next payload _ =>
        simp only [view_ok]
        exact congrArg _ (live_put_congr _ (live_put_congr _ (live_put_congr _ (live_put_congr _
          (live_put_congr _ hstart)))))

theorem take_blind (n : Nat) : Blind (take n) := by
  intro s
  have hsame : (live s).inLen = s.inLen ∧ (live s).ipos = s.ipos := ⟨rfl, rfl⟩
  simp only [take, hsame, inRun_live]
  split
  next => simp
  next => split <;> simp [live]

theorem takeSigned_blind : Blind takeSigned := (take_blind 4).bind fun _ s => by simp

theorem readHeader_blind : Blind readHeader := by
  refine takeSigned_blind.bind fun m s => ?_
  split
  next => simp
  next =>
    refine view_bind (takeSigned_blind.congr (by simp [live])) fun e t => ?_
    split
    next => simp
    next => simp [live]

theorem readEntry_blind (m : Int) : Blind (readEntry m) := by
  refine (take_blind 2).bind fun c s => ?_
  have hfreq : (live s).freq = s.freq := rfl
  simp only [hfreq]
  split
  next => simp
  next =>
    split
    next => simp
    next =>
      refine view_bind (takeSigned_blind s) fun f t => ?_
      split
      next => simp
      next => simp [live]

theorem readEntries_blind (m : Int) (n : Nat) : ∀ top, Blind (readEntries m n top) := by
  induction n with
  | zero => exact fun top s => by simp [readEntries]
  | succ n ih => exact fun top => (readEntry_blind m).bind fun c => ih _

theorem readTable_blind : Blind readTable := fun s =>
  view_bind (readEntries_blind s.maxCode s.entryCnt (-1) s) fun top t => by
    have hmax : (live t).maxCode = t.maxCode := rfl
    simp only [hmax]
    split <;> simp

/-- Part 5 writes the whole payload that TOTALBITS announces, or raises before it writes any of it: BITS as it was
does not matter. -/
theorem readPayload_shown (s : State) : view (readPayload (shown s)) = view (readPayload s) := by
  have hsame : (shown s).inLen = s.inLen ∧ (shown s).ipos = s.ipos ∧ (shown s).caps = s.caps
      ∧ (shown s).totalBits = s.totalBits ∧ shown (shown s) = shown s :=
    ⟨rfl, rfl, rfl, rfl, by simp [shown, live]⟩
  have hrun (a n : Nat) : (shown s).inRun a n = s.inRun a n := inRun_live s a n
  simp only [readPayload, hsame, hrun]
  split
  next => simp [hsame]
  next =>
    split
    next => simp [hsame]
    next =>
      split
      next => simp [hsame]
      next =>
        split
        next => rfl
        next bs hbs =>
          have hlen : bs.length = ceil8 s.totalBits := by
            unfold State.inRun at hbs
            split at hbs
            next => exact (Memory.readRun_eq_some.mp hbs).1
            next => cases hbs
          have hpayload (m : ByteMemory) : below (ceil8 s.totalBits) (Memory.write m 0 bs) = Memory.run 0 bs := by
            simpa [hlen] using below_write m 0 bs
          simp [live, shown, hpayload]

theorem readPayload_congr {s t : State} (h : shown s = shown t) : view (readPayload s) = view (readPayload t) := by
  rw [← readPayload_shown s, h, readPayload_shown t]

/-- Parts 4 and 5 of FRD.RUN together: between them TOTALBITS speaks of bytes that BITS does not have. -/
theorem readBits_blind : Blind fun s => (readTotalBits s).bind fun _ t => readPayload t := by
  intro s
  simp only [readTotalBits, Res.bind_assoc]
  refine view_bind (takeSigned_blind s) fun b t => ?_
  have hcnt : (live t).entryCnt = t.entryCnt := rfl
  simp only [hcnt]
  split
  next => simp
  next =>
    split
    next => simp
    next => exact readPayload_congr (by simp [shown, live])

theorem frdRun_blind : Blind frdRun := fun s =>
  view_bind (readHeader_blind.congr (by simp [live])) fun _ => readTable_blind.bind fun _ => readBits_blind

end Sys2Proof.Proofs.BlindUnits
end

section
/-!
A command's result does not depend on what ran before it (10_state.md R57): acceptance leaves two blocks with the
same live part, and every later step keeps what they show the same.
-/
namespace Sys2Proof.Proofs.Independence
open Sys2Proof Sys2Proof.Machine Sys2Proof.Proofs.Invariant Sys2Proof.Proofs.StepInvariant
open Sys2Proof.Proofs.LiveState Sys2Proof.Proofs.BlindUnits

/-- What the later steps of a block can depend on: all of the live part while a command runs, and what stays of it
when the block is idle. -/
def seen (s : State) : State := if s.status.busy then live s else shown s

theorem seen_of_busy {s : State} (h : s.status.busy = true) : seen s = live s := by simp [seen, h]

theorem seen_of_idle {s : State} (h : s.status.busy = false) : seen s = shown s := by simp [seen, h]

theorem seen_live (s : State) : seen (live s) = seen s := by
  have hbusy : (live s).status.busy = s.status.busy := rfl
  rw [seen, seen, hbusy, live_live, shown_live]

theorem seen_congr {s t : State} (h : live s = live t) : seen s = seen t := by
  rw [← seen_live s, h, seen_live t]

/-! ### The operation in issue -/

/-- What comes of a move: the step after the choice of who moves. -/
def moveStep : Move → Host.Outcome State Fault Refusal
  | .issue i s => mapNext (advance i) (exec i s)
  | .settled s => .next s
  | .stop r => .refused r

theorem step_eq_moveStep (s : State) : step s = moveStep s.move := by
  unfold step
  cases s.move <;> rfl

theorem seen_settled {s t : State} (h : seen s = seen t) :
    mapNext seen (moveStep (.settled s)) = mapNext seen (moveStep (.settled t)) :=
  congrArg Host.Outcome.next h

/-- The operations with `sub` 0 take nothing from the latches (log 4). -/
theorem exec_blind {i : Instr} {stage : BitVec 4} (h : decodeUop (uopWord stage 0) = .ok i) :
    ∃ f : State → Res Unit, Blind f ∧ ∀ s, exec i s = (f s).outcome := by
  cases i with
  | inrdRun => exact ⟨_, inrdRun_blind, fun _ => rfl⟩
  | dictSeed => exact ⟨_, dictSeed_blind, fun _ => rfl⟩
  | lzweRun => exact ⟨_, lzweRun_blind, fun _ => rfl⟩
  | lzwdRun => exact ⟨_, lzwdRun_blind, fun _ => rfl⟩
  | freqCount => exact ⟨_, freqCount_blind, fun _ => rfl⟩
  | hbuildRun => exact ⟨_, hbuildRun_blind, fun _ => rfl⟩
  | hgenRun => exact ⟨_, hgenRun_blind, fun _ => rfl⟩
  | bpackRun => exact ⟨_, bpackRun_blind, fun _ => rfl⟩
  | bunpkRun => exact ⟨_, bunpkRun_blind, fun _ => rfl⟩
  | fwrRun => exact ⟨_, fwrRun_blind, fun _ => rfl⟩
  | frdRun => exact ⟨_, frdRun_blind, fun _ => rfl⟩
  | outwrRun => exact ⟨_, outwrRun_blind, fun _ => rfl⟩
  | compress | decompress | dictLookup | dictRlookup | dictInsert | lzweSym | lzweFlush | lzwdFirst | lzwdNext =>
    exact absurd h (by revert stage; decide)

theorem seen_advance (i : Instr) (s : State) : seen (advance i (live s)) = seen (advance i s) := by
  have hsame : (live s).status = s.status ∧ (live s).inOp = s.inOp ∧ stageAfter i (live s) = stageAfter i s :=
    ⟨rfl, rfl, rfl⟩
  simp only [advance, hsame]
  split
  next => exact seen_live s
  next =>
    split
    next => exact seen_live s
    next n _ =>
      split
      next => exact seen_live s.endCommand
      next => exact seen_live (s.atStage n)

theorem seen_outcome (i : Instr) {r r' : Res Unit} (h : view r = view r') :
    mapNext seen (mapNext (advance i) r.outcome) = mapNext seen (mapNext (advance i) r'.outcome) := by
  cases r <;> cases r' <;> simp only [view_ok, view_raised, view_fault, view_refused, reduceCtorEq] at h
  case ok.ok a s b t =>
    have hst := (Res.ok.inj h).2
    simp only [Res.outcome_ok, mapNext_next]
    rw [← seen_advance i s, hst, seen_advance]
  case raised.raised e s e' t =>
    obtain ⟨rfl, hst⟩ := Res.raised.inj h
    have hadv (u : State) : advance i (u.raise e) = u.raise e := by simp [advance]
    have hshown (u : State) : seen (u.raise e) = (shown u).raise e := seen_of_idle rfl
    simp only [Res.outcome_raised, mapNext_next, hadv, hshown, hst]
  case fault.fault => cases h; rfl
  case refused.refused => cases h; rfl

/-- The issue of an operation by a running block. -/
theorem seen_issueUop {s : State} (hsub : s.sub = 0) :
    mapNext seen (moveStep (issueUop (live s))) = mapNext seen (moveStep (issueUop s)) := by
  have hword : (live s).fetchWord = s.fetchWord := rfl
  rw [issueUop, issueUop, hword]
  cases hdec : decodeUop s.fetchWord with
  | error e => rfl
  | ok i =>
    rw [State.fetchWord, hsub] at hdec
    obtain ⟨f, hf, hexec⟩ := exec_blind hdec
    simp only [moveStep, hexec]
    exact seen_outcome i (hf s)

/-! ### The host's actions -/

section
variable (s : State)

theorem seen_status : (seen s).status = s.status := by
  unfold seen
  split <;> rfl

theorem seen_hostField : (seen s).host = s.host := by
  unfold seen
  split <;> rfl

/-- What stays after an error is all that an idle block shows. -/
theorem seen_shown (h : s.status.busy = false) : seen (shown s) = seen s := by
  have h' : (shown s).status.busy = false := h
  rw [seen_of_idle h', seen_of_idle h]
  simp [shown, live]

theorem seen_seen : seen (seen s) = seen s := by
  cases hbusy : s.status.busy with
  | true => rw [seen_of_busy hbusy, seen_live, seen_of_busy hbusy]
  | false => rw [seen_of_idle hbusy, seen_shown s hbusy, seen_of_idle hbusy]

/-- The host's script is no part of what a block holds. -/
theorem seen_withHost {t : State} (ht : t = seen s) (rest : List HostEvent) :
    { t with host := rest } = seen { s with host := rest } := by
  subst ht
  unfold seen
  split <;> rfl

theorem seen_resetBlock : seen (seen s).resetBlock = seen s.resetBlock := by
  have hsame : (seen s).resetBlock = { s.resetBlock with rdata := (seen s).rdata, freeCtr := (seen s).freeCtr } := by
    unfold seen
    split <;> rfl
  rw [hsame]
  rfl

theorem seen_readRegister (n : Nat) : seen (readRegister n s) = seen s := by
  unfold readRegister
  split <;> rfl

theorem seen_supplyItem (x : Item) : seen (supplyItem x (seen s)) = seen (supplyItem x s) := by
  have hbusy : (seen s).status.busy = s.status.busy := by rw [seen_status]
  unfold supplyItem
  rw [hbusy]
  split
  next h => rw [seen_of_busy h]; exact seen_live { s with input := s.input ++ [x] }
  next h =>
    rw [Bool.not_eq_true] at h
    rw [seen_of_idle h]
    exact seen_shown { s with nextInput := s.nextInput ++ [x] } h

theorem seen_sink (b : Sink) (rest : List HostEvent) :
    seen { seen s with host := rest, nextSink := b } = seen { s with host := rest, nextSink := b } := by
  cases h : s.status.busy with
  | true => rw [seen_of_busy h]; exact seen_live { s with host := rest, nextSink := b }
  | false => rw [seen_of_idle h]; exact seen_shown { s with host := rest, nextSink := b } h

theorem seen_illegalCommand (h : s.status.busy = false) :
    seen (seen s).illegalCommand = seen s.illegalCommand := by
  rw [seen_of_idle h]
  exact seen_shown s.illegalCommand rfl

end

/-- Acceptance (10_state.md R56): of what came before, the capacities and the host's declarations alone are left. -/
theorem live_accept {s t : State} (op : BitVec 2) (hcaps : s.caps = t.caps) (hhost : s.host = t.host)
    (hinput : s.nextInput = t.nextInput) (hsink : s.nextSink = t.nextSink) :
    live (s.accept op) = live (t.accept op) := by
  simp [live, State.accept, State.startValues, State.freshStreams, ceil8, hcaps, hhost, hinput, hsink]

/-! ### The step -/

/-- A command word that decodes is accepted by an idle block. -/
theorem moveStep_command {i : Instr} {w : Byte} (hdec : decodeCmd w = .ok i) :
    ∃ op : BitVec 2, (op = 1 ∨ op = 2)
      ∧ ∀ s : State, s.status.busy = false → moveStep (.issue i s) = .next (s.accept op) := by
  unfold decodeCmd at hdec
  split at hdec
  · cases hdec
    exact ⟨1, .inl rfl, fun s h => congrArg _ (advance_acceptCommand h (.inl ⟨rfl, rfl⟩))⟩
  · split at hdec <;> cases hdec
    exact ⟨2, .inr rfl, fun s h => congrArg _ (advance_acceptCommand h (.inr ⟨rfl, rfl⟩))⟩

/-- A register write, by an idle block and by a running one. -/
theorem seen_writeRegister (n : Nat) (v : RegWord) (s : State) :
    mapNext seen (moveStep (writeRegister n v (seen s))) = mapNext seen (moveStep (writeRegister n v s)) := by
  rw [writeRegister, writeRegister, seen_status]
  split
  next hidle =>
    cases hdec : decodeCmd (v.setWidth 8) with
    | error e => exact seen_settled (seen_illegalCommand s hidle.2)
    | ok i =>
      obtain ⟨op, -, haccept⟩ := moveStep_command hdec
      have hidle' : (shown s).status.busy = false := hidle.2
      simp only [seen_of_idle hidle.2, haccept s hidle.2, haccept (shown s) hidle']
      exact congrArg Host.Outcome.next (seen_congr (live_accept op rfl rfl rfl rfl))
  next => exact seen_settled (seen_seen s)

/-- One step shows the same of what it is given to see as of the whole state. -/
theorem seen_step {s : State} (hsub : s.status.busy = true → s.sub = 0) :
    mapNext seen (step (seen s)) = mapNext seen (step s) := by
  have hturn {w : State} (hw : w.status.busy = true → w.sub = 0) :
      mapNext seen (moveStep (if w.status.busy then issueUop (seen w) else .settled (seen w)))
        = mapNext seen (moveStep (if w.status.busy then issueUop w else .settled w)) := by
    split
    next hbusy => rw [seen_of_busy hbusy]; exact seen_issueUop (hw hbusy)
    next => exact seen_settled (seen_seen w)
  rw [step_eq_moveStep, step_eq_moveStep, State.move, State.move, seen_hostField]
  split
  next => rw [seen_status]; exact hturn hsub
  next rest _ => rw [seen_withHost s rfl, seen_status]; exact hturn (w := { s with host := rest }) hsub
  next rest _ =>
    rw [seen_withHost s rfl, seen_status]
    split
    next hbusy => rw [seen_of_busy hbusy]; exact seen_issueUop (hsub hbusy)
    next => exact seen_settled (seen_seen _)
  next rest _ => rw [seen_withHost s rfl]; exact seen_settled (seen_resetBlock _)
  next n v rest _ => rw [seen_withHost s rfl]; exact seen_writeRegister n v _
  next n rest _ =>
    rw [seen_withHost s rfl]
    exact seen_settled ((seen_readRegister _ n).trans ((seen_seen _).trans (seen_readRegister _ n).symm))
  next x rest _ => rw [seen_withHost s rfl]; exact seen_settled (seen_supplyItem _ x)
  next b rest _ => exact seen_settled (seen_sink s b rest)

/-! ### Runs -/

theorem run_succ_eq_next {n : Nat} {s t : State} (h : Sys2Proof.core.run (n + 1) s = .next t) :
    ∃ u, step s = .next u ∧ Sys2Proof.core.run n u = .next t := by
  have hcore : Sys2Proof.core.step s = step s := rfl
  cases hstep : step s <;> simp only [Host.Core.run, hcore, hstep, reduceCtorEq] at h
  case next u => exact ⟨u, rfl, h⟩

/-- Legal states that show the same go on showing the same. -/
theorem seen_run (n : Nat) : ∀ {s t s' t' : State}, s.Inv → t.Inv → seen s = seen t →
    Sys2Proof.core.run n s = .next s' → Sys2Proof.core.run n t = .next t' → seen s' = seen t' := by
  induction n with
  | zero =>
    intro s t s' t' _ _ h hs' ht'
    cases hs'
    cases ht'
    exact h
  | succ n ih =>
    intro s t s' t' hs ht h hs' ht'
    obtain ⟨u, hu, hrun⟩ := run_succ_eq_next hs'
    obtain ⟨w, hw, hrun'⟩ := run_succ_eq_next ht'
    have hstep : mapNext seen (step s) = mapNext seen (step t) := by
      rw [← seen_step (sub_of_inv hs), h, seen_step (sub_of_inv ht)]
    rw [hu, hw] at hstep
    exact ih (everyStepKeepsTheInvariant s u hs hu) (everyStepKeepsTheInvariant t w ht hw)
      (Host.Outcome.next.inj hstep) hrun hrun'

/-- The step of a legal command word at an idle block. -/
theorem step_command {s t : State} {v : RegWord} {rest : List HostEvent} {i : Instr}
    (hidle : s.status.busy = false) (hhost : s.host = .writeReg 0 v :: rest)
    (hdec : decodeCmd (v.setWidth 8) = .ok i) (hstep : step s = .next t) :
    moveStep (.issue i { s with host := rest }) = .next t := by
  rw [← hstep, step_eq_moveStep]
  simp [State.move, hhost, writeRegister, hidle, hdec]

/-- The command words (30_encoding.md R91) decode. -/
theorem decodeCmd_of_word {v : RegWord} (hv : v.toNat % 256 = 1 ∨ v.toNat % 256 = 2) :
    ∃ i, decodeCmd (v.setWidth 8) = .ok i := by
  have hword {w : Byte} (hw : v.toNat % 256 = w.toNat) : v.setWidth 8 = w :=
    BitVec.eq_of_toNat_eq (by rw [BitVec.toNat_setWidth]; exact hw)
  rcases hv with hv | hv
  · exact ⟨.compress, by rw [hword (w := 1) hv]; rfl⟩
  · exact ⟨.decompress, by rw [hword (w := 2) hv]; rfl⟩

/-- The information registers (10_state.md R25). -/
def infoRegisters (s : State) : Nat × Nat × Nat × Nat × Int × Nat × Nat :=
  (s.inLen, s.outLen, s.clen, s.dsize, s.maxCode, s.entryCnt, s.totalBits)

/-- What a block shows holds STATUS, the sink's side and the information registers. -/
theorem results_seen (s : State) :
    (seen s).status = s.status ∧ (seen s).sinkGot = s.sinkGot ∧ (seen s).sinkEnd = s.sinkEnd
      ∧ infoRegisters (seen s) = infoRegisters s := by
  unfold seen
  split <;> exact ⟨rfl, rfl, rfl, rfl⟩

/-- Settles O55: acceptance gives both blocks the same live part, and each step keeps what they show the same. -/
theorem commandsAreIndependentOfThePast : Obligations.CommandsAreIndependentOfThePast := by
  intro s₁ s₂ v rest h₁ h₂ hidle₁ hidle₂ hhost₁ hhost₂ hv hcaps hinput hsink n t₁ t₂ hrun₁ hrun₂
  obtain ⟨u₁, hu₁, hrun₁⟩ := run_succ_eq_next hrun₁
  obtain ⟨u₂, hu₂, hrun₂⟩ := run_succ_eq_next hrun₂
  have hseen : seen u₁ = seen u₂ := by
    obtain ⟨i, hdec⟩ := decodeCmd_of_word hv
    obtain ⟨op, -, haccept⟩ := moveStep_command hdec
    have hacc₁ := (haccept { s₁ with host := rest } hidle₁).symm.trans (step_command hidle₁ hhost₁ hdec hu₁)
    have hacc₂ := (haccept { s₂ with host := rest } hidle₂).symm.trans (step_command hidle₂ hhost₂ hdec hu₂)
    rw [← Host.Outcome.next.inj hacc₁, ← Host.Outcome.next.inj hacc₂]
    exact seen_congr (live_accept op hcaps rfl hinput hsink)
  have hend := seen_run n (everyStepKeepsTheInvariant s₁ u₁ h₁ hu₁) (everyStepKeepsTheInvariant s₂ u₂ h₂ hu₂)
    hseen hrun₁ hrun₂
  obtain ⟨hstatus₁, hgot₁, hend₁, hinfo₁⟩ := results_seen t₁
  obtain ⟨hstatus₂, hgot₂, hend₂, hinfo₂⟩ := results_seen t₂
  rw [hend] at hstatus₁ hgot₁ hend₁ hinfo₁
  have hinfo : infoRegisters t₁ = infoRegisters t₂ := hinfo₁.symm.trans hinfo₂
  simp only [infoRegisters, Prod.mk.injEq] at hinfo
  exact ⟨hstatus₁.symm.trans hstatus₂, hgot₁.symm.trans hgot₂, hend₁.symm.trans hend₂, fun _ _ => hinfo⟩

end Sys2Proof.Proofs.Independence
end

section
/-!
The streams move at the boundary units alone (20_memory.md R66, R68, R76): every unit operation is described by the
part of the state it keeps, where it ends and where it raises.
-/
namespace Sys2Proof.Proofs.StreamFrame
open Sys2Proof Sys2Proof.Machine Sys2Proof.Proofs.Invariant

/-! ### The host's side of the streams -/

/-- What the sink has been offered (20_memory.md R68). -/
def offered (s : State) : Nat × List Byte × Bool := (s.offers, s.sinkGot, s.sinkEnd)

/-- What no unit operation may change: the capacities (00_scope.md R9) and what the host has declared. -/
def declared (s : State) : Caps × List HostEvent × Sink × List Item × Sink :=
  (s.caps, s.host, s.sink, s.nextInput, s.nextSink)

/-- What the reader keeps: everything of the host's side but the items it takes. -/
def outputSide (s : State) : (Nat × List Byte × Bool) × Caps × List HostEvent × Sink × List Item × Sink :=
  (offered s, declared s)

/-- What the writer keeps: everything of the host's side but the offers it makes. -/
def inputSide (s : State) : List Item × Caps × List HostEvent × Sink × List Item × Sink :=
  (s.input, declared s)

/-- What every other unit operation keeps. -/
def streams (s : State) :
    List Item × (Nat × List Byte × Bool) × Caps × List HostEvent × Sink × List Item × Sink :=
  (s.input, offered s, declared s)

theorem offered_eq_iff {s t : State} :
    offered t = offered s ↔ t.offers = s.offers ∧ t.sinkGot = s.sinkGot ∧ t.sinkEnd = s.sinkEnd := by
  simp only [offered, Prod.mk.injEq]

theorem declared_eq_iff {s t : State} :
    declared t = declared s ↔ t.caps = s.caps ∧ t.host = s.host ∧ t.sink = s.sink
      ∧ t.nextInput = s.nextInput ∧ t.nextSink = s.nextSink := by
  simp only [declared, Prod.mk.injEq]

theorem outputSide_eq_iff {s t : State} :
    outputSide t = outputSide s ↔ offered t = offered s ∧ declared t = declared s := by
  simp only [outputSide, Prod.mk.injEq]

theorem inputSide_eq_iff {s t : State} :
    inputSide t = inputSide s ↔ t.input = s.input ∧ declared t = declared s := by
  simp only [inputSide, Prod.mk.injEq]

theorem streams_eq_iff {s t : State} :
    streams t = streams s ↔ t.input = s.input ∧ offered t = offered s ∧ declared t = declared s := by
  simp only [streams, Prod.mk.injEq]

/-! ### Keeping a part of the state -/

section
variable {α β γ : Type} {part : State → γ} {s t : State}

/-- An answer to `s` whose state, ended or raised, has the same `part` as `s`. -/
def Kept (part : State → γ) (s : State) (r : Res α) : Prop :=
  Meets r (fun _ t => part t = part s) (fun _ t => part t = part s)

/-- A unit operation, or a part of one, that keeps `part`. -/
def Keeps (part : State → γ) (f : State → Res α) : Prop := ∀ s, Kept part s (f s)

@[simp] theorem kept_ok {a : α} : Kept part s (.ok a t) ↔ part t = part s := meets_ok

@[simp] theorem kept_raised {e : Err} : Kept part s (.raised e t : Res α) ↔ part t = part s := meets_raised

@[simp] theorem kept_fault {x : Fault} : Kept part s (.fault x : Res α) := meets_fault

@[simp] theorem kept_refused {x : Refusal} : Kept part s (.refused x : Res α) := meets_refused

theorem Kept.of_eq {r : Res α} (h : Kept part t r) (ht : part t = part s) : Kept part s r := by
  rwa [Kept, ht] at h

theorem Kept.bind {r : Res α} {g : α → State → Res β} (hr : Kept part s r) (hg : ∀ a, Keeps part (g a)) :
    Kept part s (r.bind g) :=
  Meets.bind hr fun a t ht => (hg a t).of_eq ht

theorem Keeps.bind {f : State → Res α} {g : α → State → Res β} (hf : Keeps part f)
    (hg : ∀ a, Keeps part (g a)) : Keeps part fun s => (f s).bind g :=
  fun s => (hf s).bind hg

/-- Taking an error (60_exceptions.md R330) adds nothing, where `part` does not speak of STATUS. -/
theorem Keeps.of_next {f : State → Res α} (hf : Keeps part f) (hraise : ∀ e u, part (State.raise e u) = part u)
    (hnext : (f s).outcome = .next t) : part t = part s := by
  obtain ⟨hok, hraised⟩ := hf s
  rcases Res.outcome_eq_next.mp hnext with ⟨a, h⟩ | ⟨e, u, h, rfl⟩
  · exact hok a t h
  · exact (hraise e u).trans (hraised e u h)

end

/-! ### The shared operations -/

theorem emit_keeps (c : Code) : Keeps streams (emit c) := fun s => by
  rcases emit_cases c s with ⟨-, h⟩ | ⟨-, h⟩ <;> rw [h]
  · exact kept_raised.mpr rfl
  · exact kept_ok.mpr rfl

theorem append_keeps (bs : List Byte) : Keeps streams (append bs) := fun s => by
  rcases append_cases bs s with ⟨-, h⟩ | ⟨-, h⟩ <;> rw [h]
  · exact kept_raised.mpr rfl
  · exact kept_ok.mpr rfl

theorem putBit_keeps (v : Bool) : Keeps streams (putBit v) := by
  refine fun s => ⟨fun _ t h => ?_, fun e t h => ?_⟩
  · obtain ⟨ht, -⟩ := putBit_ok h
    rw [ht]; rfl
  · obtain ⟨-, rfl⟩ := putBit_raised h
    rfl

theorem putBits_keeps (w : List Bool) : Keeps streams (putBits w) := by
  induction w with
  | nil => exact fun s => kept_ok.mpr rfl
  | cons v w ih => exact (putBit_keeps v).bind fun _ => ih

theorem streams_put (bs : List Byte) (s : State) : streams (put bs s) = streams s := rfl

/-! ### DICT, LZWE and LZWD -/

theorem dictSeed_keeps : Keeps streams fun s => Res.ok () (dictSeed s) := fun _ => kept_ok.mpr rfl

theorem dictRlookup_keeps (k : Code) : Keeps streams (dictRlookup k) := fun s => by
  rw [dictRlookup]
  split
  next =>
    split
    next => exact kept_ok.mpr rfl
    next => exact kept_fault
  next => exact kept_ok.mpr rfl

theorem dictInsert_keeps (p : Option Code) (b : Byte) : Keeps streams (dictInsert p b) := fun s => by
  rcases dictInsert_cases p b s with ⟨-, h⟩ | ⟨c, -, -, ⟨-, h⟩ | ⟨-, -, h⟩ | ⟨-, -, h⟩⟩ <;> rw [h]
  · exact kept_refused
  · exact kept_raised.mpr rfl
  · exact kept_raised.mpr rfl
  · exact kept_ok.mpr rfl

theorem lzweSym_keeps (x : Byte) : Keeps streams (lzweSym x) := fun s => by
  rw [lzweSym]
  split
  next => exact kept_ok.mpr rfl
  next =>
    split
    next => exact kept_fault
    next c _ =>
      exact (emit_keeps c s).bind fun _ => (dictInsert_keeps (some c) x).bind fun _ _ => kept_ok.mpr rfl

theorem lzweFlush_keeps : Keeps streams lzweFlush := fun s => by
  rw [lzweFlush]
  split
  next => exact kept_ok.mpr rfl
  next c _ => exact emit_keeps c s

theorem lzweLoop_keeps (n : Nat) : Keeps streams (lzweLoop n) := by
  induction n with
  | zero => exact fun s => kept_ok.mpr rfl
  | succ n ih =>
    intro s
    rw [lzweLoop]
    split
    next => exact kept_fault
    next x _ => exact (lzweSym_keeps x s).bind fun _ t => ih { t with ipos := t.ipos + 1 }

theorem lzweRun_keeps : Keeps streams lzweRun := fun s =>
  (lzweLoop_keeps s.inLen { dictSeed s with cur := none, clen := 0, ipos := 0 }).bind fun _ => lzweFlush_keeps

theorem lzwdFirst_keeps (c : Code) : Keeps streams (lzwdFirst c) :=
  (dictRlookup_keeps c).bind fun r t => by
    split
    next => exact kept_raised.mpr rfl
    next w => exact (append_keeps w t).bind fun _ _ => kept_ok.mpr rfl

theorem lzwdCurrent_keeps (c : Code) : Keeps streams (lzwdCurrent c) :=
  (dictRlookup_keeps c).bind fun r t => by
    split
    next => exact kept_ok.mpr rfl
    next =>
      split
      next =>
        refine (dictRlookup_keeps t.prev t).bind fun q u => ?_
        split
        next => exact kept_ok.mpr rfl
        next => exact kept_fault
      next => exact kept_raised.mpr rfl

theorem lzwdNext_keeps (c : Code) : Keeps streams (lzwdNext c) :=
  (lzwdCurrent_keeps c).bind fun w t => by
    split
    next => exact kept_fault
    next x w =>
      refine (append_keeps (x :: w) t).bind fun _ u => ?_
      exact (dictInsert_keeps (some u.prev) x u).bind fun _ _ => kept_ok.mpr rfl

theorem lzwdLoop_keeps (n : Nat) : Keeps streams (lzwdLoop n) := by
  induction n with
  | zero => exact fun s => kept_ok.mpr rfl
  | succ n ih =>
    intro s
    rw [lzwdLoop]
    split
    next => exact kept_fault
    next c _ => exact (lzwdNext_keeps c s).bind fun _ t => ih { t with cpos := t.cpos + 1 }

theorem lzwdRun_keeps : Keeps streams lzwdRun := fun s => by
  unfold lzwdRun
  split
  next => exact kept_raised.mpr rfl
  next =>
    simp only
    split
    next => exact kept_fault
    next c _ =>
      exact (lzwdFirst_keeps c { dictSeed s with outLen := 0 }).bind fun _ u =>
        lzwdLoop_keeps (s.clen - 1) { u with cpos := 1 }

/-! ### FREQ, HBUILD and HGEN -/

theorem freqLoop_keeps (n : Nat) : Keeps streams (freqLoop n) := by
  induction n with
  | zero => exact fun s => kept_ok.mpr rfl
  | succ n ih =>
    intro s
    rw [freqLoop]
    split
    next => exact kept_fault
    next c _ => exact ih { s with freq := _, cpos := _ }

theorem freqCount_keeps : Keeps streams freqCount := fun s =>
  (freqLoop_keeps s.clen { s with cpos := 0 }).bind fun _ _ => kept_ok.mpr rfl

theorem hbuildRun_keeps : Keeps streams hbuildRun := fun s => by
  unfold hbuildRun
  simp only
  split
  next => exact kept_refused
  next => exact kept_ok.mpr rfl

theorem hgenRun_keeps : Keeps streams hgenRun := fun s => by
  rw [hgenRun]
  split
  next => exact kept_refused
  next =>
    split
    next => exact kept_fault
    next => exact kept_ok.mpr rfl
    next =>
      split
      next => exact kept_fault
      next => exact kept_ok.mpr rfl

/-! ### BPACK and BUNPK -/

theorem bpackLoop_keeps (n : Nat) : Keeps streams (bpackLoop n) := by
  induction n with
  | zero => exact fun s => kept_ok.mpr rfl
  | succ n ih =>
    intro s
    rw [bpackLoop]
    split
    next => exact kept_fault
    next =>
      split
      next => exact kept_raised.mpr rfl
      next w _ => exact (putBits_keeps w s).bind fun _ t => ih { t with cpos := t.cpos + 1 }

theorem bpackRun_keeps : Keeps streams bpackRun := fun s =>
  bpackLoop_keeps s.clen { s with totalBits := 0, cpos := 0 }

theorem bunpkBit_keeps (v : Bool) : Keeps streams (bunpkBit v) := fun s => by
  unfold bunpkBit
  split
  next =>
    split
    next => exact kept_refused
    next => exact kept_fault
  next c _ _ =>
    split
    next => exact kept_raised.mpr rfl
    next => exact emit_keeps c s
  next =>
    split
    next => exact kept_fault
    next => exact kept_fault
    next l r _ =>
      simp only
      split
      next => exact kept_fault
      next c _ _ => exact (emit_keeps c { s with node := _ }).bind fun _ _ => kept_ok.mpr rfl
      next => exact kept_ok.mpr rfl

theorem bunpkLoop_keeps (n : Nat) : Keeps streams (bunpkLoop n) := by
  induction n with
  | zero =>
    intro s
    rw [bunpkLoop]
    split
    next => exact kept_raised.mpr rfl
    next => exact kept_ok.mpr rfl
  | succ n ih =>
    intro s
    rw [bunpkLoop]
    split
    next => exact kept_fault
    next v _ => exact (bunpkBit_keeps v { s with bpos := s.bpos + 1 }).bind fun _ => ih

theorem bunpkRun_keeps : Keeps streams bunpkRun := fun s =>
  bunpkLoop_keeps s.totalBits { s with clen := 0, bpos := 0, node := s.root }

/-! ### FWR and FRD -/

theorem fwrRun_keeps : Keeps streams fwrRun := fun s => by
  rw [fwrRun]
  split
  next => exact kept_raised.mpr rfl
  next =>
    split
    next => exact kept_raised.mpr rfl
    next =>
      split
      next => exact kept_fault
      next =>
        have hstart : streams { s with outLen := 0 } = streams s := rfl
        simp only [kept_ok, streams_put, hstart]

theorem take_keeps (n : Nat) : Keeps streams (take n) := fun s => by
  rw [take]
  split
  next => exact kept_raised.mpr rfl
  next =>
    split
    next => exact kept_fault
    next => exact kept_ok.mpr rfl

theorem takeSigned_keeps : Keeps streams takeSigned := (take_keeps 4).bind fun _ _ => kept_ok.mpr rfl

theorem readHeader_keeps : Keeps streams readHeader :=
  takeSigned_keeps.bind fun m t => by
    split
    next => exact kept_raised.mpr rfl
    next =>
      refine (takeSigned_keeps { t with maxCode := m }).bind fun e u => ?_
      split
      next => exact kept_raised.mpr rfl
      next => exact kept_ok.mpr rfl

theorem readEntry_keeps (m : Int) : Keeps streams (readEntry m) :=
  (take_keeps 2).bind fun c t => by
    split
    next => exact kept_raised.mpr rfl
    next =>
      split
      next => exact kept_raised.mpr rfl
      next =>
        refine (takeSigned_keeps t).bind fun f u => ?_
        split
        next => exact kept_raised.mpr rfl
        next => exact kept_ok.mpr rfl

theorem readEntries_keeps (m : Int) (n : Nat) : ∀ top, Keeps streams (readEntries m n top) := by
  induction n with
  | zero => exact fun top s => kept_ok.mpr rfl
  | succ n ih => exact fun top => (readEntry_keeps m).bind fun c => ih _

theorem readTable_keeps : Keeps streams readTable := fun s =>
  (readEntries_keeps s.maxCode s.entryCnt (-1) s).bind fun top t => by
    split
    next => exact kept_raised.mpr rfl
    next => exact kept_ok.mpr rfl

theorem readTotalBits_keeps : Keeps streams readTotalBits :=
  takeSigned_keeps.bind fun b t => by
    split
    next => exact kept_raised.mpr rfl
    next =>
      split
      next => exact kept_raised.mpr rfl
      next => exact kept_ok.mpr rfl

theorem readPayload_keeps : Keeps streams readPayload := fun s => by
  unfold readPayload
  simp only
  split
  next => exact kept_raised.mpr rfl
  next =>
    split
    next => exact kept_raised.mpr rfl
    next =>
      split
      next => exact kept_raised.mpr rfl
      next =>
        split
        next => exact kept_fault
        next => exact kept_ok.mpr rfl

theorem frdRun_keeps : Keeps streams frdRun := fun s =>
  (readHeader_keeps { s with ipos := 0 }).bind fun _ =>
    readTable_keeps.bind fun _ => readTotalBits_keeps.bind fun _ => readPayload_keeps

/-! ### The boundary units -/

/-- INRD.RUN (20_memory.md R66) makes no offers. -/
theorem inrdLoop_keeps (items : List Item) : Keeps outputSide (inrdLoop items) := by
  induction items with
  | nil => exact fun s => kept_ok.mpr rfl
  | cons x rest ih =>
    intro s
    cases x with
    | fail => exact kept_raised.mpr rfl
    | eos => exact kept_ok.mpr rfl
    | data b =>
      rw [inrdLoop]
      split
      next => exact kept_raised.mpr rfl
      next => exact ih { s with inMem := _, inLen := _ }

theorem inrdRun_keeps : Keeps outputSide inrdRun := fun s => by
  rw [inrdRun]
  split
  next => exact inrdLoop_keeps s.input s
  next => exact inrdLoop_keeps s.input { s with inLen := 0 }

theorem inputSide_of_outPut {b : Byte} {s t : State} {a : Answer} (h : outPut b s = (a, t)) :
    inputSide t = inputSide s :=
  calc inputSide t = inputSide (outPut b s).2 := by rw [h]
    _ = inputSide s := by rw [outPut_state]; rfl

theorem inputSide_of_outEnd {s t : State} {a : Answer} (h : outEnd s = (a, t)) : inputSide t = inputSide s := by
  unfold outEnd at h
  split at h <;> cases h <;> rfl

/-- OUTWR.RUN (20_memory.md R68) takes no items. -/
theorem outwrLoop_keeps (n : Nat) : Keeps inputSide (outwrLoop n) := by
  induction n with
  | zero =>
    intro s
    rw [outwrLoop]
    split
    next hoffer => exact kept_ok.mpr (inputSide_of_outEnd hoffer :)
    next hoffer => exact kept_raised.mpr (inputSide_of_outEnd hoffer :)
    next hoffer => exact kept_ok.mpr (inputSide_of_outEnd hoffer :)
  | succ n ih =>
    intro s
    rw [outwrLoop]
    split
    next => exact kept_fault
    next =>
      split
      next t hoffer => exact (ih t).of_eq (inputSide_of_outPut hoffer)
      next hoffer => exact kept_raised.mpr (inputSide_of_outPut hoffer :)
      next hoffer => exact kept_ok.mpr (inputSide_of_outPut hoffer :)

theorem outwrRun_keeps : Keeps inputSide outwrRun := fun s => by
  unfold outwrRun
  split
  next => exact outwrLoop_keeps _ s
  next => exact outwrLoop_keeps _ { s with offers := 0 }

/-! ### The operation in issue -/

/-- Every unit operation between the boundary units keeps the host's side of the streams. -/
theorem exec_keeps_streams {i : Instr} (hi : i ∉ [Instr.compress, .decompress, .inrdRun, .outwrRun]) :
    ∃ f : State → Res Unit, Keeps streams f ∧ ∀ s, exec i s = (f s).outcome := by
  cases i with
  | compress | decompress | inrdRun | outwrRun => simp at hi
  | dictSeed => exact ⟨_, dictSeed_keeps, fun _ => rfl⟩
  | dictLookup =>
    exact ⟨fun s => .ok () { s with resCode := dictLookup s.argP s.argB s }, fun _ => kept_ok.mpr rfl, fun _ => rfl⟩
  | dictRlookup =>
    exact ⟨fun s => (dictRlookup s.argC s).bind fun r t => .ok () { t with resStr := r },
      fun s => (dictRlookup_keeps s.argC s).bind fun _ _ => kept_ok.mpr rfl, fun _ => rfl⟩
  | dictInsert =>
    exact ⟨fun s => (dictInsert s.argP s.argB s).bind fun k t => .ok () { t with resCode := some k },
      fun s => (dictInsert_keeps s.argP s.argB s).bind fun _ _ => kept_ok.mpr rfl, fun _ => rfl⟩
  | lzweRun => exact ⟨_, lzweRun_keeps, fun _ => rfl⟩
  | lzweSym => exact ⟨_, fun s => lzweSym_keeps s.argB s, fun _ => rfl⟩
  | lzweFlush => exact ⟨_, lzweFlush_keeps, fun _ => rfl⟩
  | lzwdRun => exact ⟨_, lzwdRun_keeps, fun _ => rfl⟩
  | lzwdFirst => exact ⟨_, fun s => lzwdFirst_keeps s.argC s, fun _ => rfl⟩
  | lzwdNext => exact ⟨_, fun s => lzwdNext_keeps s.argC s, fun _ => rfl⟩
  | freqCount => exact ⟨_, freqCount_keeps, fun _ => rfl⟩
  | hbuildRun => exact ⟨_, hbuildRun_keeps, fun _ => rfl⟩
  | hgenRun => exact ⟨_, hgenRun_keeps, fun _ => rfl⟩
  | bpackRun => exact ⟨_, bpackRun_keeps, fun _ => rfl⟩
  | bunpkRun => exact ⟨_, bunpkRun_keeps, fun _ => rfl⟩
  | fwrRun => exact ⟨_, fwrRun_keeps, fun _ => rfl⟩
  | frdRun => exact ⟨_, frdRun_keeps, fun _ => rfl⟩

/-- Settles O15: the reader keeps the output side, the writer the input side, every other unit operation both. -/
theorem streamsMoveOnlyAtTheBoundaryUnits : Obligations.StreamsMoveOnlyAtTheBoundaryUnits := by
  intro i s t hcompress hdecompress hnext
  by_cases hin : i = .inrdRun
  · subst hin
    obtain ⟨hoff, hdecl⟩ := outputSide_eq_iff.mp (inrdRun_keeps.of_next (fun _ _ => rfl) hnext)
    exact ⟨fun h => absurd rfl h, fun _ => offered_eq_iff.mp hoff, declared_eq_iff.mp hdecl⟩
  by_cases hout : i = .outwrRun
  · subst hout
    obtain ⟨hinput, hdecl⟩ := inputSide_eq_iff.mp (outwrRun_keeps.of_next (fun _ _ => rfl) hnext)
    exact ⟨fun _ => hinput, fun h => absurd rfl h, declared_eq_iff.mp hdecl⟩
  obtain ⟨f, hf, hexec⟩ := exec_keeps_streams (i := i) (by simp [hcompress, hdecompress, hin, hout])
  rw [hexec] at hnext
  obtain ⟨hinput, hoff, hdecl⟩ := streams_eq_iff.mp (hf.of_next (fun _ _ => rfl) hnext)
  exact ⟨fun _ => hinput, fun _ => offered_eq_iff.mp hoff, declared_eq_iff.mp hdecl⟩

end Sys2Proof.Proofs.StreamFrame
end

section
/-!
The two instruction formats (30_encoding.md R91, R92, R104, R107, R110): each word decodes to the one operation
it encodes, and the sequencer's step issues the operation whose identifier STAGE and sub form.
-/
namespace Sys2Proof.Proofs.Encoding
open Sys2Proof Sys2Proof.Machine

/-! ### From the operation to its word -/

/-- The per-operation laws, for every operation at once. -/
theorem decodeEncode_statement (i : Instr) : Laws.DecodeEncode.Statement i := by
  cases i with
  | compress => exact Laws.DecodeEncode.compress
  | decompress => exact Laws.DecodeEncode.decompress
  | inrdRun => exact Laws.DecodeEncode.inrdRun
  | dictSeed => exact Laws.DecodeEncode.dictSeed
  | dictLookup => exact Laws.DecodeEncode.dictLookup
  | dictRlookup => exact Laws.DecodeEncode.dictRlookup
  | dictInsert => exact Laws.DecodeEncode.dictInsert
  | lzweRun => exact Laws.DecodeEncode.lzweRun
  | lzweSym => exact Laws.DecodeEncode.lzweSym
  | lzweFlush => exact Laws.DecodeEncode.lzweFlush
  | lzwdRun => exact Laws.DecodeEncode.lzwdRun
  | lzwdFirst => exact Laws.DecodeEncode.lzwdFirst
  | lzwdNext => exact Laws.DecodeEncode.lzwdNext
  | freqCount => exact Laws.DecodeEncode.freqCount
  | hbuildRun => exact Laws.DecodeEncode.hbuildRun
  | hgenRun => exact Laws.DecodeEncode.hgenRun
  | bpackRun => exact Laws.DecodeEncode.bpackRun
  | bunpkRun => exact Laws.DecodeEncode.bunpkRun
  | fwrRun => exact Laws.DecodeEncode.fwrRun
  | frdRun => exact Laws.DecodeEncode.frdRun
  | outwrRun => exact Laws.DecodeEncode.outwrRun

theorem decode_encode (i : Instr) : decode i.format (encode i) = .ok i := (decodeEncode_statement i).1

/-! ### From the word to its operation -/

section
variable {w : Byte} {i : Instr}

theorem format_encode_of_decodeCmd (h : decodeCmd w = .ok i) : i.format = .cmd ∧ encode i = w := by
  unfold decodeCmd at h
  split at h
  next hw => cases h; exact ⟨rfl, hw.symm⟩
  next =>
    split at h
    next hw => cases h; exact ⟨rfl, hw.symm⟩
    next => cases h

/-- The two fields are the whole identifier (R92). -/
theorem uopWord_uopUnit_uopSub (w : Byte) : uopWord (uopUnit w) (uopSub w) = w :=
  (BitVec.extractLsb'_append_extractLsb'_eq_extractLsb' rfl).trans BitVec.extractLsb'_eq_self

/-- The rows of R110 number no operation twice: unit and sub are the fields of the operation's own word. -/
theorem fields_of_uopOf {unit sub : Nat} (h : uopOf unit sub = some i) :
    i.format = .uop ∧ unit = (uopUnit (encode i)).toNat ∧ sub = (uopSub (encode i)).toNat := by
  unfold uopOf at h
  split at h <;> cases h <;> exact ⟨rfl, rfl, rfl⟩

theorem decodeUop_eq_ok_iff : decodeUop w = .ok i ↔ uopOf (uopUnit w).toNat (uopSub w).toNat = some i := by
  unfold decodeUop
  split <;> simp [*]

theorem format_encode_of_decodeUop (h : decodeUop w = .ok i) : i.format = .uop ∧ encode i = w := by
  obtain ⟨hformat, hunit, hsub⟩ := fields_of_uopOf (decodeUop_eq_ok_iff.mp h)
  refine ⟨hformat, ?_⟩
  rw [← uopWord_uopUnit_uopSub (encode i), ← BitVec.eq_of_toNat_eq hunit, ← BitVec.eq_of_toNat_eq hsub,
    uopWord_uopUnit_uopSub]

theorem decode_eq_ok_iff {f : Format} : decode f w = .ok i ↔ i.format = f ∧ encode i = w := by
  constructor
  · intro h
    cases f with
    | cmd => exact format_encode_of_decodeCmd h
    | uop => exact format_encode_of_decodeUop h
  · rintro ⟨rfl, rfl⟩
    exact decode_encode i

end

/-- Settles O5: a word decodes to an operation exactly where it is that operation's word in its own format. -/
theorem decodeEncodeAgree : Obligations.DecodeEncodeAgree :=
  ⟨decode_encode, fun _ _ _ => decode_eq_ok_iff.mp⟩

/-! ### Words that are no instruction -/

theorem decode_cmd_illegal {w : Byte} (hcompress : w ≠ 0x01#8) (hdecompress : w ≠ 0x02#8) :
    decode .cmd w = .error (.illegalCommand w) := by
  rw [decode, decodeCmd, if_neg hcompress, if_neg hdecompress]

theorem decode_uop_unassigned {w : Byte} (h : uopOf (uopUnit w).toNat (uopSub w).toNat = none) :
    decode .uop w = .error (.unassignedUop w) := by
  rw [decode, decodeUop, h]

/-- Settles O6: four operations' own words, a word that is neither command's, and a sub that unit DICT has not. -/
theorem writtenOutWordsDecode : Obligations.WrittenOutWordsDecode :=
  ⟨decode_encode .compress, decode_encode .dictInsert, decode_encode .lzwdNext, decode_encode .outwrRun,
    decode_cmd_illegal (by decide) (by decide), decode_uop_unassigned rfl⟩

/-! ### The step of a running block -/

section
variable {s t : State} {i : Instr}

theorem issueUop_of_decode (hdec : decode .uop (s.status.stage ++ s.sub) = .ok i) : issueUop s = .issue i s := by
  have hfetch : decodeUop s.fetchWord = .ok i := hdec
  rw [issueUop, hfetch]

/-- Where the block's move is the sequencer's, the step is the operation it issues, then the sequencer. -/
theorem step_of_move_issueUop (hmove : s.move = issueUop t)
    (hdec : decode .uop (t.status.stage ++ t.sub) = .ok i) : step s = mapNext (advance i) (exec i t) := by
  rw [step, hmove, issueUop_of_decode hdec]

/-- In these three cases of the script a running block leaves the move to the sequencer. -/
theorem move_of_busy (hbusy : s.status.busy = true) :
    (s.host = [] → s.move = issueUop s)
      ∧ (∀ rest, s.host = .run :: rest → s.move = issueUop { s with host := rest })
      ∧ (∀ rest, s.host = .wait :: rest → s.move = issueUop s) := by
  refine ⟨fun hhost => ?_, fun rest hhost => ?_, fun rest hhost => ?_⟩ <;>
    rw [State.move, hhost] <;> exact if_pos hbusy

end

/-- Settles O7: in each case the move is the sequencer's, which issues the decoded operation. -/
theorem stepRunsDecodedUnitOperation : Obligations.StepRunsDecodedUnitOperation := by
  intro s i hbusy hdec
  obtain ⟨hended, hrun, hwait⟩ := move_of_busy hbusy
  exact ⟨fun hhost => step_of_move_issueUop (hended hhost) hdec,
    fun rest hhost => step_of_move_issueUop (hrun rest hhost) hdec,
    fun rest hhost => step_of_move_issueUop (hwait rest hhost) hdec⟩

end Sys2Proof.Proofs.Encoding
end

section
/-!
The operations of unit DICT one by one (40_dictionary.md R131, R133, R134, R136): what each answers, and that
it changes nothing else.
-/
namespace Sys2Proof.Proofs.DictOperations
open Sys2Proof Sys2Proof.Machine Sys2Proof.Proofs.DictShape

variable {s : State}

/-! ### DICT.SEED -/

theorem read_dictSeed (s : State) (k : Nat) :
    Memory.read (dictSeed s).dict k
      = if k < 256 then some { parent := none, last := BitVec.ofNat 8 k } else Memory.read s.dict k := by
  rw [dictSeed_dict, Memory.read_write, seedEntries_length, Nat.zero_add, Nat.sub_zero]
  by_cases hk : k < 256
  · rw [if_pos ⟨k.zero_le, hk⟩, if_pos hk, seedEntries_get hk]
  · rw [if_neg (fun h => hk h.2), if_neg hk]

/-- Settles O17: the written run is the alphabet, and it ends below 256. -/
theorem seedWritesTheAlphabet : Obligations.SeedWritesTheAlphabet := by
  intro s
  refine ⟨dictSeed s, rfl, rfl, fun b => ?_, fun k hk => ?_⟩
  · rw [read_dictSeed, if_pos b.isLt, BitVec.ofNat_toNat, BitVec.setWidth_eq]
  · rw [read_dictSeed, if_neg (by omega)]

/-! ### DICT.LOOKUP -/

theorem dictLookup_none (b : Byte) (s : State) : dictLookup none b s = some (BitVec.ofNat 16 b.toNat) :=
  congrArg some (BitVec.ofNat_toNat 16 b).symm

/-- Settles O18: the answer for a byte alone, and for a pair what a code and what NONE say of the valid entries. -/
theorem lookupFindsTheEntry : Obligations.LookupFindsTheEntry := by
  intro s hwf hdsize
  refine ⟨dictLookup s.argP s.argB s, rfl, fun hbyte => ?_, fun p hpair => ?_⟩
  · rw [hbyte, dictLookup_none]
  · rw [hpair]
    exact ⟨fun c => dictLookup_eq_some hwf hdsize, (dictLookup_eq_none hwf).mp⟩

/-- DICT.LOOKUP of a pair hits exactly when a valid entry has that record (40 R133). -/
theorem dictLookup_ne_none {p : Code} {b : Byte} (hwf : Memory.wf s.dict) :
    dictLookup (some p) b s ≠ none
      ↔ ∃ k, 256 ≤ k ∧ k < s.dsize ∧ Memory.read s.dict k = some { parent := some p, last := b } := by
  simp only [ne_eq, dictLookup_eq_none hwf, not_forall, not_not, exists_prop]

/-! ### DICT.RLOOKUP -/

/-- `str(k)` (10 R36), where entry k has a string. -/
def entryString (m : Memory DictEntry) (k : Nat) : List Byte := (str m k).getD []

theorem str_eq_entryString (h : s.dictSeeded) {k : Nat} (hk : k < s.dsize) :
    str s.dict k = some (entryString s.dict k) := by
  obtain ⟨x, t, hstr⟩ := strAt_isSome h (k + 1) k k.lt_succ_self hk
  have hsome : str s.dict k = some (x :: t) := hstr
  rw [entryString, hsome, Option.getD_some]

/-- Any bound above k spells the string of entry k. -/
theorem strAt_eq_str (h : s.dictSeeded) {n k : Nat} (hk : k < s.dsize) (hn : k < n) :
    strAt s.dict n k = str s.dict k := by
  rw [str_eq_entryString h hk]
  exact strAt_mono (str_eq_entryString h hk) n hn

theorem str_byte (m : Memory DictEntry) (b : Byte) : str m b.toNat = some [b] := by
  have hb : b.toNat < Config.seedN := b.isLt
  rw [str, strAt, if_pos hb, BitVec.ofNat_toNat, BitVec.setWidth_eq]

theorem parent_lt (h : s.dictSeeded) {k : Nat} {p : Code} {b : Byte} (hlo : 256 ≤ k) (hk : k < s.dsize)
    (hread : Memory.read s.dict k = some { parent := some p, last := b }) : p.toNat < k := by
  obtain ⟨-, -, -, hshape, -⟩ := h
  simpa [entryShape, hread] using hshape k hk hlo

theorem str_entry (h : s.dictSeeded) {k : Nat} {p : Code} {b : Byte} (hlo : 256 ≤ k) (hk : k < s.dsize)
    (hread : Memory.read s.dict k = some { parent := some p, last := b }) :
    str s.dict k = some (entryString s.dict p.toNat ++ [b]) := by
  have hp : p.toNat < k := parent_lt h hlo hk hread
  have hprefix : strAt s.dict k p.toNat = some (entryString s.dict p.toNat) := by
    rw [strAt_eq_str h (by omega) hp, str_eq_entryString h (by omega)]
  have hseed : ¬ k < Config.seedN := Nat.not_lt.mpr hlo
  simp [str, strAt, hseed, hread, hp, hprefix]

theorem dictRlookup_eq (h : s.dictSeeded) (c : Code) :
    dictRlookup c s = .ok (if c.toNat < s.dsize then some (entryString s.dict c.toNat) else none) s := by
  by_cases hc : c.toNat < s.dsize
  · simp [dictRlookup, hc, str_eq_entryString h hc]
  · simp [dictRlookup, hc]

/-- Settles O19: in a dictionary of the right shape `str` is total, and an entry's string extends its parent's by one byte. -/
theorem rlookupSpellsTheEntry : Obligations.RlookupSpellsTheEntry := by
  intro s h
  refine ⟨entryString s.dict, fun b => ?_, fun k p b hlo hk hread => ?_, fun c => ?_⟩
  · rw [entryString, str_byte, Option.getD_some]
  · rw [entryString, str_entry h hlo hk hread, Option.getD_some]
  · have hlatch : State.dictSeeded { s with argC := c } := h
    have hanswer := dictRlookup_eq hlatch c
    change ((dictRlookup c { s with argC := c }).bind fun r t => .ok () { t with resStr := r }).outcome = _
    rw [hanswer, Res.bind_ok, Res.outcome_ok]

/-! ### DICT.INSERT -/

section
variable {p : Code} {b : Byte}

/-- The state after DICT.INSERT of the pair (p, b): one entry more, at DSIZE (40 R136). -/
def inserted (p : Code) (b : Byte) (s : State) : State :=
  { s with dict := Memory.write s.dict s.dsize [{ parent := some p, last := b }], dsize := s.dsize + 1 }

theorem read_inserted (p : Code) (b : Byte) (s : State) (k : Nat) :
    Memory.read (inserted p b s).dict k
      = if k = s.dsize then some { parent := some p, last := b } else Memory.read s.dict k :=
  Memory.read_write_one _ _ _ _

theorem dictInsert_absent (hp : p.toNat < s.dsize) (hl : dictLookup (some p) b s = none)
    (hroom : s.dsize ≠ 65536) : dictInsert (some p) b s = .ok (BitVec.ofNat 16 s.dsize) (inserted p b s) := by
  rw [dictInsert, if_neg (Nat.not_le.mpr hp), if_neg (not_not.mpr hl)]
  exact if_neg hroom

theorem dictInsert_present (hp : p.toNat < s.dsize) (hl : dictLookup (some p) b s ≠ none) :
    dictInsert (some p) b s = .raised .duplicateEntry s := by
  rw [dictInsert, if_neg (Nat.not_le.mpr hp), if_pos hl]

theorem dictInsert_full (hp : p.toNat < s.dsize) (hl : dictLookup (some p) b s = none)
    (hfull : s.dsize = 65536) : dictInsert (some p) b s = .raised .dictionaryFull s := by
  rw [dictInsert, if_neg (Nat.not_le.mpr hp), if_neg (not_not.mpr hl)]
  exact if_pos hfull

theorem dictInsert_noPrefix {q : Option Code} (hq : ∀ p, q = some p → s.dsize ≤ p.toNat) :
    dictInsert q b s = .refused .absentPrefix := by
  cases q with
  | none => rfl
  | some p => exact if_pos (hq p rfl)

/-! DICT.INSERT as an operation of its own: the pair from the latches, the new code to the result latch. -/

theorem exec_dictInsert_ok {t : State} {k : Code} (h : dictInsert s.argP s.argB s = .ok k t) :
    exec .dictInsert s = .next { t with resCode := some k } :=
  congrArg (fun r => (Res.bind r fun k t => .ok () { t with resCode := some k }).outcome) h

theorem exec_dictInsert_raised {e : Err} (h : dictInsert s.argP s.argB s = .raised e s) :
    exec .dictInsert s = .next (s.raise e) :=
  congrArg (fun r => (Res.bind r fun k t => .ok () { t with resCode := some k }).outcome) h

theorem exec_dictInsert_refused {x : Refusal} (h : dictInsert s.argP s.argB s = .refused x) :
    exec .dictInsert s = .refused x :=
  congrArg (fun r => (Res.bind r fun k t => .ok () { t with resCode := some k }).outcome) h

end

/-- Settles O20: an absent string with room is the one case in which DICT.INSERT ends. -/
theorem insertAddsTheNextEntry : Obligations.InsertAddsTheNextEntry := by
  intro s p hwf harg hp hroom habsent
  have hl : dictLookup (some p) s.argB s = none := (dictLookup_eq_none hwf).mpr habsent
  refine ⟨_, exec_dictInsert_ok (harg ▸ dictInsert_absent hp hl (by omega)), rfl, ?_, fun k hk => ?_⟩
  · exact (read_inserted p s.argB s s.dsize).trans (if_pos rfl)
  · exact (read_inserted p s.argB s k).trans (if_neg hk)

/-- Settles O21: a string without a present parent is refused, a present one raises, then the full dictionary. -/
theorem insertRefusesInOrder : Obligations.InsertRefusesInOrder := by
  intro s hwf _
  refine ⟨fun p harg hp => ⟨fun hpresent => ?duplicate, fun habsent hfull => ?full⟩, fun hprefix => ?refused⟩
  case duplicate =>
    exact exec_dictInsert_raised (harg ▸ dictInsert_present hp ((dictLookup_ne_none hwf).mpr hpresent))
  case full =>
    exact exec_dictInsert_raised (harg ▸ dictInsert_full hp ((dictLookup_eq_none hwf).mpr habsent) hfull)
  case refused =>
    refine exec_dictInsert_refused (dictInsert_noPrefix fun p harg => ?_)
    rcases hprefix with hnone | ⟨q, hq, hle⟩
    · rw [harg] at hnone; cases hnone
    · rw [harg] at hq; cases hq; exact hle

end Sys2Proof.Proofs.DictOperations
end

section
/-!
The frame of unit DICT (40_dictionary.md R137, R138): which operations leave DICT and DSIZE as they are. Every
branch of every operation is passed once, here; `DictGrowth` below only composes these lemmas.
-/
namespace Sys2Proof.Proofs.DictFrame
open Sys2Proof Sys2Proof.Machine Sys2Proof.Proofs.Invariant Sys2Proof.Proofs.StreamFrame

/-- What unit DICT owns (10_state.md R30, R36). -/
def dictionary (s : State) : Memory DictEntry × Nat := (s.dict, s.dsize)

theorem dictionary_eq_iff {s t : State} : dictionary t = dictionary s ↔ t.dict = s.dict ∧ t.dsize = s.dsize := by
  simp only [dictionary, Prod.mk.injEq]

/-! ### The appends and the reads of DICT -/

theorem emit_keeps_dictionary (c : Code) : Keeps dictionary (emit c) := fun s => by
  rcases emit_cases c s with ⟨-, h⟩ | ⟨-, h⟩ <;> rw [h] <;> simp [dictionary]

theorem append_keeps_dictionary (bs : List Byte) : Keeps dictionary (append bs) := fun s => by
  rcases append_cases bs s with ⟨-, h⟩ | ⟨-, h⟩ <;> rw [h] <;> simp [dictionary]

theorem dictRlookup_keeps_dictionary (k : Code) : Keeps dictionary (dictRlookup k) := fun s => by
  unfold dictRlookup
  repeat' split
  all_goals simp

theorem lzweFlush_keeps_dictionary : Keeps dictionary lzweFlush := fun s => by
  rw [lzweFlush]
  split
  next => exact kept_ok.mpr rfl
  next c _ => exact emit_keeps_dictionary c s

theorem lzwdFirst_keeps_dictionary (c : Code) : Keeps dictionary (lzwdFirst c) :=
  (dictRlookup_keeps_dictionary c).bind fun r t => by
    cases r with
    | none => exact kept_raised.mpr rfl
    | some w => exact (append_keeps_dictionary w t).bind fun _ _ => kept_ok.mpr rfl

theorem lzwdCurrent_keeps_dictionary (c : Code) : Keeps dictionary (lzwdCurrent c) :=
  (dictRlookup_keeps_dictionary c).bind fun r t => by
    cases r with
    | some w => exact kept_ok.mpr rfl
    | none =>
      dsimp only
      split
      next =>
        refine (dictRlookup_keeps_dictionary t.prev t).bind fun q u => ?_
        split <;> simp
      next => exact kept_raised.mpr rfl

/-! ### The Huffman units -/

theorem freqLoop_keeps_dictionary (n : Nat) : Keeps dictionary (freqLoop n) := by
  induction n with
  | zero => exact fun s => kept_ok.mpr rfl
  | succ n ih =>
    intro s
    rw [freqLoop]
    split
    next => exact kept_fault
    next => exact ih { s with freq := _, cpos := _ }

theorem freqCount_keeps_dictionary : Keeps dictionary freqCount := fun s =>
  (freqLoop_keeps_dictionary s.clen { s with cpos := 0 }).bind fun _ _ => kept_ok.mpr rfl

theorem hbuildRun_keeps_dictionary : Keeps dictionary hbuildRun := fun s => by
  unfold hbuildRun
  dsimp only
  split <;> simp [dictionary]

theorem hgenRun_keeps_dictionary : Keeps dictionary hgenRun := fun s => by
  unfold hgenRun
  repeat' split
  all_goals simp [dictionary]

/-! ### The bit units -/

theorem putBit_keeps_dictionary (v : Bool) : Keeps dictionary (putBit v) := by
  refine fun s => ⟨fun _ t h => ?_, fun e t h => ?_⟩
  · obtain ⟨ht, -⟩ := putBit_ok h
    rw [ht]; rfl
  · obtain ⟨-, rfl⟩ := putBit_raised h
    rfl

theorem putBits_keeps_dictionary (w : List Bool) : Keeps dictionary (putBits w) := by
  induction w with
  | nil => exact fun s => kept_ok.mpr rfl
  | cons v w ih => exact (putBit_keeps_dictionary v).bind fun _ => ih

theorem bpackLoop_keeps_dictionary (n : Nat) : Keeps dictionary (bpackLoop n) := by
  induction n with
  | zero => exact fun s => kept_ok.mpr rfl
  | succ n ih =>
    intro s
    rw [bpackLoop]
    repeat' split
    next => exact kept_fault
    next => exact kept_raised.mpr rfl
    next w _ => exact (putBits_keeps_dictionary w s).bind fun _ t => ih { t with cpos := t.cpos + 1 }

theorem bpackRun_keeps_dictionary : Keeps dictionary bpackRun := fun s =>
  bpackLoop_keeps_dictionary s.clen { s with totalBits := 0, cpos := 0 }

theorem bunpkBit_keeps_dictionary (v : Bool) : Keeps dictionary (bunpkBit v) := fun s => by
  have hleaf (c : Code) (h : Nat) :
      Kept dictionary s ((emit c { s with node := h }).bind fun _ t => .ok () { t with node := t.root }) :=
    (emit_keeps_dictionary c { s with node := h }).bind fun _ _ => kept_ok.mpr rfl
  unfold bunpkBit
  dsimp only
  repeat' split
  all_goals simp [dictionary, hleaf, emit_keeps_dictionary _ s]

theorem bunpkLoop_keeps_dictionary (n : Nat) : Keeps dictionary (bunpkLoop n) := by
  induction n with
  | zero =>
    intro s
    rw [bunpkLoop]
    split <;> simp
  | succ n ih =>
    intro s
    rw [bunpkLoop]
    split
    next => exact kept_fault
    next v _ => exact (bunpkBit_keeps_dictionary v { s with bpos := s.bpos + 1 }).bind fun _ => ih

theorem bunpkRun_keeps_dictionary : Keeps dictionary bunpkRun := fun s =>
  bunpkLoop_keeps_dictionary s.totalBits { s with clen := 0, bpos := 0, node := s.root }

/-! ### The frame units -/

theorem dictionary_put (bs : List Byte) (s : State) : dictionary (put bs s) = dictionary s := rfl

theorem fwrRun_keeps_dictionary : Keeps dictionary fwrRun := fun s => by
  have hstart : dictionary { s with outLen := 0 } = dictionary s := rfl
  unfold fwrRun
  repeat' split
  all_goals simp only [kept_ok, kept_raised, kept_fault, dictionary_put, hstart]

theorem take_keeps_dictionary (n : Nat) : Keeps dictionary (take n) := fun s => by
  unfold take
  repeat' split
  all_goals simp [dictionary]

theorem takeSigned_keeps_dictionary : Keeps dictionary takeSigned :=
  (take_keeps_dictionary 4).bind fun _ _ => kept_ok.mpr rfl

theorem readHeader_keeps_dictionary : Keeps dictionary readHeader :=
  takeSigned_keeps_dictionary.bind fun m t => by
    split
    next => exact kept_raised.mpr rfl
    next =>
      refine (takeSigned_keeps_dictionary { t with maxCode := m }).bind fun e u => ?_
      split <;> simp [dictionary]

theorem readEntry_keeps_dictionary (m : Int) : Keeps dictionary (readEntry m) :=
  (take_keeps_dictionary 2).bind fun c t => by
    repeat' split
    next => exact kept_raised.mpr rfl
    next => exact kept_raised.mpr rfl
    next =>
      refine (takeSigned_keeps_dictionary t).bind fun f u => ?_
      split <;> simp [dictionary]

theorem readEntries_keeps_dictionary (m : Int) (n : Nat) : ∀ top, Keeps dictionary (readEntries m n top) := by
  induction n with
  | zero => exact fun top s => kept_ok.mpr rfl
  | succ n ih => exact fun top => (readEntry_keeps_dictionary m).bind fun c => ih _

theorem readTable_keeps_dictionary : Keeps dictionary readTable := fun s =>
  (readEntries_keeps_dictionary s.maxCode s.entryCnt (-1) s).bind fun top t => by
    split <;> simp

theorem readTotalBits_keeps_dictionary : Keeps dictionary readTotalBits :=
  takeSigned_keeps_dictionary.bind fun b t => by
    repeat' split
    all_goals simp [dictionary]

theorem readPayload_keeps_dictionary : Keeps dictionary readPayload := fun s => by
  unfold readPayload
  dsimp only
  repeat' split
  all_goals simp [dictionary]

theorem frdRun_keeps_dictionary : Keeps dictionary frdRun := fun s =>
  (readHeader_keeps_dictionary { s with ipos := 0 }).bind fun _ =>
    readTable_keeps_dictionary.bind fun _ => readTotalBits_keeps_dictionary.bind fun _ => readPayload_keeps_dictionary

/-! ### The boundary units -/

theorem inrdLoop_keeps_dictionary (items : List Item) : Keeps dictionary (inrdLoop items) := by
  induction items with
  | nil => exact fun s => kept_ok.mpr rfl
  | cons x rest ih =>
    intro s
    cases x with
    | fail => exact kept_raised.mpr rfl
    | eos => exact kept_ok.mpr rfl
    | data b =>
      rw [inrdLoop]
      split
      next => exact kept_raised.mpr rfl
      next => exact ih { s with inMem := _, inLen := _ }

theorem inrdRun_keeps_dictionary : Keeps dictionary inrdRun := fun s => by
  rw [inrdRun]
  split
  next => exact inrdLoop_keeps_dictionary s.input s
  next => exact inrdLoop_keeps_dictionary s.input { s with inLen := 0 }

theorem dictionary_of_outPut {b : Byte} {s t : State} {a : Answer} (h : outPut b s = (a, t)) :
    dictionary t = dictionary s := by
  unfold outPut at h
  split at h <;> cases h <;> rfl

theorem dictionary_of_outEnd {s t : State} {a : Answer} (h : outEnd s = (a, t)) : dictionary t = dictionary s := by
  unfold outEnd at h
  split at h <;> cases h <;> rfl

theorem outwrLoop_keeps_dictionary (n : Nat) : Keeps dictionary (outwrLoop n) := by
  induction n with
  | zero =>
    intro s
    rw [outwrLoop]
    split
    next hoffer => exact kept_ok.mpr (dictionary_of_outEnd hoffer :)
    next hoffer => exact kept_raised.mpr (dictionary_of_outEnd hoffer :)
    next hoffer => exact kept_ok.mpr (dictionary_of_outEnd hoffer :)
  | succ n ih =>
    intro s
    rw [outwrLoop]
    repeat' split
    next => exact kept_fault
    next t hoffer => exact (ih t).of_eq (dictionary_of_outPut hoffer)
    next hoffer => exact kept_raised.mpr (dictionary_of_outPut hoffer :)
    next hoffer => exact kept_ok.mpr (dictionary_of_outPut hoffer :)

theorem outwrRun_keeps_dictionary : Keeps dictionary outwrRun := fun s => by
  unfold outwrRun
  split
  next => exact outwrLoop_keeps_dictionary _ s
  next => exact outwrLoop_keeps_dictionary _ { s with offers := 0 }

end Sys2Proof.Proofs.DictFrame
end

section
/-!
The growth of the dictionary (40_dictionary.md R137, R138): DICT.INSERT is the one operation that adds an entry,
and LZWE.SYM and LZWD.NEXT issue it once at most.
-/
namespace Sys2Proof.Proofs.DictGrowth
open Sys2Proof Sys2Proof.Machine Sys2Proof.Proofs.Invariant Sys2Proof.Proofs.StreamFrame Sys2Proof.Proofs.DictFrame

section
variable {α β : Type} {s t u : State} {r : Res α} {g : α → State → Res β}

/-- From `s` to `t` the dictionary has grown by at most one entry and has kept the entries it had. -/
def Grows (s t : State) : Prop :=
  (t.dsize = s.dsize ∨ t.dsize = s.dsize + 1) ∧ ∀ k, k < s.dsize → Memory.read t.dict k = Memory.read s.dict k

/-- An answer to `s` in whose state, ended or raised, the dictionary has grown by at most one entry. -/
def Grown (s : State) (r : Res α) : Prop := Meets r (fun _ t => Grows s t) (fun _ t => Grows s t)

theorem grows_of_eq (h : dictionary t = dictionary s) : Grows s t := by
  obtain ⟨hdict, hdsize⟩ := dictionary_eq_iff.mp h
  exact ⟨.inl hdsize, fun k _ => by rw [hdict]⟩

theorem Grows.congr {s' t' : State} (h : Grows s t) (hs : dictionary s' = dictionary s)
    (ht : dictionary t' = dictionary t) : Grows s' t' := by
  obtain ⟨hsdict, hsdsize⟩ := dictionary_eq_iff.mp hs
  obtain ⟨htdict, htdsize⟩ := dictionary_eq_iff.mp ht
  rw [Grows, hsdict, hsdsize, htdict, htdsize]
  exact h

theorem grown_of_kept (h : Kept dictionary s r) : Grown s r :=
  ⟨fun a t ha => grows_of_eq (h.1 a t ha), fun e t he => grows_of_eq (h.2 e t he)⟩

/-- What comes before the insertion keeps the dictionary. -/
theorem Grown.after_kept (hr : Kept dictionary s r) (hg : ∀ a t, Grown t (g a t)) : Grown s (r.bind g) := by
  refine Meets.bind (P := fun _ t => dictionary t = dictionary s) ⟨hr.1, (grown_of_kept hr).2⟩ fun a t ht => ?_
  exact ⟨fun b u hb => ((hg a t).1 b u hb).congr ht.symm rfl, fun e u he => ((hg a t).2 e u he).congr ht.symm rfl⟩

/-- What comes after the insertion keeps the dictionary. -/
theorem Grown.then_keeps (hr : Grown s r) (hg : ∀ a, Keeps dictionary (g a)) : Grown s (r.bind g) := by
  refine Meets.bind hr fun a t ht => ?_
  exact ⟨fun b u hb => ht.congr rfl ((hg a t).1 b u hb), fun e u he => ht.congr rfl ((hg a t).2 e u he)⟩

/-- Taking an error (60_exceptions.md R330) adds nothing. -/
theorem Grown.of_next (hr : Grown s r) (hnext : r.outcome = .next t) : Grows s t := by
  rcases Res.outcome_eq_next.mp hnext with ⟨a, hok⟩ | ⟨e, u, hraised, rfl⟩
  · exact hr.1 a t hok
  · exact (hr.2 e u hraised).congr rfl rfl

end

/-! ### The operations that insert -/

theorem dictInsert_grown (p : Option Code) (b : Byte) (s : State) : Grown s (dictInsert p b s) := by
  rcases dictInsert_cases p b s with ⟨-, h⟩ | ⟨c, -, -, ⟨-, h⟩ | ⟨-, -, h⟩ | ⟨-, -, h⟩⟩ <;> rw [h]
  · exact meets_refused
  · exact meets_raised.mpr (grows_of_eq rfl)
  · exact meets_raised.mpr (grows_of_eq rfl)
  · refine meets_ok.mpr ⟨.inr rfl, fun k hk => ?_⟩
    exact (Memory.read_write_one _ _ _ _).trans (if_neg (Nat.ne_of_lt hk))

theorem lzweSym_grown (x : Byte) (s : State) : Grown s (lzweSym x s) := by
  rw [lzweSym]
  repeat' split
  next => exact meets_ok.mpr (grows_of_eq rfl)
  next => exact meets_fault
  next c _ =>
    exact .after_kept (emit_keeps_dictionary c s) fun _ t =>
      (dictInsert_grown (some c) x t).then_keeps fun _ _ => kept_ok.mpr rfl

theorem lzwdNext_grown (c : Code) (s : State) : Grown s (lzwdNext c s) := by
  refine .after_kept (lzwdCurrent_keeps_dictionary c s) fun w t => ?_
  cases w with
  | nil => exact meets_fault
  | cons x w =>
    exact .after_kept (append_keeps_dictionary (x :: w) t) fun _ u =>
      (dictInsert_grown (some u.prev) x u).then_keeps fun _ _ => kept_ok.mpr rfl

/-! ### The operation in issue -/

/-- Every operation but those that clear or seed the dictionary, as a unit operation that lets it grow. -/
theorem exec_grown {i : Instr} (hi : i ∉ [Instr.compress, .decompress, .dictSeed, .lzweRun, .lzwdRun]) (s : State) :
    ∃ r : Res Unit, Grown s r ∧ exec i s = r.outcome := by
  cases i with
  | compress | decompress | dictSeed | lzweRun | lzwdRun => simp at hi
  | dictLookup =>
    exact ⟨.ok () { s with resCode := dictLookup s.argP s.argB s }, meets_ok.mpr (grows_of_eq rfl), rfl⟩
  | dictRlookup =>
    exact ⟨(dictRlookup s.argC s).bind fun r t => .ok () { t with resStr := r },
      grown_of_kept ((dictRlookup_keeps_dictionary s.argC s).bind fun _ _ => kept_ok.mpr rfl), rfl⟩
  | dictInsert =>
    exact ⟨(dictInsert s.argP s.argB s).bind fun k t => .ok () { t with resCode := some k },
      (dictInsert_grown s.argP s.argB s).then_keeps fun _ _ => kept_ok.mpr rfl, rfl⟩
  | lzweSym => exact ⟨_, lzweSym_grown s.argB s, rfl⟩
  | lzweFlush => exact ⟨_, grown_of_kept (lzweFlush_keeps_dictionary s), rfl⟩
  | lzwdFirst => exact ⟨_, grown_of_kept (lzwdFirst_keeps_dictionary s.argC s), rfl⟩
  | lzwdNext => exact ⟨_, lzwdNext_grown s.argC s, rfl⟩
  | freqCount => exact ⟨_, grown_of_kept (freqCount_keeps_dictionary s), rfl⟩
  | hbuildRun => exact ⟨_, grown_of_kept (hbuildRun_keeps_dictionary s), rfl⟩
  | hgenRun => exact ⟨_, grown_of_kept (hgenRun_keeps_dictionary s), rfl⟩
  | bpackRun => exact ⟨_, grown_of_kept (bpackRun_keeps_dictionary s), rfl⟩
  | bunpkRun => exact ⟨_, grown_of_kept (bunpkRun_keeps_dictionary s), rfl⟩
  | fwrRun => exact ⟨_, grown_of_kept (fwrRun_keeps_dictionary s), rfl⟩
  | frdRun => exact ⟨_, grown_of_kept (frdRun_keeps_dictionary s), rfl⟩
  | inrdRun => exact ⟨_, grown_of_kept (inrdRun_keeps_dictionary s), rfl⟩
  | outwrRun => exact ⟨_, grown_of_kept (outwrRun_keeps_dictionary s), rfl⟩

/-- Settles O16: every other operation issues DICT.INSERT at most once, and that writes at DSIZE. -/
theorem dictionaryOnlyGrows : Obligations.DictionaryOnlyGrows := by
  intro i s t hi hnext
  obtain ⟨r, hgrown, hexec⟩ := exec_grown hi s
  exact hgrown.of_next (hexec ▸ hnext)

end Sys2Proof.Proofs.DictGrowth
end

section
/-!
The operations of unit LZWE one by one (41_lzw_encoder.md R150, R152, R153): `Emit`, LZWE.SYM on a hit and on a
miss, and LZWE.FLUSH, each as one equation a case.
-/
namespace Sys2Proof.Proofs.LzweOperations
open Sys2Proof Sys2Proof.Machine Sys2Proof.Proofs.DictShape Sys2Proof.Proofs.DictOperations

variable {s : State} {c k : Code} {x : Byte}

/-! ### `Emit` -/

/-- The state after `Emit(c)` with room (41 R150): one code more in CSEQ. -/
def emitted (c : Code) (s : State) : State :=
  { s with cseq := Memory.write s.cseq s.clen [c], clen := s.clen + 1 }

theorem read_emitted (c : Code) (s : State) (i : Nat) :
    Memory.read (emitted c s).cseq i = if i = s.clen then some c else Memory.read s.cseq i :=
  Memory.read_write_one _ _ _ _

theorem emit_full (c : Code) (hfull : s.caps.cseqCap = some s.clen) :
    emit c s = .raised .capacityExceeded s := by
  rcases emit_cases c s with ⟨-, h⟩ | ⟨hroom, -⟩
  · exact h
  · exact absurd hfull hroom

theorem emit_room (c : Code) (hroom : s.caps.cseqCap ≠ some s.clen) : emit c s = .ok () (emitted c s) := by
  rcases emit_cases c s with ⟨hfull, -⟩ | ⟨-, h⟩
  · exact absurd hfull hroom
  · exact h

/-! ### LZWE.FLUSH -/

theorem lzweFlush_none (hcur : s.cur = none) : lzweFlush s = .ok () s := by rw [lzweFlush, hcur]

theorem lzweFlush_some (hcur : s.cur = some c) : lzweFlush s = emit c s := by rw [lzweFlush, hcur]

/-- Settles O25: an empty match is left alone, a code is given to `Emit`. -/
theorem flushEmitsTheMatch : Obligations.FlushEmitsTheMatch := by
  intro s
  refine ⟨fun hcur => ?empty, fun c hcur => ⟨fun hfull => ?full, fun hroom => ?room⟩⟩
  case empty => exact congrArg Res.outcome (lzweFlush_none hcur)
  case full => exact congrArg Res.outcome ((lzweFlush_some hcur).trans (emit_full c hfull))
  case room =>
    refine ⟨emitted c s, congrArg Res.outcome ((lzweFlush_some hcur).trans (emit_room c hroom)), rfl, ?_,
      fun k hk => ?_⟩
    · rw [read_emitted, if_pos rfl]
    · rw [read_emitted, if_neg hk]

/-! ### LZWE.SYM -/

theorem lzweSym_hit (hl : dictLookup s.cur x s = some k) : lzweSym x s = .ok () { s with cur := some k } := by
  rw [lzweSym, hl]

theorem lzweSym_miss (hcur : s.cur = some c) (hl : dictLookup (some c) x s = none) :
    lzweSym x s = (emit c s).bind fun _ t =>
      (dictInsert (some c) x t).bind fun _ u => .ok () { u with cur := some (byteCode x) } := by
  simp only [lzweSym, hcur, hl]

theorem lzweSym_cseqFull (hcur : s.cur = some c) (hl : dictLookup (some c) x s = none)
    (hfull : s.caps.cseqCap = some s.clen) : lzweSym x s = .raised .capacityExceeded s := by
  rw [lzweSym_miss hcur hl, emit_full c hfull, Res.bind_raised]

/-- What follows `Emit` on a miss: the emitted code changes neither the dictionary nor the lookup. -/
theorem lzweSym_miss_room (hcur : s.cur = some c) (hl : dictLookup (some c) x s = none)
    (hroom : s.caps.cseqCap ≠ some s.clen) :
    lzweSym x s = (dictInsert (some c) x (emitted c s)).bind fun _ u =>
      .ok () { u with cur := some (byteCode x) } := by
  rw [lzweSym_miss hcur hl, emit_room c hroom, Res.bind_ok]

theorem lzweSym_dictFull (hcur : s.cur = some c) (hc : c.toNat < s.dsize) (hl : dictLookup (some c) x s = none)
    (hroom : s.caps.cseqCap ≠ some s.clen) (hfull : s.dsize = 65536) :
    lzweSym x s = .raised .dictionaryFull (emitted c s) := by
  have hins : dictInsert (some c) x (emitted c s) = .raised .dictionaryFull (emitted c s) :=
    dictInsert_full hc hl hfull
  rw [lzweSym_miss_room hcur hl hroom, hins, Res.bind_raised]

/-- The state after a miss with room in CSEQ and in the dictionary (41 R152). -/
def missed (c : Code) (x : Byte) (s : State) : State :=
  { inserted c x (emitted c s) with cur := some (byteCode x) }

theorem lzweSym_room (hcur : s.cur = some c) (hc : c.toNat < s.dsize) (hl : dictLookup (some c) x s = none)
    (hroom : s.caps.cseqCap ≠ some s.clen) (hdict : s.dsize ≠ 65536) :
    lzweSym x s = .ok () (missed c x s) := by
  have hins : dictInsert (some c) x (emitted c s)
      = .ok (BitVec.ofNat 16 s.dsize) (inserted c x (emitted c s)) := dictInsert_absent hc hl hdict
  rw [lzweSym_miss_room hcur hl hroom, hins, Res.bind_ok, missed]

/-- In a dictionary of the right shape a record stands at one code, so DICT.LOOKUP answers that one (10 R47). -/
theorem dictLookup_of_entry (hwf : Memory.wf s.dict) (h : s.dictSeeded) {k : Nat} (hlo : 256 ≤ k) (hk : k < s.dsize)
    (hread : Memory.read s.dict k = some { parent := some c, last := x }) :
    dictLookup (some c) x s = some (BitVec.ofNat 16 k) := by
  obtain ⟨-, hsize, -, -, hinj⟩ := h
  obtain ⟨d, hd⟩ := Option.ne_none_iff_exists'.mp ((dictLookup_ne_none hwf).mpr ⟨k, hlo, hk, hread⟩)
  obtain ⟨hdlo, hdhi, hdread⟩ := dictLookup_eq_some hwf hsize hd
  have hsame : d.toNat = k := by
    rcases Nat.lt_trichotomy d.toNat k with hlt | heq | hgt
    · exact absurd (hdread.trans hread.symm) (hinj k hk _ hlt hdlo)
    · exact heq
    · exact absurd (hread.trans hdread.symm) (hinj _ hdhi k hgt hlo)
  rw [hd, ← hsame, BitVec.ofNat_toNat, BitVec.setWidth_eq]

theorem byteCode_eq_ofNat (b : Byte) : byteCode b = BitVec.ofNat 16 b.toNat := (BitVec.ofNat_toNat 16 b).symm

/-- Settles O23: a byte alone is always present, and a present pair stands at one code. -/
theorem symbolExtendsTheMatch : Obligations.SymbolExtendsTheMatch := by
  intro s hwf h
  refine ⟨fun hcur => ?empty, fun c k hcur hlo hk hread => ?present⟩
  case empty => exact congrArg Res.outcome (lzweSym_hit (hcur ▸ dictLookup_none s.argB s))
  case present => exact congrArg Res.outcome (lzweSym_hit (hcur ▸ dictLookup_of_entry hwf h hlo hk hread))

/-- Settles O24: on a miss first `Emit` and then DICT.INSERT decide, and each has the one error. -/
theorem symbolMissEmitsAndInserts : Obligations.SymbolMissEmitsAndInserts := by
  intro s c hwf _ hcur hc habsent
  have hl : dictLookup (some c) s.argB s = none := (dictLookup_eq_none hwf).mpr habsent
  refine ⟨fun hfull => ?cseqFull, fun hroom hfull => ?dictFull, fun hroom hdict => ?room⟩
  case cseqFull => exact congrArg Res.outcome (lzweSym_cseqFull hcur hl hfull)
  case dictFull =>
    refine ⟨emitted c s, congrArg Res.outcome (lzweSym_dictFull hcur hc hl hroom hfull), rfl, ?_⟩
    rw [read_emitted, if_pos rfl]
  case room =>
    refine ⟨missed c s.argB s, congrArg Res.outcome (lzweSym_room hcur hc hl hroom (by omega)), ?_, ?_,
      fun i hi => ?_, ?_, fun k hk => ?_⟩
    · rw [← byteCode_eq_ofNat]; rfl
    · exact (read_emitted c s s.clen).trans (if_pos rfl)
    · exact (read_emitted c s i).trans (if_neg hi)
    · exact (read_inserted c s.argB (emitted c s) s.dsize).trans (if_pos rfl)
    · exact (read_inserted c s.argB (emitted c s) k).trans (if_neg hk)

end Sys2Proof.Proofs.LzweOperations
end

section
/-!
The dictionary as the source's mapping of strings to codes (40_dictionary.md R132, 10_state.md R36, R47): a valid
entry is determined by its string, an entry added at the end changes no older string, and DICT.LOOKUP of a code and
a byte is the mapping's answer for the longer string.
-/
namespace Sys2Proof.Proofs.DictStrings
open Sys2Proof Sys2Proof.Machine Sys2Proof.Proofs.DictShape Sys2Proof.Proofs.DictOperations
open Sys2Proof.Proofs.LzweOperations

variable {s t : State} {d : List (List Byte)} {w : List Byte} {j k : Nat} {c : Code} {x : Byte}

/-! ### The string of an entry -/

theorem str_seed (m : Memory DictEntry) (hk : k < 256) : str m k = some [BitVec.ofNat 8 k] := by
  rw [str, strAt]
  exact if_pos hk

theorem exists_entry (h : s.dictSeeded) (hlo : 256 ≤ k) (hk : k < s.dsize) :
    ∃ p b, Memory.read s.dict k = some { parent := some p, last := b } ∧ p.toNat < k := by
  obtain ⟨-, -, -, hshape, -⟩ := h
  have hentry := hshape k hk hlo
  unfold entryShape at hentry
  split at hentry
  next p b hread => exact ⟨p, b, hread, of_decide_eq_true hentry⟩
  next => cases hentry

theorem str_ne_nil (h : s.dictSeeded) (hk : k < s.dsize) : str s.dict k ≠ some [] := by
  obtain ⟨x, t, hstr⟩ := strAt_isSome h (k + 1) k k.lt_succ_self hk
  rw [str, hstr]
  simp

/-- An entry's string is its parent's and its last byte. -/
theorem str_of_entry (h : s.dictSeeded) (hlo : 256 ≤ k) (hk : k < s.dsize)
    (hread : Memory.read s.dict k = some { parent := some c, last := x }) (hw : str s.dict c.toNat = some w) :
    str s.dict k = some (w ++ [x]) := by
  rw [str_entry h hlo hk hread, entryString, hw, Option.getD_some]

theorem exists_parent (h : s.dictSeeded) (hlo : 256 ≤ k) (hk : k < s.dsize) :
    ∃ p b w, Memory.read s.dict k = some { parent := some p, last := b } ∧ p.toNat < k
      ∧ str s.dict p.toNat = some w ∧ str s.dict k = some (w ++ [b]) := by
  obtain ⟨p, b, hread, hp⟩ := exists_entry h hlo hk
  have hw := str_eq_entryString h (hp.trans hk)
  exact ⟨p, b, _, hread, hp, hw, str_of_entry h hlo hk hread hw⟩

/-- The string of an entry from 256 on has at least two bytes. -/
theorem str_ne_singleton (h : s.dictSeeded) (hlo : 256 ≤ k) (hk : k < s.dsize) : str s.dict k ≠ some [x] := by
  obtain ⟨p, b, w, -, hp, hw, hstr⟩ := exists_parent h hlo hk
  have hne : w ≠ [] := fun hnil => str_ne_nil h (hp.trans hk) (hnil ▸ hw)
  rw [hstr]
  cases w <;> simp_all

/-- Two valid entries with one string are the same entry (10 R47): the strings end in the same byte, so by
induction the parents agree, and equal records stand at one code. -/
theorem str_injective (h : s.dictSeeded) (hj : j < s.dsize) (hk : k < s.dsize)
    (heq : str s.dict j = str s.dict k) : j = k := by
  induction j using Nat.strongRecOn generalizing k with
  | ind j ih =>
    rcases Nat.lt_or_ge j 256 with hjlo | hjlo <;> rcases Nat.lt_or_ge k 256 with hklo | hklo
    · rw [str_seed _ hjlo, str_seed _ hklo, Option.some_inj, List.singleton_inj] at heq
      have := congrArg BitVec.toNat heq
      simp only [BitVec.toNat_ofNat] at this
      omega
    · exact absurd (heq.symm.trans (str_seed _ hjlo)) (str_ne_singleton h hklo hk)
    · exact absurd (heq.trans (str_seed _ hklo)) (str_ne_singleton h hjlo hj)
    · obtain ⟨p, b, v, hpread, hp, hv, hjstr⟩ := exists_parent h hjlo hj
      obtain ⟨q, e, w, hqread, hq, hw, hkstr⟩ := exists_parent h hklo hk
      rw [hjstr, hkstr, Option.some_inj] at heq
      obtain ⟨rfl, hlast⟩ := List.append_inj' heq rfl
      obtain rfl := List.singleton_inj.mp hlast
      obtain rfl : p = q := BitVec.eq_of_toNat_eq (ih p.toNat hp (hp.trans hj) (hq.trans hk) (hv.trans hw.symm))
      obtain ⟨-, -, -, -, hinj⟩ := h
      rcases Nat.lt_trichotomy j k with hlt | hsame | hgt
      · exact absurd (hpread.trans hqread.symm) (hinj k hk j hlt hjlo)
      · exact hsame
      · exact absurd (hqread.trans hpread.symm) (hinj j hj k hgt hklo)

/-- The links of an entry go down, so what stands above it has no part in its string. -/
theorem strAt_congr {m m' : Memory DictEntry} (n : Nat)
    (h : ∀ i, i ≤ k → Memory.read m' i = Memory.read m i) : strAt m' n k = strAt m n k := by
  induction n generalizing k with
  | zero => rfl
  | succ n ih =>
    rw [strAt, strAt, h k le_rfl]
    split
    next => rfl
    next =>
      split
      next p b _ =>
        split
        next hp => rw [ih fun i hi => h i (by omega)]
        next => rfl
      next => rfl

theorem str_inserted (hk : k < s.dsize) : str (inserted c x s).dict k = str s.dict k := by
  refine strAt_congr (k + 1) fun i hi => ?_
  rw [read_inserted, if_neg (by omega)]

/-- The word of a valid entry's code is that code. -/
theorem toNat_code_of_lt (h : s.dictSeeded) (hk : k < s.dsize) : (BitVec.ofNat 16 k).toNat = k := by
  have hsize := h.2.1
  rw [BitVec.toNat_ofNat, Nat.mod_eq_of_lt (by omega)]

/-! ### The dictionary that holds a list of strings -/

/-- The string of code k, the dictionary being the seed and then these strings (40 R132). -/
def codeString (d : List (List Byte)) (k : Nat) : Option (List Byte) :=
  if k < 256 then some [BitVec.ofNat 8 k] else d[k - 256]?

theorem codeString_byte (d : List (List Byte)) (b : Byte) : codeString d b.toNat = some [b] := by
  rw [codeString, if_pos b.isLt, BitVec.ofNat_toNat, BitVec.setWidth_eq]

theorem codeString_inserted (d : List (List Byte)) (j : Nat) : codeString d (256 + j) = d[j]? := by
  rw [codeString, if_neg (by omega), Nat.add_sub_cancel_left]

theorem lt_of_codeString (h : codeString d k = some w) : k < 256 + d.length := by
  unfold codeString at h
  split at h
  next hk => omega
  next =>
    have := (List.getElem?_eq_some_iff.mp h).1
    omega

theorem codeString_append (h : codeString d k = some w) (e : List (List Byte)) :
    codeString (d ++ e) k = some w := by
  unfold codeString at h ⊢
  split
  next hk => rwa [if_pos hk] at h
  next hk =>
    rw [if_neg hk] at h
    rwa [List.getElem?_append_left (List.getElem?_eq_some_iff.mp h).1]

/-- `stringCode` finds a code of the string. -/
theorem codeString_of_stringCode (h : stringCode d w = some k) : codeString d k = some w := by
  unfold stringCode at h
  split at h
  next => cases h
  next b => cases h; exact codeString_byte d b
  next =>
    obtain ⟨j, hj, rfl⟩ := Option.map_eq_some_iff.mp h
    obtain ⟨hlt, hfound, -⟩ := List.findIdx?_eq_some_iff_getElem.mp hj
    rw [codeString_inserted, List.getElem?_eq_getElem hlt, of_decide_eq_true hfound]

/-- DICT holds the seed and then these strings, entry 256 + j spelling the j-th. -/
structure HoldsStrings (t : State) (d : List (List Byte)) : Prop where
  wf : Memory.wf t.dict
  seeded : t.dictSeeded
  dsize : t.dsize = 256 + d.length
  spells : ∀ j, j < d.length → str t.dict (256 + j) = d[j]?

theorem holdsStrings_congr (h : HoldsStrings s d) (hdict : t.dict = s.dict) (hdsize : t.dsize = s.dsize) :
    HoldsStrings t d := by
  refine ⟨?_, dictSeeded_congr h.seeded hdict hdsize, ?_, ?_⟩
  · rw [hdict]; exact h.wf
  · rw [hdsize]; exact h.dsize
  · rw [hdict]; exact h.spells

theorem holdsStrings_dictSeed (hwf : Memory.wf s.dict) : HoldsStrings (dictSeed s) [] :=
  ⟨Memory.wf_write hwf _ _, dictSeed_seeded s, rfl, fun j hj => absurd hj j.not_lt_zero⟩

theorem HoldsStrings.str_eq (h : HoldsStrings t d) (hk : k < t.dsize) : str t.dict k = codeString d k := by
  rcases Nat.lt_or_ge k 256 with hlo | hlo
  · rw [str_seed _ hlo, codeString, if_pos hlo]
  · obtain ⟨j, rfl⟩ := Nat.exists_eq_add_of_le hlo
    rw [h.spells j (by have := h.dsize; omega), codeString_inserted]

theorem HoldsStrings.codeString_eq_some_iff (h : HoldsStrings t d) :
    codeString d k = some w ↔ k < t.dsize ∧ str t.dict k = some w := by
  refine ⟨fun hw => ?_, fun ⟨hk, hw⟩ => (h.str_eq hk).symm.trans hw⟩
  have hk : k < t.dsize := h.dsize ▸ lt_of_codeString hw
  exact ⟨hk, (h.str_eq hk).trans hw⟩

theorem exists_stringCode_of_mem (hne : w ≠ []) (hmem : w ∈ d) : ∃ j, stringCode d w = some j := by
  unfold stringCode
  split
  next => exact absurd rfl hne
  next b => exact ⟨_, rfl⟩
  next =>
    have hany : d.any (fun v => decide (v = w)) = true := List.any_eq_true.mpr ⟨w, hmem, decide_eq_true rfl⟩
    obtain ⟨j, hj⟩ := Option.isSome_iff_exists.mp (List.findIdx?_isSome.trans hany)
    exact ⟨256 + j, by rw [hj, Option.map_some]⟩

/-- `stringCode` is the inverse of the strings of a dictionary in which no string stands twice. -/
theorem HoldsStrings.stringCode_eq_some_iff (h : HoldsStrings t d) :
    stringCode d w = some k ↔ k < t.dsize ∧ str t.dict k = some w := by
  rw [← h.codeString_eq_some_iff]
  refine ⟨codeString_of_stringCode, fun hw => ?_⟩
  obtain ⟨hk, hstr⟩ := h.codeString_eq_some_iff.mp hw
  obtain ⟨j, hj⟩ : ∃ j, stringCode d w = some j := by
    unfold codeString at hw
    split at hw
    next => cases hw; exact ⟨_, rfl⟩
    next =>
      exact exists_stringCode_of_mem (fun hnil => str_ne_nil h.seeded hk (hnil ▸ hstr)) (List.mem_of_getElem? hw)
  obtain ⟨hj', hjstr⟩ := h.codeString_eq_some_iff.mp (codeString_of_stringCode hj)
  rw [hj, str_injective h.seeded hj' hk (hjstr.trans hstr.symm)]

/-- DICT.LOOKUP of a code and a byte answers the code of the longer string (40 R133). -/
theorem HoldsStrings.dictLookup_eq (h : HoldsStrings t d) (hc : c.toNat < t.dsize)
    (hw : str t.dict c.toNat = some w) :
    dictLookup (some c) x t = (stringCode d (w ++ [x])).map (BitVec.ofNat 16) := by
  cases hcode : stringCode d (w ++ [x]) with
  | some k =>
    obtain ⟨hk, hstr⟩ := h.stringCode_eq_some_iff.mp hcode
    have hne : w ≠ [] := fun hnil => str_ne_nil h.seeded hc (hnil ▸ hw)
    have hlo : 256 ≤ k := by
      by_contra hlt
      rw [str_seed _ (Nat.not_le.mp hlt), Option.some_inj] at hstr
      exact hne (by simpa using congrArg List.length hstr)
    obtain ⟨p, b, v, hread, hp, hv, hkstr⟩ := exists_parent h.seeded hlo hk
    rw [hkstr, Option.some_inj] at hstr
    obtain ⟨rfl, hlast⟩ := List.append_inj' hstr rfl
    obtain rfl := List.singleton_inj.mp hlast
    obtain rfl : p = c :=
      BitVec.eq_of_toNat_eq (str_injective h.seeded (hp.trans hk) hc (hv.trans hw.symm))
    exact dictLookup_of_entry h.wf h.seeded hlo hk hread
  | none =>
    refine (dictLookup_eq_none h.wf).mpr fun k hlo hk hread => ?_
    have hfound := h.stringCode_eq_some_iff.mpr ⟨hk, str_of_entry h.seeded hlo hk hread hw⟩
    rw [hcode] at hfound
    cases hfound

/-- DICT.INSERT of an absent string puts it at the end of the list (40 R136). -/
theorem HoldsStrings.insert (h : HoldsStrings t d) (hc : c.toNat < t.dsize) (hw : str t.dict c.toNat = some w)
    (habsent : stringCode d (w ++ [x]) = none) (hroom : t.dsize ≠ 65536) :
    HoldsStrings (inserted c x t) (d ++ [w ++ [x]]) := by
  have hl : dictLookup (some c) x t = none := by rw [h.dictLookup_eq hc hw, habsent, Option.map_none]
  have hseeded : (inserted c x t).dictSeeded :=
    dictSeeded_append h.seeded hroom hc ((dictLookup_eq_none h.wf).mp hl) rfl rfl
  have hdsize : (inserted c x t).dsize = t.dsize + 1 := rfl
  have hsize := h.dsize
  refine ⟨Memory.wf_write h.wf _ _, hseeded, ?_, fun j hj => ?_⟩
  · rw [hdsize, hsize, List.length_append, List.length_singleton, Nat.add_assoc]
  · rw [List.length_append, List.length_singleton] at hj
    rcases Nat.lt_succ_iff_lt_or_eq.mp hj with hlt | rfl
    · rw [str_inserted (by omega), h.spells j hlt, List.getElem?_append_left hlt]
    · have hread : Memory.read (inserted c x t).dict (256 + d.length)
          = some { parent := some c, last := x } := by rw [read_inserted, if_pos hsize.symm]
      rw [str_of_entry hseeded (by omega) (by omega) hread ((str_inserted hc).trans hw)]
      simp

end Sys2Proof.Proofs.DictStrings
end

section
/-!
The source's string LZW (41_lzw_encoder.md R152, R153) as a state that takes one symbol at a time, so that what it
has done after some of the input is itself an LZW state; and what every such state satisfies: the strings of its
codes and its current match are the input so far (R156), with the counts of R155.
-/
namespace Sys2Proof.Proofs.StringLzw
open Sys2Proof Sys2Proof.Machine Sys2Proof.Proofs.DictStrings

/-- The current match, the strings inserted and the codes emitted. -/
structure Lzw where
  current : List Byte
  strings : List (List Byte)
  codes : List Nat

/-- "For each incoming symbol s: let candidate = current match + s …" -/
def Lzw.symbol (q : Lzw) (x : Byte) : Lzw :=
  match stringCode q.strings (q.current ++ [x]) with
  | some _ => { q with current := q.current ++ [x] }
  | none =>
    { current := [x], strings := q.strings ++ [q.current ++ [x]],
      codes := q.codes ++ (stringCode q.strings q.current).toList }

/-- "… if current match is non-empty, emit its code." -/
def Lzw.flush (q : Lzw) : Lzw := { q with codes := q.codes ++ (stringCode q.strings q.current).toList }

/-- The state after these symbols. -/
def Lzw.after (bs : List Byte) : Lzw := bs.foldl Lzw.symbol ⟨[], [], []⟩

variable {q : Lzw} {x : Byte} {bs cs : List Byte} {k : Nat}

theorem Lzw.symbol_hit (h : stringCode q.strings (q.current ++ [x]) = some k) :
    q.symbol x = { q with current := q.current ++ [x] } := by rw [Lzw.symbol, h]

theorem Lzw.symbol_miss (h : stringCode q.strings (q.current ++ [x]) = none)
    (hk : stringCode q.strings q.current = some k) :
    q.symbol x = ⟨[x], q.strings ++ [q.current ++ [x]], q.codes ++ [k]⟩ := by
  rw [Lzw.symbol, h, hk, Option.toList_some]

theorem Lzw.flush_empty (h : stringCode q.strings q.current = none) : q.flush = q := by
  rw [Lzw.flush, h, Option.toList_none, List.append_nil]

theorem Lzw.flush_code (hk : stringCode q.strings q.current = some k) :
    q.flush = { q with codes := q.codes ++ [k] } := by rw [Lzw.flush, hk, Option.toList_some]

theorem Lzw.after_append (bs cs : List Byte) : Lzw.after (bs ++ cs) = cs.foldl Lzw.symbol (Lzw.after bs) :=
  List.foldl_append

theorem Lzw.after_snoc (bs : List Byte) (x : Byte) : Lzw.after (bs ++ [x]) = (Lzw.after bs).symbol x :=
  Lzw.after_append bs [x]

/-- The model's algorithm takes the symbols one by one and flushes. -/
theorem stringEncode_eq (bs : List Byte) (q : Lzw) :
    stringEncode bs q.current q.strings q.codes
      = ((bs.foldl Lzw.symbol q).flush.codes, (bs.foldl Lzw.symbol q).flush.strings) := by
  induction bs generalizing q with
  | nil =>
    rw [stringEncode, List.foldl_nil, Lzw.flush]
    split <;> simp_all
  | cons x bs ih =>
    rw [stringEncode, List.foldl_cons, ← ih]
    cases h : stringCode q.strings (q.current ++ [x]) with
    | some k => rw [Lzw.symbol_hit h]
    | none => simp only [Lzw.symbol, h]

theorem lzwCodes_eq (bs : List Byte) : lzwCodes bs = (Lzw.after bs).flush.codes :=
  congrArg Prod.fst (stringEncode_eq bs ⟨[], [], []⟩)

theorem lzwInserted_eq (bs : List Byte) : lzwInserted bs = (Lzw.after bs).flush.strings :=
  congrArg Prod.snd (stringEncode_eq bs ⟨[], [], []⟩)

/-! ### Codes and strings are only added -/

/-- From `q` to `r` codes and strings have been added at most. -/
def Lzw.Extends (q r : Lzw) : Prop :=
  q.codes.length ≤ r.codes.length ∧ q.strings.length ≤ r.strings.length

theorem Lzw.extends_refl (q : Lzw) : q.Extends q := ⟨le_rfl, le_rfl⟩

theorem Lzw.Extends.trans {q r p : Lzw} (h : q.Extends r) (h' : r.Extends p) : q.Extends p :=
  ⟨h.1.trans h'.1, h.2.trans h'.2⟩

theorem Lzw.extends_symbol (q : Lzw) (x : Byte) : q.Extends (q.symbol x) := by
  rw [Lzw.symbol]
  split
  next => exact q.extends_refl
  next => exact ⟨by simp, by simp⟩

theorem Lzw.extends_foldl (bs : List Byte) (q : Lzw) : q.Extends (bs.foldl Lzw.symbol q) := by
  induction bs generalizing q with
  | nil => exact q.extends_refl
  | cons x bs ih => exact (q.extends_symbol x).trans (ih _)

theorem Lzw.extends_flush (q : Lzw) : q.Extends q.flush := ⟨by simp [Lzw.flush], le_rfl⟩

/-! ### LZW loses nothing -/

/-- An LZW state after the input `bs`: the match has a code; one code has been emitted a string inserted, and at
least one symbol taken a code (R155); the strings of the codes and the match concatenate to the input (R156). -/
structure Lzw.Spells (q : Lzw) (bs : List Byte) : Prop where
  present : bs ≠ [] → ∃ k, stringCode q.strings q.current = some k
  current_ne_nil : bs ≠ [] → q.current ≠ []
  counts : q.codes.length = q.strings.length
  short : q.codes.length + q.current.length ≤ bs.length
  spelled : ∃ ws : List (List Byte), q.codes.map (codeString q.strings) = ws.map some
    ∧ ws.flatten ++ q.current = bs

/-- Later strings leave those of the codes as they are. -/
theorem map_codeString_append {d : List (List Byte)} {codes : List Nat} {ws : List (List Byte)}
    (h : codes.map (codeString d) = ws.map some) (e : List (List Byte)) :
    codes.map (codeString (d ++ e)) = ws.map some := by
  rw [← h]
  refine List.map_congr_left fun k hk => ?_
  have hmem : codeString d k ∈ ws.map some := h ▸ List.mem_map_of_mem hk
  obtain ⟨w, -, hw⟩ := List.mem_map.mp hmem
  rw [← hw, codeString_append hw.symm]

theorem Lzw.Spells.hit (hq : q.Spells bs) (h : stringCode q.strings (q.current ++ [x]) = some k) :
    (q.symbol x).Spells (bs ++ [x]) := by
  obtain ⟨ws, hws, hbs⟩ := hq.spelled
  rw [Lzw.symbol_hit h]
  refine ⟨fun _ => ⟨k, h⟩, fun _ => by simp, hq.counts, ?_, ws, hws, ?_⟩
  · have := hq.short
    simp only [List.length_append, List.length_singleton]
    omega
  · rw [← hbs, List.append_assoc]

theorem Lzw.Spells.miss (hq : q.Spells bs) (hne : bs ≠ []) (h : stringCode q.strings (q.current ++ [x]) = none) :
    (q.symbol x).Spells (bs ++ [x]) := by
  obtain ⟨k, hk⟩ := hq.present hne
  obtain ⟨ws, hws, hbs⟩ := hq.spelled
  rw [Lzw.symbol_miss h hk]
  refine ⟨fun _ => ⟨x.toNat, rfl⟩, fun _ => by simp, by simp [hq.counts], ?_, ws ++ [q.current], ?_, ?_⟩
  · have hpos : 0 < q.current.length := List.length_pos_of_ne_nil (hq.current_ne_nil hne)
    have := hq.short
    simp only [List.length_append, List.length_singleton]
    omega
  · simp [map_codeString_append hws, codeString_append (codeString_of_stringCode hk)]
  · simp [← hbs]

/-- Every LZW state spells the input it has taken: a byte alone is always present, so the first symbol is a hit,
and a miss emits the code of the match it ends. -/
theorem Lzw.spells_after (bs : List Byte) : (Lzw.after bs).Spells bs := by
  induction bs using List.reverseRecOn with
  | nil => exact ⟨absurd rfl, absurd rfl, rfl, le_rfl, [], rfl, rfl⟩
  | append_singleton bs x ih =>
    rw [Lzw.after_snoc]
    cases h : stringCode (Lzw.after bs).strings ((Lzw.after bs).current ++ [x]) with
    | some k => exact ih.hit h
    | none =>
      refine ih.miss ?_ h
      rintro rfl
      cases h

theorem Lzw.current_after_eq_nil_iff : (Lzw.after bs).current = [] ↔ bs = [] := by
  refine ⟨fun h => ?_, by rintro rfl; rfl⟩
  by_contra hne
  exact (Lzw.spells_after bs).current_ne_nil hne h

/-- The codes of the whole input: their strings concatenate to it (R156). -/
theorem exists_flush_spelling (bs : List Byte) : ∃ ws : List (List Byte),
    (Lzw.after bs).flush.codes.map (codeString (Lzw.after bs).flush.strings) = ws.map some ∧ ws.flatten = bs := by
  have hq := Lzw.spells_after bs
  obtain ⟨ws, hws, hbs⟩ := hq.spelled
  rcases eq_or_ne bs [] with rfl | hne
  · exact ⟨[], rfl, rfl⟩
  · obtain ⟨k, hk⟩ := hq.present hne
    refine ⟨ws ++ [(Lzw.after bs).current], ?_, by simpa using hbs⟩
    rw [Lzw.flush_code hk]
    simp [hws, codeString_of_stringCode hk]

/-- With a non-empty input the flush emits one code more than strings were inserted (R155). -/
theorem flush_codes_length (hne : bs ≠ []) :
    (Lzw.after bs).flush.codes.length = (Lzw.after bs).flush.strings.length + 1 := by
  have hq := Lzw.spells_after bs
  obtain ⟨k, hk⟩ := hq.present hne
  rw [Lzw.flush_code hk]
  simp [hq.counts]

theorem flush_codes_length_le (bs : List Byte) : (Lzw.after bs).flush.codes.length ≤ bs.length := by
  have hq := Lzw.spells_after bs
  have hshort := hq.short
  rcases eq_or_ne bs [] with rfl | hne
  · exact le_rfl
  · have hpos : 0 < (Lzw.after bs).current.length := List.length_pos_of_ne_nil (hq.current_ne_nil hne)
    obtain ⟨k, hk⟩ := hq.present hne
    simp only [Lzw.flush_code hk, List.length_append, List.length_singleton]
    omega

end Sys2Proof.Proofs.StringLzw
end

section
/-!
LZWE.RUN (41_lzw_encoder.md R151) simulates string LZW: after each symbol CSEQ holds the codes, DICT the strings and
CUR the current match of the LZW state, and an error stops the run only where the codes or the strings of that state
no longer fit.
-/
namespace Sys2Proof.Proofs.LzweRun
open Sys2Proof Sys2Proof.Machine Sys2Proof.Proofs.DictOperations Sys2Proof.Proofs.LzweOperations
open Sys2Proof.Proofs.DictStrings Sys2Proof.Proofs.StringLzw

variable {s t u : State} {q r : Lzw} {bs pre xs : List Byte} {w : List Byte} {c : Code} {x : Byte} {k : Nat}

/-! ### A unit operation that ends unless something does not fit -/

/-- `r` ends in a state with `P`, or it raises an error and `fits` does not hold. -/
def EndsIf (fits : Prop) (r : Res Unit) (P : State → Prop) : Prop :=
  (∃ t, r = .ok () t ∧ P t) ∨ ∃ e t, r = .raised e t ∧ ¬ fits

section
variable {fits fits' : Prop} {r : Res Unit} {P Q : State → Prop}

theorem endsIf_ok (h : P t) : EndsIf fits (.ok () t) P := .inl ⟨t, rfl, h⟩

theorem endsIf_raised {e : Err} (h : ¬ fits) : EndsIf fits (.raised e t) P := .inr ⟨e, t, rfl, h⟩

/-- What does not fit in the first part does not fit in the whole. -/
theorem EndsIf.bind {f : State → Res Unit} (h : EndsIf fits r P) (hfits : fits' → fits)
    (hf : ∀ t, P t → EndsIf fits' (f t) Q) : EndsIf fits' (r.bind fun _ t => f t) Q := by
  rcases h with ⟨t, rfl, ht⟩ | ⟨e, t, rfl, hnot⟩
  · exact hf t ht
  · exact endsIf_raised (mt hfits hnot)

theorem EndsIf.ok_of_fits (h : EndsIf fits r P) (hfits : fits) : ∃ t, r = .ok () t ∧ P t := by
  rcases h with hok | ⟨-, -, -, hnot⟩
  · exact hok
  · exact absurd hfits hnot

/-- An error is seen in STATUS (60 R330), so where there is none the operation has ended. -/
theorem EndsIf.of_next (h : EndsIf fits r P) (hnext : r.outcome = .next t) (herr : t.status.err = false) : P t := by
  rcases h with ⟨u, rfl, hu⟩ | ⟨e, u, rfl, -⟩
  · cases hnext; exact hu
  · cases hnext; cases herr

end

/-! ### What simulates what -/

/-- CUR stands for the match: EMPTY for the empty one, else a code of the string (10 R28). -/
def Matches (t : State) (w : List Byte) : Prop :=
  match t.cur with
  | none => w = []
  | some c => c.toNat < t.dsize ∧ str t.dict c.toNat = some w

theorem matches_none (hcur : t.cur = none) : Matches t w ↔ w = [] := by rw [Matches, hcur]

theorem matches_some (hcur : t.cur = some c) :
    Matches t w ↔ c.toNat < t.dsize ∧ str t.dict c.toNat = some w := by rw [Matches, hcur]

/-- Since `s` exactly these codes have been put in CSEQ. -/
structure HoldsEmitted (s t : State) (codes : List Nat) : Prop where
  clen : t.clen = codes.length
  read : ∀ i, i < codes.length → (Memory.read t.cseq i).map BitVec.toNat = codes[i]?
  beyond : ∀ i, codes.length ≤ i → Memory.read t.cseq i = Memory.read s.cseq i

theorem HoldsEmitted.emit {codes : List Nat} (h : HoldsEmitted s t codes) (hclen : u.clen = (emitted c t).clen)
    (hcseq : u.cseq = (emitted c t).cseq) : HoldsEmitted s u (codes ++ [c.toNat]) := by
  have hlen : (codes ++ [c.toNat]).length = codes.length + 1 := by simp
  refine ⟨?_, fun i hi => ?_, fun i hi => ?_⟩
  · rw [hclen, hlen, ← h.clen]; rfl
  · rw [hcseq, read_emitted, h.clen]
    rcases Nat.lt_succ_iff_lt_or_eq.mp (hlen ▸ hi) with hlt | rfl
    · rw [if_neg (by omega), h.read i hlt, List.getElem?_append_left hlt]
    · simp
  · rw [hcseq, read_emitted, h.clen, if_neg (by omega)]
    exact h.beyond i (by omega)

/-- The run of LZWE on `s` has come to `t`, and string LZW to `q`. -/
structure Simulates (s t : State) (q : Lzw) : Prop where
  strings : HoldsStrings t q.strings
  unwritten : ∀ k, 256 + q.strings.length ≤ k → Memory.read t.dict k = Memory.read s.dict k
  current : Matches t q.current
  emitted : HoldsEmitted s t q.codes
  frame : t = { s with
    dict := t.dict, dsize := t.dsize, cur := t.cur, ipos := t.ipos, cseq := t.cseq, clen := t.clen }

/-- The codes fit CSEQ and the strings fit DICT. -/
def Fits (s : State) (q : Lzw) : Prop := withinCap q.codes.length s.caps.cseqCap ∧ q.strings.length ≤ 65280

theorem withinCap_mono {m n : Nat} {cap : Option Nat} (hle : m ≤ n) (h : withinCap n cap) : withinCap m cap := by
  cases cap with
  | none => rfl
  | some a =>
    simp only [withinCap, overCap, decide_eq_false_iff_not] at h ⊢
    omega

theorem Fits.mono (h : Fits s r) (hle : q.Extends r) : Fits s q :=
  ⟨withinCap_mono hle.1 h.1, hle.2.trans h.2⟩

theorem Simulates.caps_eq (h : Simulates s t q) : t.caps = s.caps := by rw [h.frame]

theorem Simulates.room (h : Simulates s t q) (hfits : withinCap (q.codes.length + 1) s.caps.cseqCap) :
    t.caps.cseqCap ≠ some t.clen := by
  intro hfull
  rw [h.caps_eq, h.emitted.clen] at hfull
  simp [withinCap, overCap, hfull] at hfits

theorem Simulates.stringCode_current (h : Simulates s t q) (hcur : t.cur = some c) :
    stringCode q.strings q.current = some c.toNat :=
  h.strings.stringCode_eq_some_iff.mpr ((matches_some hcur).mp h.current)

/-- DICT.LOOKUP of CUR and a byte answers the code of the candidate; a byte alone has its own code. -/
theorem Simulates.dictLookup_eq (h : Simulates s t q) (x : Byte) :
    dictLookup t.cur x t = (stringCode q.strings (q.current ++ [x])).map (BitVec.ofNat 16) := by
  cases hcur : t.cur with
  | none =>
    rw [(matches_none hcur).mp h.current, dictLookup_none]
    rfl
  | some c =>
    obtain ⟨hc, hw⟩ := (matches_some hcur).mp h.current
    exact h.strings.dictLookup_eq hc hw

/-! ### The parts of the run -/

theorem Simulates.hit (h : Simulates s t q) (hk : stringCode q.strings (q.current ++ [x]) = some k) :
    Simulates s { t with cur := some (BitVec.ofNat 16 k) } (q.symbol x) := by
  obtain ⟨hlt, hstr⟩ := h.strings.stringCode_eq_some_iff.mp hk
  have hcode := toNat_code_of_lt h.strings.seeded hlt
  rw [Lzw.symbol_hit hk]
  refine ⟨holdsStrings_congr h.strings rfl rfl, h.unwritten, (matches_some rfl).mpr ?_, ?_, ?_⟩
  · rw [hcode]; exact ⟨hlt, hstr⟩
  · exact ⟨h.emitted.clen, h.emitted.read, h.emitted.beyond⟩
  · rw [h.frame]

theorem Simulates.miss (h : Simulates s t q) (hcur : t.cur = some c)
    (habsent : stringCode q.strings (q.current ++ [x]) = none) (hroom : t.dsize ≠ 65536) :
    Simulates s (missed c x t) (q.symbol x) := by
  obtain ⟨hc, hw⟩ := (matches_some hcur).mp h.current
  have hstrings := h.strings.insert hc hw habsent hroom
  have hdsize := h.strings.dsize
  rw [Lzw.symbol_miss habsent (h.stringCode_current hcur)]
  refine ⟨holdsStrings_congr hstrings rfl rfl, fun k hk => ?_, (matches_some rfl).mpr ?_,
    h.emitted.emit rfl rfl, ?_⟩
  · simp only [List.length_append, List.length_singleton] at hk
    have hread : Memory.read (missed c x t).dict k = Memory.read t.dict k :=
      (read_inserted c x t k).trans (if_neg (by omega))
    rw [hread, h.unwritten k (by omega)]
  · have hbyte : (byteCode x).toNat = x.toNat := by
      rw [byteCode, BitVec.toNat_setWidth, Nat.mod_eq_of_lt (x.isLt.trans (by decide))]
    have hpresent : x.toNat < t.dsize + 1 := by have := x.isLt; omega
    rw [hbyte]
    exact ⟨hpresent, str_byte _ x⟩
  · rw [missed, h.frame]; rfl

/-- LZWE.SYM takes the symbol as string LZW does (R152). -/
theorem lzweSym_simulates (h : Simulates s t q) (x : Byte) :
    EndsIf (Fits s (q.symbol x)) (lzweSym x t) fun u => Simulates s u (q.symbol x) ∧ u.ipos = t.ipos := by
  have hlookup := h.dictLookup_eq x
  cases hcode : stringCode q.strings (q.current ++ [x]) with
  | some k =>
    rw [lzweSym_hit (by rw [hlookup, hcode, Option.map_some])]
    exact endsIf_ok ⟨h.hit hcode, rfl⟩
  | none =>
    rw [hcode, Option.map_none] at hlookup
    obtain ⟨c, hcur⟩ : ∃ c, t.cur = some c :=
      Option.ne_none_iff_exists'.mp fun hnone => by rw [hnone, dictLookup_none] at hlookup; cases hlookup
    rw [hcur] at hlookup
    obtain ⟨hc, -⟩ := (matches_some hcur).mp h.current
    have hsymbol := Lzw.symbol_miss hcode (h.stringCode_current hcur)
    by_cases hfull : t.caps.cseqCap = some t.clen
    · rw [lzweSym_cseqFull hcur hlookup hfull]
      refine endsIf_raised fun hfits => h.room ?_ hfull
      simpa [hsymbol] using hfits.1
    · by_cases hdict : t.dsize = 65536
      · rw [lzweSym_dictFull hcur hc hlookup hfull hdict]
        refine endsIf_raised fun hfits => ?_
        have hstrings := hfits.2
        rw [hsymbol, List.length_append, List.length_singleton] at hstrings
        have := h.strings.dsize
        omega
      · rw [lzweSym_room hcur hc hlookup hfull hdict]
        exact endsIf_ok ⟨h.miss hcur hcode hdict, rfl⟩

theorem Simulates.advance (h : Simulates s t q) (n : Nat) : Simulates s { t with ipos := n } q := by
  refine ⟨holdsStrings_congr h.strings rfl rfl, h.unwritten, h.current, ?_, ?_⟩
  · exact ⟨h.emitted.clen, h.emitted.read, h.emitted.beyond⟩
  · rw [h.frame]

theorem Simulates.inAt_eq (h : Simulates s t q) (i : Nat) : t.inAt i = s.inAt i := by rw [h.frame]; rfl

/-- The loop of LZWE.RUN from any point of the input (R151). -/
theorem lzweLoop_simulates (hin : s.holdsInput (pre ++ xs)) (h : Simulates s t (Lzw.after pre))
    (hipos : t.ipos = pre.length) :
    EndsIf (Fits s (Lzw.after (pre ++ xs))) (lzweLoop xs.length t)
      fun u => Simulates s u (Lzw.after (pre ++ xs)) ∧ u.ipos = (pre ++ xs).length := by
  induction xs generalizing pre t with
  | nil =>
    rw [List.append_nil]
    exact endsIf_ok ⟨h, hipos⟩
  | cons x xs ih =>
    have hread : t.inAt t.ipos = some x := by
      rw [h.inAt_eq, hipos, hin.2 _ (by simp)]
      simp
    have hassoc : pre ++ x :: xs = (pre ++ [x]) ++ xs := by simp
    rw [hassoc] at hin ⊢
    rw [List.length_cons, lzweLoop, hread]
    refine (lzweSym_simulates h x).bind (fun hfits => hfits.mono ?_) fun u ⟨hu, huipos⟩ => ?_
    · rw [Lzw.after_append, Lzw.after_snoc]
      exact Lzw.extends_foldl xs _
    · rw [← Lzw.after_snoc] at hu
      exact ih hin (hu.advance _) (by simp [huipos, hipos])

/-- LZWE.FLUSH emits the code of the match as string LZW does (R153). -/
theorem lzweFlush_simulates (h : Simulates s t q) :
    EndsIf (Fits s q.flush) (lzweFlush t) fun u => Simulates s u q.flush ∧ u.ipos = t.ipos := by
  cases hcur : t.cur with
  | none =>
    have hempty : stringCode q.strings q.current = none := by rw [(matches_none hcur).mp h.current]; rfl
    rw [lzweFlush_none hcur, Lzw.flush_empty hempty]
    exact endsIf_ok ⟨h, rfl⟩
  | some c =>
    rw [lzweFlush_some hcur, Lzw.flush_code (h.stringCode_current hcur)]
    by_cases hfull : t.caps.cseqCap = some t.clen
    · rw [emit_full c hfull]
      refine endsIf_raised fun hfits => h.room ?_ hfull
      simpa using hfits.1
    · rw [emit_room c hfull]
      refine endsIf_ok ⟨⟨holdsStrings_congr h.strings rfl rfl, h.unwritten, h.current, h.emitted.emit rfl rfl, ?_⟩,
        rfl⟩
      rw [LzweOperations.emitted, h.frame]

/-- The state in which the loop begins: the dictionary seeded, nothing emitted, no match. -/
theorem simulates_start (hwf : Memory.wf s.dict) :
    Simulates s { dictSeed s with cur := none, clen := 0, ipos := 0 } (Lzw.after []) := by
  refine ⟨holdsStrings_congr (holdsStrings_dictSeed hwf) rfl rfl, fun k hk => ?_, (matches_none rfl).mpr rfl, ?_, rfl⟩
  · exact (read_dictSeed s k).trans (if_neg (Nat.not_lt.mpr hk))
  · exact ⟨rfl, fun i hi => absurd hi i.not_lt_zero, fun _ _ => rfl⟩

/-- LZWE.RUN ends as string LZW does, unless the codes do not fit CSEQ or the strings do not fit DICT. -/
theorem lzweRun_simulates (hwf : Memory.wf s.dict) (hin : s.holdsInput bs) :
    EndsIf (Fits s (Lzw.after bs).flush) (lzweRun s)
      fun t => Simulates s t (Lzw.after bs).flush ∧ t.ipos = bs.length := by
  rw [lzweRun, hin.1]
  refine (lzweLoop_simulates (pre := []) hin (simulates_start hwf) rfl).bind
    (fun hfits => hfits.mono (Lzw.extends_flush _)) fun t ⟨ht, hipos⟩ => ?_
  have hflush := lzweFlush_simulates ht
  rw [hipos] at hflush
  exact hflush

/-! ### The obligations -/

theorem Simulates.cur_eq_none_iff (h : Simulates s t q) : t.cur = none ↔ q.current = [] := by
  cases hcur : t.cur with
  | none => simpa using (matches_none hcur).mp h.current
  | some c =>
    obtain ⟨hc, hw⟩ := (matches_some hcur).mp h.current
    have hne : q.current ≠ [] := fun hnil => str_ne_nil h.strings.seeded hc (hnil ▸ hw)
    simp [hne]

/-- Settles O26: by the simulation, within whose bounds no error is raised. -/
theorem encoderIsStringLzw : Obligations.EncoderIsStringLzw := by
  intro s bs hwf hin hstrings hcodes
  rw [lzwInserted_eq] at hstrings ⊢
  rw [lzwCodes_eq] at hcodes ⊢
  obtain ⟨t, hrun, ht, hipos⟩ := (lzweRun_simulates hwf hin).ok_of_fits ⟨hcodes, hstrings⟩
  have hframe := ht.frame
  rw [ht.strings.dsize, ht.emitted.clen, hipos] at hframe
  exact ⟨t, congrArg Res.outcome hrun, hframe, ht.cur_eq_none_iff.trans Lzw.current_after_eq_nil_iff,
    ht.emitted.read, ht.emitted.beyond, ht.strings.spells, ht.unwritten⟩

/-- The codes in CSEQ, as the 16-bit words they are. -/
theorem HoldsEmitted.holdsCodes {codes : List Nat} (h : HoldsEmitted s t codes) :
    t.holdsCodes (codes.map (BitVec.ofNat 16)) := by
  refine ⟨by rw [h.clen, List.length_map], fun i hi => ?_⟩
  rw [List.length_map] at hi
  have hword (v : Option Code) : (v.map BitVec.toNat).map (BitVec.ofNat 16) = v := by cases v <;> simp
  rw [State.codeAt, if_pos (h.clen ▸ hi), List.getElem?_map, ← h.read i hi, hword]

/-- A code whose string is known is a present one, and its word is that code. -/
theorem Simulates.code_present {ws : List (List Byte)} (h : Simulates s t q)
    (hws : q.codes.map (codeString q.strings) = ws.map some) (hk : k ∈ q.codes) :
    (BitVec.ofNat 16 k).toNat = k ∧ k < t.dsize := by
  obtain ⟨w, -, hw⟩ := List.mem_map.mp (hws ▸ List.mem_map_of_mem (f := codeString q.strings) hk)
  obtain ⟨hlt, -⟩ := h.strings.codeString_eq_some_iff.mp hw.symm
  exact ⟨toNat_code_of_lt h.strings.seeded hlt, hlt⟩

/-- The entries of DICT spell the codes as string LZW does. -/
theorem Simulates.map_str_codes {ws : List (List Byte)} (h : Simulates s t q)
    (hws : q.codes.map (codeString q.strings) = ws.map some) :
    (q.codes.map (BitVec.ofNat 16)).map (fun c : Code => str t.dict c.toNat) = ws.map some := by
  rw [← hws, List.map_map]
  refine List.map_congr_left fun k hk => ?_
  obtain ⟨hword, hlt⟩ := h.code_present hws hk
  rw [Function.comp_apply, hword, h.strings.str_eq hlt]

/-- Settles O27: a run without error has come to where string LZW comes, which loses nothing. -/
theorem encoderOutputSpellsTheInput : Obligations.EncoderOutputSpellsTheInput := by
  intro s t bs hwf hin _ hnext herr
  obtain ⟨ht, -⟩ := (lzweRun_simulates hwf hin).of_next hnext herr
  obtain ⟨ws, hws, hbs⟩ := exists_flush_spelling bs
  have hdsize := ht.strings.dsize
  refine ⟨(Lzw.after bs).flush.codes.map (BitVec.ofNat 16), ws, ht.emitted.holdsCodes, ht.map_str_codes hws, hbs,
    ?short, ?empty, ?counts, ?below⟩
  case short =>
    rw [List.length_map]
    exact flush_codes_length_le bs
  case empty =>
    rintro rfl
    exact ⟨rfl, hdsize⟩
  case counts =>
    intro hne
    have hlen := flush_codes_length hne
    rw [List.length_map]
    omega
  case below =>
    intro c hc
    obtain ⟨k, hk, rfl⟩ := List.mem_map.mp hc
    obtain ⟨hword, hlt⟩ := ht.code_present hws hk
    rwa [hword]

end Sys2Proof.Proofs.LzweRun
end

section
/-!
The operations of unit LZWD one by one (42_lzw_decoder.md R170, R172, R173): `Append`, LZWD.FIRST, and LZWD.NEXT
on the string of its code, each as one equation a case.
-/
namespace Sys2Proof.Proofs.LzwdOperations
open Sys2Proof Sys2Proof.Machine Sys2Proof.Proofs.DictShape Sys2Proof.Proofs.DictOperations
open Sys2Proof.Proofs.DictStrings

variable {s : State} {c : Code} {x : Byte} {v w : List Byte} {k : Nat}

/-! ### `Append` -/

theorem append_full (hfull : overCap (s.outLen + w.length) s.caps.outCap = true) :
    append w s = .raised .capacityExceeded s := by rw [append, if_pos hfull]

/-- With room `Append` (42 R170) and `Put` (47 R251) do the same. -/
theorem append_room (hroom : withinCap (s.outLen + w.length) s.caps.outCap) : append w s = .ok () (put w s) := by
  rcases append_cases w s with ⟨hfull, -⟩ | ⟨-, h⟩
  · rw [hroom] at hfull; cases hfull
  · exact h

theorem read_put (w : List Byte) (s : State) (k : Nat) :
    Memory.read (put w s).outMem k
      = if s.outLen ≤ k ∧ k < s.outLen + w.length then w[k - s.outLen]? else Memory.read s.outMem k :=
  Memory.read_write _ _ _ _

theorem read_put_new (hk : k < w.length) : Memory.read (put w s).outMem (s.outLen + k) = w[k]? := by
  rw [read_put, if_pos (by omega), Nat.add_sub_cancel_left]

theorem read_put_old (hk : k < s.outLen ∨ s.outLen + w.length ≤ k) :
    Memory.read (put w s).outMem k = Memory.read s.outMem k := by
  rw [read_put, if_neg (by omega)]

/-! ### DICT.RLOOKUP as LZWD uses it -/

theorem dictRlookup_present (hc : c.toNat < s.dsize) (hw : str s.dict c.toNat = some w) :
    dictRlookup c s = .ok (some w) s := by rw [dictRlookup, if_pos hc, hw]

theorem dictRlookup_absent (hc : s.dsize ≤ c.toNat) : dictRlookup c s = .ok none s := by
  rw [dictRlookup, if_neg (Nat.not_lt.mpr hc)]

/-! ### LZWD.FIRST -/

theorem lzwdFirst_absent (hc : s.dsize ≤ c.toNat) : lzwdFirst c s = .raised .invalidCode s := by
  rw [lzwdFirst, dictRlookup_absent hc, Res.bind_ok]

theorem lzwdFirst_present (hc : c.toNat < s.dsize) (hw : str s.dict c.toNat = some w) :
    lzwdFirst c s = (append w s).bind fun _ t => .ok () { t with prev := c } := by
  rw [lzwdFirst, dictRlookup_present hc hw, Res.bind_ok]

theorem lzwdFirst_full (hc : c.toNat < s.dsize) (hw : str s.dict c.toNat = some w)
    (hfull : overCap (s.outLen + w.length) s.caps.outCap = true) :
    lzwdFirst c s = .raised .capacityExceeded s := by
  rw [lzwdFirst_present hc hw, append_full hfull, Res.bind_raised]

theorem lzwdFirst_room (hc : c.toNat < s.dsize) (hw : str s.dict c.toNat = some w)
    (hroom : withinCap (s.outLen + w.length) s.caps.outCap) :
    lzwdFirst c s = .ok () { put w s with prev := c } := by
  rw [lzwdFirst_present hc hw, append_room hroom, Res.bind_ok]

theorem lzwdRun_empty (hclen : s.clen = 0) : lzwdRun s = .raised .emptyCodeSequenceOnDecode s := by
  rw [lzwdRun, if_pos hclen]

/-- Settles O28: a code below 256 spells its byte, so only `Append` can still refuse it. -/
theorem firstCodeGivesItsByte : Obligations.FirstCodeGivesItsByte := by
  refine ⟨fun s _ hdsize => ?_, fun s hclen => congrArg Res.outcome (lzwdRun_empty hclen)⟩
  have hpresent (hc : s.argC.toNat < 256) : s.argC.toNat < s.dsize := by omega
  refine ⟨fun hc => ?absent, fun hc hfull => ?full, fun hc hroom => ?room⟩
  case absent => exact congrArg Res.outcome (lzwdFirst_absent (hdsize ▸ hc))
  case full => exact congrArg Res.outcome (lzwdFirst_full (hpresent hc) (str_seed _ hc) hfull)
  case room =>
    refine ⟨_, congrArg Res.outcome (lzwdFirst_room (hpresent hc) (str_seed _ hc) hroom), rfl, ?_, fun k hk => ?_⟩
    · exact read_put_new (k := 0) Nat.one_pos
    · refine read_put_old ?_
      rw [List.length_singleton]
      omega

/-! ### LZWD.NEXT -/

/-- `w` is the string of code c where c may be the entry still to come, previous + previous[0] (R173). -/
def CurrentIs (s : State) (c : Code) (w : List Byte) : Prop :=
  (c.toNat < s.dsize ∧ str s.dict c.toNat = some w)
    ∨ (c.toNat = s.dsize ∧ ∃ y u, str s.dict s.prev.toNat = some (y :: u) ∧ w = y :: u ++ [y])

theorem lzwdCurrent_beyond (hc : s.dsize < c.toNat) : lzwdCurrent c s = .raised .invalidCode s := by
  rw [lzwdCurrent, dictRlookup_absent hc.le, Res.bind_ok]
  exact if_neg hc.ne'

theorem lzwdCurrent_eq (hprev : s.prev.toNat < s.dsize) (hw : CurrentIs s c w) : lzwdCurrent c s = .ok w s := by
  rcases hw with ⟨hc, hstr⟩ | ⟨hc, y, u, hstr, rfl⟩
  · rw [lzwdCurrent, dictRlookup_present hc hstr, Res.bind_ok]
  · rw [lzwdCurrent, dictRlookup_absent hc.ge, Res.bind_ok]
    simp only [if_pos hc, dictRlookup_present hprev hstr, Res.bind_ok]

theorem lzwdNext_beyond (hc : s.dsize < c.toNat) : lzwdNext c s = .raised .invalidCode s := by
  rw [lzwdNext, lzwdCurrent_beyond hc, Res.bind_raised]

section
variable (hprev : s.prev.toNat < s.dsize) (hcur : CurrentIs s c (x :: v))
include hprev hcur

theorem lzwdNext_eq : lzwdNext c s = (append (x :: v) s).bind fun _ t =>
    (dictInsert (some t.prev) x t).bind fun _ u => .ok () { u with prev := c } := by
  rw [lzwdNext, lzwdCurrent_eq hprev hcur, Res.bind_ok]

theorem lzwdNext_full (hfull : overCap (s.outLen + (x :: v).length) s.caps.outCap = true) :
    lzwdNext c s = .raised .capacityExceeded s := by
  rw [lzwdNext_eq hprev hcur, append_full hfull, Res.bind_raised]

variable (hroom : withinCap (s.outLen + (x :: v).length) s.caps.outCap)
include hroom

/-- What follows `Append`, which changes neither the dictionary nor the lookup nor PREV. -/
theorem lzwdNext_appended : lzwdNext c s = (dictInsert (some s.prev) x (put (x :: v) s)).bind fun _ u =>
    .ok () { u with prev := c } := by
  rw [lzwdNext_eq hprev hcur, append_room hroom, Res.bind_ok, put_prev]

theorem lzwdNext_duplicate (hl : dictLookup (some s.prev) x s ≠ none) :
    lzwdNext c s = .raised .duplicateEntry (put (x :: v) s) := by
  have hins : dictInsert (some s.prev) x (put (x :: v) s) = .raised .duplicateEntry (put (x :: v) s) :=
    dictInsert_present hprev hl
  rw [lzwdNext_appended hprev hcur hroom, hins, Res.bind_raised]

theorem lzwdNext_dictFull (hl : dictLookup (some s.prev) x s = none) (hfull : s.dsize = 65536) :
    lzwdNext c s = .raised .dictionaryFull (put (x :: v) s) := by
  have hins : dictInsert (some s.prev) x (put (x :: v) s) = .raised .dictionaryFull (put (x :: v) s) :=
    dictInsert_full hprev hl hfull
  rw [lzwdNext_appended hprev hcur hroom, hins, Res.bind_raised]

end

/-- The state after LZWD.NEXT has taken the code c, whose current string is `x :: v` (R173). -/
def taken (c : Code) (x : Byte) (v : List Byte) (s : State) : State :=
  { inserted s.prev x (put (x :: v) s) with prev := c }

theorem lzwdNext_room (hprev : s.prev.toNat < s.dsize) (hcur : CurrentIs s c (x :: v))
    (hroom : withinCap (s.outLen + (x :: v).length) s.caps.outCap)
    (hl : dictLookup (some s.prev) x s = none) (hdict : s.dsize ≠ 65536) :
    lzwdNext c s = .ok () (taken c x v s) := by
  have hins : dictInsert (some s.prev) x (put (x :: v) s)
      = .ok (BitVec.ofNat 16 s.dsize) (inserted s.prev x (put (x :: v) s)) := dictInsert_absent hprev hl hdict
  rw [lzwdNext_appended hprev hcur hroom, hins, Res.bind_ok, taken]

/-- After LZWD.NEXT the code is present and spells the appended string (R176): an older entry as before, and the
new one is the previous string with its own first byte, which is what was appended for it. -/
theorem str_taken (hseeded : (inserted s.prev x s).dictSeeded) (hlo : 256 ≤ s.dsize)
    (hprev : s.prev.toNat < s.dsize) (hcur : CurrentIs s c (x :: v)) :
    str (taken c x v s).dict c.toNat = some (x :: v) := by
  change str (inserted s.prev x s).dict c.toNat = some (x :: v)
  rcases hcur with ⟨hc, hstr⟩ | ⟨hc, y, u, hstr, hw⟩
  · rw [str_inserted hc, hstr]
  · obtain ⟨rfl, rfl⟩ := List.cons_eq_cons.mp hw
    have hread : Memory.read (inserted s.prev x s).dict c.toNat = some { parent := some s.prev, last := x } := by
      rw [read_inserted, if_pos hc]
    exact str_of_entry hseeded (hc ▸ hlo) (hc ▸ Nat.lt_succ_self _) hread ((str_inserted hprev).trans hstr)

/-- Settles O29: RLOOKUP, `Append` and INSERT decide in this order, and each has its own errors. -/
theorem nextCodeAppendsAndInserts : Obligations.NextCodeAppendsAndInserts := by
  intro s x v hwf hseeded hprev
  refine ⟨fun hc => congrArg Res.outcome (lzwdNext_beyond hc), fun hcur =>
    ⟨fun hfull => congrArg Res.outcome (lzwdNext_full hprev hcur hfull), fun hroom =>
      ⟨fun hpresent => ?duplicate, fun habsent => ⟨fun hfull => ?dictFull, fun hdict => ?room⟩⟩⟩⟩
  case duplicate =>
    have hl := (dictLookup_ne_none hwf).mpr hpresent
    exact ⟨_, congrArg Res.outcome (lzwdNext_duplicate hprev hcur hroom hl), rfl, rfl, rfl, rfl⟩
  case dictFull =>
    have hl := (dictLookup_eq_none hwf).mpr habsent
    exact ⟨_, congrArg Res.outcome (lzwdNext_dictFull hprev hcur hroom hl hfull), rfl, rfl, rfl, rfl⟩
  case room =>
    have hl := (dictLookup_eq_none hwf).mpr habsent
    have hgrown : (inserted s.prev x s).dictSeeded := dictSeeded_append hseeded hdict.ne hprev habsent rfl rfl
    refine ⟨_, congrArg Res.outcome (lzwdNext_room hprev hcur hroom hl hdict.ne), rfl, fun k hk => ?_, fun k hk => ?_,
      ?_, fun k hk => ?_, ?_⟩
    · exact read_put_new hk
    · exact read_put_old hk
    · exact (read_inserted s.prev x s s.dsize).trans (if_pos rfl)
    · exact (read_inserted s.prev x s k).trans (if_neg hk)
    · exact str_taken hgrown hseeded.1 hprev hcur

end Sys2Proof.Proofs.LzwdOperations
end

section
/-!
String LZW as its decoder sees it (42_lzw_decoder.md R173): every code but the first comes with the string that the
decoder inserts for it, the previous string and the current one's first byte. What string LZW makes of an input is
such a sequence of codes.
-/
namespace Sys2Proof.Proofs.LzwCodeSequence
open Sys2Proof Sys2Proof.Machine Sys2Proof.Proofs.DictStrings Sys2Proof.Proofs.StringLzw

variable {d : List (List Byte)} {codes : List Nat} {w bs : List Byte} {x : Byte} {k : Nat}

/-- Decoding `codes` inserts the strings `d` and gives the bytes `bs`, of which `w` is the last code's string. -/
inductive Decodes : List (List Byte) → List Nat → List Byte → List Byte → Prop
  | first (b : Byte) : Decodes [] [b.toNat] [b] [b]
  | next {d : List (List Byte)} {codes : List Nat} {w bs : List Byte} {x : Byte} {v : List Byte} {k : Nat}
      (previous : Decodes d codes w bs) (absent : stringCode d (w ++ [x]) = none)
      (current : codeString (d ++ [w ++ [x]]) k = some (x :: v)) :
      Decodes (d ++ [w ++ [x]]) (codes ++ [k]) (x :: v) (bs ++ x :: v)

/-- One string is inserted for each code but the first. -/
theorem Decodes.codes_length (h : Decodes d codes w bs) : codes.length = d.length + 1 := by
  induction h with
  | first b => rfl
  | next _ _ _ ih => simp [ih]

/-- A longer match for the last code: its string and the decoded bytes end in one byte more. -/
theorem Decodes.extend (h : Decodes d (codes ++ [k]) w bs) {j : Nat} (hj : codeString d j = some (w ++ [x])) :
    Decodes d (codes ++ [j]) (w ++ [x]) (bs ++ [x]) := by
  generalize hall : codes ++ [k] = all at h
  cases h with
  | first b =>
    have hlt : j < 256 := lt_of_codeString hj
    rw [codeString, if_pos hlt] at hj
    cases hj
  | next previous absent current =>
    obtain ⟨rfl, -⟩ := List.append_inj' hall rfl
    rw [List.append_assoc]
    exact .next previous absent hj

/-- The codes of an input and the flush decode to it: a hit lengthens the last string, and a miss makes the
candidate the string to insert and the symbol the next code's string. -/
theorem decodes_flush (hne : bs ≠ []) :
    Decodes (Lzw.after bs).flush.strings (Lzw.after bs).flush.codes (Lzw.after bs).current bs := by
  induction bs using List.reverseRecOn with
  | nil => exact absurd rfl hne
  | append_singleton bs x ih =>
    rcases eq_or_ne bs [] with rfl | hbs
    · exact .first x
    · obtain ⟨k, hk⟩ := (Lzw.spells_after bs).present hbs
      have hprevious := ih hbs
      rw [Lzw.flush_code hk] at hprevious
      rw [Lzw.after_snoc]
      cases hcode : stringCode (Lzw.after bs).strings ((Lzw.after bs).current ++ [x]) with
      | some j =>
        rw [Lzw.symbol_hit hcode, Lzw.flush_code hcode]
        exact hprevious.extend (codeString_of_stringCode hcode)
      | none =>
        have hbyte : stringCode ((Lzw.after bs).strings ++ [(Lzw.after bs).current ++ [x]]) [x] = some x.toNat := rfl
        rw [Lzw.symbol_miss hcode hk, Lzw.flush_code hbyte]
        exact .next hprevious hcode (codeString_byte _ x)

theorem decodes_lzwCodes (hne : bs ≠ []) : ∃ w, Decodes (lzwInserted bs) (lzwCodes bs) w bs :=
  ⟨_, by rw [lzwInserted_eq, lzwCodes_eq]; exact decodes_flush hne⟩

end Sys2Proof.Proofs.LzwCodeSequence
end

section
/-!
LZWD.RUN (42_lzw_decoder.md R171) on the codes of string LZW: after each code DICT holds the strings that LZW has
inserted up to it, PREV spells the code's string and OUT holds the bytes of the codes so far.
-/
namespace Sys2Proof.Proofs.LzwdRun
open Sys2Proof Sys2Proof.Machine Sys2Proof.Proofs.DictShape Sys2Proof.Proofs.DictOperations
open Sys2Proof.Proofs.DictStrings Sys2Proof.Proofs.StringLzw Sys2Proof.Proofs.LzweRun
open Sys2Proof.Proofs.LzwdOperations Sys2Proof.Proofs.LzwCodeSequence

variable {s t u : State} {d : List (List Byte)} {codes : List Nat} {w v bs out : List Byte} {x : Byte}
  {c : Code} {k : Nat} {cs : List Code}

/-! ### The parts of the run -/

/-- The state in which LZWD.RUN gives LZWD.FIRST the first code (R171). -/
def opened (s : State) : State := { dictSeed s with outLen := 0 }

/-- LZWD.RUN up to its loop. -/
def lzwdStart (c : Code) (s : State) : Res Unit :=
  (lzwdFirst c (opened s)).bind fun _ t => .ok () { t with cpos := 1 }

theorem lzwdRun_eq (hclen : s.clen ≠ 0) (hc : s.codeAt 0 = some c) :
    lzwdRun s = (lzwdStart c s).bind fun _ t => lzwdLoop (s.clen - 1) t := by
  have hread : (opened s).codeAt 0 = some c := hc
  rw [lzwdRun, if_neg hclen, ← opened]
  simp only [hread, lzwdStart, Res.bind_assoc, Res.bind_ok]

theorem lzwdLoop_none (n : Nat) (hc : s.codeAt s.cpos = none) :
    lzwdLoop (n + 1) s = .fault (.invalidIndex .cseq) := by rw [lzwdLoop, hc]

theorem lzwdLoop_some (n : Nat) (hc : s.codeAt s.cpos = some c) :
    lzwdLoop (n + 1) s = (lzwdNext c s).bind fun _ t => lzwdLoop n { t with cpos := t.cpos + 1 } := by
  rw [lzwdLoop, hc]

/-- The last of n + 1 passes comes after the others. -/
theorem lzwdLoop_succ (n : Nat) (s : State) : lzwdLoop (n + 1) s = (lzwdLoop n s).bind fun _ t => lzwdLoop 1 t := by
  induction n generalizing s with
  | zero => rfl
  | succ n ih =>
    cases hc : s.codeAt s.cpos with
    | none => rw [lzwdLoop_none _ hc, lzwdLoop_none _ hc, Res.bind_fault]
    | some c => simp only [lzwdLoop_some _ hc, ih, Res.bind_assoc]

/-! ### What the run has made of the codes so far -/

/-- Since `s` the bytes `out` have been put in OUT from its beginning. -/
structure HoldsAppended (s t : State) (out : List Byte) : Prop where
  outLen : t.outLen = out.length
  read : ∀ i, i < out.length → Memory.read t.outMem i = out[i]?
  beyond : ∀ i, out.length ≤ i → Memory.read t.outMem i = Memory.read s.outMem i

theorem HoldsAppended.put (h : HoldsAppended s t out) (hlen : u.outLen = (put w t).outLen)
    (hmem : u.outMem = (put w t).outMem) : HoldsAppended s u (out ++ w) := by
  have houtLen := h.outLen
  refine ⟨by rw [hlen, put_outLen, houtLen, List.length_append], fun i hi => ?_, fun i hi => ?_⟩
  · rw [List.length_append] at hi
    rw [hmem]
    rcases Nat.lt_or_ge i out.length with hlt | hge
    · rw [read_put_old (by omega), h.read i hlt, List.getElem?_append_left hlt]
    · obtain ⟨j, rfl⟩ := Nat.exists_eq_add_of_le hge
      rw [← houtLen, read_put_new (by omega), houtLen, List.getElem?_append_right (by omega),
        Nat.add_sub_cancel_left]
  · rw [List.length_append] at hi
    rw [hmem, read_put_old (by omega)]
    exact h.beyond i (by omega)

/-- The run of LZWD on `s` has come to `t`, where decoding `n` codes has inserted the strings `d` and given the bytes
`out`, of which `w` is the last code's string. -/
structure Decoded (s t : State) (d : List (List Byte)) (n : Nat) (w out : List Byte) : Prop where
  strings : HoldsStrings t d
  prev_lt : t.prev.toNat < t.dsize
  previous : str t.dict t.prev.toNat = some w
  output : HoldsAppended s t out
  cpos : t.cpos = n
  frame : t = { s with
    dict := t.dict, dsize := t.dsize, prev := t.prev, cpos := t.cpos, outMem := t.outMem, outLen := t.outLen }

/-- LZWD.FIRST on a byte's code in the seeded dictionary (R172). -/
theorem lzwdStart_decoded (hwf : Memory.wf s.dict) (b : Byte) (hroom : withinCap 1 s.caps.outCap) :
    ∃ t, lzwdStart (BitVec.ofNat 16 b.toNat) s = .ok () t ∧ Decoded s t [] 1 [b] [b] := by
  have hbyte := b.isLt
  have hcode : (BitVec.ofNat 16 b.toNat).toNat = b.toNat := by rw [BitVec.toNat_ofNat]; omega
  have hlt : (BitVec.ofNat 16 b.toNat).toNat < (opened s).dsize := by rw [hcode]; exact hbyte
  have hstr : str (opened s).dict (BitVec.ofNat 16 b.toNat).toNat = some [b] := by rw [hcode]; exact str_byte _ b
  have hempty : HoldsAppended s (opened s) [] := ⟨rfl, fun i hi => absurd hi i.not_lt_zero, fun _ _ => rfl⟩
  refine ⟨{ put [b] (opened s) with prev := BitVec.ofNat 16 b.toNat, cpos := 1 }, ?_, ?_⟩
  · rw [lzwdStart, lzwdFirst_room hlt hstr hroom, Res.bind_ok]
  · exact ⟨holdsStrings_congr (holdsStrings_dictSeed hwf) rfl rfl, hlt, hstr, hempty.put rfl rfl, rfl, rfl⟩

/-- The code of LZW's next string, one that is in the dictionary or the one that LZW has just inserted. -/
theorem Decoded.currentIs {n : Nat} (h : Decoded s t d n w out) (hc : c.toNat = k)
    (hk : codeString (d ++ [w ++ [x]]) k = some (x :: v)) : CurrentIs t c (x :: v) := by
  have hdsize := h.strings.dsize
  have hle := lt_of_codeString hk
  rw [List.length_append, List.length_singleton] at hle
  rcases Nat.lt_or_ge k t.dsize with hlt | hge
  · refine .inl ⟨hc ▸ hlt, ?_⟩
    obtain ⟨z, hz⟩ : ∃ z, codeString d k = some z :=
      ⟨_, (h.strings.str_eq hlt).symm.trans (str_eq_entryString h.strings.seeded hlt)⟩
    rw [hc, h.strings.str_eq hlt, hz, ← codeString_append hz, hk]
  · obtain rfl : k = 256 + d.length := by omega
    have hnew : w ++ [x] = x :: v := by simpa [codeString_inserted] using hk
    cases w with
    | nil => exact absurd h.previous (str_ne_nil h.strings.seeded h.prev_lt)
    | cons y u =>
      obtain ⟨rfl, -⟩ := List.cons_eq_cons.mp hnew
      exact .inr ⟨hc.trans hdsize.symm, y, u, h.previous, hnew.symm⟩

/-- A pass of the loop on LZW's next code inserts the string that LZW has inserted and appends the code's (R173). -/
theorem lzwdLoop_one_decoded {n : Nat} (h : Decoded s t d n w out) (habsent : stringCode d (w ++ [x]) = none)
    (hk : codeString (d ++ [w ++ [x]]) k = some (x :: v)) (hdict : (d ++ [w ++ [x]]).length ≤ 65280)
    (hroom : withinCap (out ++ x :: v).length s.caps.outCap)
    (hc : t.codeAt t.cpos = some (BitVec.ofNat 16 k)) :
    ∃ u, lzwdLoop 1 t = .ok () u ∧ Decoded s u (d ++ [w ++ [x]]) (n + 1) (x :: v) (out ++ x :: v) := by
  have hdsize := h.strings.dsize
  have hle := lt_of_codeString hk
  rw [List.length_append, List.length_singleton] at hdict hle
  have hcode : (BitVec.ofNat 16 k).toNat = k := by rw [BitVec.toNat_ofNat]; omega
  have hcur := h.currentIs hcode hk
  have hcaps : t.caps = s.caps := by rw [h.frame]
  have hfits : withinCap (t.outLen + (x :: v).length) t.caps.outCap := by
    rw [h.output.outLen, hcaps, ← List.length_append]; exact hroom
  have hl : dictLookup (some t.prev) x t = none := by
    rw [h.strings.dictLookup_eq h.prev_lt h.previous, habsent, Option.map_none]
  have hinserted := h.strings.insert h.prev_lt h.previous habsent (by omega)
  refine ⟨{ taken (BitVec.ofNat 16 k) x v t with cpos := t.cpos + 1 }, ?_, ?_⟩
  · rw [lzwdLoop_some 0 hc, lzwdNext_room h.prev_lt hcur hfits hl (by omega), Res.bind_ok]
    rfl
  · refine ⟨holdsStrings_congr hinserted rfl rfl, ?_, ?_, h.output.put rfl rfl, ?_, ?_⟩
    · change (BitVec.ofNat 16 k).toNat < t.dsize + 1
      omega
    · exact str_taken hinserted.seeded h.strings.seeded.1 h.prev_lt hcur
    · exact congrArg (· + 1) h.cpos
    · rw [h.frame]; rfl

/-- LZWD.RUN on the first codes of CSEQ: LZWD.FIRST and a pass for each of the others. -/
theorem lzwdPasses_decoded (hwf : Memory.wf s.dict) (h : Decodes d codes w out) (hdict : d.length ≤ 65280)
    (hroom : withinCap out.length s.caps.outCap)
    (hcseq : ∀ i, i < codes.length → s.codeAt i = (codes.map (BitVec.ofNat 16))[i]?) :
    ∃ c t, s.codeAt 0 = some c ∧ (lzwdStart c s).bind (fun _ t => lzwdLoop d.length t) = .ok () t
      ∧ Decoded s t d codes.length w out := by
  induction h with
  | first b =>
    obtain ⟨t, hstart, ht⟩ := lzwdStart_decoded hwf b hroom
    exact ⟨_, t, hcseq 0 Nat.one_pos, by rw [hstart, Res.bind_ok]; rfl, ht⟩
  | @next d codes w out x v k previous absent current ih =>
    have hlen : (codes ++ [k]).length = codes.length + 1 := by simp
    have hfewer : d.length ≤ 65280 := by
      rw [List.length_append, List.length_singleton] at hdict
      omega
    obtain ⟨c, t, hc, hpasses, ht⟩ := ih hfewer (withinCap_mono (by simp) hroom) fun i hi => by
      rw [hcseq i (by omega), List.map_append, List.getElem?_append_left (by simpa using hi)]
    have hread : t.codeAt t.cpos = some (BitVec.ofNat 16 k) := by
      have hsame : t.codeAt codes.length = s.codeAt codes.length := by rw [ht.frame]; rfl
      rw [ht.cpos, hsame, hcseq _ (by omega)]
      simp
    obtain ⟨u, hpass, hu⟩ := lzwdLoop_one_decoded ht absent current hdict hroom hread
    refine ⟨c, u, hc, ?_, hlen ▸ hu⟩
    rw [List.length_append, List.length_singleton]
    simp only [lzwdLoop_succ d.length]
    rw [← Res.bind_assoc, hpasses, Res.bind_ok, hpass]

/-- LZWD.RUN on the LZW codes of an input decodes it. -/
theorem lzwdRun_decoded (hwf : Memory.wf s.dict) (hne : bs ≠ []) (hdict : (lzwInserted bs).length ≤ 65280)
    (hcodes : s.holdsCodes ((lzwCodes bs).map (BitVec.ofNat 16))) (hroom : withinCap bs.length s.caps.outCap) :
    ∃ t w, lzwdRun s = .ok () t ∧ Decoded s t (lzwInserted bs) s.clen w bs := by
  obtain ⟨w, hdecodes⟩ := decodes_lzwCodes hne
  obtain ⟨hclen, hcseq⟩ := hcodes
  rw [List.length_map] at hclen hcseq
  have hcount := hdecodes.codes_length
  obtain ⟨c, t, hc, hpasses, ht⟩ := lzwdPasses_decoded hwf hdecodes hdict hroom hcseq
  refine ⟨t, w, ?_, hclen ▸ ht⟩
  rw [lzwdRun_eq (by omega) hc, hclen, hcount, Nat.add_sub_cancel, hpasses]

theorem HoldsAppended.holdsOutput (h : HoldsAppended s t out) : t.holdsOutput out :=
  ⟨h.outLen, fun i hi => by rw [State.outAt, if_pos (h.outLen ▸ hi), h.read i hi]⟩

/-! ### The obligations -/

/-- Settles O30: by the simulation, on what string LZW makes of the input. -/
theorem decoderInvertsStringLzw : Obligations.DecoderInvertsStringLzw := by
  intro s bs hwf hne hdict hcodes hroom
  obtain ⟨t, w, hrun, ht⟩ := lzwdRun_decoded hwf hne hdict hcodes hroom
  have hframe := ht.frame
  rw [ht.strings.dsize, ht.cpos, ht.output.outLen] at hframe
  exact ⟨t, congrArg Res.outcome hrun, hframe, ht.output.holdsOutput, ht.output.beyond, ht.strings.spells⟩

/-- The strings of a dictionary determine its records: the string of an entry ends in its last byte, and what comes
before is the string of one code only (10 R47). -/
theorem read_eq_of_holdsStrings (ht : HoldsStrings t d) (hu : HoldsStrings u d) (hk : k < t.dsize) :
    Memory.read u.dict k = Memory.read t.dict k := by
  have hdsize : u.dsize = t.dsize := hu.dsize.trans ht.dsize.symm
  have hstr {j : Nat} (hj : j < t.dsize) : str u.dict j = str t.dict j :=
    (hu.str_eq (hdsize ▸ hj)).trans (ht.str_eq hj).symm
  rcases Nat.lt_or_ge k 256 with hlo | hlo
  · obtain ⟨-, -, htseed, -⟩ := ht.seeded
    obtain ⟨-, -, huseed, -⟩ := hu.seeded
    rw [huseed k hlo, htseed k hlo]
  · obtain ⟨p, b, v, htread, hp, hv, htstr⟩ := exists_parent ht.seeded hlo hk
    obtain ⟨q, e, w, huread, hq, hw, hustr⟩ := exists_parent hu.seeded hlo (hdsize ▸ hk)
    have hsame : w ++ [e] = v ++ [b] := Option.some_inj.mp (hustr.symm.trans ((hstr hk).trans htstr))
    obtain ⟨rfl, hlast⟩ := List.append_inj' hsame rfl
    obtain rfl := List.singleton_inj.mp hlast
    have hparents : str t.dict q.toNat = str t.dict p.toNat := (hstr (hq.trans hk)).symm.trans (hw.trans hv.symm)
    obtain rfl : q = p := BitVec.eq_of_toNat_eq (str_injective ht.seeded (hq.trans hk) (hp.trans hk) hparents)
    rw [huread, htread]

theorem holdsCodes_unique {cs' : List Code} (h : t.holdsCodes cs) (h' : t.holdsCodes cs') : cs = cs' := by
  have hlen : cs.length = cs'.length := h.1.symm.trans h'.1
  refine List.ext_getElem? fun i => ?_
  rcases Nat.lt_or_ge i cs.length with hlt | hge
  · rw [← h.2 i hlt, h'.2 i (hlen ▸ hlt)]
  · rw [List.getElem?_eq_none hge, List.getElem?_eq_none (hlen ▸ hge)]

/-- Settles O31: a run of LZWE without error has come to where string LZW comes, and LZWD comes to the same strings. -/
theorem lzwUnitsAreInverse : Obligations.LzwUnitsAreInverse := by
  intro s t r bs cs hwf hrwf hin hne _ hnext herr htcodes hrcodes hroom
  obtain ⟨ht, -⟩ := (lzweRun_simulates hwf hin).of_next hnext herr
  have hcs := holdsCodes_unique htcodes ht.emitted.holdsCodes
  have hstrings := ht.strings
  rw [← lzwCodes_eq] at hcs
  rw [← lzwInserted_eq] at hstrings
  have hdsize := hstrings.dsize
  have hdict : (lzwInserted bs).length ≤ 65280 := by
    obtain ⟨-, hsize, -⟩ := hstrings.seeded
    omega
  obtain ⟨u, w, hrun, hu⟩ := lzwdRun_decoded hrwf hne hdict (hcs ▸ hrcodes) hroom
  obtain ⟨_, hdecodes⟩ := decodes_lzwCodes hne
  have hcount := hdecodes.codes_length
  refine ⟨u, congrArg Res.outcome hrun, by rw [hu.frame], hu.output.holdsOutput,
    hu.strings.dsize.trans hdsize.symm, ?_, fun k hk => read_eq_of_holdsStrings hstrings hu.strings hk⟩
  rw [hu.strings.dsize, hcs, List.length_map, hcount, Nat.add_assoc]

end Sys2Proof.Proofs.LzwdRun
end

section
/-!
What HBUILD.RUN makes of a table (43_huffman_tree_builder.md R193, R194): the order of the queue, the invariant of
the loop beyond its shape (`Forest`), and the tree as a function of FREQ alone, whatever TREE held before (R197).
-/
namespace Sys2Proof.Proofs.TreePriority
open Sys2Proof Sys2Proof.Machine Sys2Proof.Proofs.TreeBuilder Sys2Proof.Proofs.LiveState Sys2Proof.Proofs.BlindUnits
open Sys2Proof.Proofs.Tables

/-! ### The order of the queue (43 R194) -/

theorem keyLt_iff {a b : Node} :
    keyLt a b = true ↔ a.freq < b.freq ∨ (a.freq = b.freq ∧ a.minc.toNat < b.minc.toNat) := by
  simp [keyLt]

section
variable {q q₁ q₂ rest : List (Nat × Node)} {a b e : Nat × Node}

/-- Nothing left in the queue has a smaller key than the element taken. -/
theorem popMin_least (h : popMin q = some (e, rest)) : ∀ x ∈ rest, ¬ keyLt x.2 e.2 = true := by
  induction q generalizing e rest with
  | nil => cases h
  | cons y q ih =>
    rw [popMin] at h
    split at h
    next =>
      cases h
      simp
    next m r hm =>
      have hleast := ih hm
      split at h
      next hlt =>
        cases h
        rw [keyLt_iff] at hlt
        refine List.forall_mem_cons.mpr ⟨?_, hleast⟩
        rw [keyLt_iff]
        omega
      next hge =>
        cases h
        intro x hx
        rcases List.mem_cons.mp ((popMin_perm hm).mem_iff.mp hx) with rfl | hx
        · exact hge
        · have hmx := hleast x hx
          rw [keyLt_iff] at hge hmx ⊢
          omega

/-- The smallest leaf codes of the queue's nodes are pairwise different, so that no two keys are equal. -/
def DistinctMincs (q : List (Nat × Node)) : Prop := (q.map fun e => e.2.minc).Nodup

theorem DistinctMincs.perm (h : DistinctMincs q) (hp : q.Perm q₁) : DistinctMincs q₁ := (hp.map _).nodup_iff.mp h

/-- The element taken has a smaller key than everything left. -/
theorem popMin_precedes (hq : DistinctMincs q) (h : popMin q = some (e, rest)) : ∀ x ∈ rest, keyLt e.2 x.2 = true := by
  intro x hx
  obtain ⟨hnotin, -⟩ := List.nodup_cons.mp (hq.perm (popMin_perm h))
  have hne : e.2.minc.toNat ≠ x.2.minc.toNat := fun heq =>
    hnotin (List.mem_map.mpr ⟨x, hx, (BitVec.eq_of_toNat_eq heq).symm⟩)
  have hleast := popMin_least h x hx
  rw [keyLt_iff] at hleast ⊢
  omega

/-- The two elements of one turn come off the queue. -/
theorem popMin_twice_perm (ha : popMin q = some (a, q₁)) (hb : popMin q₁ = some (b, q₂)) : q.Perm (a :: b :: q₂) :=
  (popMin_perm ha).trans ((popMin_perm hb).cons a)

theorem minc_joinNodes (a b : Nat × Node) :
    (joinNodes a b).minc = a.2.minc ∨ (joinNodes a b).minc = b.2.minc :=
  ite_eq_or_eq _ _ _

@[simp] theorem freq_joinNodes (a b : Nat × Node) : (joinNodes a b).freq = a.2.freq + b.2.freq := rfl

/-- The joined node takes its smallest code from one of the two nodes that leave the queue. -/
theorem DistinctMincs.join (h : DistinctMincs (a :: b :: q)) (k : Nat) : DistinctMincs ((k, joinNodes a b) :: q) := by
  simp only [DistinctMincs, List.map_cons, List.nodup_cons, List.mem_cons, not_or] at h ⊢
  obtain ⟨⟨-, ha⟩, hb, hq⟩ := h
  refine ⟨?_, hq⟩
  rcases minc_joinNodes a b with hm | hm <;> rw [hm]
  · exact ha
  · exact hb

end

/-! ### The loop (43 R193) -/

/-- A property of TREE, NNODES and the queue that every turn keeps holds when one node is left, the root. -/
theorem combine_induction {P : Memory Node → Nat → List (Nat × Node) → Prop}
    (hturn : ∀ {tree k q a q₁ b q₂}, P tree k q → popMin q = some (a, q₁) → popMin q₁ = some (b, q₂) →
      P (Memory.write tree k [joinNodes a b]) (k + 1) ((k, joinNodes a b) :: q₂))
    (n : Nat) : ∀ {q : List (Nat × Node)} {tree tree' : Memory Node} {k k' r : Nat},
      P tree k q → combine n q tree k = some (tree', k', r) → ∃ node, P tree' k' [(r, node)] := by
  induction n with
  | zero => intro q tree tree' k k' r _ h; cases h
  | succ n ih =>
    intro q tree tree' k k' r hP h
    rw [combine] at h
    split at h
    next => cases h
    next a q₁ ha =>
      split at h
      next hnone =>
        cases h
        have hq : q.Perm [a] := by simpa [popMin_eq_none.mp hnone] using popMin_perm ha
        exact ⟨a.2, List.perm_singleton.mp hq ▸ hP⟩
      next b q₂ hb => exact ih (hturn hP ha hb) h

theorem popMin_some_of_ne_nil {q : List (Nat × Node)} (hq : q ≠ []) : ∃ e rest, popMin q = some (e, rest) := by
  obtain ⟨⟨e, rest⟩, h⟩ := Option.ne_none_iff_exists'.mp (mt popMin_eq_none.mp hq)
  exact ⟨e, rest, h⟩

/-- Every turn makes the queue one shorter, so as many turns as it has elements are enough. -/
theorem combine_ends (n : Nat) : ∀ {q : List (Nat × Node)} (tree : Memory Node) (k : Nat), q ≠ [] → q.length = n →
    ∃ r, combine n q tree k = some r := by
  induction n with
  | zero => exact fun _ _ hne hlen => absurd (List.length_eq_zero_iff.mp hlen) hne
  | succ n ih =>
    intro q tree k hne hlen
    obtain ⟨a, q₁, ha⟩ := popMin_some_of_ne_nil hne
    simp only [combine, ha]
    split
    next => exact ⟨_, rfl⟩
    next b q₂ hb =>
      have hcount := (popMin_twice_perm ha hb).length_eq
      simp only [List.length_cons] at hcount
      exact ih _ _ (List.cons_ne_nil _ _) (by simp only [List.length_cons]; omega)

/-! ### The invariant of the loop -/

/-- The internal node at handle `h` joins the two nodes with the smallest keys of those below `h` that have no parent
below `h`, the smaller on the left (43 R194). -/
def JoinsSmallest (s : State) (h : Nat) : Prop :=
  ∀ f m l r a b, s.nodeAt h = some (.internal f m l r) → s.nodeAt l = some a → s.nodeAt r = some b →
    keyLt a b = true ∧ ∀ g c, g < h → g ≠ l → g ≠ r → (∀ p, p < h → childOf s p g = false) → s.nodeAt g = some c →
      keyLt b c = true

/-- Between two turns of HBUILD's loop, beside the shape: no two keys of the queue are equal, its frequencies are
those of the table, and every node made so far joined the two smallest. -/
structure Ordered (s : State) (q : List (Nat × Node)) : Prop where
  forest : Forest s q
  mincs : DistinctMincs q
  weight : (q.map fun e => e.2.freq).sum = (s.freq.map Prod.snd).sum
  joins : ∀ h, h < s.nnodes → s.freq.length ≤ h → JoinsSmallest s h

theorem nodeAt_grow_of_lt {s : State} {h : Nat} (j : Node) (hh : h < s.nnodes) :
    (grow s j).nodeAt h = s.nodeAt h := by
  rw [nodeAt_grow, if_neg (Nat.ne_of_lt hh)]

theorem childOf_grow_of_lt {s : State} {p : Nat} (j : Node) (hp : p < s.nnodes) (g : Nat) :
    childOf (grow s j) p g = childOf s p g := by
  rw [childOf, childOf, nodeAt_grow_of_lt j hp]

/-- What a node joined does not change when a later node is made. -/
theorem JoinsSmallest.grow {s : State} {h : Nat} (hj : JoinsSmallest s h) (hshape : internalShape s h = true)
    (j : Node) : JoinsSmallest (grow s j) h := by
  obtain ⟨f₀, m₀, l₀, r₀, -, -, hnode₀, -, -, hl₀, hr₀, -⟩ := internalShape_eq_true.mp hshape
  have hlt : h < s.nnodes := lt_nnodes_of_nodeAt hnode₀
  have hsame {g : Nat} (hg : g < h) : (TreeBuilder.grow s j).nodeAt g = s.nodeAt g := nodeAt_grow_of_lt j (hg.trans hlt)
  intro f m l r a b hnode ha hb
  rw [nodeAt_grow_of_lt j hlt] at hnode
  obtain ⟨-, -, rfl, rfl⟩ : f₀ = f ∧ m₀ = m ∧ l₀ = l ∧ r₀ = r := by simpa using hnode₀.symm.trans hnode
  rw [hsame hl₀] at ha
  rw [hsame hr₀] at hb
  obtain ⟨hab, hrest⟩ := hj _ _ _ _ a b hnode ha hb
  refine ⟨hab, fun g c hg hgl hgr hfree hc => hrest g c hg hgl hgr (fun p hp => ?_) (hsame hg ▸ hc)⟩
  rw [← childOf_grow_of_lt j (hp.trans hlt)]
  exact hfree p hp

section
variable {s : State} {q q₁ q₂ : List (Nat × Node)} {a b : Nat × Node}

/-- The nodes not yet combined are those of the queue, so the new node joins the two smallest of them. -/
theorem Ordered.joinsSmallest_new (h : Ordered s q) (ha : popMin q = some (a, q₁)) (hb : popMin q₁ = some (b, q₂)) :
    JoinsSmallest (grow s (joinNodes a b)) s.nnodes := by
  have hperm := popMin_twice_perm ha hb
  have hqueued {e : Nat × Node} (he : e ∈ a :: b :: q₂) : s.nodeAt e.1 = some e.2 :=
    h.forest.queued e (hperm.mem_iff.mpr he)
  have hlt {e : Nat × Node} (he : e ∈ a :: b :: q₂) : e.1 < s.nnodes := lt_nnodes_of_nodeAt (hqueued he)
  intro f m l r x y hnode hx hy
  rw [nodeAt_grow, if_pos rfl] at hnode
  obtain ⟨-, -, rfl, rfl⟩ :
      a.2.freq + b.2.freq = f ∧ (joinNodes a b).minc = m ∧ a.1 = l ∧ b.1 = r := by
    simpa [joinNodes, Node.minc] using hnode
  rw [nodeAt_grow_of_lt _ (hlt (by simp)), hqueued (by simp)] at hx hy
  obtain rfl := Option.some_inj.mp hx
  obtain rfl := Option.some_inj.mp hy
  refine ⟨popMin_precedes h.mincs ha b ((popMin_perm hb).mem_iff.mpr (by simp)), fun g c hg hga hgb hfree hc => ?_⟩
  rw [nodeAt_grow_of_lt _ hg] at hc
  have hnoParent : ¬ ∃ p, p < s.nnodes ∧ childOf s p g = true := by
    rintro ⟨p, hp, hchild⟩
    have hnot := hfree p hp
    rw [childOf_grow_of_lt _ hp, hchild] at hnot
    cases hnot
  obtain ⟨e, he, rfl⟩ := List.mem_map.mp ((h.forest.parent g hg).resolve_right hnoParent)
  obtain rfl := Option.some_inj.mp ((h.forest.queued e he).symm.trans hc)
  have hrest : e ∈ q₂ := by
    rcases List.mem_cons.mp (hperm.mem_iff.mp he) with rfl | he
    · exact absurd rfl hga
    · exact (List.mem_cons.mp he).resolve_left fun heq => hgb (heq ▸ rfl)
  exact popMin_precedes (h.mincs.perm (popMin_perm ha)).of_cons hb e hrest

/-- One turn of the loop. -/
theorem Ordered.turn (h : Ordered s q) (ha : popMin q = some (a, q₁)) (hb : popMin q₁ = some (b, q₂)) :
    Ordered (grow s (joinNodes a b)) ((s.nnodes, joinNodes a b) :: q₂) := by
  have hperm := popMin_twice_perm ha hb
  refine ⟨(h.forest.perm hperm).join, (h.mincs.perm hperm).join _, ?_, fun x hx hge => ?_⟩
  · refine Eq.trans ?_ h.weight
    rw [(hperm.map fun e => e.2.freq).sum_eq]
    simp [Nat.add_assoc]
  · rcases Nat.lt_succ_iff_lt_or_eq.mp hx with hx | rfl
    · exact (h.joins x hx hge).grow (h.forest.shape x hx hge) _
    · exact h.joinsSmallest_new ha hb

end

theorem values_run {α : Type} (a : Nat) (vs : List α) : (Memory.run a vs).map Prod.snd = vs := by
  induction vs generalizing a with
  | nil => rfl
  | cons v vs ih => rw [Memory.run, List.map_cons, ih]

@[simp] theorem length_leavesOf (m : Memory Nat) : (leavesOf m).length = m.length := by
  simp [leavesOf, freqEntries]

theorem map_freq_leavesOf (m : Memory Nat) : (leavesOf m).map Node.freq = m.map Prod.snd := by
  simp [leavesOf, freqEntries, Node.freq]

theorem nodup_minc_leavesOf {m : Memory Nat} (hwf : Memory.wf m) (hcodes : ∀ e ∈ m, e.1 < 65536) :
    ((leavesOf m).map Node.minc).Nodup := by
  have hminc : (leavesOf m).map Node.minc = (m.map Prod.fst).map (BitVec.ofNat 16) := by
    simp [leavesOf, freqEntries, Node.minc]
  rw [hminc]
  refine List.Nodup.map_on (fun i hi j hj hij => ?_) hwf.nodup
  obtain ⟨e, he, rfl⟩ := List.mem_map.mp hi
  obtain ⟨e', he', rfl⟩ := List.mem_map.mp hj
  have hnat := congrArg BitVec.toNat hij
  rwa [BitVec.toNat_ofNat, BitVec.toNat_ofNat, Nat.mod_eq_of_lt (hcodes e he), Nat.mod_eq_of_lt (hcodes e' he')] at hnat

/-- The leaves alone, before the first turn. -/
theorem ordered_leaves {s : State} (htree : Memory.wf s.tree) (hwf : Memory.wf s.freq)
    (hcodes : ∀ e ∈ s.freq, e.1 < 65536) (hne : s.freq ≠ []) :
    Ordered { s with tree := Memory.write s.tree 0 (leavesOf s.freq), nnodes := s.freq.length }
      (Memory.run 0 (leavesOf s.freq)) := by
  have hvalues {β : Type} (f : Node → β) :
      (Memory.run 0 (leavesOf s.freq)).map (fun e => f e.2) = (leavesOf s.freq).map f := by
    conv_rhs => rw [← values_run 0 (leavesOf s.freq), List.map_map]
    rfl
  refine ⟨forest_leaves htree hne, ?_, ?_, fun h hlt hge => absurd hlt (Nat.not_lt.mpr hge)⟩
  · rw [DistinctMincs, hvalues]
    exact nodup_minc_leavesOf hwf hcodes
  · rw [hvalues, map_freq_leavesOf]

/-! ### The tree as a function of FREQ (43 R197) -/

/-- The tree of table `m`, its node count and its root, built in an empty TREE. -/
def builtTree (m : Memory Nat) : Option (Memory Node × Nat × Nat) :=
  combine (leavesOf m).length (Memory.run 0 (leavesOf m)) (Memory.run 0 (leavesOf m)) (leavesOf m).length

theorem write_empty (vs : List Node) : Memory.write [] 0 vs = Memory.run 0 vs := by simp [Memory.write]

/-- Elements written from index 0 on are all there is below their number, whatever TREE held before. -/
theorem below_write_zero (m : Memory Node) (vs : List Node) :
    below vs.length (Memory.write m 0 vs) = below vs.length (Memory.run 0 vs) := by
  have hrun (m : Memory Node) : below vs.length (Memory.write m 0 vs) = Memory.run 0 vs := by
    simpa using below_write m 0 vs
  rw [← write_empty, hrun, hrun]

/-- HBUILD.RUN ends with the tree of its table, and changes nothing else. -/
theorem hbuildRun_built {s t : State} (h : hbuildRun s = .ok () t) :
    ∃ tree, builtTree s.freq = some (tree, t.nnodes, t.root) ∧ below t.nnodes t.tree = below t.nnodes tree
      ∧ t = { s with tree := t.tree, nnodes := t.nnodes, root := t.root } := by
  have hsame := combine_below (leavesOf s.freq).length (Memory.run 0 (leavesOf s.freq)) _
    (below_write_zero s.tree (leavesOf s.freq))
  rw [hbuildRun] at h
  split at h
  next => cases h
  next tree' k r hcombine =>
    cases h
    rw [hcombine, Option.map_some] at hsame
    obtain ⟨⟨tree, k', r'⟩, hbuilt, heq⟩ := Option.map_eq_some_iff.mp hsame.symm
    obtain ⟨hbelow, rfl, rfl⟩ : below k' tree = below k tree' ∧ k' = k ∧ r' = r := by simpa using heq
    exact ⟨tree, hbuilt, hbelow.symm, rfl⟩

/-- On a table with an entry HBUILD.RUN ends. -/
theorem hbuildRun_ends {s : State} (hne : s.freq ≠ []) : ∃ t, hbuildRun s = .ok () t := by
  have hlen : (Memory.run 0 (leavesOf s.freq)).length = (leavesOf s.freq).length := by
    simpa using congrArg List.length (Memory.keys_run 0 (leavesOf s.freq))
  have hqueue : Memory.run 0 (leavesOf s.freq) ≠ [] := by
    rwa [← List.length_pos_iff, hlen, length_leavesOf, List.length_pos_iff]
  obtain ⟨⟨tree, k, r⟩, hr⟩ :=
    combine_ends _ (Memory.write s.tree 0 (leavesOf s.freq)) (leavesOf s.freq).length hqueue hlen
  exact ⟨_, by rw [hbuildRun, hr]⟩

/-- An operation that raises nothing has ended where it answers a next state. -/
theorem ok_of_next {r : Res Unit} {t : State} (hr : ∀ e u, r ≠ .raised e u) (h : r.outcome = .next t) :
    r = .ok () t := by
  rcases Res.outcome_eq_next.mp h with ⟨_, hok⟩ | ⟨e, u, hraised, -⟩
  · exact hok
  · exact absurd hraised (hr e u)

theorem hbuildRun_of_next {s t : State} (h : exec .hbuildRun s = .next t) : hbuildRun s = .ok () t :=
  ok_of_next (fun _ _ => hbuildRun_not_raised) h

/-- The elements of TREE beyond the new tree stay. -/
theorem read_tree_of_hbuildRun {s t : State} (h : hbuildRun s = .ok () t) :
    ∀ i, t.nnodes ≤ i → Memory.read t.tree i = Memory.read s.tree i := by
  rw [hbuildRun] at h
  split at h
  next => cases h
  next tree k r hcombine =>
    cases h
    obtain ⟨_, hkeeps⟩ := combine_induction
      (P := fun m n _ => ∀ i, n ≤ i → Memory.read m i = Memory.read s.tree i)
      (fun hm _ _ i hi => by rw [Memory.read_write_one, if_neg (by omega), hm i (by omega)]) _
      (fun i hi => by rw [Memory.read_write, if_neg (by omega)]) hcombine
    exact hkeeps

/-! ### Two states with the same tree -/

/-- The same table and the same valid elements of TREE. -/
structure SameTree (s t : State) : Prop where
  freq : s.freq = t.freq
  nnodes : s.nnodes = t.nnodes
  root : s.root = t.root
  nodeAt : ∀ h, s.nodeAt h = t.nodeAt h

section
variable {s t : State}

theorem nodeAt_of_below (ht : below s.nnodes s.tree = below t.nnodes t.tree) (h : Nat) :
    s.nodeAt h = t.nodeAt h := by
  have hread := congrArg (fun m => Memory.read m h) ht
  simp only [read_below] at hread
  exact hread

theorem SameTree.childOf (h : SameTree s t) (p g : Nat) : childOf s p g = childOf t p g := by
  rw [Machine.childOf, Machine.childOf, h.nodeAt]

theorem SameTree.internalShape (h : SameTree s t) (g : Nat) : internalShape s g = internalShape t g := by
  simp only [Machine.internalShape, h.nodeAt]

theorem SameTree.treeOk (h : SameTree s t) (ht : t.treeOk) : s.treeOk := by
  simpa only [State.treeOk, h.freq, h.nnodes, h.root, h.nodeAt, h.childOf, h.internalShape] using ht

theorem SameTree.joinsSmallest (h : SameTree s t) {g : Nat} (ht : JoinsSmallest t g) : JoinsSmallest s g := by
  simpa only [JoinsSmallest, h.nodeAt, h.childOf] using ht

theorem SameTree.walk (h : SameTree s t) (n : Nat) : ∀ (g : Nat) (w : List Bool) (ctab : Memory (List Bool)),
    walk s n g w ctab = walk t n g w ctab := by
  induction n with
  | zero => exact fun _ _ _ => rfl
  | succ n ih =>
    intro g w ctab
    simp only [Machine.walk, h.nodeAt, ih]

/-- What HGEN.RUN answers, of the code table alone (44 R211). -/
def codeTable : Res Unit → Option (Memory (List Bool))
  | .ok _ t => some t.ctab
  | _ => none

/-- HGEN.RUN makes the same code table of the same tree. -/
theorem SameTree.codeTable (h : SameTree s t) (hctab : s.ctab = t.ctab) :
    codeTable (hgenRun s) = codeTable (hgenRun t) := by
  simp only [hgenRun, h.nnodes, h.root, h.nodeAt, h.walk, hctab]
  split
  next => rfl
  next =>
    split
    next => rfl
    next => rfl
    next => split <;> rfl

end

/-- HBUILD.RUN makes the same tree of the same table. -/
theorem sameTree_of_freq_eq {s₁ s₂ t₁ t₂ : State} (hfreq : s₁.freq = s₂.freq) (h₁ : hbuildRun s₁ = .ok () t₁)
    (h₂ : hbuildRun s₂ = .ok () t₂) : SameTree t₁ t₂ := by
  obtain ⟨tree, hbuilt₁, hbelow₁, hframe₁⟩ := hbuildRun_built h₁
  obtain ⟨tree', hbuilt₂, hbelow₂, hframe₂⟩ := hbuildRun_built h₂
  rw [← hfreq, hbuilt₁] at hbuilt₂
  obtain ⟨rfl, hnnodes, hroot⟩ : tree = tree' ∧ t₁.nnodes = t₂.nnodes ∧ t₁.root = t₂.root := by
    simpa using hbuilt₂
  have hfreq₁ : t₁.freq = s₁.freq := by rw [hframe₁]
  have hfreq₂ : t₂.freq = s₂.freq := by rw [hframe₂]
  exact ⟨hfreq₁.trans (hfreq.trans hfreq₂.symm), hnnodes, hroot,
    nodeAt_of_below (by rw [hbelow₁, hbelow₂, hnnodes])⟩

/-- HBUILD.RUN ends with the tree that the loop's invariant describes. -/
theorem hbuildRun_ordered {s t : State} (hwf : freqWf s.freq) (hcodes : ∀ e ∈ s.freq, e.1 < 65536) (hne : s.freq ≠ [])
    (h : hbuildRun s = .ok () t) :
    ∃ u node, SameTree t { u with root := t.root } ∧ Ordered u [(t.root, node)] := by
  obtain ⟨tree, hbuilt, hbelow, hframe⟩ := hbuildRun_built h
  have hstart := ordered_leaves (s := { s with tree := [] }) List.Pairwise.nil hwf.1 hcodes hne
  simp only [write_empty] at hstart
  rw [builtTree, length_leavesOf] at hbuilt
  obtain ⟨node, hend⟩ := combine_induction (P := fun m k q => Ordered { s with tree := m, nnodes := k } q)
    (fun hq ha hb => hq.turn ha hb) _ hstart hbuilt
  exact ⟨{ s with tree := tree, nnodes := t.nnodes }, node,
    ⟨by rw [hframe], rfl, rfl, nodeAt_of_below (t := { s with tree := tree, nnodes := t.nnodes }) hbelow⟩, hend⟩

/-! ### The obligations -/

/-- Settles O34: every node of the tree was made in a turn of the loop, and at each turn the nodes not yet combined
are those of the queue. -/
theorem treeJoinsTheTwoSmallest : Obligations.TreeJoinsTheTwoSmallest := by
  intro s t hwf hcodes hne hnext h f m l r a b hge hnode ha hb
  have hrun := hbuildRun_of_next hnext
  obtain ⟨u, node, hsame, hordered⟩ := hbuildRun_ordered hwf hcodes hne hrun
  obtain ⟨-, -, -, hframe⟩ := hbuildRun_built hrun
  have hlen : u.freq.length ≤ h := by
    have hfreq : t.freq = u.freq := hsame.freq
    rwa [← hfreq, hframe]
  have hlt : h < u.nnodes := hsame.nnodes ▸ lt_nnodes_of_nodeAt hnode
  have hjoins : JoinsSmallest t h := hsame.joinsSmallest (hordered.joins h hlt hlen)
  obtain ⟨hab, hrest⟩ := hjoins f m l r a b hnode ha hb
  exact ⟨keyLt_iff.mp hab, fun g c hg hgl hgr hfree hc => keyLt_iff.mp (hrest g c hg hgl hgr hfree hc)⟩

/-- Settles O33: the forest of one tree that the loop leaves, and its weight. -/
theorem treeHasItsShape : Obligations.TreeHasItsShape := by
  intro s hwf hcodes hne
  obtain ⟨t, hrun⟩ := hbuildRun_ends hne
  obtain ⟨u, node, hsame, hordered⟩ := hbuildRun_ordered hwf hcodes hne hrun
  obtain ⟨-, -, -, hframe⟩ := hbuildRun_built hrun
  refine ⟨t, congrArg Res.outcome hrun, hframe, hsame.treeOk (treeOk_of_forest hordered.forest), ?_,
    read_tree_of_hbuildRun hrun⟩
  have hroot : u.nodeAt t.root = some node := hordered.forest.queued _ (List.mem_singleton_self _)
  have hfreq : s.freq = u.freq := (congrArg State.freq hframe).symm.trans hsame.freq
  have hweight : node.freq = (u.freq.map Prod.snd).sum := by simpa using hordered.weight
  rw [hsame.nodeAt, hfreq, ← hweight]
  exact congrArg (Option.map Node.freq) hroot

/-- Settles O35: both runs leave the tree of their common table, and HGEN.RUN walks that tree alone. -/
theorem treeDependsOnTheTableAlone : Obligations.TreeDependsOnTheTableAlone := by
  intro s₁ s₂ t₁ t₂ hfreq hnext₁ hnext₂
  have h₁ := hbuildRun_of_next hnext₁
  have h₂ := hbuildRun_of_next hnext₂
  have hsame := sameTree_of_freq_eq hfreq h₁ h₂
  refine ⟨hsame.nnodes, hsame.root, hsame.nodeAt, fun u₁ u₂ hc₁ hc₂ hu₁ hu₂ => ?_⟩
  obtain ⟨-, -, -, hframe₁⟩ := hbuildRun_built h₁
  obtain ⟨-, -, -, hframe₂⟩ := hbuildRun_built h₂
  have hctab : t₁.ctab = t₂.ctab := by rw [hframe₁, hframe₂]; exact hc₁.trans hc₂.symm
  have hcodes := hsame.codeTable hctab
  rw [ok_of_next (fun _ _ => hgenRun_not_raised) hu₁, ok_of_next (fun _ _ => hgenRun_not_raised) hu₂] at hcodes
  exact Option.some_inj.mp hcodes

end Sys2Proof.Proofs.TreePriority
end

section
/-!
FREQ.COUNT (43_huffman_tree_builder.md R191): FREQ is the tally of the codes counted so far, and what ENTRYCNT,
MAXCODE and the sum of the frequencies say of CSEQ follows from that alone.
-/
namespace Sys2Proof.Proofs.FrequencyCount
open Sys2Proof Sys2Proof.Machine Sys2Proof.Proofs.Tables

/-! ### The tally of a code sequence -/

/-- FREQ in canonical form with every code's number of occurrences. -/
structure Tallies (m : Memory Nat) (cs : List Code) : Prop where
  wf : freqWf m
  codes : ∀ e ∈ m, e.1 < 65536
  count : ∀ c : Code, freqAt m c.toNat = cs.count c

section
variable {m : Memory Nat} {cs : List Code}

theorem tallies_nil : Tallies [] [] := ⟨⟨List.Pairwise.nil, by simp⟩, by simp, fun _ => rfl⟩

/-- One more code (one pass of the loop). -/
theorem Tallies.snoc (h : Tallies m cs) (c : Code) :
    Tallies (freqWrite m c.toNat (freqAt m c.toNat + 1)) (cs ++ [c]) := by
  refine ⟨freqWf_freqWrite h.wf _ _, freqWrite_codes h.wf (Nat.succ_pos _) c.isLt h.codes, fun d => ?_⟩
  rw [freqAt_freqWrite, List.count_append, List.count_singleton]
  by_cases hdc : d = c
  · subst hdc
    simp [h.count]
  · have hne : d.toNat ≠ c.toNat := fun heq => hdc (BitVec.eq_of_toNat_eq heq)
    simp [hne, Ne.symm hdc, h.count]

/-- The listed codes are those of the sequence, with their counts. -/
theorem Tallies.mem_iff (h : Tallies m cs) (e : Nat × Nat) :
    e ∈ m ↔ ∃ c ∈ cs, (c.toNat, cs.count c) = e := by
  have hentry (c : Code) (f : Nat) : (c.toNat, f) ∈ m ↔ cs.count c = f ∧ 0 < f := by
    rw [← h.count]
    exact mem_freqEntries_iff h.wf c.toNat f
  constructor
  · obtain ⟨i, f⟩ := e
    intro he
    have hi : (BitVec.ofNat 16 i).toNat = i := by
      rw [BitVec.toNat_ofNat, Nat.mod_eq_of_lt (h.codes _ he)]
    obtain ⟨hcount, hpos⟩ := (hentry (BitVec.ofNat 16 i) f).mp (hi.symm ▸ he)
    exact ⟨BitVec.ofNat 16 i, List.count_pos_iff.mp (hcount ▸ hpos), by rw [hi, hcount]⟩
  · rintro ⟨c, hc, rfl⟩
    exact (hentry c _).mpr ⟨rfl, List.count_pos_iff.mpr hc⟩

/-- The table lists each distinct code once. -/
theorem Tallies.perm_dedup (h : Tallies m cs) : m.Perm (cs.dedup.map fun c => (c.toNat, cs.count c)) := by
  have hinj : Function.Injective fun c : Code => (c.toNat, cs.count c) := fun c d heq =>
    BitVec.eq_of_toNat_eq (congrArg Prod.fst heq)
  refine (List.perm_ext_iff_of_nodup (List.Nodup.of_map _ h.wf.1.nodup) (cs.nodup_dedup.map hinj)).mpr fun e => ?_
  simp [h.mem_iff]

theorem Tallies.length_eq (h : Tallies m cs) : m.length = cs.dedup.length := by
  simpa using h.perm_dedup.length_eq

theorem Tallies.sum_eq (h : Tallies m cs) : (m.map Prod.snd).sum = cs.length := by
  rw [(h.perm_dedup.map Prod.snd).sum_eq, List.map_map]
  exact List.sum_map_count_dedup_eq_length cs

theorem Tallies.freqAt_of_le (h : Tallies m cs) {k : Nat} (hk : 65536 ≤ k) : freqAt m k = 0 := by
  by_contra hne
  have hlt := h.codes _ ((mem_freqEntries_iff h.wf k _).mpr ⟨rfl, Nat.pos_of_ne_zero hne⟩)
  exact absurd hlt (Nat.not_lt.mpr hk)

theorem Tallies.largestCode_nil (h : Tallies m []) : largestCode m = -1 := by
  obtain rfl := List.length_eq_zero_iff.mp h.length_eq
  rfl

theorem Tallies.exists_largest (h : Tallies m cs) (hne : cs ≠ []) :
    ∃ c ∈ cs, largestCode m = (c.toNat : Int) ∧ ∀ d ∈ cs, d.toNat ≤ c.toNat := by
  obtain ⟨d₀, hd₀⟩ := List.exists_mem_of_ne_nil cs hne
  obtain ⟨e, he, htop⟩ := largestCode_mem (List.ne_nil_of_mem ((h.mem_iff _).mpr ⟨d₀, hd₀, rfl⟩))
  obtain ⟨c, hc, rfl⟩ := (h.mem_iff e).mp he
  refine ⟨c, hc, htop, fun d hd => ?_⟩
  have hle := le_largestCode h.wf.1 ((h.mem_iff _).mpr ⟨d, hd, rfl⟩)
  rw [htop] at hle
  exact_mod_cast hle

end

/-! ### The loop -/

theorem freqLoop_some {s : State} {c : Code} (n : Nat) (hc : s.codeAt s.cpos = some c) :
    freqLoop (n + 1) s
      = freqLoop n { s with freq := freqWrite s.freq c.toNat (freqAt s.freq c.toNat + 1), cpos := s.cpos + 1 } := by
  rw [freqLoop, hc]

/-- The loop on the codes still to count, from the tally of those before. -/
theorem freqLoop_tallies {s : State} (rest : List Code) : ∀ {m : Memory Nat} {done : List Code},
    s.holdsCodes (done ++ rest) → Tallies m done →
      ∃ m', freqLoop rest.length { s with freq := m, cpos := done.length }
          = .ok () { s with freq := m', cpos := s.clen } ∧ Tallies m' (done ++ rest) := by
  induction rest with
  | nil =>
    intro m done hcodes hm
    rw [List.append_nil] at hcodes ⊢
    exact ⟨m, by rw [hcodes.1]; rfl, hm⟩
  | cons c rest ih =>
    intro m done hcodes hm
    have hnext : s.codeAt done.length = some c := by
      rw [hcodes.2 done.length (by simp)]
      simp
    have hrest := ih (done := done ++ [c]) (by simpa using hcodes) (hm.snoc c)
    rw [List.length_append, List.append_assoc] at hrest
    rw [List.length_cons, freqLoop_some _ hnext]
    exact hrest

/-- FREQ.COUNT leaves the tally of CSEQ, its length and its largest code. -/
theorem freqCount_tallies {s : State} {cs : List Code} (hempty : s.freq = []) (hcodes : s.holdsCodes cs) :
    ∃ m, Tallies m cs ∧ freqCount s
      = .ok () { s with freq := m, cpos := s.clen, entryCnt := m.length, maxCode := largestCode m } := by
  obtain ⟨m, hloop, hm⟩ := freqLoop_tallies (s := s) cs (done := []) hcodes tallies_nil
  rw [← hempty, ← hcodes.1] at hloop
  refine ⟨m, hm, ?_⟩
  have hstart : freqLoop s.clen { s with cpos := 0 } = .ok () { s with freq := m, cpos := s.clen } := hloop
  rw [freqCount, hstart, Res.bind_ok, freqEntries]

/-! ### The obligation -/

/-- Settles O32: the loop leaves the tally of CSEQ. -/
theorem frequenciesAreCounted : Obligations.FrequenciesAreCounted := by
  intro s cs hempty hcodes
  obtain ⟨m, hm, hrun⟩ := freqCount_tallies hempty hcodes
  have hsome : 1 ≤ m.length ↔ 1 ≤ s.clen := by
    rw [hm.length_eq, hcodes.1, Nat.one_le_iff_ne_zero, Nat.one_le_iff_ne_zero, Ne, Ne, List.length_eq_zero_iff,
      List.length_eq_zero_iff, List.dedup_eq_nil]
  exact ⟨_, congrArg Res.outcome hrun, rfl, hm.wf, hm.count, fun k hk => hm.freqAt_of_le hk, hm.sum_eq, hm.length_eq,
    hsome, fun hnil => (hnil ▸ hm).largestCode_nil, hm.exists_largest⟩

end Sys2Proof.Proofs.FrequencyCount
end

section
/-!
The operations with no table or no tree to work on (43_huffman_tree_builder.md R198): each stops at its first look
at what is missing.
-/
namespace Sys2Proof.Proofs.EmptyTable
open Sys2Proof Sys2Proof.Machine

section
variable {s : State}

theorem nodeAt_of_no_nodes (hn : s.nnodes = 0) (h : Nat) : s.nodeAt h = none := by
  simp [State.nodeAt, hn]

theorem hbuildRun_of_empty (hf : s.freq = []) : hbuildRun s = .refused .emptyTable := by
  simp [hbuildRun, hf, leavesOf, freqEntries, combine]

theorem hgenRun_of_no_nodes (hn : s.nnodes = 0) : hgenRun s = .refused .emptyTable := by
  rw [hgenRun, if_pos hn]

theorem bunpkBit_of_no_nodes (hn : s.nnodes = 0) (v : Bool) : bunpkBit v s = .refused .emptyTable := by
  simp [bunpkBit, nodeAt_of_no_nodes hn, hn]

theorem bunpkLoop_some {v : Bool} (n : Nat) (hv : s.bitAt s.bpos = some v) :
    bunpkLoop (n + 1) s = (bunpkBit v { s with bpos := s.bpos + 1 }).bind fun _ t => bunpkLoop n t := by
  rw [bunpkLoop, hv]

/-- With a bit to decode BUNPK.RUN looks for the root. -/
theorem bunpkRun_of_no_nodes {v : Bool} {vs : List Bool} (hn : s.nnodes = 0) (hbits : s.holdsBits (v :: vs)) :
    bunpkRun s = .refused .emptyTable := by
  obtain ⟨hlen, hbit⟩ := hbits
  calc bunpkRun s
      = bunpkLoop (vs.length + 1) { s with clen := 0, bpos := 0, node := s.root } := congrArg (bunpkLoop · _) hlen
    _ = (bunpkBit v { s with clen := 0, bpos := 1, node := s.root }).bind fun _ t => bunpkLoop vs.length t :=
      bunpkLoop_some _ (hbit 0 (by simp))
    _ = .refused .emptyTable := by
      rw [bunpkBit_of_no_nodes (s := { s with clen := 0, bpos := 1, node := s.root }) hn, Res.bind_refused]

end

/-- Settles O36, one operation after the other. -/
theorem emptyTableHasNoBehaviour : Obligations.EmptyTableHasNoBehaviour := fun _ =>
  ⟨fun hf => congrArg Res.outcome (hbuildRun_of_empty hf), fun hn => congrArg Res.outcome (hgenRun_of_no_nodes hn),
    fun hn _ _ hbits => congrArg Res.outcome (bunpkRun_of_no_nodes hn hbits)⟩

end Sys2Proof.Proofs.EmptyTable
end

section
/-!
The code table of HGEN.RUN (44_huffman_codegen.md R211, R212). In a tree of 10_state.md R48 no two handles hold the
same node, so a node has one path from ROOT; HGEN.RUN's walk writes under a code only the path of one of its leaves,
hence the path of its leaf. No path goes on from a leaf, hence no word begins another.
-/
namespace Sys2Proof.Proofs.CodeWords
open Sys2Proof Sys2Proof.Machine Sys2Proof.Proofs.TreeBuilder Sys2Proof.Proofs.Tables

theorem leafOf_eq_true {c : Code} {n : Option Node} : leafOf c n = true ↔ ∃ f, n = some (.leaf c f) := by
  unfold leafOf
  split
  next d f => simp
  next hne => simpa using fun f hn => hne c f hn

theorem leafOf_inj {c d : Code} {n : Option Node} (hc : leafOf c n = true) (hd : leafOf d n = true) : c = d := by
  obtain ⟨f, hc⟩ := leafOf_eq_true.mp hc
  obtain ⟨f', hd⟩ := leafOf_eq_true.mp hd
  rw [hc] at hd
  cases hd
  rfl

section
variable {s : State} {c d : Code} {f g h : Nat} {n : Node} {p q w : List Bool}

/-! ### The nodes of a tree -/

/-- An internal node stands after the leaves and its two children before it. -/
theorem children_of_internal {m : Code} {l r : Nat} (ht : s.treeOk) (hg : s.nodeAt g = some (.internal f m l r)) :
    s.freq.length ≤ g ∧ l < g ∧ r < g ∧ l ≠ r := by
  obtain ⟨-, -, -, hleaf, hshape, -⟩ := ht
  have hge : s.freq.length ≤ g := by
    by_contra hlt
    rw [hleaf g (by omega), List.getElem?_eq_getElem (by omega)] at hg
    cases hg
  obtain ⟨_, _, _, _, _, _, hg', -, -, hl, hr, hlr, -⟩ :=
    internalShape_eq_true.mp (hshape g (lt_nnodes_of_nodeAt hg) hge)
  rw [hg] at hg'
  cases hg'
  exact ⟨hge, hl, hr, hlr⟩

/-- The child an edge label leads to stands before the internal node. -/
theorem child_lt_of_internal {m : Code} {l r : Nat} (ht : s.treeOk) (hg : s.nodeAt g = some (.internal f m l r))
    (v : Bool) : (if v then r else l) < g := by
  obtain ⟨-, hl, hr, -⟩ := children_of_internal ht hg
  cases v <;> assumption

/-- A leaf is the entry of FREQ at its handle. -/
theorem entry_of_leaf (ht : s.treeOk) (hlt : ∀ e ∈ s.freq, e.1 < 65536) (hg : s.nodeAt g = some (.leaf c f)) :
    s.freq[g]? = some (c.toNat, f) := by
  obtain ⟨-, -, -, hleaf, hshape, -⟩ := ht
  have hlen : g < s.freq.length := by
    by_contra hge
    obtain ⟨_, _, _, _, _, _, hg', -⟩ :=
      internalShape_eq_true.mp (hshape g (lt_nnodes_of_nodeAt hg) (by omega))
    rw [hg] at hg'
    cases hg'
  have hcode : s.freq[g].1 < 65536 := hlt _ (List.getElem_mem hlen)
  rw [hleaf g hlen, List.getElem?_eq_getElem hlen] at hg
  cases hg
  rw [List.getElem?_eq_getElem hlen, BitVec.toNat_ofNat, Nat.mod_eq_of_lt hcode]

theorem freqAt_pos_of_leaf (ht : s.treeOk) (hwf : freqWf s.freq) (hlt : ∀ e ∈ s.freq, e.1 < 65536)
    (hg : s.nodeAt g = some (.leaf c f)) : 0 < freqAt s.freq c.toNat := by
  have hmem : (c.toNat, f) ∈ freqEntries s.freq := List.mem_of_getElem? (entry_of_leaf ht hlt hg)
  obtain ⟨heq, hpos⟩ := (mem_freqEntries_iff hwf _ _).mp hmem
  exact heq ▸ hpos

/-- The codes of FREQ are distinct, so a code has one leaf. -/
theorem leaf_handle_unique {f' : Nat} (ht : s.treeOk) (hwf : freqWf s.freq) (hlt : ∀ e ∈ s.freq, e.1 < 65536)
    (hg : s.nodeAt g = some (.leaf c f)) (hh : s.nodeAt h = some (.leaf c f')) : g = h := by
  have hkey {i x : Nat} (hi : s.nodeAt i = some (.leaf c x)) : (s.freq.map Prod.fst)[i]? = some c.toNat := by
    rw [List.getElem?_map, entry_of_leaf ht hlt hi, Option.map_some]
  obtain ⟨hlen, -⟩ := List.getElem?_eq_some_iff.mp (hkey hg)
  exact (List.getElem?_inj hlen hwf.1.nodup).mp ((hkey hg).trans (hkey hh).symm)

/-- A node is the child of one node only. -/
theorem parent_unique {a b : Nat} (ht : s.treeOk) (ha : childOf s a h = true) (hb : childOf s b h = true) : a = b := by
  obtain ⟨-, -, -, hleaf, hshape, -, hone⟩ := ht
  have hlta := lt_nnodes_of_childOf ha
  have hltb := lt_nnodes_of_childOf hb
  have hh : h < s.nnodes := (child_lt hleaf hshape ha).trans hlta
  rcases Nat.lt_trichotomy a b with hab | hab | hab
  · exact absurd ⟨hb, ha⟩ (hone b hltb a hab h hh)
  · exact hab
  · exact absurd ⟨ha, hb⟩ (hone a hlta b hab h hh)

/-- No two handles of a tree hold the same node: leaves differ in their code, internal nodes in their children. -/
theorem nodeAt_inj (ht : s.treeOk) (hwf : freqWf s.freq) (hlt : ∀ e ∈ s.freq, e.1 < 65536)
    (hg : s.nodeAt g = some n) (hh : s.nodeAt h = some n) : g = h := by
  cases n with
  | leaf c f => exact leaf_handle_unique ht hwf hlt hg hh
  | internal f m l r =>
    exact parent_unique (h := l) ht (childOf_eq_true.mpr ⟨f, m, l, r, hg, .inl rfl⟩)
      (childOf_eq_true.mpr ⟨f, m, l, r, hh, .inl rfl⟩)

/-- ROOT holds the leaf in a tree of one leaf, and an internal node in every other. -/
theorem root_cases (ht : s.treeOk) :
    (s.nnodes = 1 ∧ ∃ c f, s.nodeAt s.root = some (.leaf c f))
      ∨ (1 < s.nnodes ∧ ∃ f m l r, s.nodeAt s.root = some (.internal f m l r)) := by
  obtain ⟨hpos, hcount, hroot, hleaf, hshape, -⟩ := ht
  by_cases hone : s.nnodes = 1
  · have hlen : s.root < s.freq.length := by omega
    have hnode := hleaf s.root hlen
    rw [List.getElem?_eq_getElem hlen] at hnode
    exact .inl ⟨hone, _, _, hnode⟩
  · obtain ⟨f, m, l, r, _, _, hnode, -⟩ := internalShape_eq_true.mp (hshape s.root (by omega) (by omega))
    exact .inr ⟨by omega, f, m, l, r, hnode⟩

/-! ### Paths -/

/-- The node at the end of a path stands at the path's start or before it. -/
theorem exists_handle_of_follow (ht : s.treeOk) : ∀ {h : Nat}, s.follow h p = some n →
    ∃ g, g ≤ h ∧ s.nodeAt g = some n := by
  induction p with
  | nil => exact fun {h} hf => ⟨h, le_refl h, hf⟩
  | cons v p ih =>
    intro h hf
    obtain ⟨f, m, l, r, hh, hrest⟩ := follow_cons hf
    obtain ⟨g, hg, hn⟩ := ih hrest
    exact ⟨g, hg.trans (child_lt_of_internal ht hh v).le, hn⟩

/-- Every node of a path but its last is internal: a path has at most as many edges as there are internal nodes up to
its start (44 R212 (b)). -/
theorem length_le_of_follow (ht : s.treeOk) : ∀ {h : Nat}, s.follow h p = some n →
    p.length ≤ h + 1 - s.freq.length := by
  induction p with
  | nil => exact fun _ => Nat.zero_le _
  | cons v p ih =>
    intro h hf
    obtain ⟨f, m, l, r, hh, hrest⟩ := follow_cons hf
    obtain ⟨hge, -⟩ := children_of_internal ht hh
    have hchild := child_lt_of_internal ht hh v
    have hlen := ih hrest
    rw [List.length_cons]
    omega

theorem exists_follow_of_append : ∀ {h : Nat}, s.follow h (p ++ q) = some n → ∃ m, s.follow h p = some m := by
  induction p with
  | nil =>
    intro h hf
    cases q with
    | nil => exact ⟨n, hf⟩
    | cons v q =>
      obtain ⟨f, m, l, r, hh, -⟩ := follow_cons hf
      exact ⟨_, hh⟩
  | cons v p ih =>
    intro h hf
    obtain ⟨f, m, l, r, hh, hrest⟩ := follow_cons hf
    rw [State.follow, hh]
    exact ih hrest

/-- No path goes on from a leaf. -/
theorem follow_leaf_append : ∀ {h : Nat}, s.follow h p = some (.leaf c f) → s.follow h (p ++ q) = some n → q = [] := by
  induction p with
  | nil =>
    intro h hf hq
    rw [State.follow] at hf
    cases q with
    | nil => rfl
    | cons v q =>
      obtain ⟨_, _, _, _, hh, -⟩ := follow_cons hq
      rw [hf] at hh
      cases hh
  | cons v p ih =>
    intro h hf hq
    obtain ⟨_, _, _, _, hh, hrest⟩ := follow_cons hf
    obtain ⟨_, _, _, _, hh', hrest'⟩ := follow_cons hq
    rw [hh] at hh'
    cases hh'
    exact ih hrest hrest'

/-- A path with a last edge ends at a child of an internal node. -/
theorem exists_parent_of_follow_snoc {v : Bool} (hf : s.follow h (p ++ [v]) = some n) :
    ∃ f m l r, s.follow h p = some (.internal f m l r) ∧ s.nodeAt (if v then r else l) = some n := by
  obtain ⟨k, hk⟩ := exists_follow_of_append hf
  cases k with
  | leaf c f => exact absurd (follow_leaf_append hk hf) (by simp)
  | internal f m l r => exact ⟨f, m, l, r, hk, (follow_snoc hk).symm.trans hf⟩

/-- A path with an edge does not come back to ROOT. -/
theorem follow_snoc_ne_root {v : Bool} (ht : s.treeOk) (hwf : freqWf s.freq) (hlt : ∀ e ∈ s.freq, e.1 < 65536)
    (hroot : s.nodeAt s.root = some n) : s.follow s.root (p ++ [v]) ≠ some n := by
  intro hf
  obtain ⟨f, m, l, r, hp, hn⟩ := exists_parent_of_follow_snoc hf
  obtain ⟨g, hg, hnode⟩ := exists_handle_of_follow ht hp
  have hchild := child_lt_of_internal ht hnode v
  have heq := nodeAt_inj ht hwf hlt hn hroot
  omega

/-- A node of the tree has one path from ROOT. -/
theorem path_unique (ht : s.treeOk) (hwf : freqWf s.freq) (hlt : ∀ e ∈ s.freq, e.1 < 65536) :
    ∀ {n : Node} {q : List Bool}, s.follow s.root p = some n → s.follow s.root q = some n → p = q := by
  induction p using List.reverseRecOn with
  | nil =>
    intro n q hp hq
    cases q using List.reverseRecOn with
    | nil => rfl
    | append_singleton q u => exact absurd hq (follow_snoc_ne_root ht hwf hlt hp)
  | append_singleton p v ih =>
    intro n q hp hq
    cases q using List.reverseRecOn with
    | nil => exact absurd hp (follow_snoc_ne_root ht hwf hlt hq)
    | append_singleton q u =>
      obtain ⟨f, m, l, r, hpp, hpn⟩ := exists_parent_of_follow_snoc hp
      obtain ⟨f', m', l', r', hqp, hqn⟩ := exists_parent_of_follow_snoc hq
      obtain ⟨a, -, ha⟩ := exists_handle_of_follow ht hpp
      obtain ⟨b, -, hb⟩ := exists_handle_of_follow ht hqp
      have hchild := nodeAt_inj ht hwf hlt hpn hqn
      have hab : a = b := by
        refine parent_unique ht (h := if v then r else l) (childOf_eq_true.mpr ⟨f, m, l, r, ha, ?_⟩)
          (childOf_eq_true.mpr ⟨f', m', l', r', hb, ?_⟩)
        · cases v <;> simp
        · rw [hchild]; cases u <;> simp
      rw [← hab, ha] at hb
      cases hb
      obtain ⟨-, -, -, hlr⟩ := children_of_internal ht ha
      have huv : v = u := by
        cases v <;> cases u
        · rfl
        · exact absurd hchild hlr
        · exact absurd hchild.symm hlr
        · rfl
      rw [ih hpp hqp, huv]

/-! ### Code words -/

theorem exists_leaf_of_wordOf (ht : s.treeOk) (hw : s.wordOf c w) : ∃ g f, s.nodeAt g = some (.leaf c f) := by
  obtain ⟨p, hleaf⟩ : ∃ p, leafOf c (s.follow s.root p) = true := by
    rcases hw with ⟨-, -, hleaf⟩ | ⟨-, hleaf⟩
    · exact ⟨[], hleaf⟩
    · exact ⟨w, hleaf⟩
  obtain ⟨f, hn⟩ := leafOf_eq_true.mp hleaf
  obtain ⟨g, -, hg⟩ := exists_handle_of_follow ht hn
  exact ⟨g, f, hg⟩

/-- A code has one word. -/
theorem wordOf_unique {v : List Bool} (ht : s.treeOk) (hwf : freqWf s.freq) (hlt : ∀ e ∈ s.freq, e.1 < 65536)
    (hw : s.wordOf c w) (hv : s.wordOf c v) : w = v := by
  rcases hw with ⟨hone, rfl, -⟩ | ⟨hmany, hw⟩ <;> rcases hv with ⟨hone', rfl, -⟩ | ⟨hmany', hv⟩
  · rfl
  · omega
  · omega
  · obtain ⟨f, hw⟩ := leafOf_eq_true.mp hw
    obtain ⟨f', hv⟩ := leafOf_eq_true.mp hv
    obtain ⟨g, -, hg⟩ := exists_handle_of_follow ht hw
    obtain ⟨g', -, hg'⟩ := exists_handle_of_follow ht hv
    have hgg := leaf_handle_unique ht hwf hlt hg hg'
    rw [← hgg, hg] at hg'
    exact path_unique ht hwf hlt hw (hv.trans hg'.symm)

/-- The length of a word (44 R212 (b)). -/
theorem wordOf_length (ht : s.treeOk) (hw : s.wordOf c w) : 1 ≤ w.length ∧ w.length ≤ max 1 (s.freq.length - 1) := by
  rcases hw with ⟨-, rfl, -⟩ | ⟨hmany, hleaf⟩
  · exact ⟨le_refl 1, le_max_left _ _⟩
  · obtain ⟨f, hn⟩ := leafOf_eq_true.mp hleaf
    constructor
    · cases w with
      | cons v w => simp
      | nil =>
        rcases root_cases ht with ⟨hone, -⟩ | ⟨-, _, _, _, _, hroot⟩
        · omega
        · rw [State.follow, hroot] at hn
          cases hn
    · have hlen := length_le_of_follow ht hn
      obtain ⟨-, hcount, hroot, -⟩ := ht
      omega

/-- A code whose word begins another code's word is that other code (44 R212 (c)). -/
theorem eq_of_wordOf_isPrefix {v : List Bool} (hw : s.wordOf c w) (hv : s.wordOf d v) (hpre : w <+: v) : c = d := by
  rcases hw with ⟨hone, -, hw⟩ | ⟨hmany, hw⟩ <;> rcases hv with ⟨hone', -, hv⟩ | ⟨hmany', hv⟩
  · exact leafOf_inj hw hv
  · omega
  · omega
  · obtain ⟨x, rfl⟩ := hpre
    obtain ⟨f, hend⟩ := leafOf_eq_true.mp hw
    obtain ⟨f', hon⟩ := leafOf_eq_true.mp hv
    obtain rfl := follow_leaf_append hend hon
    rw [List.append_nil] at hv
    exact leafOf_inj hw hv

/-! ### HGEN.RUN -/

/-- Handles fall along a path, so NNODES bounds the depth of the walk (44 R213). -/
theorem walk_ends (ht : s.treeOk) (k : Nat) : ∀ {h : Nat} (w : List Bool) (ctab : Memory (List Bool)),
    h < k → (∃ n, s.nodeAt h = some n) → ∃ t, walk s k h w ctab = .ok t := by
  induction k with
  | zero => exact fun _ _ hk _ => absurd hk (Nat.not_lt_zero _)
  | succ k ih =>
    rintro h w ctab hk ⟨n, hn⟩
    rw [walk, hn]
    cases n with
    | leaf c f => exact ⟨_, rfl⟩
    | internal f m l r =>
      obtain ⟨hge, hl, hr, -⟩ := children_of_internal ht hn
      obtain ⟨-, -, -, -, hshape, -⟩ := ht
      obtain ⟨_, _, _, _, a, b, hn', ha, hb, -⟩ :=
        internalShape_eq_true.mp (hshape h (lt_nnodes_of_nodeAt hn) hge)
      rw [hn] at hn'
      cases hn'
      obtain ⟨t, hleft⟩ := ih (w ++ [false]) ctab (by omega) ⟨a, ha⟩
      obtain ⟨u, hright⟩ := ih (w ++ [true]) t (by omega) ⟨b, hb⟩
      exact ⟨u, by simp only [hleft, hright]⟩

/-- A word after the walk was there before it or is the path word of a leaf below the handle (44 R211). -/
theorem word_of_walk (k : Nat) : ∀ {h : Nat} {w w' : List Bool} {ctab t : Memory (List Bool)},
    walk s k h w ctab = .ok t → Memory.read t c.toNat = some w' →
      Memory.read ctab c.toNat = some w' ∨ ∃ p, w' = w ++ p ∧ leafOf c (s.follow h p) = true := by
  induction k with
  | zero => intro h w w' ctab t hw; cases hw
  | succ k ih =>
    intro h w w' ctab t hw hread
    rw [walk] at hw
    split at hw
    next => cases hw
    next d f hh =>
      cases hw
      rw [Memory.read_write_one] at hread
      split at hread
      next heq =>
        cases hread
        obtain rfl := BitVec.eq_of_toNat_eq heq
        exact .inr ⟨[], (List.append_nil w).symm, leafOf_eq_true.mpr ⟨f, hh⟩⟩
      next => exact .inl hread
    next f m l r hh =>
      have hbelow (v : Bool) {p : List Bool} (hp : leafOf c (s.follow (if v then r else l) p) = true) :
          leafOf c (s.follow h (v :: p)) = true := by
        rw [State.follow, hh]
        exact hp
      split at hw
      next => cases hw
      next u hu =>
        rcases ih hw hread with hread | ⟨p, rfl, hp⟩
        · rcases ih hu hread with hread | ⟨p, rfl, hp⟩
          · exact .inl hread
          · exact .inr ⟨false :: p, by simp, hbelow false hp⟩
        · exact .inr ⟨true :: p, by simp, hbelow true hp⟩

theorem hgenRun_ends (ht : s.treeOk) : ∃ t, hgenRun s = .ok () t := by
  have hnodes : s.nnodes ≠ 0 := by
    obtain ⟨hpos, hcount, -⟩ := ht
    omega
  rw [hgenRun, if_neg hnodes]
  rcases root_cases ht with ⟨-, c, f, hroot⟩ | ⟨-, f, m, l, r, hroot⟩
  · exact ⟨_, by rw [hroot]⟩
  · obtain ⟨ctab, hw⟩ := walk_ends ht s.nnodes [] s.ctab (lt_nnodes_of_nodeAt hroot) ⟨_, hroot⟩
    exact ⟨{ s with ctab := ctab }, by simp only [hroot, hw]⟩

theorem wordOf_of_hgenRun {t : State} (ht : s.treeOk) (hctab : s.ctab = []) (hrun : hgenRun s = .ok () t)
    (hread : Memory.read t.ctab c.toNat = some w) : s.wordOf c w := by
  have hempty : Memory.read s.ctab c.toNat ≠ some w := by simp [hctab]
  rw [hgenRun] at hrun
  split at hrun
  next => cases hrun
  next =>
    rcases root_cases ht with ⟨hone, d, f, hroot⟩ | ⟨hmany, f, m, l, r, hroot⟩
    · simp only [hroot] at hrun
      cases hrun
      rw [Memory.read_write_one] at hread
      split at hread
      next heq =>
        cases hread
        obtain rfl := BitVec.eq_of_toNat_eq heq
        exact .inl ⟨hone, rfl, leafOf_eq_true.mpr ⟨f, hroot⟩⟩
      next => exact absurd hread hempty
    · simp only [hroot] at hrun
      split at hrun
      next => cases hrun
      next ctab hw =>
        cases hrun
        rcases word_of_walk _ hw hread with hold | ⟨p, rfl, hp⟩
        · exact absurd hold hempty
        · exact .inr ⟨hmany, hp⟩

end

/-! ### The obligations -/

/-- Settles O37: the walk writes nothing but path words, it gives every code with a frequency a word, and a code has
one path word. -/
theorem codeWordsArePaths : Obligations.CodeWordsArePaths := by
  intro s hwf hlt ht hctab
  obtain ⟨t, hrun⟩ := hgenRun_ends ht
  obtain ⟨hframe, htab, hsome⟩ := hgenRun_ok ht hwf (hctab ▸ List.Pairwise.nil) hrun
  have hword {c : Code} {w : List Bool} : Memory.read t.ctab c.toNat = some w → s.wordOf c w :=
    wordOf_of_hgenRun ht hctab hrun
  have hpos {c : Code} {w : List Bool} (hw : s.wordOf c w) : 0 < freqAt s.freq c.toNat := by
    obtain ⟨g, f, hg⟩ := exists_leaf_of_wordOf ht hw
    exact freqAt_pos_of_leaf ht hwf hlt hg
  refine ⟨t, congrArg Res.outcome hrun, hframe, htab, fun c w => ⟨hword, fun hw => ?_⟩,
    fun c => ⟨fun hread => ?_, hsome c⟩, fun c w hread => wordOf_length ht (hword hread)⟩
  · obtain ⟨v, hv⟩ := Option.isSome_iff_exists.mp (hsome c (hpos hw))
    rw [hv, wordOf_unique ht hwf hlt hw (hword hv)]
  · obtain ⟨w, hw⟩ := Option.isSome_iff_exists.mp hread
    exact hpos (hword hw)

/-- Settles O38: the words are paths to leaves, and no path goes on from a leaf. -/
theorem codeTableIsPrefixFree : Obligations.CodeTableIsPrefixFree := by
  intro s t _ _ ht hctab hnext c d w v hne hw hv
  have hrun := TreePriority.ok_of_next (fun _ _ => hgenRun_not_raised) hnext
  have hc := wordOf_of_hgenRun ht hctab hrun hw
  have hd := wordOf_of_hgenRun ht hctab hrun hv
  exact ⟨fun hpre => hne (eq_of_wordOf_isPrefix hc hd hpre), fun hpre => hne (eq_of_wordOf_isPrefix hd hc hpre).symm⟩

end Sys2Proof.Proofs.CodeWords
end

section
/-!
BPACK.RUN (45_bit_packer.md R221, R222): after any bit of its run BITS holds the bits put so far and zeros up to the
end of their last byte, and the one thing that stops a bit is a byte that does not fit.
-/
namespace Sys2Proof.Proofs.BitPacker
open Sys2Proof Sys2Proof.Machine Sys2Proof.Proofs.BoundaryUnits Sys2Proof.Proofs.FrameOutput
open Sys2Proof.Proofs.LzweRun

/-! ### The bits of a byte (20 R72) -/

/-- The byte with v put at position i, where it has a 0. -/
def withBit (v : Bool) (i : Nat) (b : Byte) : Byte := if v then b ||| payloadMask i else b

theorem payloadBit_zero (i : Nat) : payloadBit 0 i = false := BitVec.getLsbD_zero

theorem payloadBit_payloadMask {i j : Nat} (hi : i < 8) (hj : j < 8) :
    payloadBit (payloadMask i) j = decide (j = i) := by
  rw [payloadBit, payloadMask, BitVec.getLsbD_shiftLeft, BitVec.getLsbD_one, Bool.eq_iff_iff]
  simp only [Bool.and_eq_true, Bool.not_eq_true', decide_eq_true_eq, decide_eq_false_iff_not]
  omega

theorem payloadBit_withBit {v : Bool} {i j : Nat} {b : Byte} (hi : i < 8) (hj : j < 8) :
    payloadBit (withBit v i b) j = (payloadBit b j || v && decide (j = i)) := by
  cases v with
  | false => simp [withBit]
  | true =>
    have hor : payloadBit (b ||| payloadMask i) j = (payloadBit b j || payloadBit (payloadMask i) j) :=
      BitVec.getLsbD_or
    rw [withBit, if_pos rfl, hor, payloadBit_payloadMask hi hj, Bool.true_and]

/-! ### `PutBit` -/

section
variable {s t : State} {v : Bool} {b : Byte} {m : ByteMemory}

/-- Within the last byte of the payload `bitAt` is a read of BITS. -/
theorem bitAt_of_lt {j : Nat} (hj : j < 8 * ceil8 s.totalBits) :
    s.bitAt j = (Memory.read s.bits (j / 8)).map fun b => payloadBit b (j % 8) := by
  rw [State.bitAt, State.bitsAt, if_pos (by omega)]

/-- m is BITS with v put as the next bit, in the byte that was b. -/
def PutIn (s : State) (v : Bool) (b : Byte) (m : ByteMemory) : Prop :=
  ∀ i, Memory.read m i
    = if i = s.totalBits / 8 then some (withBit v (s.totalBits % 8) b) else Memory.read s.bits i

theorem putBit_full (hr : s.totalBits % 8 = 0) (hcap : atCap (s.totalBits / 8) s.caps.bitsCap = true) :
    putBit v s = .raised .capacityExceeded s := by
  simp only [putBit, if_pos hr, if_pos hcap]

/-- The first bit of a byte goes into a byte of zeros. -/
theorem putBit_starts (hr : s.totalBits % 8 = 0) (hcap : atCap (s.totalBits / 8) s.caps.bitsCap ≠ true) :
    ∃ m, putBit v s = .ok () { s with bits := m, totalBits := s.totalBits + 1 } ∧ PutIn s v 0 m := by
  refine ⟨Memory.write s.bits (s.totalBits / 8) [if v then payloadMask 0 else 0x00#8],
    by simp only [putBit, if_pos hr, if_neg hcap], fun i => ?_⟩
  have hbyte : (if v then payloadMask 0 else 0x00#8) = withBit v (s.totalBits % 8) 0 := by
    rw [hr]; cases v <;> decide
  rw [Memory.read_write_one, hbyte]

/-- Any other bit goes into the byte that is there. -/
theorem putBit_continues (hr : s.totalBits % 8 ≠ 0) (hb : s.bitsAt (s.totalBits / 8) = some b) :
    ∃ m, putBit v s = .ok () { s with bits := m, totalBits := s.totalBits + 1 } ∧ PutIn s v b m := by
  refine ⟨if v then Memory.write s.bits (s.totalBits / 8) [b ||| payloadMask (s.totalBits % 8)] else s.bits,
    by simp only [putBit, if_neg hr, hb], fun i => ?_⟩
  cases v with
  | true => rw [if_pos rfl, Memory.read_write_one, withBit, if_pos rfl]
  | false =>
    have hread : Memory.read s.bits (s.totalBits / 8) = some b := by
      rw [State.bitsAt] at hb
      split at hb
      next => exact hb
      next => cases hb
    by_cases hi : i = s.totalBits / 8
    · subst hi; rw [if_neg (by decide), if_pos rfl, hread, withBit, if_neg (by decide)]
    · rw [if_neg (by decide), if_neg hi]

end

/-! ### What the run has made of the bits so far -/

/-- From `s` the packer has put these bits and is at code number `k`: every bit from them to the end of their last
byte is 0, and BITS is as it was from there on. -/
structure Packed (s : State) (bs : List Bool) (k : Nat) (t : State) : Prop where
  frame : t = { s with bits := t.bits, totalBits := bs.length, cpos := k }
  fits : withinCap (ceil8 bs.length) s.caps.bitsCap
  bit : ∀ j, j < 8 * ceil8 bs.length → t.bitAt j = some (bs[j]?.getD false)
  rest : ∀ i, ceil8 bs.length ≤ i → Memory.read t.bits i = Memory.read s.bits i

section
variable {s t : State} {bs vs ws : List Bool} {v : Bool} {b : Byte} {m : ByteMemory} {k l : Nat}

theorem packed_nil (s : State) : Packed s [] 0 { s with totalBits := 0, cpos := 0 } :=
  ⟨rfl, withinCap_zero _, fun j hj => absurd hj (by simp [ceil8]), fun _ _ => rfl⟩

theorem Packed.nextCode (h : Packed s bs k t) : Packed s bs (k + 1) { t with cpos := t.cpos + 1 } := by
  refine ⟨?_, h.fits, h.bit, h.rest⟩
  rw [h.frame]

theorem Packed.totalBits (h : Packed s bs k t) : t.totalBits = bs.length := by rw [h.frame]

theorem Packed.caps (h : Packed s bs k t) : t.caps = s.caps := by rw [h.frame]

theorem Packed.cpos (h : Packed s bs k t) : t.cpos = k := by rw [h.frame]

theorem Packed.ctab (h : Packed s bs k t) : t.ctab = s.ctab := by rw [h.frame]

theorem Packed.status (h : Packed s bs k t) : t.status = s.status := by rw [h.frame]

theorem Packed.codeAt (h : Packed s bs k t) (i : Nat) : t.codeAt i = s.codeAt i := by rw [h.frame]; rfl

theorem Packed.holdsBits (h : Packed s bs k t) : t.holdsBits bs := by
  refine ⟨h.totalBits, fun i hi => ?_⟩
  rw [h.bit i (by unfold ceil8; omega), List.getElem?_eq_getElem hi, Option.getD_some]

theorem Packed.padding (h : Packed s bs k t) {j : Nat} (hlo : bs.length ≤ j) (hhi : j < 8 * ceil8 bs.length) :
    t.bitAt j = some false := by
  rw [h.bit j hhi, List.getElem?_eq_none hlo, Option.getD_none]

/-- One more bit changes no bit but its own. -/
theorem getD_snoc (bs : List Bool) (v : Bool) (j : Nat) :
    (bs ++ [v])[j]?.getD false = (bs[j]?.getD false || v && decide (j = bs.length)) := by
  rcases Nat.lt_trichotomy j bs.length with hlt | rfl | hgt
  · simp [List.getElem?_append_left hlt, Nat.ne_of_lt hlt]
  · simp
  · rw [List.getElem?_eq_none (by simpa using hgt), List.getElem?_eq_none hgt.le]
    simp [Nat.ne_of_gt hgt]

/-- One more bit, in a byte that held the bits of the payload that belong there. -/
theorem Packed.snoc (h : Packed s bs k t) (hm : PutIn t v b m)
    (hb : ∀ j, j / 8 = bs.length / 8 → payloadBit b (j % 8) = bs[j]?.getD false)
    (hfits : withinCap (ceil8 (bs.length + 1)) s.caps.bitsCap) :
    Packed s (bs ++ [v]) k { t with bits := m, totalBits := t.totalBits + 1 } := by
  have hlen : (bs ++ [v]).length = bs.length + 1 := List.length_append
  unfold PutIn at hm
  rw [h.totalBits] at hm ⊢
  refine ⟨?_, hlen ▸ hfits, fun j hj => ?_, fun i hi => ?_⟩
  · rw [hlen, h.frame]
  · rw [hlen] at hj
    rw [bitAt_of_lt (s := { t with bits := m, totalBits := bs.length + 1 }) hj, hm, getD_snoc]
    split
    next hsame =>
      have hpos : j % 8 = bs.length % 8 ↔ j = bs.length := by omega
      rw [Option.map_some, payloadBit_withBit (Nat.mod_lt _ (by decide)) (Nat.mod_lt _ (by decide)), hb j hsame]
      simp only [hpos]
    next hother =>
      have hne : j ≠ bs.length := fun heq => hother (heq ▸ rfl)
      have hlt : j < 8 * ceil8 bs.length := by unfold ceil8 at hj ⊢; omega
      rw [← bitAt_of_lt (h.totalBits ▸ hlt), h.bit j hlt]
      simp [hne]
  · rw [hlen] at hi
    obtain ⟨hpast, hne⟩ : ceil8 bs.length ≤ i ∧ i ≠ bs.length / 8 := by unfold ceil8 at hi ⊢; omega
    rw [hm, if_neg hne, h.rest i hpast]

/-! ### Packing until something does not fit -/

/-- `r` ends with the bits packed, or they do not fit BITS and it raises CapacityExceeded. -/
def PacksOrOverflows (s : State) (bs : List Bool) (k : Nat) (r : Res Unit) : Prop :=
  (∃ t, r = .ok () t ∧ Packed s bs k t)
    ∨ overCap (ceil8 bs.length) s.caps.bitsCap = true
      ∧ ∃ t, r = .raised .capacityExceeded t ∧ t.status = s.status

variable {r : Res Unit}

theorem PacksOrOverflows.of_fits (h : PacksOrOverflows s bs k r)
    (hfits : withinCap (ceil8 bs.length) s.caps.bitsCap) : ∃ t, r = .ok () t ∧ Packed s bs k t := by
  rcases h with hok | ⟨hover, -⟩
  · exact hok
  · rw [hfits] at hover; cases hover

theorem PacksOrOverflows.of_overflow (h : PacksOrOverflows s bs k r)
    (hover : overCap (ceil8 bs.length) s.caps.bitsCap = true) :
    ∃ t, r = .raised .capacityExceeded t ∧ t.status = s.status := by
  rcases h with ⟨t, -, ht⟩ | ⟨-, hraised⟩
  · rw [ht.fits] at hover; cases hover
  · exact hraised

/-- Bits that do not fit do not fit with more bits after them. -/
theorem PacksOrOverflows.bind {f : State → Res Unit} (h : PacksOrOverflows s bs k r)
    (hf : ∀ t, Packed s bs k t → PacksOrOverflows s (bs ++ vs) l (f t)) :
    PacksOrOverflows s (bs ++ vs) l (r.bind fun _ t => f t) := by
  rcases h with ⟨t, rfl, ht⟩ | ⟨hover, t, rfl, hstatus⟩
  · exact hf t ht
  · have hle : ceil8 bs.length ≤ ceil8 (bs ++ vs).length := by
      rw [List.length_append]; unfold ceil8; omega
    refine .inr ⟨Bool.eq_true_of_not_eq_false fun hfits => ?_, t, rfl, hstatus⟩
    rw [withinCap_mono hle hfits] at hover
    cases hover

/-- `PutBit` (45 R221): a byte of zeros is started where the bits fill whole bytes, if BITS has room for it. -/
theorem putBit_packs_bit (v : Bool) (h : Packed s bs k t) : PacksOrOverflows s (bs ++ [v]) k (putBit v t) := by
  have hceil := ceil8_succ bs.length
  by_cases hr : bs.length % 8 = 0
  · have hr' : t.totalBits % 8 = 0 := h.totalBits ▸ hr
    have hfits := h.fits
    rw [if_pos hr] at hceil
    rw [ceil8_of_mod hr] at hfits
    by_cases hcap : atCap (t.totalBits / 8) t.caps.bitsCap = true
    · refine .inr ⟨?_, t, putBit_full hr' hcap, h.status⟩
      rw [h.totalBits, h.caps, atCap, beq_iff_eq] at hcap
      rw [List.length_append, List.length_singleton, hceil, hcap]
      simp [overCap]
    · obtain ⟨m, hput, hm⟩ := putBit_starts (v := v) hr' hcap
      rw [h.totalBits, h.caps] at hcap
      refine .inl ⟨_, hput, h.snoc hm (fun j hj => ?_) (hceil ▸ withinCap_succ hfits hcap)⟩
      rw [payloadBit_zero, List.getElem?_eq_none (by omega), Option.getD_none]
  · rw [if_neg hr] at hceil
    have hbyte (j : Nat) (hj : j / 8 = bs.length / 8) :
        (Memory.read t.bits (bs.length / 8)).map (fun b => payloadBit b (j % 8)) = some (bs[j]?.getD false) := by
      have hlt : j < 8 * ceil8 bs.length := by unfold ceil8; omega
      rw [← h.bit j hlt, bitAt_of_lt (h.totalBits ▸ hlt), hj]
    obtain ⟨b, hb, -⟩ := Option.map_eq_some_iff.mp (hbyte bs.length rfl)
    have hat : t.bitsAt (t.totalBits / 8) = some b := by
      rw [h.totalBits, State.bitsAt, h.totalBits, if_pos (by unfold ceil8; omega), hb]
    obtain ⟨m, hput, hm⟩ := putBit_continues (v := v) (h.totalBits ▸ hr) hat
    refine .inl ⟨_, hput, h.snoc hm (fun j hj => ?_) (hceil ▸ h.fits)⟩
    have hread := hbyte j hj
    rw [hb] at hread
    exact Option.some.inj hread

theorem putBits_packs_word (w : List Bool) : ∀ {bs : List Bool} {t : State}, Packed s bs k t →
    PacksOrOverflows s (bs ++ w) k (putBits w t) := by
  induction w with
  | nil => exact fun h => .inl ⟨_, rfl, by rwa [List.append_nil]⟩
  | cons v w ih =>
    intro bs t h
    rw [putBits, List.append_cons]
    exact (putBit_packs_bit v h).bind fun u hu => ih hu

end

/-! ### The loop -/

section
variable {s t : State} {bs w : List Bool} {c : Code} {k : Nat}

theorem bpackLoop_word (n : Nat) (hc : s.codeAt s.cpos = some c) (hw : Memory.read s.ctab c.toNat = some w) :
    bpackLoop (n + 1) s = (putBits w s).bind fun _ t => bpackLoop n { t with cpos := t.cpos + 1 } := by
  simp only [bpackLoop, hc, hw]

theorem bpackLoop_unknown (n : Nat) (hc : s.codeAt s.cpos = some c) (hw : Memory.read s.ctab c.toNat = none) :
    bpackLoop (n + 1) s = .raised .unknownCodeDuringEncode s := by
  simp only [bpackLoop, hc, hw]

theorem bpackLoop_add (m n : Nat) : ∀ s : State,
    bpackLoop (m + n) s = (bpackLoop m s).bind fun _ t => bpackLoop n t := by
  induction m with
  | zero => intro s; rw [Nat.zero_add, bpackLoop, Res.bind_ok]
  | succ m ih =>
    intro s
    rw [Nat.add_right_comm, bpackLoop, bpackLoop]
    split
    next => rfl
    next =>
      split
      next => rfl
      next => simp only [Res.bind_assoc, ih]

/-- The loop on codes that all have a word, from the bits of the words before. -/
theorem bpackLoop_packs_words (cs : List Code) : ∀ {ws : List (List Bool)} {bs : List Bool} {k : Nat} {t : State},
    (∀ i, i < cs.length → s.codeAt (k + i) = cs[i]?) →
      cs.map (fun c => Memory.read s.ctab c.toNat) = ws.map some → Packed s bs k t →
        PacksOrOverflows s (bs ++ ws.flatten) (k + cs.length) (bpackLoop cs.length t) := by
  induction cs with
  | nil =>
    intro ws bs k t _ hws h
    obtain rfl : ws = [] := List.map_eq_nil_iff.mp hws.symm
    exact .inl ⟨t, rfl, by simpa using h⟩
  | cons c cs ih =>
    intro ws bs k t hcodes hws h
    cases ws with
    | nil => cases hws
    | cons w ws =>
      obtain ⟨hw, hws⟩ := List.cons.inj hws
      have hc : t.codeAt t.cpos = some c := by rw [h.codeAt, h.cpos]; exact hcodes 0 (Nat.succ_pos _)
      have hrest (i : Nat) (hi : i < cs.length) : s.codeAt (k + 1 + i) = cs[i]? := by
        rw [Nat.add_assoc, Nat.add_comm 1 i]; exact hcodes (i + 1) (Nat.succ_lt_succ hi)
      rw [List.length_cons, bpackLoop_word _ hc (h.ctab ▸ hw), List.flatten_cons, ← List.append_assoc,
        Nat.add_comm cs.length 1, ← Nat.add_assoc]
      exact (putBits_packs_word w h).bind fun u hu => ih hrest hws hu.nextCode

/-- The first codes of CSEQ, where they have words, from the start of BPACK.RUN. -/
theorem bpackLoop_packs_first {cs ds : List Code} {ws : List (List Bool)} (hcodes : s.holdsCodes (cs ++ ds))
    (hws : cs.map (fun c => Memory.read s.ctab c.toNat) = ws.map some) :
    PacksOrOverflows s ws.flatten cs.length (bpackLoop cs.length { s with totalBits := 0, cpos := 0 }) := by
  obtain ⟨-, hat⟩ := hcodes
  have hfirst (i : Nat) (hi : i < cs.length) : s.codeAt (0 + i) = cs[i]? := by
    rw [Nat.zero_add, hat i (by rw [List.length_append]; omega), List.getElem?_append_left hi]
  simpa using bpackLoop_packs_words cs hfirst hws (packed_nil s)

theorem bpackRun_of_clen {n : Nat} (hlen : s.clen = n) :
    bpackRun s = bpackLoop n { s with totalBits := 0, cpos := 0 } := congrArg (bpackLoop · _) hlen

theorem bpackRun_packs {cs : List Code} {ws : List (List Bool)} (hcodes : s.holdsCodes cs)
    (hws : cs.map (fun c => Memory.read s.ctab c.toNat) = ws.map some) :
    PacksOrOverflows s ws.flatten s.clen (bpackRun s) := by
  have hall : PacksOrOverflows s ws.flatten cs.length (bpackRun s) := by
    rw [bpackRun_of_clen hcodes.1]
    exact bpackLoop_packs_first (ds := []) (by rwa [List.append_nil]) hws
  rwa [← hcodes.1] at hall

/-- The check of a code comes before its first bit: what is packed then is the words before it. -/
theorem bpackRun_unknown {cs ds : List Code} {ws : List (List Bool)} (hcodes : s.holdsCodes (cs ++ c :: ds))
    (hws : cs.map (fun d => Memory.read s.ctab d.toNat) = ws.map some)
    (hfits : withinCap (ceil8 ws.flatten.length) s.caps.bitsCap) (hnone : Memory.read s.ctab c.toNat = none) :
    ∃ t, bpackRun s = .raised .unknownCodeDuringEncode t ∧ Packed s ws.flatten cs.length t := by
  obtain ⟨t, hloop, ht⟩ := (bpackLoop_packs_first hcodes hws).of_fits hfits
  obtain ⟨hlen, hat⟩ := hcodes
  have hc : t.codeAt t.cpos = some c := by
    rw [ht.codeAt, ht.cpos, hat cs.length (by simp), List.getElem?_append_right le_rfl, Nat.sub_self]
    rfl
  refine ⟨t, ?_, ht⟩
  rw [bpackRun_of_clen hlen, List.length_append, bpackLoop_add, hloop, Res.bind_ok]
  exact bpackLoop_unknown _ hc (ht.ctab ▸ hnone)

end

/-! ### The obligations -/

/-- Settles O39: the words fit BITS, so the run ends with all of them packed. -/
theorem packerConcatenatesWords : Obligations.PackerConcatenatesWords := by
  intro s cs ws hcodes hws hfits
  obtain ⟨t, hrun, ht⟩ := (bpackRun_packs hcodes hws).of_fits hfits
  exact ⟨t, congrArg Res.outcome hrun, ht.frame, ht.holdsBits, fun _ => ht.padding, ht.rest⟩

/-- Settles O40: the run stops before the bits of the unknown code, or at the byte that does not fit. -/
theorem packerRefusals : Obligations.PackerRefusals := by
  intro s cs ws
  refine ⟨fun c ds hcodes hws hfits hnone => ?unknown, fun hcodes hws hover => ?overflow⟩
  case unknown =>
    obtain ⟨t, hrun, ht⟩ := bpackRun_unknown hcodes hws hfits hnone
    exact ⟨_, congrArg Res.outcome hrun, congrArg (Status.raised · _) ht.status, ht.holdsBits⟩
  case overflow =>
    obtain ⟨t, hrun, hstatus⟩ := (bpackRun_packs hcodes hws).of_overflow hover
    exact ⟨_, congrArg Res.outcome hrun, congrArg (Status.raised · _) hstatus⟩

end Sys2Proof.Proofs.BitPacker
end

section
/-!
BUNPK.RUN (46_bit_unpacker.md R236, R239): on the bits of one code word the walk goes from ROOT to the word's leaf,
emits its code and is back at ROOT, so the words of the payload are recovered one after the other; bits that are no
word leave the walk at an inner node other than ROOT.
-/
namespace Sys2Proof.Proofs.BitUnpacker
open Sys2Proof Sys2Proof.Machine Sys2Proof.Proofs.StreamFrame Sys2Proof.Proofs.LzweOperations
open Sys2Proof.Proofs.LzweRun Sys2Proof.Proofs.TreePriority Sys2Proof.Proofs.Tables Sys2Proof.Proofs.CodeWords
open Sys2Proof.Proofs.EmptyTable Sys2Proof.Proofs.BoundaryUnits

theorem internalNode_eq_true {n : Option Node} :
    internalNode n = true ↔ ∃ f m l r, n = some (.internal f m l r) := by
  rcases n with _ | ⟨c, f⟩ | ⟨f, m, l, r⟩ <;> simp [internalNode]

section
variable {s t : State} {c : Code} {v : Bool} {p vs w : List Bool}

/-! ### The same tree -/

theorem follow_of_sameTree (h : SameTree s t) (p : List Bool) : ∀ g : Nat, s.follow g p = t.follow g p := by
  induction p with
  | nil => exact h.nodeAt
  | cons v p ih =>
    intro g
    simp only [State.follow, h.nodeAt, ih]

theorem wordOf_of_sameTree (h : SameTree s t) (hw : t.wordOf c w) : s.wordOf c w := by
  simpa only [State.wordOf, h.nnodes, h.root, h.nodeAt, follow_of_sameTree h] using hw

/-! ### The walk through the tree -/

/-- `k` bits further in the payload and at node `g`. -/
def movedTo (k g : Nat) (s : State) : State := { s with bpos := s.bpos + k, node := g }

theorem movedTo_movedTo (j k g h : Nat) (s : State) : movedTo k h (movedTo j g s) = movedTo (k + j) h s := by
  rw [movedTo, movedTo, movedTo, Nat.add_comm k, ← Nat.add_assoc]

theorem sameTree_movedTo (k g : Nat) (s : State) : SameTree (movedTo k g s) s := ⟨rfl, rfl, rfl, fun _ => rfl⟩

/-- `Emit(c)` at a leaf and the return to ROOT (46 R236). -/
def emitAtLeaf (c : Code) (s : State) : Res Unit := (emit c s).bind fun _ t => .ok () { t with node := t.root }

theorem emitAtLeaf_room (hroom : s.caps.cseqCap ≠ some s.clen) :
    emitAtLeaf c s = .ok () { emitted c s with node := s.root } := by
  rw [emitAtLeaf, emit_room c hroom]
  rfl

theorem emitAtLeaf_full (hfull : s.caps.cseqCap = some s.clen) :
    emitAtLeaf c s = .raised .capacityExceeded s := by
  rw [emitAtLeaf, emit_full c hfull]
  rfl

/-- At ROOT the return changes nothing. -/
theorem emitAtLeaf_of_root (hnode : s.node = s.root) : emitAtLeaf c s = emit c s := by
  by_cases hfull : s.caps.cseqCap = some s.clen
  · rw [emitAtLeaf_full hfull, emit_full c hfull]
  · rw [emitAtLeaf_room hfull, emit_room c hfull, ← hnode]
    rfl

/-! ### One bit -/

/-- The only word under one leaf is "0". -/
theorem bunpkBit_false_of_leaf {f : Nat} (hroot : s.nodeAt s.root = some (.leaf c f)) :
    bunpkBit false s = emit c s := by
  simp [bunpkBit, hroot]

theorem bunpkBit_true_of_leaf {f : Nat} (hroot : s.nodeAt s.root = some (.leaf c f)) :
    bunpkBit true s = .raised .malformedFrame s := by
  simp [bunpkBit, hroot]

section
variable {f l r : Nat} {m : Code}

theorem bunpkBit_to_internal (hroot : internalNode (s.nodeAt s.root) = true)
    (hnode : s.nodeAt s.node = some (.internal f m l r))
    (hchild : internalNode (s.nodeAt (if v then r else l)) = true) :
    bunpkBit v s = .ok () { s with node := if v then r else l } := by
  obtain ⟨_, _, _, _, hroot⟩ := internalNode_eq_true.mp hroot
  obtain ⟨_, _, _, _, hchild⟩ := internalNode_eq_true.mp hchild
  simp only [bunpkBit, hroot, hnode, hchild]

theorem bunpkBit_to_leaf {x : Nat} (hroot : internalNode (s.nodeAt s.root) = true)
    (hnode : s.nodeAt s.node = some (.internal f m l r))
    (hchild : s.nodeAt (if v then r else l) = some (.leaf c x)) :
    bunpkBit v s = emitAtLeaf c { s with node := if v then r else l } := by
  obtain ⟨_, _, _, _, hroot⟩ := internalNode_eq_true.mp hroot
  simp only [bunpkBit, hroot, hnode, hchild, emitAtLeaf]

end

/-! ### A sequence of bits -/

/-- The loop of BUNPK.RUN on given bits, without the test after it. -/
def bunpkBits : List Bool → State → Res Unit
  | [], s => .ok () s
  | v :: vs, s => (bunpkBit v { s with bpos := s.bpos + 1 }).bind fun _ t => bunpkBits vs t

theorem bunpkBits_cons (v : Bool) (vs : List Bool) (s : State) :
    bunpkBits (v :: vs) s = (bunpkBit v { s with bpos := s.bpos + 1 }).bind fun _ t => bunpkBits vs t := rfl

theorem bunpkBits_singleton (v : Bool) (s : State) : bunpkBits [v] s = bunpkBit v { s with bpos := s.bpos + 1 } := by
  rw [bunpkBits_cons]
  cases bunpkBit v { s with bpos := s.bpos + 1 } <;> rfl

theorem bunpkBits_append (p vs : List Bool) : ∀ s : State,
    bunpkBits (p ++ vs) s = (bunpkBits p s).bind fun _ t => bunpkBits vs t := by
  induction p with
  | nil => exact fun _ => rfl
  | cons v p ih =>
    intro s
    simp only [List.cons_append, bunpkBits_cons, Res.bind_assoc, ih]

/-- What the loop reads its bits from. -/
def payload (s : State) : ByteMemory × Nat × Nat := (s.bits, s.totalBits, s.bpos)

theorem bitAt_of_payload (h : payload t = payload s) (i : Nat) : t.bitAt (t.bpos + i) = s.bitAt (s.bpos + i) := by
  obtain ⟨hbits, htotal, hbpos⟩ : t.bits = s.bits ∧ t.totalBits = s.totalBits ∧ t.bpos = s.bpos := by
    simpa [payload] using h
  rw [State.bitAt, State.bitAt, State.bitsAt, State.bitsAt, hbits, htotal, hbpos]

theorem emit_keeps_payload (c : Code) : Keeps payload (emit c) := fun s => by
  rcases emit_cases c s with ⟨-, h⟩ | ⟨-, h⟩ <;> rw [h]
  · exact kept_raised.mpr rfl
  · exact kept_ok.mpr rfl

theorem bunpkBit_keeps_payload (v : Bool) : Keeps payload (bunpkBit v) := fun s => by
  have hleaf (c : Code) (h : Nat) :
      Kept payload s ((emit c { s with node := h }).bind fun _ t => .ok () { t with node := t.root }) :=
    (emit_keeps_payload c { s with node := h }).bind fun _ _ => kept_ok.mpr rfl
  unfold bunpkBit
  dsimp only
  repeat' split
  all_goals simp [payload, hleaf, emit_keeps_payload _ s]

/-- The loop of the model takes its bits from BITS at BPOS. -/
theorem bunpkLoop_length (vs : List Bool) : ∀ {s : State},
    (∀ i, i < vs.length → s.bitAt (s.bpos + i) = vs[i]?) →
      bunpkLoop vs.length s = (bunpkBits vs s).bind fun _ t => bunpkLoop 0 t := by
  induction vs with
  | nil => exact fun _ => rfl
  | cons v vs ih =>
    intro s hbits
    rw [List.length_cons, bunpkLoop_some _ (hbits 0 (Nat.succ_pos _)), bunpkBits_cons, Res.bind_assoc]
    obtain ⟨hkept, -⟩ := bunpkBit_keeps_payload v { s with bpos := s.bpos + 1 }
    cases hbit : bunpkBit v { s with bpos := s.bpos + 1 } with
    | ok _ t =>
      refine ih fun i hi => ?_
      have hread := hbits (i + 1) (Nat.succ_lt_succ hi)
      rw [bitAt_of_payload (hkept _ t hbit), ← List.getElem?_cons_succ (a := v), ← hread, Nat.add_comm i,
        ← Nat.add_assoc]
      rfl
    | raised _ _ => rfl
    | fault _ => rfl
    | refused _ => rfl

/-- BUNPK.RUN on the payload's bits. -/
theorem bunpkRun_of_holdsBits (hbits : s.holdsBits vs) :
    bunpkRun s = (bunpkBits vs { s with clen := 0, bpos := 0, node := s.root }).bind fun _ t => bunpkLoop 0 t := by
  obtain ⟨hlen, hbit⟩ := hbits
  have hstart (i : Nat) (hi : i < vs.length) :
      State.bitAt { s with clen := 0, bpos := 0, node := s.root } (0 + i) = vs[i]? := by
    rw [Nat.zero_add]; exact hbit i hi
  exact (congrArg (bunpkLoop · _) hlen).trans (bunpkLoop_length vs hstart)

/-! ### One path -/

theorem root_internal (ht : s.treeOk) (hmany : 1 < s.nnodes) : internalNode (s.nodeAt s.root) = true := by
  rcases root_cases ht with ⟨hone, -⟩ | ⟨-, hroot⟩
  · exact absurd hone hmany.ne'
  · exact internalNode_eq_true.mpr hroot

theorem root_leaf (ht : s.treeOk) (hone : s.nnodes = 1) : ∃ c f, s.nodeAt s.root = some (.leaf c f) := by
  rcases root_cases ht with ⟨-, hroot⟩ | ⟨hmany, -⟩
  · exact hroot
  · exact absurd hone hmany.ne'

/-- A path to an internal node passes internal nodes only. -/
theorem internal_of_follow {h : Nat} (hp : internalNode (s.follow h p) = true) : internalNode (s.nodeAt h) = true := by
  cases p with
  | nil => exact hp
  | cons v p =>
    obtain ⟨_, _, _, _, hend⟩ := internalNode_eq_true.mp hp
    obtain ⟨f, m, l, r, hh, -⟩ := follow_cons hend
    exact internalNode_eq_true.mpr ⟨f, m, l, r, hh⟩

/-- On a path that ends inside the tree nothing but BPOS and NODE moves, and every edge goes to a lower handle. -/
theorem bunpkBits_to_internal (p : List Bool) : ∀ {s : State}, s.treeOk → internalNode (s.nodeAt s.root) = true →
    internalNode (s.follow s.node p) = true →
      ∃ g, bunpkBits p s = .ok () (movedTo p.length g s) ∧ s.nodeAt g = s.follow s.node p ∧ g + p.length ≤ s.node := by
  induction p with
  | nil => exact fun {s} _ _ _ => ⟨s.node, rfl, rfl, le_rfl⟩
  | cons v p ih =>
    intro s ht hroot hp
    obtain ⟨_, _, _, _, hend⟩ := internalNode_eq_true.mp hp
    obtain ⟨f, m, l, r, hnode, hrest⟩ := follow_cons hend
    have hlt := child_lt_of_internal ht hnode v
    have hfollow : s.follow (if v then r else l) p = s.follow s.node (v :: p) := hrest.trans hend.symm
    generalize hchild : (if v then r else l) = child at hlt hfollow
    have hsame := sameTree_movedTo 1 child s
    have hin : internalNode (s.follow child p) = true := hfollow ▸ hp
    have hbit : bunpkBit v { s with bpos := s.bpos + 1 } = .ok () (movedTo 1 child s) := by
      have hat : internalNode (s.nodeAt (if v then r else l)) = true := hchild ▸ internal_of_follow hin
      rw [bunpkBit_to_internal (s := { s with bpos := s.bpos + 1 }) hroot hnode hat, hchild]
      rfl
    have hpath := follow_of_sameTree hsame p child
    obtain ⟨g, hrun, hg, hle⟩ := ih (hsame.treeOk ht) hroot (hpath.symm ▸ hin)
    refine ⟨g, ?_, (hg.trans hpath).trans hfollow, ?_⟩
    · rw [bunpkBits_cons, hbit, Res.bind_ok, hrun, movedTo_movedTo, List.length_cons]
    · exact Nat.succ_le_of_lt (lt_of_le_of_lt hle hlt)

/-! ### One word -/

/-- On the bits of a code word from ROOT the walk reaches the leaf, emits its code and returns. -/
theorem bunpkBits_word (ht : s.treeOk) (hnode : s.node = s.root) (hw : s.wordOf c w) :
    ∃ g, bunpkBits w s = emitAtLeaf c (movedTo w.length g s) := by
  rcases hw with ⟨-, rfl, hleaf⟩ | ⟨hmany, hleaf⟩ <;> obtain ⟨f, hleaf⟩ := leafOf_eq_true.mp hleaf
  · refine ⟨s.node, ?_⟩
    rw [bunpkBits_singleton, bunpkBit_false_of_leaf (s := { s with bpos := s.bpos + 1 }) hleaf]
    exact (emitAtLeaf_of_root (s := movedTo 1 s.node s) hnode).symm
  · have hroot := root_internal ht hmany
    cases w using List.reverseRecOn with
    | nil =>
      rw [State.follow] at hleaf
      rw [hleaf] at hroot
      cases hroot
    | append_singleton p v =>
      obtain ⟨x, m, l, r, hp, hchild⟩ := exists_parent_of_follow_snoc hleaf
      rw [← hnode] at hp
      obtain ⟨g, hrun, hg, -⟩ := bunpkBits_to_internal p ht hroot (hp ▸ rfl)
      refine ⟨if v then r else l, ?_⟩
      rw [bunpkBits_append, hrun, Res.bind_ok, bunpkBits_singleton,
        bunpkBit_to_leaf (s := { movedTo p.length g s with bpos := (movedTo p.length g s).bpos + 1 }) hroot
          (hg.trans hp) hchild, List.length_append]
      rfl

/-! ### What the run has made of the words so far -/

/-- From `s` the unpacker has read `k` bits, has put these codes in CSEQ and is at ROOT. -/
structure Unpacked (s : State) (cs : List Code) (k : Nat) (t : State) : Prop where
  frame : t = { s with cseq := t.cseq, clen := t.clen, bpos := k, node := s.root }
  fits : withinCap cs.length s.caps.cseqCap
  emitted : HoldsEmitted s t (cs.map BitVec.toNat)

variable {cs ds : List Code} {ws : List (List Bool)} {k : Nat} {r : Res Unit}

theorem unpacked_nil (s : State) : Unpacked s [] 0 { s with clen := 0, bpos := 0, node := s.root } :=
  ⟨rfl, withinCap_zero _, rfl, fun _ hi => absurd hi (Nat.not_lt_zero _), fun _ _ => rfl⟩

theorem Unpacked.sameTree (h : Unpacked s cs k t) : SameTree t s := by
  rw [h.frame]
  exact ⟨rfl, rfl, rfl, fun _ => rfl⟩

theorem Unpacked.node (h : Unpacked s cs k t) : t.node = t.root := by rw [h.frame]

theorem Unpacked.caps (h : Unpacked s cs k t) : t.caps = s.caps := by rw [h.frame]

theorem Unpacked.status (h : Unpacked s cs k t) : t.status = s.status := by rw [h.frame]

theorem Unpacked.clen (h : Unpacked s cs k t) : t.clen = cs.length := by rw [h.emitted.clen, List.length_map]

theorem Unpacked.holdsCodes (h : Unpacked s cs k t) : t.holdsCodes cs := by
  simpa [List.map_map, Function.comp_def] using h.emitted.holdsCodes

theorem Unpacked.snoc (h : Unpacked s cs k t) (hroom : t.caps.cseqCap ≠ some t.clen) (n g : Nat) (c : Code) :
    Unpacked s (cs ++ [c]) (k + n) { LzweOperations.emitted c (movedTo n g t) with node := t.root } := by
  refine ⟨?_, ?_, ?_⟩
  · rw [h.frame]
    rfl
  · rw [h.caps, h.clen] at hroom
    rw [List.length_append, List.length_singleton]
    exact withinCap_succ h.fits (by simpa [atCap] using hroom)
  · rw [List.map_append]
    exact h.emitted.emit rfl rfl

/-- `r` ends with the codes unpacked, or they do not fit CSEQ and it raises CapacityExceeded. -/
def UnpacksOrOverflows (s : State) (cs : List Code) (k : Nat) (r : Res Unit) : Prop :=
  (∃ t, r = .ok () t ∧ Unpacked s cs k t)
    ∨ overCap cs.length s.caps.cseqCap = true ∧ ∃ t, r = .raised .capacityExceeded t ∧ t.status = s.status

theorem UnpacksOrOverflows.of_fits (h : UnpacksOrOverflows s cs k r) (hfits : withinCap cs.length s.caps.cseqCap) :
    ∃ t, r = .ok () t ∧ Unpacked s cs k t := by
  rcases h with hok | ⟨hover, -⟩
  · exact hok
  · rw [hfits] at hover; cases hover

theorem UnpacksOrOverflows.of_overflow (h : UnpacksOrOverflows s cs k r)
    (hover : overCap cs.length s.caps.cseqCap = true) :
    ∃ t, r = .raised .capacityExceeded t ∧ t.status = s.status := by
  rcases h with ⟨t, -, ht⟩ | ⟨-, hraised⟩
  · rw [ht.fits] at hover; cases hover
  · exact hraised

/-- Codes that do not fit do not fit with more codes after them. -/
theorem UnpacksOrOverflows.bind {l : Nat} {f : State → Res Unit} (h : UnpacksOrOverflows s cs k r)
    (hf : ∀ t, Unpacked s cs k t → UnpacksOrOverflows s (cs ++ ds) l (f t)) :
    UnpacksOrOverflows s (cs ++ ds) l (r.bind fun _ t => f t) := by
  rcases h with ⟨t, rfl, ht⟩ | ⟨hover, t, rfl, hstatus⟩
  · exact hf t ht
  · have hle : cs.length ≤ (cs ++ ds).length := by simp
    refine .inr ⟨Bool.eq_true_of_not_eq_false fun hfits => ?_, t, rfl, hstatus⟩
    rw [withinCap_mono hle hfits] at hover
    cases hover

theorem bunpkBits_unpacks_word (ht : s.treeOk) (hw : s.wordOf c w) (h : Unpacked s cs k t) :
    UnpacksOrOverflows s (cs ++ [c]) (k + w.length) (bunpkBits w t) := by
  obtain ⟨g, hrun⟩ := bunpkBits_word (h.sameTree.treeOk ht) h.node (wordOf_of_sameTree h.sameTree hw)
  rw [hrun]
  by_cases hfull : t.caps.cseqCap = some t.clen
  · refine .inr ⟨?_, movedTo w.length g t, emitAtLeaf_full hfull, h.status⟩
    rw [← h.caps, hfull, h.clen]
    simp [overCap]
  · exact .inl ⟨_, emitAtLeaf_room hfull, h.snoc hfull w.length g c⟩

theorem bunpkBits_unpacks_words (ht : s.treeOk) (hws : List.Forall₂ s.wordOf ds ws) :
    ∀ {cs : List Code} {k : Nat} {t : State}, Unpacked s cs k t →
      UnpacksOrOverflows s (cs ++ ds) (k + ws.flatten.length) (bunpkBits ws.flatten t) := by
  induction hws with
  | nil => exact fun {cs k t} h => .inl ⟨t, rfl, by rwa [List.append_nil]⟩
  | @cons c w ds ws hw _ ih =>
    intro cs k t h
    rw [List.flatten_cons, bunpkBits_append, List.append_cons, List.length_append, ← Nat.add_assoc]
    exact (bunpkBits_unpacks_word ht hw h).bind fun u hu => ih hu

/-- The words at the start of the payload, from the start of BUNPK.RUN, and then the bits after them. -/
theorem bunpkRun_words (ht : s.treeOk) (hws : List.Forall₂ s.wordOf cs ws) (hbits : s.holdsBits (ws.flatten ++ vs)) :
    ∃ r, UnpacksOrOverflows s cs ws.flatten.length r
      ∧ bunpkRun s = r.bind fun _ t => (bunpkBits vs t).bind fun _ u => bunpkLoop 0 u := by
  refine ⟨bunpkBits ws.flatten { s with clen := 0, bpos := 0, node := s.root }, ?_, ?_⟩
  · simpa using bunpkBits_unpacks_words ht hws (unpacked_nil s)
  · rw [bunpkRun_of_holdsBits hbits, bunpkBits_append, Res.bind_assoc]

theorem bunpkRun_words_fit (ht : s.treeOk) (hws : List.Forall₂ s.wordOf cs ws)
    (hbits : s.holdsBits (ws.flatten ++ vs)) (hfits : withinCap cs.length s.caps.cseqCap) :
    ∃ t, Unpacked s cs ws.flatten.length t
      ∧ bunpkRun s = (bunpkBits vs t).bind fun _ u => bunpkLoop 0 u := by
  obtain ⟨r, hr, hrun⟩ := bunpkRun_words ht hws hbits
  obtain ⟨t, rfl, h⟩ := hr.of_fits hfits
  exact ⟨t, h, hrun⟩

/-! ### The end of the run -/

theorem Unpacked.ends (h : Unpacked s cs k t) : bunpkLoop 0 t = .ok () t := by
  rw [bunpkLoop, if_neg (not_not.mpr h.node)]

/-- Bits that end inside a code word leave NODE below ROOT. -/
theorem Unpacked.cut_word (h : Unpacked s cs k t) (ht : s.treeOk) (hne : vs ≠ [])
    (hin : internalNode (s.follow s.root vs) = true) :
    ∃ u, ((bunpkBits vs t).bind fun _ u => bunpkLoop 0 u) = .raised .malformedFrame u ∧ u.status = s.status := by
  have hpath : internalNode (t.follow t.node vs) = true := by
    rwa [follow_of_sameTree h.sameTree, h.node, h.sameTree.root]
  have hroot : internalNode (t.nodeAt t.root) = true := h.node ▸ internal_of_follow hpath
  obtain ⟨g, hrun, -, hle⟩ := bunpkBits_to_internal vs (h.sameTree.treeOk ht) hroot hpath
  have hbelow : g < t.node := (Nat.lt_add_of_pos_right (List.length_pos_iff.mpr hne)).trans_le hle
  have hstands : (movedTo vs.length g t).node ≠ (movedTo vs.length g t).root := (h.node ▸ hbelow).ne
  exact ⟨movedTo vs.length g t, by rw [hrun, Res.bind_ok, bunpkLoop, if_pos hstands], h.status⟩

theorem Unpacked.one_under_leaf (h : Unpacked s cs k t) (ht : s.treeOk) (hone : s.nnodes = 1) :
    ∃ u, ((bunpkBits (true :: vs) t).bind fun _ u => bunpkLoop 0 u) = .raised .malformedFrame u
      ∧ u.status = s.status := by
  obtain ⟨c, f, hroot⟩ := root_leaf (h.sameTree.treeOk ht) (h.sameTree.nnodes.trans hone)
  refine ⟨{ t with bpos := t.bpos + 1 }, ?_, h.status⟩
  rw [bunpkBits_cons, bunpkBit_true_of_leaf (s := { t with bpos := t.bpos + 1 }) hroot]
  rfl

/-- A raised error is taken (60_exceptions.md R330). -/
theorem exec_bunpkRun_raised {e : Err} {u : State} (hrun : bunpkRun s = .raised e u) (hstatus : u.status = s.status) :
    ∃ t, exec .bunpkRun s = .next t ∧ t.status = s.status.raised e :=
  ⟨_, congrArg Res.outcome hrun, congrArg (Status.raised · e) hstatus⟩

end

/-! ### The obligations -/

/-- Settles O41: the codes fit CSEQ, so every word is unpacked, and the last leaves NODE at ROOT. -/
theorem unpackerRecoversTheCodes : Obligations.UnpackerRecoversTheCodes := by
  intro s cs ws ht hlen hws hbits hfits
  have hwords : List.Forall₂ s.wordOf cs ws := List.forall₂_iff_zip.mpr ⟨hlen, hws _⟩
  obtain ⟨t, h, hrun⟩ := bunpkRun_words_fit (vs := []) ht hwords (by rwa [List.append_nil]) hfits
  have hframe := h.frame
  rw [h.clen, ← hbits.1] at hframe
  exact ⟨t, congrArg Res.outcome (hrun.trans h.ends), hframe, h.holdsCodes,
    fun k hk => h.emitted.beyond k (by rwa [List.length_map])⟩

/-- Settles O42: the words before are unpacked, and then the bits stop inside a word or are no word; or the words
stop at the code that does not fit. -/
theorem unpackerRefusals : Obligations.UnpackerRefusals := by
  intro s cs ws ht hlen hws
  have hwords : List.Forall₂ s.wordOf cs ws := List.forall₂_iff_zip.mpr ⟨hlen, hws _⟩
  refine ⟨fun hfits => ⟨fun v hne hin hbits => ?cut, fun hone vs hbits => ?oneLeaf⟩, fun vs hover hbits => ?overflow⟩
  case cut =>
    obtain ⟨t, h, hrun⟩ := bunpkRun_words_fit ht hwords hbits hfits
    obtain ⟨u, hu, hstatus⟩ := h.cut_word ht hne hin
    exact exec_bunpkRun_raised (hrun.trans hu) hstatus
  case oneLeaf =>
    obtain ⟨t, h, hrun⟩ := bunpkRun_words_fit ht hwords hbits hfits
    obtain ⟨u, hu, hstatus⟩ := h.one_under_leaf ht hone
    exact exec_bunpkRun_raised (hrun.trans hu) hstatus
  case overflow =>
    obtain ⟨r, hr, hrun⟩ := bunpkRun_words ht hwords hbits
    obtain ⟨u, rfl, hstatus⟩ := hr.of_overflow hover
    exact exec_bunpkRun_raised hrun hstatus

end Sys2Proof.Proofs.BitUnpacker
end

section
/-!
The frame of 20_memory.md R70 as one sequence of bytes, and its fields at their offsets; FWR.RUN (47_frame_serdes.md
R251) writes that sequence at the start of OUT.
-/
namespace Sys2Proof.Proofs.FrameBytes
open Sys2Proof Sys2Proof.Machine Sys2Proof.Proofs.FieldNumbers Sys2Proof.Proofs.FrameOutput

/-! ### The frame -/

/-- The six bytes of an entry (30 R96). -/
def entryField (e : Nat × Nat) : List Byte := bytesBE 2 e.1 ++ bytesBE 4 e.2

/-- The frame of 20 R70: maxCode, entryCount, the entries, totalBits, the payload. -/
def frameBytes (m : Int) (es : List (Nat × Nat)) (n : Nat) (p : List Byte) : List Byte :=
  field32 m ++ bytesBE 4 es.length ++ es.flatMap entryField ++ bytesBE 4 n ++ p

variable {m : Int} {es : List (Nat × Nat)} {n i j : Nat} {p : List Byte}

@[simp] theorem entryField_length (e : Nat × Nat) : (entryField e).length = 6 := by simp [entryField]

@[simp] theorem entries_length (es : List (Nat × Nat)) : (es.flatMap entryField).length = 6 * es.length := by
  induction es with
  | nil => rfl
  | cons e es ih => rw [List.flatMap_cons, List.length_append, entryField_length, ih, List.length_cons]; omega

/-- The frame's length (20 R71). -/
theorem frameBytes_length (m : Int) (es : List (Nat × Nat)) (n : Nat) (p : List Byte) :
    (frameBytes m es n p).length = 12 + 6 * es.length + p.length := by
  simp only [frameBytes, List.length_append, field32_length, bytesBE_length, entries_length]
  omega

/-- A 4-byte field of a number that is not negative. -/
theorem field32_natCast {k : Nat} (hk : k < 2 ^ 32) : field32 (k : Int) = bytesBE 4 k := by
  rw [field32, sext32, BitVec.ofInt_natCast, BitVec.toNat_ofNat, Nat.mod_eq_of_lt hk]

/-! ### Fields -/

/-- The number in the `k` bytes from offset `o`. -/
def fieldAt (bs : List Byte) (o k : Nat) : Nat := be ((bs.drop o).take k)

theorem fieldAt_append {pre f rest : List Byte} {o k : Nat} (ho : pre.length = o) (hk : f.length = k) :
    fieldAt (pre ++ (f ++ rest)) o k = be f := by
  rw [fieldAt, ← ho, ← hk, List.drop_left, List.take_left]

theorem be_bytesBE_of_lt {k v : Nat} (hv : v < 256 ^ k) : be (bytesBE k v) = v := by
  rw [be_bytesBE, Nat.mod_eq_of_lt hv]

theorem maxCode_field (m : Int) (es : List (Nat × Nat)) (n : Nat) (p : List Byte) :
    fieldAt (frameBytes m es n p) 0 4 = (sext32 m).toNat := by
  have hfield : fieldAt ([] ++ (field32 m ++ (bytesBE 4 es.length ++ es.flatMap entryField ++ bytesBE 4 n ++ p))) 0 4
      = be (field32 m) := fieldAt_append rfl (field32_length m)
  rw [field32, be_bytesBE_of_lt (sext32 m).isLt] at hfield
  simpa [frameBytes, field32] using hfield

theorem count_field (hlen : es.length < 2 ^ 32) : fieldAt (frameBytes m es n p) 4 4 = es.length := by
  have hfield : fieldAt (field32 m ++ (bytesBE 4 es.length ++ (es.flatMap entryField ++ bytesBE 4 n ++ p))) 4 4
      = be (bytesBE 4 es.length) := fieldAt_append (field32_length m) (bytesBE_length _ _)
  rw [be_bytesBE_of_lt hlen] at hfield
  simpa [frameBytes] using hfield

theorem totalBits_field (hn : n < 2 ^ 32) : fieldAt (frameBytes m es n p) (8 + 6 * es.length) 4 = n := by
  have hfield : fieldAt (field32 m ++ bytesBE 4 es.length ++ es.flatMap entryField ++ (bytesBE 4 n ++ p))
      (8 + 6 * es.length) 4 = be (bytesBE 4 n) := fieldAt_append (by simp; omega) (bytesBE_length _ _)
  rw [be_bytesBE_of_lt hn] at hfield
  simpa [frameBytes] using hfield

theorem payload_field (j : Nat) : (frameBytes m es n p)[12 + 6 * es.length + j]? = p[j]? := by
  have hlen : (field32 m ++ bytesBE 4 es.length ++ es.flatMap entryField ++ bytesBE 4 n).length
      = 12 + 6 * es.length := by
    simp only [List.length_append, field32_length, bytesBE_length, entries_length]; omega
  rw [frameBytes, ← hlen, List.getElem?_append_right (Nat.le_add_right _ _), Nat.add_sub_cancel_left]

/-- The frame around its i-th entry. -/
theorem exists_around_entry (hi : i < es.length) : ∃ pre rest : List Byte, pre.length = 8 + 6 * i
    ∧ frameBytes m es n p = pre ++ (bytesBE 2 es[i].1 ++ (bytesBE 4 es[i].2 ++ rest)) := by
  refine ⟨field32 m ++ bytesBE 4 es.length ++ (es.take i).flatMap entryField,
    (es.drop (i + 1)).flatMap entryField ++ bytesBE 4 n ++ p, ?_, ?_⟩
  · simp only [List.length_append, field32_length, bytesBE_length, entries_length, List.length_take]
    omega
  · have hes : es.flatMap entryField
        = (es.take i).flatMap entryField ++ (entryField es[i] ++ (es.drop (i + 1)).flatMap entryField) := by
      rw [← List.flatMap_cons, List.getElem_cons_drop, ← List.flatMap_append, List.take_append_drop]
    rw [frameBytes, hes, entryField]
    simp only [List.append_assoc]

theorem code_field (hi : i < es.length) (hcode : es[i].1 < 65536) :
    fieldAt (frameBytes m es n p) (8 + 6 * i) 2 = es[i].1 := by
  obtain ⟨pre, rest, hpre, hframe⟩ := exists_around_entry (m := m) (n := n) (p := p) hi
  rw [hframe, fieldAt_append hpre (bytesBE_length _ _), be_bytesBE_of_lt hcode]

theorem freq_field (hi : i < es.length) (hfreq : es[i].2 < 2 ^ 32) :
    fieldAt (frameBytes m es n p) (8 + 6 * i + 2) 4 = es[i].2 := by
  obtain ⟨pre, rest, hpre, hframe⟩ := exists_around_entry (m := m) (n := n) (p := p) hi
  rw [hframe, ← List.append_assoc, fieldAt_append (by simp [hpre]) (bytesBE_length _ _), be_bytesBE_of_lt hfreq]

/-! ### `Put` (47 R251) -/

/-- Two writes one after the other are one write of both. -/
theorem write_write {α : Type} (w : Memory α) (a : Nat) (us vs : List α) :
    Memory.write (Memory.write w a us) (a + us.length) vs = Memory.write w a (us ++ vs) := by
  have hrun (b : Nat) (ws : List α) : Memory.run b (ws ++ vs) = Memory.run b ws ++ Memory.run (b + ws.length) vs := by
    induction ws generalizing b with
    | nil => rfl
    | cons v ws ih =>
      rw [List.cons_append, Memory.run, Memory.run, ih, List.length_cons, Nat.add_assoc, Nat.add_comm 1]; rfl
  have hlow : (Memory.write w a us).filter (fun e => decide (e.1 < a + us.length))
      = w.filter (fun e => decide (e.1 < a)) ++ Memory.run a us := LiveState.below_write w a us
  have hhigh : (Memory.write w a us).filter (fun e => decide (a + us.length + vs.length ≤ e.1))
      = w.filter (fun e => decide (a + us.length + vs.length ≤ e.1)) := by
    have hnone : (Memory.run a us).filter (fun e => decide (a + us.length + vs.length ≤ e.1)) = [] :=
      List.filter_eq_nil_iff.mpr fun e he => by
        have := Memory.mem_run_index he
        simp only [decide_eq_true_eq]; omega
    have hleft : ∀ e : Nat × α, (decide (a + us.length + vs.length ≤ e.1) && decide (e.1 < a)) = false := fun e => by
      rw [← Bool.decide_and, decide_eq_false_iff_not]; omega
    have hright : ∀ e : Nat × α, (decide (a + us.length + vs.length ≤ e.1) && decide (a + us.length ≤ e.1))
        = decide (a + us.length + vs.length ≤ e.1) := fun e => by
      rw [← Bool.decide_and, decide_eq_decide]; omega
    simp only [Memory.write, List.filter_append, List.filter_filter, hnone, hleft, hright, List.filter_false,
      List.nil_append]
  rw [Memory.write, hlow, hhigh, Memory.write, hrun, List.length_append]
  simp only [List.append_assoc, Nat.add_assoc]

theorem put_put (us vs : List Byte) (s : State) : put vs (put us s) = put (us ++ vs) s := by
  simp only [put, write_write, List.length_append, Nat.add_assoc]

/-- The elements of a run that was written, as MemRead gives them (00_scope.md R14). -/
theorem readRun_write {α : Type} (w : Memory α) (vs : List α) {o k : Nat} (hok : o + k ≤ vs.length) :
    Memory.readRun (Memory.write w 0 vs) o k = some ((vs.drop o).take k) := by
  refine Memory.readRun_eq_some.mpr ⟨by rw [List.length_take, List.length_drop]; omega, fun i hi => ?_⟩
  rw [Memory.read_write, if_pos (by omega), List.getElem?_take_of_lt hi, List.getElem?_drop, Nat.sub_zero]

/-! ### FWR.RUN -/

section
variable {s t : State}

theorem fieldOverflows_eq_true :
    fieldOverflows s = true ↔ (∃ e ∈ s.freq, 2147483647 < e.2) ∨ 2147483647 < s.totalBits := by
  rw [fieldOverflows, Bool.or_eq_true, List.any_eq_true]
  simp only [decide_eq_true_eq]
  rfl

theorem fieldOverflows_eq_false :
    fieldOverflows s = false ↔ (∀ e ∈ s.freq, e.2 ≤ 2147483647) ∧ s.totalBits ≤ 2147483647 := by
  rw [← Bool.not_eq_true, fieldOverflows_eq_true, not_or]
  simp only [not_exists, not_and, not_lt]

theorem fwrRun_overflows (h : fieldOverflows s = true) : fwrRun s = .raised .fieldOverflow s := by
  rw [fwrRun, if_pos h]

theorem fwrRun_full (h : fieldOverflows s = false) (hfull : overCap (frameLength s) s.caps.outCap = true) :
    fwrRun s = .raised .capacityExceeded s := by
  rw [fwrRun, h, if_neg Bool.false_ne_true, if_pos hfull]

/-- The entries as the writer puts them are the fields of the frame (30 R96). -/
theorem entryBytes_eq (hfreq : ∀ e ∈ es, e.2 ≤ 2147483647) : entryBytes es = es.flatMap entryField := by
  rw [entryBytes, freqEntries]
  induction es with
  | nil => rfl
  | cons e es ih =>
    have he := hfreq e List.mem_cons_self
    rw [List.flatMap_cons, List.flatMap_cons, ih fun x hx => hfreq x (List.mem_cons_of_mem _ hx), entryField, field16,
      field32_natCast (by omega)]

/-- The state after FWR.RUN: the frame at the start of OUT. -/
def framed (s : State) (p : List Byte) : State :=
  { s with
    outMem := Memory.write s.outMem 0 (frameBytes s.maxCode s.freq s.totalBits p)
    outLen := (frameBytes s.maxCode s.freq s.totalBits p).length }

/-- FWR.RUN writes the frame when the numbers fit their fields and the frame fits OUT. -/
theorem fwrRun_framed (hcnt : s.entryCnt = s.freq.length) (hlen : s.freq.length < 2 ^ 32)
    (h : fieldOverflows s = false) (hroom : withinCap (frameLength s) s.caps.outCap)
    (hp : s.bitsRun 0 (ceil8 s.totalBits) = some p) : fwrRun s = .ok () (framed s p) := by
  obtain ⟨hfreq, hbits⟩ := fieldOverflows_eq_false.mp h
  rw [fwrRun, h, if_neg Bool.false_ne_true, if_neg (by simp [hroom]), hp]
  simp only [put_put, hcnt, entryBytes_eq hfreq, field32_natCast hlen, field32_natCast (Nat.lt_of_le_of_lt hbits
    (by decide : 2147483647 < 2 ^ 32))]
  simp only [put, framed, frameBytes, Nat.zero_add]
  rw [hcnt]

end

end Sys2Proof.Proofs.FrameBytes
end

section
/-!
What FWR.RUN (47_frame_serdes.md R251, R252) leaves in OUT, and what it refuses.
-/
namespace Sys2Proof.Proofs.FrameWriter
open Sys2Proof Sys2Proof.Machine Sys2Proof.Proofs.FrameBytes Sys2Proof.Proofs.Tables

section
variable {s : State} {p : List Byte}

/-- The valid bytes of BITS, as FWR.RUN reads them. -/
theorem bitsRun_eq_some :
    s.bitsRun 0 (ceil8 s.totalBits) = some p
      ↔ p.length = ceil8 s.totalBits ∧ ∀ j, j < ceil8 s.totalBits → Memory.read s.bits j = p[j]? := by
  rw [State.bitsRun, if_pos (Nat.zero_add _).le, Memory.readRun_eq_some]
  simp only [Nat.zero_add]

theorem exists_bitsRun (h : Memory.listed s.bits (ceil8 s.totalBits)) :
    ∃ p, s.bitsRun 0 (ceil8 s.totalBits) = some p := by
  rw [State.bitsRun, if_pos (Nat.zero_add _).le]
  exact Option.isSome_iff_exists.mp (Memory.readRun_isSome_of_listed h (Nat.zero_add _).le)

/-- A field of the frame, read back from OUT. -/
theorem readRun_framed {o k : Nat} (hok : o + k ≤ 12 + 6 * s.freq.length) :
    (Memory.readRun (framed s p).outMem o k).map be
      = some (fieldAt (frameBytes s.maxCode s.freq s.totalBits p) o k) := by
  have hlen := frameBytes_length s.maxCode s.freq s.totalBits p
  rw [framed, readRun_write _ _ (by omega)]
  rfl

/-- OUT after FWR.RUN, element by element: the frame, and what was there beyond it. -/
theorem read_framed (k : Nat) :
    Memory.read (framed s p).outMem k
      = if k < 12 + 6 * s.freq.length + p.length then (frameBytes s.maxCode s.freq s.totalBits p)[k]?
        else Memory.read s.outMem k := by
  rw [framed, Memory.read_write, frameBytes_length]
  simp

end

/-- Settles O44: the range checks come first, then the capacity. -/
theorem writerRefusesInOrder : Obligations.WriterRefusesInOrder := fun _ =>
  ⟨fun h => congrArg Res.outcome (fwrRun_overflows (fieldOverflows_eq_true.mpr h)),
    fun hfreq hbits hfull => congrArg Res.outcome (fwrRun_full (fieldOverflows_eq_false.mpr ⟨hfreq, hbits⟩) hfull)⟩

/-- Settles O43: OUT begins with the frame, whose fields are at the offsets of 20 R70. -/
theorem writerLaysOutTheFrame : Obligations.WriterLaysOutTheFrame := by
  intro s hwf hentries hheader htotal hlisted hroom
  obtain ⟨hcnt, -⟩ := hheader
  obtain ⟨p, hp⟩ := exists_bitsRun hlisted
  obtain ⟨hplen, hpread⟩ := bitsRun_eq_some.mp hp
  have hlen : s.freq.length ≤ 65536 := length_le_of_wf hwf.1 fun e he => (hentries e he).1
  have hfits : fieldOverflows s = false := fieldOverflows_eq_false.mpr ⟨fun e he => (hentries e he).2, htotal⟩
  have hrun := fwrRun_framed hcnt (by omega) hfits hroom hp
  rw [hcnt, ← hplen]
  refine ⟨framed s p, congrArg Res.outcome hrun, ?frame, ?maxCode, ?count, fun i hi => ?entry, ?total,
    fun j hj => ?payload, fun k hk => ?beyond⟩
  case frame => rw [← frameBytes_length s.maxCode s.freq s.totalBits p, ← hcnt]; rfl
  case maxCode => rw [readRun_framed (by omega), maxCode_field]; rfl
  case count => rw [readRun_framed (by omega), count_field (by omega)]
  case entry =>
    have hentry := hentries s.freq[i] (List.getElem_mem hi)
    rw [readRun_framed (by omega), readRun_framed (by omega), code_field hi hentry.1, freq_field hi (by omega),
      List.getElem?_eq_getElem hi]
    exact ⟨rfl, rfl⟩
  case total => rw [readRun_framed (by omega), totalBits_field (by omega)]
  case payload => rw [read_framed, if_pos (by omega), payload_field, hpread j (hplen ▸ hj)]
  case beyond => rw [read_framed, if_neg (by omega)]

end Sys2Proof.Proofs.FrameWriter
end

section
/-!
FRD.RUN (47_frame_serdes.md R261 to R265) as a grammar: each part ends exactly where the bytes still unread begin
with its fields, and the whole ends exactly on the frames that are consistent.
-/
namespace Sys2Proof.Proofs.FrameReader
open Sys2Proof Sys2Proof.Machine Sys2Proof.Proofs.FieldNumbers Sys2Proof.Proofs.FrameOutput
open Sys2Proof.Proofs.FrameBytes Sys2Proof.Proofs.Tables

variable {s t u : State} {bs f rest : List Byte} {n v c : Nat} {m : Int} {es : List (Nat × Nat)} {p : List Byte}

/-! ### The bytes still unread -/

/-- The bytes of IN from IPOS to its end. -/
def Unread (s : State) (bs : List Byte) : Prop :=
  s.ipos + bs.length = s.inLen ∧ ∀ i, i < bs.length → s.inAt (s.ipos + i) = bs[i]?

/-- The state after `n` bytes more have been read. -/
def skip (n : Nat) (s : State) : State := { s with ipos := s.ipos + n }

theorem Unread.skip (h : Unread s (f ++ rest)) (hn : f.length = n) : Unread (skip n s) rest := by
  obtain ⟨hlen, hread⟩ := h
  rw [List.length_append] at hlen hread
  refine ⟨by simp only [FrameReader.skip]; omega, fun i hi => ?_⟩
  have hat := hread (n + i) (by omega)
  rw [← Nat.add_assoc, List.getElem?_append_right (by omega), hn, Nat.add_sub_cancel_left] at hat
  exact hat

/-- What `Take(n)` reads of IN (00_scope.md R14). -/
theorem Unread.inRun (h : Unread s bs) (hn : n ≤ bs.length) : s.inRun s.ipos n = some (bs.take n) := by
  obtain ⟨hlen, hread⟩ := h
  rw [State.inRun, if_pos (by omega)]
  refine Memory.readRun_eq_some.mpr ⟨by rw [List.length_take]; omega, fun i hi => ?_⟩
  have hat := hread i (by omega)
  rw [State.inAt, if_pos (by omega)] at hat
  rw [hat, List.getElem?_take_of_lt hi]

/-- FREQ after these entries have been read into it. -/
def tableFrom (freq : Memory Nat) (es : List (Nat × Nat)) : Memory Nat :=
  es.foldl (fun w e => freqWrite w e.1 e.2) freq

/-- The states after parts 1 and 2, after an entry, after part 3 and after part 4 of the reader. -/
def afterHeader (s : State) (m : Int) (e : Nat) : State := { skip 8 s with maxCode := m, entryCnt := e }

def afterEntry (s : State) (e : Nat × Nat) : State := { skip 6 s with freq := freqWrite s.freq e.1 e.2 }

def afterTable (s : State) (es : List (Nat × Nat)) : State :=
  { skip (6 * es.length) s with freq := tableFrom s.freq es }

def afterTotal (s : State) (n : Nat) : State := { skip 4 s with totalBits := n }

theorem Unread.afterHeader {e : Nat} (h : Unread s (field32 m ++ (bytesBE 4 e ++ rest))) :
    Unread (afterHeader s m e) rest := by
  rw [← List.append_assoc] at h
  exact h.skip (by simp)

theorem Unread.afterEntry {e : Nat × Nat} (h : Unread s (entryField e ++ rest)) : Unread (afterEntry s e) rest :=
  h.skip (entryField_length e)

/-- The table is read entry by entry. -/
theorem afterTable_cons (e : Nat × Nat) : afterTable (afterEntry s e) es = afterTable s (e :: es) := by
  have hskip : s.ipos + 6 + 6 * es.length = s.ipos + 6 * (es.length + 1) := by omega
  simp only [FrameReader.afterTable, FrameReader.afterEntry, FrameReader.skip, tableFrom, List.foldl_cons,
    List.length_cons, hskip]

theorem Unread.afterTable (h : Unread s (es.flatMap entryField ++ rest)) : Unread (afterTable s es) rest :=
  h.skip (entries_length es)

theorem Unread.afterTotal (h : Unread s (bytesBE 4 n ++ rest)) : Unread (afterTotal s n) rest :=
  h.skip (bytesBE_length 4 n)

theorem take_enough (h : Unread s bs) (hn : n ≤ bs.length) : take n s = .ok (be (bs.take n)) (skip n s) := by
  have hlen := h.1
  rw [take, if_neg (by omega), h.inRun hn]
  rfl

theorem take_short (h : Unread s bs) (hn : bs.length < n) : take n s = .raised .malformedFrame s := by
  have hlen := h.1
  rw [take, if_pos (by omega)]

/-! ### The parts of the reader -/

/-- `Take(n)` ends on the n bytes of its number. -/
theorem take_eq_ok_iff (h : Unread s bs) :
    take n s = .ok v t ↔ ∃ rest, bs = bytesBE n v ++ rest ∧ v < 256 ^ n ∧ t = skip n s := by
  constructor
  · intro htake
    rcases Nat.lt_or_ge bs.length n with hn | hn
    · rw [take_short h hn] at htake
      cases htake
    · rw [take_enough h hn] at htake
      cases htake
      have hlen : (bs.take n).length = n := by rw [List.length_take]; omega
      have hbytes := bytesBE_be (bs.take n)
      have hlt := be_lt (bs.take n)
      rw [hlen] at hbytes hlt
      exact ⟨bs.drop n, by rw [hbytes, List.take_append_drop], hlt, rfl⟩
  · rintro ⟨rest, rfl, hv, rfl⟩
    rw [take_enough h (by simp), List.take_left' (bytesBE_length n v), be_bytesBE_of_lt hv]

/-- A signed field ends on the four bytes of its number (30 R94). -/
theorem takeSigned_eq_ok_iff (h : Unread s bs) :
    takeSigned s = .ok m t ↔ ∃ rest, bs = field32 m ++ rest ∧ -(2 ^ 31) ≤ m ∧ m < 2 ^ 31 ∧ t = skip 4 s := by
  rw [takeSigned, Res.bind_eq_ok]
  simp only [take_eq_ok_iff h, Res.ok.injEq]
  constructor
  · rintro ⟨v, _, ⟨rest, rfl, hv, rfl⟩, rfl, rfl⟩
    have hword : (BitVec.ofNat 32 v).toNat = v := by
      rw [BitVec.toNat_ofNat, Nat.mod_eq_of_lt (lt_of_lt_of_eq hv (by decide))]
    have hsigned : signed32 v = (BitVec.ofNat 32 v).toInt := by rw [← signed32_toNat, hword]
    have hfield : field32 (signed32 v) = bytesBE 4 v := by
      rw [field32, sext32, hsigned, BitVec.ofInt_toInt, hword]
    have hlo := (BitVec.ofNat 32 v).le_toInt
    have hhi := (BitVec.ofNat 32 v).toInt_lt
    exact ⟨rest, by rw [hfield], hsigned ▸ hlo, hsigned ▸ hhi, rfl⟩
  · rintro ⟨rest, rfl, hlo, hhi, rfl⟩
    exact ⟨_, _, ⟨rest, rfl, (sext32 m).isLt, rfl⟩, signed32_sext32 hlo hhi, rfl⟩

/-- Parts 1 and 2 (R262). -/
theorem readHeader_eq_ok_iff (h : Unread s bs) :
    readHeader s = .ok () t ↔ ∃ m e rest, bs = field32 m ++ (bytesBE 4 e ++ rest) ∧ -1 ≤ m ∧ m ≤ 65535
      ∧ (e : Int) ≤ m + 1 ∧ t = afterHeader s m e := by
  simp only [readHeader, Res.bind_eq_ok, takeSigned_eq_ok_iff h]
  constructor
  · rintro ⟨m, _, ⟨rest, rfl, -, -, rfl⟩, hm⟩
    split at hm
    next => cases hm
    next hbounds =>
      have hunread : Unread { skip 4 s with maxCode := m } rest := h.skip (field32_length m)
      obtain ⟨e, _, htake, he⟩ := Res.bind_eq_ok.mp hm
      obtain ⟨rest', rfl, -, -, rfl⟩ := (takeSigned_eq_ok_iff hunread).mp htake
      split at he
      next => cases he
      next hcount =>
        cases he
        have hcast : (e.toNat : Int) = e := Int.toNat_of_nonneg (by omega)
        refine ⟨m, e.toNat, rest', ?_, by omega, by omega, by omega, rfl⟩
        rw [← hcast, field32_natCast (by omega), Int.toNat_natCast]
  · rintro ⟨m, e, rest, rfl, hlo, hhi, he, rfl⟩
    have hunread : Unread { skip 4 s with maxCode := m } (bytesBE 4 e ++ rest) := h.skip (field32_length m)
    rw [← field32_natCast (by omega)] at hunread
    refine ⟨m, skip 4 s, ⟨_, rfl, by omega, by omega, rfl⟩, ?_⟩
    rw [if_neg (by omega),
      (takeSigned_eq_ok_iff (m := e) hunread).mpr ⟨rest, rfl, by omega, by omega, rfl⟩, Res.bind_ok, if_neg (by omega),
      Int.toNat_natCast]
    rfl

/-- What is read of an entry is a code not above `m` that is new, with a frequency (R263). -/
def Acceptable (m : Int) (freq : Memory Nat) (e : Nat × Nat) : Prop :=
  e.1 < 65536 ∧ (e.1 : Int) ≤ m ∧ freqAt freq e.1 = 0 ∧ 1 ≤ e.2 ∧ e.2 ≤ 2147483647

/-- One entry of part 3. -/
theorem readEntry_eq_ok_iff (h : Unread s bs) :
    readEntry m s = .ok c t ↔ ∃ f rest, bs = entryField (c, f) ++ rest ∧ Acceptable m s.freq (c, f)
      ∧ t = afterEntry s (c, f) := by
  simp only [readEntry, Res.bind_eq_ok, take_eq_ok_iff h]
  constructor
  · rintro ⟨c, _, ⟨rest, rfl, hc, rfl⟩, hentry⟩
    have hunread : Unread (skip 2 s) rest := h.skip (bytesBE_length 2 c)
    split at hentry
    next => cases hentry
    next hle =>
      split at hentry
      next => cases hentry
      next hnew =>
        obtain ⟨f, _, htake, hf⟩ := Res.bind_eq_ok.mp hentry
        obtain ⟨rest', rfl, -, hhi, rfl⟩ := (takeSigned_eq_ok_iff hunread).mp htake
        split at hf
        next => cases hf
        next hpos =>
          cases hf
          have hcast : (f.toNat : Int) = f := Int.toNat_of_nonneg (by omega)
          refine ⟨f.toNat, rest', ?_, ⟨hc, Int.not_lt.mp hle, not_not.mp hnew, ?_, ?_⟩, rfl⟩
          · rw [← hcast, field32_natCast (by omega), Int.toNat_natCast, entryField, List.append_assoc]
          · change 1 ≤ f.toNat; omega
          · change f.toNat ≤ 2147483647; omega
  · rintro ⟨f, rest, rfl, ⟨hc, hle, hnew, hpos, hhi⟩, rfl⟩
    simp only at hc hle hnew hpos hhi
    rw [entryField, List.append_assoc] at h ⊢
    have hunread : Unread (skip 2 s) (bytesBE 4 f ++ rest) := h.skip (bytesBE_length 2 c)
    rw [← field32_natCast (by omega)] at hunread
    have hnew' : ¬ freqAt (skip 2 s).freq c ≠ 0 := not_not.mpr hnew
    refine ⟨c, skip 2 s, ⟨_, rfl, hc, rfl⟩, ?_⟩
    rw [if_neg (Int.not_lt.mpr hle), if_neg hnew',
      (takeSigned_eq_ok_iff (m := f) hunread).mpr ⟨rest, rfl, by omega, by omega, rfl⟩, Res.bind_ok, if_neg (by omega),
      Int.toNat_natCast]
    rfl

/-! ### The table the entries make -/

/-- The largest of `top` and the codes of the entries. -/
def topFrom (top : Int) (es : List (Nat × Nat)) : Int := es.foldl (fun a e => max a (e.1 : Int)) top

theorem tableFrom_cons (freq : Memory Nat) (e : Nat × Nat) (es : List (Nat × Nat)) :
    tableFrom freq (e :: es) = tableFrom (freqWrite freq e.1 e.2) es := rfl

theorem topFrom_cons (top : Int) (e : Nat × Nat) (es : List (Nat × Nat)) :
    topFrom top (e :: es) = topFrom (max top e.1) es := rfl

theorem freqWf_tableFrom (es : List (Nat × Nat)) :
    ∀ {freq : Memory Nat}, freqWf freq → freqWf (tableFrom freq es) := by
  induction es with
  | nil => exact fun h => h
  | cons e es ih => exact fun h => ih (freqWf_freqWrite h e.1 e.2)

theorem freqAt_tableFrom_of_not_mem (es : List (Nat × Nat)) : ∀ {freq : Memory Nat} {k : Nat},
    k ∉ es.map Prod.fst → freqAt (tableFrom freq es) k = freqAt freq k := by
  induction es with
  | nil => exact fun _ => rfl
  | cons e es ih =>
    intro freq k hk
    rw [List.map_cons, List.mem_cons, not_or] at hk
    rw [tableFrom_cons, ih hk.2, freqAt_freqWrite, if_neg hk.1]

/-- An entry with a code of its own gives the code its frequency. -/
theorem freqAt_tableFrom_of_mem (es : List (Nat × Nat)) : ∀ {freq : Memory Nat} {e : Nat × Nat},
    (es.map Prod.fst).Nodup → e ∈ es → freqAt (tableFrom freq es) e.1 = e.2 := by
  induction es with
  | nil => exact fun _ he => absurd he (List.not_mem_nil)
  | cons x es ih =>
    intro freq e hnodup he
    rw [List.map_cons, List.nodup_cons] at hnodup
    rcases List.mem_cons.mp he with rfl | he
    · rw [tableFrom_cons, freqAt_tableFrom_of_not_mem es hnodup.1, freqAt_freqWrite, if_pos rfl]
    · rw [tableFrom_cons]
      exact ih hnodup.2 he

/-- Two tables in canonical form with the same frequencies are the same list. -/
theorem eq_of_freqAt_eq {w w' : Memory Nat} (hw : freqWf w) (hw' : freqWf w') (h : ∀ k, freqAt w k = freqAt w' k) :
    w = w' := by
  have hread {x : Memory Nat} (hx : freqWf x) (k : Nat) :
      Memory.read x k = if freqAt x k = 0 then none else some (freqAt x k) := by
    split
    next hzero => exact read_eq_none_of_freqAt hx hzero
    next hpos =>
      exact (Memory.mem_iff_read hx.1 k _).mp ((mem_freqEntries_iff hx k _).mpr ⟨rfl, Nat.pos_of_ne_zero hpos⟩)
  exact Memory.ext_of_wf hw.1 hw'.1 fun k => by rw [hread hw, hread hw', h]

theorem freqWf_nil : freqWf [] := ⟨List.Pairwise.nil, by simp⟩

/-- The entries of a table, read into an empty one, make that table. -/
theorem tableFrom_self (hes : freqWf es) : tableFrom [] es = es := by
  refine eq_of_freqAt_eq (freqWf_tableFrom es freqWf_nil) hes fun k => ?_
  by_cases hk : k ∈ es.map Prod.fst
  · obtain ⟨e, he, rfl⟩ := List.mem_map.mp hk
    rw [freqAt_tableFrom_of_mem es hes.1.nodup he, ((mem_freqEntries_iff hes e.1 e.2).mp he).1]
  · rw [freqAt_tableFrom_of_not_mem es hk]
    by_contra hne
    have hmem := (mem_freqEntries_iff hes k _).mpr ⟨rfl, Nat.pos_of_ne_zero (Ne.symm hne)⟩
    exact hk (List.mem_map_of_mem (f := Prod.fst) hmem)

/-- The codes of the table are those of the entries. -/
theorem exists_entry_of_mem_tableFrom {e : Nat × Nat} (hnodup : (es.map Prod.fst).Nodup) (he : e ∈ tableFrom [] es) :
    e ∈ es := by
  obtain ⟨hfreq, hpos⟩ := (mem_freqEntries_iff (freqWf_tableFrom es freqWf_nil) e.1 e.2).mp he
  by_cases hk : e.1 ∈ es.map Prod.fst
  · obtain ⟨x, hx, hcode⟩ := List.mem_map.mp hk
    have hsame := freqAt_tableFrom_of_mem (freq := []) es hnodup hx
    rw [hcode, hfreq] at hsame
    rwa [Prod.ext_iff.mpr ⟨hcode.symm, hsame⟩]
  · rw [freqAt_tableFrom_of_not_mem es hk] at hfreq
    change 0 = e.2 at hfreq
    omega

theorem mem_tableFrom {e : Nat × Nat} (hnodup : (es.map Prod.fst).Nodup) (hpos : 1 ≤ e.2) (he : e ∈ es) :
    e ∈ tableFrom [] es :=
  (mem_freqEntries_iff (freqWf_tableFrom es freqWf_nil) e.1 e.2).mpr ⟨freqAt_tableFrom_of_mem es hnodup he, hpos⟩

theorem le_topFrom (es : List (Nat × Nat)) :
    ∀ top : Int, top ≤ topFrom top es ∧ ∀ e ∈ es, (e.1 : Int) ≤ topFrom top es := by
  induction es with
  | nil => exact fun top => ⟨le_rfl, by simp⟩
  | cons e es ih =>
    intro top
    obtain ⟨htop, hrest⟩ := ih (max top e.1)
    rw [topFrom_cons]
    refine ⟨(le_max_left _ _).trans htop, fun x hx => ?_⟩
    rcases List.mem_cons.mp hx with rfl | hx
    · exact (le_max_right _ _).trans htop
    · exact hrest x hx

theorem topFrom_mem (es : List (Nat × Nat)) :
    ∀ top : Int, topFrom top es = top ∨ ∃ e ∈ es, topFrom top es = e.1 := by
  induction es with
  | nil => exact fun top => .inl rfl
  | cons e es ih =>
    intro top
    rw [topFrom_cons]
    rcases ih (max top e.1) with h | ⟨x, hx, h⟩
    · rcases max_choice top (e.1 : Int) with hm | hm
      · exact .inl (h.trans hm)
      · exact .inr ⟨e, List.mem_cons_self, h.trans hm⟩
    · exact .inr ⟨x, List.mem_cons_of_mem _ hx, h⟩

/-! ### Part 3 -/

/-- An entry after another one is acceptable where it was before and has another code. -/
theorem acceptable_freqWrite {freq : Memory Nat} {e x : Nat × Nat} (hx : 1 ≤ x.2) :
    Acceptable m (freqWrite freq x.1 x.2) e ↔ Acceptable m freq e ∧ e.1 ≠ x.1 := by
  rw [Acceptable, Acceptable, freqAt_freqWrite]
  by_cases hsame : e.1 = x.1
  · simp only [hsame, if_true, ne_eq, not_true, and_false, iff_false]
    omega
  · simp [hsame]

theorem readEntries_eq_ok_iff (n : Nat) : ∀ {s : State} {bs : List Byte} {top top' : Int}, Unread s bs →
    (readEntries m n top s = .ok top' t ↔ ∃ es rest, es.length = n ∧ bs = es.flatMap entryField ++ rest
      ∧ (es.map Prod.fst).Nodup ∧ (∀ e ∈ es, Acceptable m s.freq e) ∧ top' = topFrom top es
      ∧ t = afterTable s es) := by
  induction n with
  | zero =>
    intro s bs top top' h
    rw [readEntries, Res.ok.injEq]
    constructor
    · rintro ⟨rfl, rfl⟩
      exact ⟨[], bs, rfl, rfl, List.nodup_nil, by simp, rfl, rfl⟩
    · rintro ⟨es, rest, hlen, -, -, -, rfl, rfl⟩
      obtain rfl := List.length_eq_zero_iff.mp hlen
      exact ⟨rfl, rfl⟩
  | succ n ih =>
    intro s bs top top' h
    simp only [readEntries, Res.bind_eq_ok, readEntry_eq_ok_iff h]
    constructor
    · rintro ⟨c, _, ⟨f, rest, rfl, hentry, rfl⟩, hrest⟩
      obtain ⟨es, rest', rfl, rfl, hnodup, hes, rfl, rfl⟩ := (ih h.afterEntry).mp hrest
      have hes' := fun e he => (acceptable_freqWrite (x := (c, f)) hentry.2.2.2.1).mp (hes e he)
      refine ⟨(c, f) :: es, rest', rfl, by rw [List.flatMap_cons, List.append_assoc], ?_, ?_, rfl,
        afterTable_cons _⟩
      · rw [List.map_cons, List.nodup_cons]
        refine ⟨fun hmem => ?_, hnodup⟩
        obtain ⟨e, he, hcode⟩ := List.mem_map.mp hmem
        exact (hes' e he).2 hcode
      · intro e he
        rcases List.mem_cons.mp he with rfl | he
        · exact hentry
        · exact (hes' e he).1
    · rintro ⟨es, rest, hlen, rfl, hnodup, hes, rfl, rfl⟩
      cases es with
      | nil => cases hlen
      | cons x es =>
        obtain ⟨c, f⟩ := x
        have hentry := hes _ List.mem_cons_self
        rw [List.map_cons, List.nodup_cons] at hnodup
        rw [List.flatMap_cons, List.append_assoc] at h ⊢
        refine ⟨c, _, ⟨f, _, rfl, hentry, rfl⟩, (ih h.afterEntry).mpr ⟨es, rest, Nat.succ_injective hlen, rfl,
          hnodup.2, fun e he => (acceptable_freqWrite (x := (c, f)) hentry.2.2.2.1).mpr 
            ⟨hes e (List.mem_cons_of_mem _ he), fun heq => hnodup.1 (heq ▸ List.mem_map_of_mem (f := Prod.fst) he)⟩,
          rfl, (afterTable_cons _).symm⟩⟩

theorem readTable_eq_ok_iff (h : Unread s bs) :
    readTable s = .ok () t ↔ ∃ es rest, es.length = s.entryCnt ∧ bs = es.flatMap entryField ++ rest
      ∧ (es.map Prod.fst).Nodup ∧ (∀ e ∈ es, Acceptable s.maxCode s.freq e) ∧ s.maxCode = topFrom (-1) es
      ∧ t = afterTable s es := by
  simp only [readTable, Res.bind_eq_ok, readEntries_eq_ok_iff _ h]
  constructor
  · rintro ⟨_, _, ⟨es, rest, hlen, rfl, hnodup, hes, rfl, rfl⟩, htop⟩
    split at htop
    next => cases htop
    next heq =>
      cases htop
      exact ⟨es, rest, hlen, rfl, hnodup, hes, (not_not.mp heq).symm, rfl⟩
  · rintro ⟨es, rest, hlen, rfl, hnodup, hes, htop, rfl⟩
    exact ⟨_, _, ⟨es, rest, hlen, rfl, hnodup, hes, rfl, rfl⟩, if_neg (not_not.mpr htop.symm)⟩

/-! ### Parts 4 and 5 -/

theorem readTotalBits_eq_ok_iff (h : Unread s bs) :
    readTotalBits s = .ok () t ↔ ∃ n rest, bs = bytesBE 4 n ++ rest ∧ n ≤ 2147483647 ∧ (s.entryCnt = 0 → n = 0)
      ∧ t = afterTotal s n := by
  simp only [readTotalBits, Res.bind_eq_ok, takeSigned_eq_ok_iff h]
  constructor
  · rintro ⟨b, _, ⟨rest, rfl, -, hhi, rfl⟩, hb⟩
    split at hb
    next => cases hb
    next hneg =>
      split at hb
      next => cases hb
      next hempty =>
        cases hb
        have hcast : (b.toNat : Int) = b := Int.toNat_of_nonneg (by omega)
        refine ⟨b.toNat, rest, ?_, by omega, fun hcnt => ?_, rfl⟩
        · rw [← hcast, field32_natCast (by omega), Int.toNat_natCast]
        · by_contra hne
          exact hempty ⟨hcnt, by omega⟩
  · rintro ⟨n, rest, rfl, hn, hempty, rfl⟩
    rw [← field32_natCast (by omega)] at h
    have hnot : ¬ ((skip 4 s).entryCnt = 0 ∧ (n : Int) ≠ 0) := fun hboth => hboth.2 (by exact_mod_cast hempty hboth.1)
    refine ⟨n, skip 4 s, ⟨rest, by rw [field32_natCast (by omega)], by omega, by omega, rfl⟩, ?_⟩
    rw [if_neg (by omega), if_neg hnot, Int.toNat_natCast]
    rfl

theorem readPayload_eq_ok_iff (h : Unread s bs) :
    readPayload s = .ok () t ↔ bs.length = ceil8 s.totalBits ∧ withinCap bs.length s.caps.bitsCap
      ∧ t = { skip bs.length s with bits := Memory.write s.bits 0 bs } := by
  have hleft : s.inLen - s.ipos = bs.length := by have := h.1; omega
  have hread := h.inRun le_rfl
  rw [List.take_length] at hread
  rw [readPayload]
  simp only [hleft]
  constructor
  · intro hrun
    split at hrun
    next => cases hrun
    next hge =>
      split at hrun
      next => cases hrun
      next hle =>
        have hlen : ceil8 s.totalBits = bs.length := by omega
        rw [hlen, hread] at hrun
        split at hrun
        next => cases hrun
        next hcap =>
          cases hrun
          exact ⟨hlen.symm, by simpa only [withinCap, Bool.not_eq_true] using hcap, rfl⟩
  · rintro ⟨hlen, hcap, rfl⟩
    rw [← hlen, if_neg (lt_irrefl _), if_neg (lt_irrefl _), hcap, if_neg Bool.false_ne_true, hread]
    rfl

/-! ### The whole frame -/

/-- What a frame's fields must satisfy (R261 to R265, 30 R105). -/
structure Consistent (m : Int) (es : List (Nat × Nat)) (n : Nat) (p : List Byte) : Prop where
  distinct : (es.map Prod.fst).Nodup
  entry : ∀ e ∈ es, (e.1 : Int) ≤ m ∧ 1 ≤ e.2 ∧ e.2 ≤ 2147483647
  empty : es = [] → m = -1 ∧ n = 0
  largest : es ≠ [] → m ≤ 65535 ∧ ∃ e ∈ es, (e.1 : Int) = m
  bits : n ≤ 2147483647
  payload : p.length = ceil8 n

theorem Consistent.bounds (h : Consistent m es n p) : -1 ≤ m ∧ m ≤ 65535 := by
  by_cases hes : es = []
  · have := (h.empty hes).1
    omega
  · obtain ⟨hm, e, -, he⟩ := h.largest hes
    omega

theorem Consistent.code_lt (h : Consistent m es n p) {e : Nat × Nat} (he : e ∈ es) : e.1 < 65536 := by
  have := (h.entry e he).1
  have := h.bounds.2
  omega

/-- Each entry is acceptable to a reader whose FREQ is empty. -/
theorem Consistent.acceptable (h : Consistent m es n p) (hempty : s.freq = []) :
    ∀ e ∈ es, Acceptable m s.freq e := fun e he => by
  obtain ⟨hle, hlo, hhi⟩ := h.entry e he
  exact ⟨h.code_lt he, hle, by rw [hempty]; rfl, hlo, hhi⟩

/-- Distinct codes up to `m` are at most m + 1 (R262). -/
theorem Consistent.count_le (h : Consistent m es n p) : (es.length : Int) ≤ m + 1 := by
  have hsub : es.map Prod.fst ⊆ List.range (m + 1).toNat := fun k hk => by
    obtain ⟨e, he, rfl⟩ := List.mem_map.mp hk
    have := (h.entry e he).1
    exact List.mem_range.mpr (by omega)
  have hle := (List.subperm_of_subset h.distinct hsub).length_le
  have := h.bounds.1
  rw [List.length_map, List.length_range] at hle
  omega

theorem Consistent.eq_topFrom (h : Consistent m es n p) : m = topFrom (-1) es := by
  obtain ⟨hlo, hes⟩ := le_topFrom es (-1)
  by_cases hnil : es = []
  · rw [hnil]
    exact (h.empty hnil).1
  · obtain ⟨-, e, he, hm⟩ := h.largest hnil
    refine le_antisymm (hm ▸ hes e he) ?_
    rcases topFrom_mem es (-1) with htop | ⟨x, hx, htop⟩
    · rw [htop]; exact h.bounds.1
    · rw [htop]; exact (h.entry x hx).1

/-- The state after FRD.RUN has accepted a frame. -/
def accepted (s : State) (m : Int) (es : List (Nat × Nat)) (n : Nat) (p : List Byte) : State :=
  { s with
    ipos := s.inLen, maxCode := m, entryCnt := es.length, freq := tableFrom [] es, totalBits := n
    bits := Memory.write s.bits 0 p }

theorem unread_of_holdsInput (h : s.holdsInput bs) : Unread { s with ipos := 0 } bs :=
  ⟨by rw [h.1]; exact Nat.zero_add _, fun i hi => by rw [← h.2 i hi]; exact congrArg s.inAt (Nat.zero_add i)⟩

/-- The state in which part 5 of the reader begins. -/
def beforePayload (s : State) (m : Int) (es : List (Nat × Nat)) (n : Nat) : State :=
  afterTotal (afterTable (afterHeader { s with ipos := 0 } m es.length) es) n

theorem frame_eq_append (m : Int) (es : List (Nat × Nat)) (n : Nat) (p : List Byte) :
    frameBytes m es n p = field32 m ++ (bytesBE 4 es.length ++ (es.flatMap entryField ++ (bytesBE 4 n ++ p))) := by
  simp only [frameBytes, List.append_assoc]

/-- The state after the last part is that of the accepted frame. -/
theorem skip_beforePayload (hempty : s.freq = []) (hlast : Unread (beforePayload s m es n) p) :
    { skip p.length (beforePayload s m es n) with bits := Memory.write s.bits 0 p } = accepted s m es n p := by
  have hlen := hlast.1
  simp only [beforePayload, skip, afterTotal, afterTable, afterHeader] at hlen
  simp only [accepted, beforePayload, tableFrom, skip, afterTotal, afterTable, afterHeader, hempty, hlen]

/-- Parts 1 to 4 end on a consistent frame, whatever bytes follow them. -/
theorem frdRun_eq_readPayload {q : List Byte} (hempty : s.freq = []) (hin : s.holdsInput (frameBytes m es n q))
    (hc : Consistent m es n p) :
    frdRun s = readPayload (beforePayload s m es n) ∧ Unread (beforePayload s m es n) q := by
  have hunread := unread_of_holdsInput hin
  rw [frame_eq_append] at hunread
  have hheader := hunread.afterHeader
  have htable := hheader.afterTable
  refine ⟨?_, htable.afterTotal⟩
  have hentries := hc.acceptable hempty
  have hzero (h : es.length = 0) : n = 0 := (hc.empty (List.length_eq_zero_iff.mp h)).2
  rw [frdRun, (readHeader_eq_ok_iff hunread).mpr ⟨m, es.length, _, rfl, hc.bounds.1, hc.bounds.2, hc.count_le, rfl⟩,
    Res.bind_ok, (readTable_eq_ok_iff hheader).mpr ⟨es, _, rfl, rfl, hc.distinct, hentries, hc.eq_topFrom, rfl⟩,
    Res.bind_ok, (readTotalBits_eq_ok_iff htable).mpr ⟨n, q, rfl, hc.bits, hzero, rfl⟩, Res.bind_ok]
  rfl

/-- FRD.RUN on an empty FREQ ends without error exactly on the consistent frames whose payload fits BITS. -/
theorem frdRun_eq_ok_iff (hempty : s.freq = []) (hin : s.holdsInput bs) :
    frdRun s = .ok () u ↔ ∃ m es n p, Consistent m es n p ∧ bs = frameBytes m es n p
      ∧ withinCap p.length s.caps.bitsCap ∧ u = accepted s m es n p := by
  constructor
  · have hunread := unread_of_holdsInput hin
    simp only [frdRun, Res.bind_eq_ok, readHeader_eq_ok_iff hunread]
    rintro ⟨_, _, ⟨m, cnt, rest, rfl, hmlo, hmhi, hcnt, rfl⟩, _, _, htable, _, _, htotal, hpayload⟩
    obtain ⟨es, rest', hlen, rfl, hnodup, hes, htop, rfl⟩ := (readTable_eq_ok_iff hunread.afterHeader).mp htable
    obtain ⟨n, p, rfl, hn, hzero, rfl⟩ := (readTotalBits_eq_ok_iff hunread.afterHeader.afterTable).mp htotal
    have hlast := hunread.afterHeader.afterTable.afterTotal
    obtain ⟨hplen, hcap, rfl⟩ := (readPayload_eq_ok_iff hlast).mp hpayload
    obtain rfl : es.length = cnt := hlen
    refine ⟨m, es, n, p, ⟨hnodup, fun x hx => ?_, fun hnil => ?_, fun hne => ⟨hmhi, ?_⟩, hn, hplen⟩,
      (frame_eq_append m es n p).symm, hcap, skip_beforePayload hempty hlast⟩
    · obtain ⟨-, hle, -, hlo, hhi⟩ := hes x hx
      exact ⟨hle, hlo, hhi⟩
    · subst hnil
      exact ⟨htop, hzero rfl⟩
    · rcases topFrom_mem es (-1) with hnone | ⟨x, hx, hsome⟩
      · obtain ⟨x, hx⟩ := List.exists_mem_of_ne_nil es hne
        have := (le_topFrom es (-1)).2 x hx
        omega
      · exact ⟨x, hx, hsome.symm.trans htop.symm⟩
  · rintro ⟨m, es, n, p, hc, rfl, hcap, rfl⟩
    obtain ⟨hrun, hlast⟩ := frdRun_eq_readPayload hempty hin hc
    rw [hrun]
    exact (readPayload_eq_ok_iff hlast).mpr ⟨hc.payload, hcap, (skip_beforePayload hempty hlast).symm⟩

/-! ### A frame cut short -/

/-- A part that ends with MalformedFrame. -/
def Malformed {α : Type} (s : State) (r : Res α) : Prop := ∃ u, r = .raised .malformedFrame u ∧ u.status = s.status

theorem Malformed.bind {α β : Type} {r : Res α} (h : Malformed s r) (f : α → State → Res β) :
    Malformed s (r.bind f) := by
  obtain ⟨u, rfl, hu⟩ := h
  exact ⟨u, rfl, hu⟩

/-- What begins a part's bytes has either less than the part or all of it. -/
theorem prefix_append_cases (h : bs <+: f ++ rest) :
    bs.length < f.length ∨ ∃ bs', bs = f ++ bs' ∧ bs' <+: rest := by
  rcases List.prefix_or_prefix_of_prefix h (List.prefix_append f rest) with hle | ⟨bs', rfl⟩
  · rcases Nat.lt_or_ge bs.length f.length with hlt | hge
    · exact .inl hlt
    · exact .inr ⟨[], by rw [List.append_nil, hle.eq_of_length_le hge], List.nil_prefix⟩
  · exact .inr ⟨bs', rfl, (List.prefix_append_right_inj f).mp h⟩

theorem takeSigned_short (h : Unread s bs) (hn : bs.length < 4) : takeSigned s = .raised .malformedFrame s := by
  rw [takeSigned, take_short h hn]
  rfl

theorem readHeader_cut {e : Nat} (h : Unread s bs) (hpre : bs <+: field32 m ++ (bytesBE 4 e ++ rest)) (hlo : -1 ≤ m)
    (hhi : m ≤ 65535) (hlen : bs.length < 8) : Malformed s (readHeader s) := by
  rw [readHeader]
  rcases prefix_append_cases hpre with hshort | ⟨bs', rfl, -⟩
  · rw [takeSigned_short h (by simpa using hshort)]
    exact ⟨s, rfl, rfl⟩
  · have hunread : Unread { skip 4 s with maxCode := m } bs' := h.skip (field32_length m)
    rw [(takeSigned_eq_ok_iff h).mpr ⟨bs', rfl, by omega, by omega, rfl⟩, Res.bind_ok, if_neg (by omega),
      takeSigned_short hunread (by rw [List.length_append, field32_length] at hlen; omega)]
    exact ⟨_, rfl, rfl⟩

theorem readEntry_cut {e : Nat × Nat} (h : Unread s bs) (hpre : bs <+: entryField e ++ rest)
    (he : Acceptable m s.freq e) (hlen : bs.length < 6) : Malformed s (readEntry m s) := by
  obtain ⟨hc, hle, hnew, -⟩ := he
  rw [entryField, List.append_assoc] at hpre
  rw [readEntry]
  rcases prefix_append_cases hpre with hshort | ⟨bs', rfl, -⟩
  · rw [take_short h (by simpa using hshort)]
    exact ⟨s, rfl, rfl⟩
  · have hunread : Unread (skip 2 s) bs' := h.skip (bytesBE_length 2 e.1)
    have hnew' : ¬ freqAt (skip 2 s).freq e.1 ≠ 0 := not_not.mpr hnew
    rw [(take_eq_ok_iff h).mpr ⟨bs', rfl, hc, rfl⟩, Res.bind_ok, if_neg (Int.not_lt.mpr hle), if_neg hnew',
      takeSigned_short hunread (by rw [List.length_append, bytesBE_length] at hlen; omega)]
    exact ⟨_, rfl, rfl⟩

theorem readEntries_cut (es : List (Nat × Nat)) : ∀ {s : State} {bs : List Byte} {top : Int}, Unread s bs →
    bs <+: es.flatMap entryField ++ rest → (es.map Prod.fst).Nodup → (∀ e ∈ es, Acceptable m s.freq e) →
    bs.length < 6 * es.length → Malformed s (readEntries m es.length top s) := by
  induction es with
  | nil => exact fun _ _ _ _ hlen => absurd hlen (Nat.not_lt_zero _)
  | cons e es ih =>
    intro s bs top h hpre hnodup hes hlen
    have hentry := hes e List.mem_cons_self
    rw [List.flatMap_cons, List.append_assoc] at hpre
    rw [List.map_cons, List.nodup_cons] at hnodup
    rw [List.length_cons, readEntries]
    rcases prefix_append_cases hpre with hshort | ⟨bs', rfl, hpre'⟩
    · exact (readEntry_cut h hpre hentry (by simpa using hshort)).bind _
    · rw [(readEntry_eq_ok_iff (c := e.1) h).mpr ⟨e.2, bs', rfl, hentry, rfl⟩, Res.bind_ok]
      rw [List.length_append, entryField_length, List.length_cons] at hlen
      refine ih h.afterEntry hpre' hnodup.2 (fun x hx => ?_) (by omega)
      exact (acceptable_freqWrite hentry.2.2.2.1).mpr
        ⟨hes x (List.mem_cons_of_mem _ hx), fun heq => hnodup.1 (heq ▸ List.mem_map_of_mem (f := Prod.fst) hx)⟩

/-- A consistent frame cut before its payload is malformed (R265). -/
theorem frdRun_cut (hempty : s.freq = []) (hin : s.holdsInput bs) (hc : Consistent m es n p)
    (hpre : bs <+: frameBytes m es n p) (hlen : bs.length < 12 + 6 * es.length) : Malformed s (frdRun s) := by
  have hunread := unread_of_holdsInput hin
  rw [frame_eq_append, ← List.append_assoc] at hpre
  rw [frdRun]
  rcases prefix_append_cases hpre with hshort | ⟨bs', rfl, hpre'⟩
  · rw [List.append_assoc] at hpre
    exact (readHeader_cut hunread hpre hc.bounds.1 hc.bounds.2 (by simpa using hshort)).bind _
  rw [List.append_assoc] at hunread
  have hheader := hunread.afterHeader
  have hentries := hc.acceptable hempty
  rw [(readHeader_eq_ok_iff hunread).mpr ⟨m, es.length, _, rfl, hc.bounds.1, hc.bounds.2, hc.count_le, rfl⟩,
    Res.bind_ok]
  rcases prefix_append_cases hpre' with hshort | ⟨bs'', rfl, -⟩
  · rw [entries_length] at hshort
    exact ((readEntries_cut es hheader hpre' hc.distinct hentries hshort).bind _).bind _
  · have htable := hheader.afterTable
    rw [(readTable_eq_ok_iff hheader).mpr ⟨es, _, rfl, rfl, hc.distinct, hentries, hc.eq_topFrom, rfl⟩, Res.bind_ok,
      readTotalBits, takeSigned_short htable (by simp at hlen; omega)]
    exact ⟨_, rfl, rfl⟩

theorem readPayload_short (h : Unread s bs) (hlen : bs.length < ceil8 s.totalBits) :
    readPayload s = .raised .truncatedInput s := by
  have hleft := h.1
  simp only [readPayload]
  rw [if_pos (by omega)]

theorem readPayload_long (h : Unread s bs) (hlen : ceil8 s.totalBits < bs.length) :
    readPayload s = .raised .malformedFrame s := by
  have hleft := h.1
  simp only [readPayload]
  rw [if_neg (by omega), if_pos (by omega)]

end Sys2Proof.Proofs.FrameReader
end

section
/-!
What FRD.RUN (47_frame_serdes.md R261 to R265) accepts, recovers and refuses, from the grammar of its frames.
-/
namespace Sys2Proof.Proofs.FrameAcceptance
open Sys2Proof Sys2Proof.Machine Sys2Proof.Proofs.FieldNumbers Sys2Proof.Proofs.Tables
open Sys2Proof.Proofs.FrameBytes Sys2Proof.Proofs.FrameWriter Sys2Proof.Proofs.FrameReader

variable {s t r u : State} {bs p q : List Byte} {m : Int} {es : List (Nat × Nat)} {n : Nat}

/-- An operation that leaves no error behind has ended. -/
theorem ok_of_no_error {r : Res Unit} (h : r.outcome = .next t) (herr : t.status.err = false) : r = .ok () t := by
  rcases Res.outcome_eq_next.mp h with ⟨⟨⟩, hok⟩ | ⟨e, s, -, rfl⟩
  · exact hok
  · exact absurd herr (by simp [State.raise, Status.raised])

/-- FWR.RUN ends without error with the frame of what it was given, when all of it fits. -/
theorem fwrRun_eq_ok (hcnt : s.entryCnt = s.freq.length) (hlen : s.freq.length < 2 ^ 32) (h : fwrRun s = .ok () t) :
    (∀ e ∈ s.freq, e.2 ≤ 2147483647) ∧ s.totalBits ≤ 2147483647
      ∧ ∃ p, s.bitsRun 0 (ceil8 s.totalBits) = some p ∧ t = framed s p := by
  cases hover : fieldOverflows s with
  | true => rw [fwrRun_overflows hover] at h; cases h
  | false =>
    cases hfull : overCap (frameLength s) s.caps.outCap with
    | true => rw [fwrRun_full hover hfull] at h; cases h
    | false =>
      cases hp : s.bitsRun 0 (ceil8 s.totalBits) with
      | none => rw [fwrRun, hover, hfull, hp] at h; cases h
      | some p =>
        rw [fwrRun_framed hcnt hlen hover hfull hp] at h
        cases h
        obtain ⟨hfreq, hbits⟩ := fieldOverflows_eq_false.mp hover
        exact ⟨hfreq, hbits, p, rfl, rfl⟩

/-- OUT after FWR.RUN holds the frame. -/
theorem eq_frameBytes_of_holdsOutput (h : (framed s p).holdsOutput bs) :
    bs = frameBytes s.maxCode s.freq s.totalBits p := by
  obtain ⟨hlen, hread⟩ := h
  have hlen' : bs.length = (frameBytes s.maxCode s.freq s.totalBits p).length := hlen.symm
  refine List.ext_getElem? fun i => ?_
  rcases Nat.lt_or_ge i bs.length with hi | hi
  · rw [← hread i hi, State.outAt, if_pos (by rw [hlen]; exact hi), read_framed, if_pos]
    rw [← frameBytes_length s.maxCode, ← hlen']
    exact hi
  · rw [List.getElem?_eq_none hi, List.getElem?_eq_none (hlen' ▸ hi)]

/-- A table in canonical form and its header make a consistent frame (30 R105). -/
theorem consistent_of_table (hwf : freqWf es) (hcodes : ∀ e ∈ es, e.1 < 65536) (hfreq : ∀ e ∈ es, e.2 ≤ 2147483647)
    (hzero : es.length = 0 → n = 0) (hbits : n ≤ 2147483647) (hp : p.length = ceil8 n) :
    Consistent (largestCode es) es n p where
  distinct := hwf.1.nodup
  entry e he := ⟨le_largestCode hwf.1 he, ((mem_freqEntries_iff hwf e.1 e.2).mp he).2, hfreq e he⟩
  empty hnil := by rw [hnil]; exact ⟨rfl, hzero (hnil ▸ rfl)⟩
  largest hne := by
    obtain ⟨e, he, hmax⟩ := largestCode_mem hne
    have := hcodes e he
    exact ⟨by omega, e, he, hmax.symm⟩
  bits := hbits
  payload := hp

/-- FRD.RUN on the frame of a table leaves that table and its payload. -/
theorem frdRun_frameBytes (hc : Consistent m es n p) (hin : r.holdsInput (frameBytes m es n p)) (hempty : r.freq = [])
    (hcap : withinCap p.length r.caps.bitsCap) : frdRun r = .ok () (accepted r m es n p) :=
  (frdRun_eq_ok_iff hempty hin).mpr ⟨m, es, n, p, hc, rfl, hcap, rfl⟩

theorem read_accepted_bits (j : Nat) :
    Memory.read (accepted r m es n p).bits j = if j < p.length then p[j]? else Memory.read r.bits j := by
  rw [accepted, Memory.read_write]
  simp

/-- Settles O45: the writer's frame is consistent, and the table of its entries is FREQ. -/
theorem readerInvertsWriter : Obligations.ReaderInvertsWriter := by
  intro s t r bs hwf hcodes hheader hzero _ hexec herr hout hin hempty hcap
  obtain ⟨hcnt, hmax⟩ := hheader
  have hlen : s.freq.length ≤ 65536 := length_le_of_wf hwf.1 hcodes
  obtain ⟨hfreq, hbits, p, hp, rfl⟩ := fwrRun_eq_ok hcnt (by omega) (ok_of_no_error hexec herr)
  obtain ⟨hplen, hpread⟩ := bitsRun_eq_some.mp hp
  obtain rfl := eq_frameBytes_of_holdsOutput hout
  have hc : Consistent s.maxCode s.freq s.totalBits p :=
    hmax ▸ consistent_of_table hwf hcodes hfreq (hcnt ▸ hzero) hbits hplen
  rw [← hplen] at hcap ⊢
  refine ⟨accepted r s.maxCode s.freq s.totalBits p, congrArg Res.outcome (frdRun_frameBytes hc hin hempty hcap), ?_,
    fun j hj => ?_, fun j hj => ?_⟩
  · rw [accepted, tableFrom_self hwf, ← hcnt, hin.1]
  · rw [read_accepted_bits, if_pos hj, hpread j (hplen ▸ hj)]
  · rw [read_accepted_bits, if_neg (Nat.not_lt.mpr hj)]

/-- Settles O46: the hypotheses are those of a consistent frame. -/
theorem readerReadsConsistentFrames : Obligations.ReaderReadsConsistentFrames := by
  intro r es m n p hdistinct hentry hnil hlargest hbits hplen hin hempty hcap
  have hc : Consistent m es n p := ⟨hdistinct, hentry, hnil, hlargest, hbits, hplen⟩
  refine ⟨accepted r m es n p, congrArg Res.outcome (frdRun_frameBytes hc hin hempty hcap), rfl,
    freqWf_tableFrom es freqWf_nil, fun e he => freqAt_tableFrom_of_mem es hdistinct he, fun k hk => ?_,
    fun j hj => ?_, fun j hj => ?_⟩
  · exact (freqAt_tableFrom_of_not_mem es hk).trans rfl
  · rw [read_accepted_bits, if_pos hj]
  · rw [read_accepted_bits, if_neg (Nat.not_lt.mpr hj)]

/-- The table of a consistent frame has its entries, in canonical order. -/
theorem tableFrom_perm (hc : Consistent m es n p) : (tableFrom [] es).Perm es := by
  refine (List.perm_ext_iff_of_nodup (freqWf_tableFrom es freqWf_nil).1.nodup.of_map hc.distinct.of_map).mpr fun e =>
    ⟨exists_entry_of_mem_tableFrom hc.distinct, fun he => mem_tableFrom hc.distinct (hc.entry e he).2.1 he⟩

theorem headerOk_accepted (hc : Consistent m es n p) : (accepted r m es n p).headerOk := by
  have hperm := tableFrom_perm hc
  have hwf := freqWf_tableFrom es freqWf_nil
  refine ⟨hperm.length_eq.symm, ?_⟩
  change m = largestCode (tableFrom [] es)
  by_cases hes : es = []
  · rw [(hc.empty hes).1, hes]
    rfl
  · obtain ⟨-, e, he, hm⟩ := hc.largest hes
    refine le_antisymm (hm ▸ le_largestCode hwf.1 (hperm.mem_iff.mpr he)) ?_
    have hne : tableFrom [] es ≠ [] := fun h => hes (List.nil_perm.mp (h ▸ hperm))
    obtain ⟨x, hx, hmax⟩ := largestCode_mem hne
    exact hmax ▸ (hc.entry x (hperm.mem_iff.mp hx)).1

theorem signed32_natCast {k : Nat} (hk : k < 2 ^ 31) : signed32 k = k := if_pos hk

/-- Settles O47: what is accepted is a consistent frame, and its fields are at their offsets. -/
theorem readerAcceptsOnlyConsistentFrames : Obligations.ReaderAcceptsOnlyConsistentFrames := by
  intro r u bs hempty hin _ hexec herr
  obtain ⟨m, es, n, p, hc, rfl, -, rfl⟩ := (frdRun_eq_ok_iff hempty hin).mp (ok_of_no_error hexec herr)
  have hcount := hc.count_le
  obtain ⟨hlo, hhi⟩ := hc.bounds
  have hbits := hc.bits
  have hperm := tableFrom_perm hc
  have hentry (i : Nat) (hi : i < es.length) :
      fieldAt (frameBytes m es n p) (8 + 6 * i) 2 = es[i].1
        ∧ fieldAt (frameBytes m es n p) (8 + 6 * i + 2) 4 = es[i].2 := by
    have hbound := hc.entry es[i] (List.getElem_mem hi)
    exact ⟨code_field hi (hc.code_lt (List.getElem_mem hi)), freq_field hi (by omega)⟩
  refine ⟨?maxCode, ?count, freqWf_tableFrom es freqWf_nil, headerOk_accepted hc, fun e he => ?bounds,
    fun i hi => ?entry, fun e he => ?listed, ?total, fun hzero => ?zero, ?length, fun j hj => ?payload, ?frame⟩
  case maxCode =>
    have hfield := maxCode_field m es n p
    rw [fieldAt, List.drop_zero] at hfield
    rw [hfield, signed32_sext32 (by omega) (by omega)]
    rfl
  case count =>
    have hfield := count_field (m := m) (n := n) (p := p) (es := es) (by omega)
    rw [fieldAt] at hfield
    rw [hfield, signed32_natCast (by omega)]
    rfl
  case bounds =>
    have hmem := hperm.mem_iff.mp he
    exact ⟨hc.code_lt hmem, (hc.entry e hmem).2.2⟩
  case entry =>
    obtain ⟨hcode, hfreq⟩ := hentry i hi
    rw [fieldAt] at hcode hfreq
    rw [hcode, hfreq]
    exact freqAt_tableFrom_of_mem es hc.distinct (List.getElem_mem hi)
  case listed =>
    obtain ⟨i, hi, rfl⟩ := List.mem_iff_getElem.mp (hperm.mem_iff.mp he)
    exact ⟨i, hi, (hentry i hi).1.symm⟩
  case total =>
    have hfield := totalBits_field (m := m) (n := n) (p := p) (es := es) (by omega)
    rw [fieldAt] at hfield
    change (n : Int) = signed32 (be (((frameBytes m es n p).drop (8 + 6 * es.length)).take 4))
    rw [hfield, signed32_natCast (by omega)]
  case zero => exact (hc.empty (List.length_eq_zero_iff.mp hzero)).2
  case length => rw [frameBytes_length, hc.payload]; rfl
  case payload =>
    have hj' : j < p.length := hc.payload ▸ hj
    rw [read_accepted_bits, if_pos hj']
    exact (payload_field j).symm
  case frame => rw [← hin.1]; rfl

/-- Settles O48: a cut before the payload malforms a part, and part 5 compares the payload's length. -/
theorem readerChecksThePayloadLength : Obligations.ReaderChecksThePayloadLength := by
  intro r u q bs hempty hin _ hexec herr hqempty
  obtain ⟨m, es, n, p, hc, rfl, -, rfl⟩ := (frdRun_eq_ok_iff hempty hin).mp (ok_of_no_error hexec herr)
  have hlen := frameBytes_length m es n p
  change (∀ k, k < (frameBytes m es n p).length → q.holdsInput _ → ∃ t, exec .frdRun q = .next t
    ∧ t.status = q.status.raised (if k < 12 + 6 * es.length then _ else _)) ∧ _
  constructor
  · intro k hk hq
    split
    next hcut =>
      obtain ⟨v, hrun, hv⟩ := frdRun_cut hqempty hq hc (List.take_prefix k _) (by rw [List.length_take]; omega)
      exact ⟨v.raise .malformedFrame, congrArg Res.outcome hrun, congrArg (Status.raised · .malformedFrame) hv⟩
    next hcut =>
      have htake : (frameBytes m es n p).take k = frameBytes m es n (p.take (k - (12 + 6 * es.length))) := by
        have hhead := frameBytes_length m es n []
        rw [frameBytes, List.append_nil] at hhead
        rw [frameBytes, List.take_append, List.take_of_length_le (by rw [hhead]; simp; omega), hhead]
        rfl
      rw [htake] at hq
      obtain ⟨hrun, hlast⟩ := frdRun_eq_readPayload hqempty hq hc
      rw [readPayload_short hlast (by
        rw [List.length_take]
        change _ < ceil8 n
        have := hc.payload
        omega)] at hrun
      exact ⟨_, congrArg Res.outcome hrun, rfl⟩
  · intro x xs hq
    have happend : frameBytes m es n p ++ x :: xs = frameBytes m es n (p ++ x :: xs) := by
      simp only [frameBytes, List.append_assoc]
    rw [happend] at hq
    obtain ⟨hrun, hlast⟩ := frdRun_eq_readPayload hqempty hq hc
    rw [readPayload_long hlast (by
      rw [List.length_append, hc.payload, List.length_cons]
      exact Nat.lt_add_of_pos_right (Nat.succ_pos _))] at hrun
    exact ⟨_, congrArg Res.outcome hrun, rfl⟩

end Sys2Proof.Proofs.FrameAcceptance
end

section
/-!
The boundary units (48_commands.md R281, R282): a reader that takes bytes and then the item that ends it, and a
writer whose offers are answered OK up to the one that ends it.
-/
namespace Sys2Proof.Proofs.BoundaryRuns
open Sys2Proof Sys2Proof.Machine Sys2Proof.Proofs.BoundaryUnits Sys2Proof.Proofs.LzweRun

variable {s t : State} {bs cs : List Byte} {items rest : List Item} {n k i : Nat}

/-! ### INRD.RUN -/

/-- IN after these bytes have been taken, one by one. -/
def taken (s : State) (cs : List Byte) : State :=
  cs.foldl (fun t b => { t with inMem := Memory.write t.inMem t.inLen [b], inLen := t.inLen + 1 }) s

theorem taken_cons (b : Byte) (cs : List Byte) :
    taken s (b :: cs) = taken { s with inMem := Memory.write s.inMem s.inLen [b], inLen := s.inLen + 1 } cs := rfl

/-- Only IN and INLEN change. -/
theorem taken_eq (cs : List Byte) :
    ∀ s : State, taken s cs = { s with inMem := (taken s cs).inMem, inLen := s.inLen + cs.length } := by
  induction cs with
  | nil => exact fun _ => rfl
  | cons b cs ih =>
    intro s
    have hlen : s.inLen + 1 + cs.length = s.inLen + (cs.length + 1) := by omega
    rw [taken_cons, ih, List.length_cons, ← hlen]

theorem taken_inLen : (taken s cs).inLen = s.inLen + cs.length := by rw [taken_eq]

theorem read_taken (cs : List Byte) : ∀ (s : State) (i : Nat), Memory.read (taken s cs).inMem i
    = if s.inLen ≤ i ∧ i < s.inLen + cs.length then cs[i - s.inLen]? else Memory.read s.inMem i := by
  induction cs with
  | nil => exact fun s i => by rw [if_neg (by simp)]; rfl
  | cons b cs ih =>
    intro s i
    rw [taken_cons, ih, Memory.read_write_one, List.length_cons]
    dsimp only
    by_cases hfirst : i = s.inLen
    · rw [if_neg (by omega), if_pos hfirst, if_pos (by omega), hfirst, Nat.sub_self, List.getElem?_cons_zero]
    · rw [if_neg hfirst]
      by_cases hin : s.inLen + 1 ≤ i ∧ i < s.inLen + 1 + cs.length
      · obtain ⟨j, rfl⟩ : ∃ j, i = s.inLen + 1 + j := ⟨i - (s.inLen + 1), by omega⟩
        have hoffset : s.inLen + 1 + j - s.inLen = j + 1 := by omega
        rw [if_pos hin, if_pos (by omega), hoffset, List.getElem?_cons_succ, Nat.add_sub_cancel_left]
      · rw [if_neg hin, if_neg (by omega)]

/-- What IN held comes before what is taken. -/
theorem holdsInput_taken (h : s.holdsInput bs) : (taken s cs).holdsInput (bs ++ cs) := by
  obtain ⟨hlen, hread⟩ := h
  refine ⟨by rw [taken_inLen, hlen, List.length_append], fun i hi => ?_⟩
  rw [List.length_append] at hi
  rw [State.inAt, taken_inLen, if_pos (by omega), read_taken]
  rcases Nat.lt_or_ge i bs.length with hlt | hge
  · rw [if_neg (by omega), List.getElem?_append_left hlt, ← hread i hlt, State.inAt, if_pos (by omega)]
  · rw [if_pos (by omega), List.getElem?_append_right hge, hlen]

theorem atCap_of_withinCap {cap : Option Nat} (h : withinCap n cap) (hk : k < n) : atCap k cap = false := by
  cases cap with
  | none => rfl
  | some c =>
    have hle : ¬ c < n := by simpa [withinCap, overCap] using h
    have hne : c ≠ k := by omega
    simpa [atCap] using hne

/-- The loop of the reader takes the bytes that fit. -/
theorem inrdLoop_data (cs : List Byte) : ∀ {s : State}, withinCap (s.inLen + cs.length) s.caps.inCap →
    inrdLoop (cs.map Item.data ++ items) s = inrdLoop items (taken s cs) := by
  induction cs with
  | nil => exact fun _ => rfl
  | cons b cs ih =>
    intro s hcap
    rw [List.length_cons] at hcap
    rw [List.map_cons, List.cons_append, inrdLoop, atCap_of_withinCap hcap (by omega), if_neg Bool.false_ne_true,
      taken_cons]
    refine ih ?_
    rwa [Nat.add_assoc, Nat.add_comm 1]

/-- The state in which the loop of the reader begins or goes on. -/
def begun (s : State) : State := if s.inOp then s else { s with inLen := 0 }

theorem begun_eq (s : State) : begun s = { s with inLen := (begun s).inLen } := by
  rw [begun]; split <;> rfl

theorem begun_holdsInput (h : (s.inOp = false ∧ bs = []) ∨ (s.inOp = true ∧ s.holdsInput bs)) :
    (begun s).holdsInput bs := by
  rcases h with ⟨hop, rfl⟩ | ⟨hop, hin⟩
  · rw [begun, hop]
    exact ⟨rfl, fun i hi => absurd hi (Nat.not_lt_zero i)⟩
  · rw [begun, hop]
    exact hin

/-- INRD.RUN takes the bytes that fit, and then the rest of its stream decides. -/
theorem inrdRun_data (h : (begun s).holdsInput bs) (hinput : s.input = cs.map Item.data ++ items)
    (hcap : withinCap (bs ++ cs).length s.caps.inCap) :
    inrdRun s = inrdLoop items (taken (begun s) cs) := by
  have hlen := h.1
  rw [List.length_append] at hcap
  have hrun : inrdRun s = inrdLoop s.input (begun s) := rfl
  rw [hrun, hinput]
  exact inrdLoop_data cs (by rw [hlen, begun_eq]; exact hcap)

/-- Only IN, INLEN differ where the reader's stream ends. -/
theorem taken_begun_eq (h : (begun s).holdsInput bs) :
    taken (begun s) cs = { s with inMem := (taken (begun s) cs).inMem, inLen := (bs ++ cs).length } := by
  rw [taken_eq, begun_eq, List.length_append, ← h.1]

/-- Settles O49: the bytes are taken, and EOS ends the reader. -/
theorem inputReaderTakesTheWholeInput : Obligations.InputReaderTakesTheWholeInput := by
  intro s bs rest hop hinput hcap
  have hbegun : begun s = { s with inLen := 0 } := by rw [begun, hop]; rfl
  have hin : (begun s).holdsInput [] := begun_holdsInput (.inl ⟨hop, rfl⟩)
  have hrun := inrdRun_data hin hinput hcap
  have hread (i : Nat) := read_taken bs (begun s) i
  rw [hin.1] at hread
  simp only [List.length_nil, Nat.zero_le, true_and, Nat.zero_add, Nat.sub_zero] at hread
  refine ⟨_, congrArg Res.outcome hrun, ?_, fun i hi => ?_, fun i hi => ?_⟩
  · rw [taken_begun_eq hin, ← hop]
    rfl
  · rw [hread, if_pos hi]
  · rw [hread, if_neg (Nat.not_lt.mpr hi), hbegun]

/-- Settles O50: the bytes that fit are taken, and the item after them, or none, ends the loop. -/
theorem inputReaderFailsOrWaits : Obligations.InputReaderFailsOrWaits := by
  intro s bs cs rest hbegin hcap
  have hin := begun_holdsInput hbegin
  have htaken := taken_begun_eq (cs := cs) hin
  have hholds := holdsInput_taken (cs := cs) hin
  refine ⟨fun hinput => ?fail, fun b hinput hfull => ?overflow, fun hinput => ?eos, fun hinput => ?waits⟩
  case fail =>
    refine ⟨_, congrArg Res.outcome (inrdRun_data hin hinput hcap), ?_⟩
    rw [htaken]
    rfl
  case overflow =>
    have hrun := inrdRun_data hin hinput hcap
    have hat : atCap (taken (begun s) cs).inLen (taken (begun s) cs).caps.inCap = true := by
      rw [htaken, hfull]
      exact beq_self_eq_true _
    rw [inrdLoop, if_pos hat] at hrun
    refine ⟨_, congrArg Res.outcome hrun, ?_⟩
    rw [htaken]
    rfl
  case eos =>
    refine ⟨_, congrArg Res.outcome (inrdRun_data hin hinput hcap), hholds, ?_⟩
    rw [htaken]
  case waits =>
    rw [← List.append_nil (cs.map Item.data)] at hinput
    refine ⟨_, congrArg Res.outcome (inrdRun_data hin hinput hcap), hholds, ?_⟩
    rw [htaken]

/-! ### OUTWR.RUN -/

/-- The state after the bytes of OUT up to index `n` have been offered and taken. -/
def offered (s : State) (bs : List Byte) (n : Nat) : State :=
  { s with offers := n, sinkGot := s.sinkGot ++ (bs.take n).drop s.offers }

/-- The loop of the writer makes the offers that are answered OK. -/
theorem outwrLoop_ok (k : Nat) : ∀ {s : State}, s.holdsOutput bs → s.offers + k ≤ bs.length →
    (∀ i, i < s.offers + k → sinkAnswer s.sink i = .ok) →
    outwrLoop (k + n) s = outwrLoop n (offered s bs (s.offers + k)) := by
  induction k with
  | zero =>
    intro s _ hle _
    have hnone : (bs.take s.offers).drop s.offers = [] := List.drop_eq_nil_of_le (List.length_take_le _ _)
    rw [Nat.zero_add, offered, Nat.add_zero, hnone, List.append_nil]
  | succ k ih =>
    intro s hout hle hok
    have hlt : s.offers < bs.length := by omega
    have hread : s.outAt s.offers = some bs[s.offers] := by rw [hout.2 _ hlt, List.getElem?_eq_getElem hlt]
    have hput : outPut bs[s.offers] s
        = (.ok, { s with offers := s.offers + 1, sinkGot := s.sinkGot ++ [bs[s.offers]] }) := by
      rw [outPut, hok s.offers (by omega)]
    have hstep : k + 1 + n = k + n + 1 := by omega
    have hsum : s.offers + 1 + k = s.offers + (k + 1) := by omega
    have hdrop : (bs.take (s.offers + (k + 1))).drop s.offers
        = bs[s.offers] :: (bs.take (s.offers + (k + 1))).drop (s.offers + 1) := by
      rw [List.drop_eq_getElem_cons (by rw [List.length_take]; omega), List.getElem_take]
    rw [hstep, outwrLoop, hread]
    simp only [hput]
    refine (ih (s := { s with offers := s.offers + 1, sinkGot := s.sinkGot ++ [bs[s.offers]] }) hout
      (hsum ▸ hle) (fun i hi => hok i (hsum ▸ hi))).trans ?_
    simp only [offered, hsum, hdrop, List.append_assoc, List.singleton_append]

/-- OUTWR.RUN makes the offers that are answered OK, and then the next one decides. -/
theorem outwrRun_ok (hop : s.inOp = false) (hout : s.holdsOutput bs) (hk : k ≤ bs.length)
    (hok : ∀ i, i < k → sinkAnswer s.sink i = .ok) :
    outwrRun s = outwrLoop (bs.length - k) { s with offers := k, sinkGot := s.sinkGot ++ bs.take k } := by
  have hlen : s.outLen - 0 = k + (bs.length - k) := by rw [hout.1]; omega
  have hrun : outwrRun s = outwrLoop (s.outLen - 0) { s with offers := 0 } := by
    simp only [outwrRun, hop, Bool.false_eq_true, if_false]
  rw [hrun, hlen, outwrLoop_ok (s := { s with offers := 0 }) k hout (by simpa using hk) (by simpa using hok)]
  simp only [offered, Nat.zero_add, List.drop_zero]

/-- A sink that answers OK to the whole of OUT and the end marker. -/
theorem outwrRun_delivers (hop : s.inOp = false) (hout : s.holdsOutput bs)
    (hok : ∀ i, i ≤ bs.length → sinkAnswer s.sink i = .ok) :
    outwrRun s = .ok () { s with offers := bs.length + 1, sinkGot := s.sinkGot ++ bs, sinkEnd := true } := by
  rw [outwrRun_ok hop hout le_rfl fun i hi => hok i hi.le, Nat.sub_self, outwrLoop, outEnd, hok _ le_rfl,
    List.take_length, ← hop]

/-- Settles O51: no offer up to the end marker is the one the sink fails or keeps silent at. -/
theorem outputWriterDeliversEverything : Obligations.OutputWriterDeliversEverything := by
  intro s bs hop hout hsink
  refine congrArg Res.outcome (outwrRun_delivers hop hout fun i hi => ?_)
  rcases hsink with hsink | ⟨k, hk, hsink | hsink⟩
  · rw [hsink, sinkAnswer]
  · rw [hsink, sinkAnswer, if_neg (by omega)]
  · rw [hsink, sinkAnswer, if_neg (by omega)]

/-- What the writer does at the first offer that is not answered OK, a byte or the end marker. -/
theorem outwrLoop_refused (hout : s.holdsOutput bs) (hk : s.offers ≤ bs.length) :
    (sinkAnswer s.sink s.offers = .fail → outwrLoop (bs.length - s.offers) s = .raised .resourceError s)
      ∧ (sinkAnswer s.sink s.offers = .silent →
        outwrLoop (bs.length - s.offers) s = .ok () { s with inOp := true }) := by
  rcases Nat.eq_or_lt_of_le hk with heq | hlt
  · rw [heq, Nat.sub_self, ← heq]
    exact ⟨fun h => by rw [outwrLoop, outEnd, h], fun h => by rw [outwrLoop, outEnd, h]⟩
  · obtain ⟨n, hn⟩ : ∃ n, bs.length - s.offers = n + 1 := ⟨bs.length - s.offers - 1, by omega⟩
    have hread : s.outAt s.offers = some bs[s.offers] := by rw [hout.2 _ hlt, List.getElem?_eq_getElem hlt]
    rw [hn, outwrLoop, hread]
    exact ⟨fun h => by simp only [outPut, h], fun h => by simp only [outPut, h]⟩

/-- Settles O52: the offers before k are answered OK, and offer k is not. -/
theorem outputWriterStopsAtTheSink : Obligations.OutputWriterStopsAtTheSink := by
  intro s bs k hop hout hk
  have hstop := outwrLoop_refused (s := { s with offers := k, sinkGot := s.sinkGot ++ bs.take k }) hout hk
  constructor
  · intro hsink
    have hrun := outwrRun_ok hop hout hk fun i hi => by rw [hsink, sinkAnswer, if_neg (by omega)]
    rw [hstop.1 (by rw [hsink, sinkAnswer, if_pos rfl])] at hrun
    refine (congrArg Res.outcome hrun).trans ?_
    rw [hop]
    rfl
  · intro hsink
    have hrun := outwrRun_ok hop hout hk fun i hi => by rw [hsink, sinkAnswer, if_neg (by omega)]
    rw [hstop.2 (by rw [hsink, sinkAnswer, if_pos le_rfl])] at hrun
    exact congrArg Res.outcome hrun

end Sys2Proof.Proofs.BoundaryRuns
end

section
/-!
Host actions and the sequencer (48_commands.md R280, R284, R290; 70_reset_and_hazards.md R350, R360, R362): the step
of each action the host's script can hold, and where the sequencer goes on.
-/
namespace Sys2Proof.Proofs.HostActions
open Sys2Proof Sys2Proof.Machine Sys2Proof.Proofs.StepInvariant Sys2Proof.Proofs.Encoding

variable {s t : State} {i : Instr} {op : BitVec 2} {n : BitVec 4} {v : RegWord} {rest : List HostEvent}

/-! ### Writes to registers -/

theorem step_of_settled (hmove : s.move = .settled t) : step s = .next t := by rw [step, hmove]

/-- The command word of a write to CMD is the low byte of the value (10 R21). -/
theorem setWidth_commandWord (v : RegWord) : v.setWidth 8 = BitVec.ofNat 8 (v.toNat % 256) :=
  BitVec.eq_of_toNat_eq (by simp)

/-- A write that is not of CMD to an idle block changes nothing. -/
theorem step_writeReg_ignored {k : Nat} (hhost : s.host = .writeReg k v :: rest)
    (hignored : ¬ (k = 0 ∧ s.status.busy = false)) : step s = .next { s with host := rest } := by
  refine step_of_settled ?_
  rw [State.move, hhost]
  exact if_neg hignored

/-- A legal command word is an operation of the CMD format (30 R110). -/
theorem command_of_decode {w : Byte} (hdec : decode .cmd w = .ok i) :
    (i = .compress ∧ w = 1) ∨ (i = .decompress ∧ w = 2) := by
  rw [decode, decodeCmd] at hdec
  split at hdec
  next hw => cases hdec; exact .inl ⟨rfl, hw⟩
  next =>
    split at hdec
    next hw => cases hdec; exact .inr ⟨rfl, hw⟩
    next => cases hdec

theorem step_writeCmd (hidle : s.status.busy = false) (hhost : s.host = .writeReg 0 v :: rest)
    (hdec : decode .cmd (BitVec.ofNat 8 (v.toNat % 256)) = .ok i) :
    step s = mapNext (advance i) (exec i { s with host := rest }) := by
  have hmove : s.move = .issue i { s with host := rest } := by
    rw [← setWidth_commandWord] at hdec
    rw [State.move, hhost]
    change writeRegister 0 v _ = _
    rw [writeRegister, if_pos ⟨rfl, hidle⟩]
    change (match decode .cmd (v.setWidth 8) with | .ok i => _ | .error _ => _) = _
    rw [hdec]
  rw [step, hmove]

theorem exec_command (hidle : s.status.busy = false) (hi : op = 1 ∧ i = .compress ∨ op = 2 ∧ i = .decompress) :
    exec i s = .next (s.accept op) := by
  have haccept : acceptCommand op s = s.accept op := by rw [acceptCommand, hidle]; rfl
  rcases hi with ⟨rfl, rfl⟩ | ⟨rfl, rfl⟩ <;> exact congrArg _ haccept

theorem advance_accept (hidle : s.status.busy = false) (hi : op = 1 ∧ i = .compress ∨ op = 2 ∧ i = .decompress) :
    advance i (s.accept op) = s.accept op := by
  have hadv := advance_acceptCommand hidle hi
  rwa [acceptCommand, hidle, if_neg Bool.false_ne_true] at hadv

/-- A legal command word written to CMD of an idle block is accepted, and that is all its step does. -/
theorem step_command (hidle : s.status.busy = false) (hhost : s.host = .writeReg 0 v :: rest)
    (hv : op = 1 ∧ v.toNat % 256 = 1 ∨ op = 2 ∧ v.toNat % 256 = 2) :
    step s = .next (State.accept op { s with host := rest }) := by
  have hidle' : ({ s with host := rest } : State).status.busy = false := hidle
  rcases hv with ⟨rfl, hv⟩ | ⟨rfl, hv⟩
  · rw [step_writeCmd (i := .compress) hidle hhost (by rw [hv]; rfl), exec_command hidle' (.inl ⟨rfl, rfl⟩),
      mapNext, advance_accept hidle' (.inl ⟨rfl, rfl⟩)]
  · rw [step_writeCmd (i := .decompress) hidle hhost (by rw [hv]; rfl), exec_command hidle' (.inr ⟨rfl, rfl⟩),
      mapNext, advance_accept hidle' (.inr ⟨rfl, rfl⟩)]

/-- Settles O8: the sequencer adds nothing to the acceptance. -/
theorem stepRunsDecodedCommand : Obligations.StepRunsDecodedCommand := by
  intro s i v rest hidle hhost hdec
  have hidle' : ({ s with host := rest } : State).status.busy = false := hidle
  obtain ⟨op, hop⟩ : ∃ op : BitVec 2, op = 1 ∧ i = .compress ∨ op = 2 ∧ i = .decompress := by
    rcases command_of_decode hdec with ⟨rfl, -⟩ | ⟨rfl, -⟩
    · exact ⟨1, .inl ⟨rfl, rfl⟩⟩
    · exact ⟨2, .inr ⟨rfl, rfl⟩⟩
  rw [step_writeCmd hidle hhost hdec, exec_command hidle' hop, mapNext, advance_accept hidle' hop]

/-- Settles O10: the start values of 10 R56 are the fields named. -/
theorem legalCommandIsAccepted : Obligations.LegalCommandIsAccepted := by
  intro s i op hidle hi
  have hi' : op = 1 ∧ i = .compress ∨ op = 2 ∧ i = .decompress := hi.imp And.symm And.symm
  rw [exec_command hidle hi']
  rfl

/-- Settles O11: nothing is issued, and an acceptance while BUSY = 1 is none. -/
theorem ignoredWritesChangeNothing : Obligations.IgnoredWritesChangeNothing := by
  intro s n v rest hhost
  refine ⟨fun hbusy => ?_, fun hn => step_writeReg_ignored hhost fun h => hn h.1⟩
  have hignore (op : BitVec 2) : acceptCommand op s = s := by rw [acceptCommand, hbusy]; rfl
  refine ⟨step_writeReg_ignored hhost fun h => ?_, congrArg _ (hignore 1), congrArg _ (hignore 2)⟩
  exact absurd (hbusy.symm.trans h.2) (by decide)

/-- Settles O12: the word decodes to nothing. -/
theorem illegalCommandWordRaises : Obligations.IllegalCommandWordRaises := by
  intro s v rest hidle hhost hcompress hdecompress
  have hne {k : Nat} (hk : k < 256) (h : v.toNat % 256 ≠ k) : v.setWidth 8 ≠ BitVec.ofNat 8 k := fun heq => h <| by
    rw [setWidth_commandWord] at heq
    have := congrArg BitVec.toNat heq
    simpa [Nat.mod_eq_of_lt hk] using this
  refine ⟨State.illegalCommand { s with host := rest }, step_of_settled ?_, ?_, rfl⟩
  case refine_2 =>
    have hstatus : s.status.noCommand.raised .illegalCommand = Status.zero.noCommand.raised .illegalCommand := rfl
    exact (congrArg Status.word hstatus).trans (by decide)
  rw [State.move, hhost]
  change writeRegister 0 v _ = _
  rw [writeRegister, if_pos ⟨rfl, hidle⟩]
  change (match decode .cmd (v.setWidth 8) with | .ok i => _ | .error _ => _) = _
  rw [decode_cmd_illegal (hne (by decide) hcompress) (hne (by decide) hdecompress)]

/-! ### The other actions of the host -/

/-- Settles O2: the reset event makes the block anew. -/
theorem resetEventMakesIdle : Obligations.ResetEventMakesIdle := by
  intro s rest hhost
  refine ⟨State.resetBlock { s with host := rest }, step_of_settled (by rw [State.move, hhost]), ?_⟩
  exact ⟨(by decide : Status.zero.word = 0), rfl, rfl, rfl, rfl, rfl, rfl, rfl, rfl, rfl, rfl, rfl, rfl, rfl, rfl, rfl,
    rfl, rfl, rfl, rfl, rfl, rfl, rfl, rfl⟩

/-- Settles O60: BUSY decides whose stream an item joins. -/
theorem suppliedItemsJoinTheirStream : Obligations.SuppliedItemsJoinTheirStream := by
  intro s rest
  constructor
  · intro x hhost
    have hstep : step s = .next (supplyItem x { s with host := rest }) :=
      step_of_settled (by rw [State.move, hhost])
    exact ⟨fun hbusy => by rw [hstep, supplyItem, if_pos hbusy],
      fun hidle => by rw [hstep, supplyItem, if_neg (by simp [hidle])]⟩
  · exact fun b hhost => step_of_settled (by rw [State.move, hhost])

/-! ### The sequencer -/

theorem advance_idle (h : s.status.busy = false ∨ s.inOp = true) : advance i s = s :=
  if_pos (by rcases h with h | h <;> simp [h])

theorem advance_atStage (hbusy : s.status.busy = true) (hwait : s.inOp = false) (hafter : stageAfter i s = some n)
    (hn : n ≠ 0) : advance i s = s.atStage n := by
  rw [advance, if_neg (by simp [hbusy, hwait]), hafter]
  exact if_neg hn

theorem advance_end (hbusy : s.status.busy = true) (hwait : s.inOp = false) (hafter : stageAfter i s = some 0) :
    advance i s = s.endCommand := by
  rw [advance, if_neg (by simp [hbusy, hwait]), hafter]
  exact if_pos rfl

/-- COMPRESS goes from stage to stage in the order of 48 R284. -/
theorem stageAfter_compress (hop : s.status.op = 1)
    (h : (i, n) ∈ [(Instr.inrdRun, (3 : BitVec 4)), (.lzweRun, 5), (.freqCount, if s.clen = 0 then 10 else 6),
      (.hbuildRun, 7), (.hgenRun, 8), (.bpackRun, 10), (.fwrRun, 12)]) : stageAfter i s = some n ∧ n ≠ 0 := by
  simp only [List.mem_cons, Prod.mk.injEq, List.not_mem_nil, or_false] at h
  rcases h with ⟨rfl, rfl⟩ | ⟨rfl, rfl⟩ | ⟨rfl, rfl⟩ | ⟨rfl, rfl⟩ | ⟨rfl, rfl⟩ | ⟨rfl, rfl⟩ | ⟨rfl, rfl⟩
  case inr.inr.inl =>
    rcases Nat.eq_zero_or_pos s.clen with hzero | hpos
    · simp [stageAfter, hop, hzero]
    · simp [stageAfter, hop, hpos, hpos.ne']
  all_goals exact ⟨by simp [stageAfter, hop], by decide⟩

/-- DECOMPRESS goes from stage to stage in the order of 48 R290. -/
theorem stageAfter_decompress (hop : s.status.op = 2)
    (h : (i, n) ∈ [(Instr.inrdRun, (11 : BitVec 4)), (.frdRun, if s.entryCnt = 0 then 12 else 6), (.hbuildRun, 9),
      (.bunpkRun, 4), (.lzwdRun, 12)]) : stageAfter i s = some n ∧ n ≠ 0 := by
  simp only [List.mem_cons, Prod.mk.injEq, List.not_mem_nil, or_false] at h
  rcases h with ⟨rfl, rfl⟩ | ⟨rfl, rfl⟩ | ⟨rfl, rfl⟩ | ⟨rfl, rfl⟩ | ⟨rfl, rfl⟩
  case inr.inl =>
    rcases Nat.eq_zero_or_pos s.entryCnt with hzero | hpos
    · simp [stageAfter, hop, hzero]
    · simp [stageAfter, hop, hpos, hpos.ne']
  all_goals exact ⟨by simp [stageAfter, hop], by decide⟩

/-- Both commands end with OUTWR (48 R284, R290). -/
theorem stageAfter_outwr (hop : s.status.op = 1 ∨ s.status.op = 2) : stageAfter .outwrRun s = some 0 := by
  rcases hop with hop | hop <;> simp [stageAfter, hop]

/-- Settles O9: the stage after an operation is the one its command's order has next. -/
theorem sequencerFollowsFixedOrder : Obligations.SequencerFollowsFixedOrder := by
  refine fun t => ⟨fun i h => advance_idle h, fun hbusy hwait => ⟨fun i n h => ?_, fun hop => ?_⟩⟩
  · obtain ⟨hafter, hn⟩ : stageAfter i t = some n ∧ n ≠ 0 := by
      rcases h with ⟨hop, h⟩ | ⟨hop, h⟩
      · exact stageAfter_compress hop h
      · exact stageAfter_decompress hop h
    exact advance_atStage hbusy hwait hafter hn
  · rw [advance_end hbusy hwait (stageAfter_outwr hop), State.endCommand, hwait]
    rfl

end Sys2Proof.Proofs.HostActions
end

section
/-!
The errors of each unit operation (60_exceptions.md R311), and that it leaves STATUS and the sequencer's own bits to
the sequencer (10_state.md R23).
-/
namespace Sys2Proof.Proofs.RaisedErrors
open Sys2Proof Sys2Proof.Machine Sys2Proof.Proofs.Invariant

/-! ### Operations with these errors only -/

/-- STATUS, the operation's `sub` and the wait mark. -/
def sequencer (s : State) : Status × BitVec 4 × Bool := (s.status, s.sub, s.inOp)

section
variable {α β γ : Type} {part : State → γ} {errs errs' : List Err} {s t : State} {r : Res α}

/-- An answer to `s` that has the same `part` as `s`, and raises only these errors. -/
def Limited (part : State → γ) (errs : List Err) (s : State) (r : Res α) : Prop :=
  Meets r (fun _ t => part t = part s) (fun e t => part t = part s ∧ e ∈ errs)

@[simp] theorem limited_ok {a : α} : Limited part errs s (.ok a t) ↔ part t = part s := meets_ok

@[simp] theorem limited_raised {e : Err} :
    Limited part errs s (.raised e t : Res α) ↔ part t = part s ∧ e ∈ errs := meets_raised

@[simp] theorem limited_fault {x : Fault} : Limited part errs s (.fault x : Res α) := meets_fault

@[simp] theorem limited_refused {x : Refusal} : Limited part errs s (.refused x : Res α) := meets_refused

theorem Limited.of_eq (h : Limited part errs t r) (ht : part t = part s) : Limited part errs s r := by
  rwa [Limited, ht] at h

theorem Limited.bind {g : α → State → Res β} (hr : Limited part errs s r)
    (hg : ∀ a t, Limited part errs t (g a t)) : Limited part errs s (r.bind g) :=
  Meets.bind hr fun a t ht => (hg a t).of_eq ht

theorem Limited.mono (h : Limited part errs s r) (herrs : ∀ e ∈ errs, e ∈ errs') : Limited part errs' s r :=
  ⟨h.1, fun e t hr => ⟨(h.2 e t hr).1, herrs e (h.2 e t hr).2⟩⟩

end

section
variable {errs : List Err} {s : State}

/-! ### The shared operations -/

theorem emit_limited (h : .capacityExceeded ∈ errs) (c : Code) (s : State) : Limited sequencer errs s (emit c s) := by
  rcases emit_cases c s with ⟨-, hemit⟩ | ⟨-, hemit⟩ <;> rw [hemit]
  · exact limited_raised.mpr ⟨rfl, h⟩
  · exact limited_ok.mpr rfl

theorem append_limited (h : .capacityExceeded ∈ errs) (bs : List Byte) (s : State) :
    Limited sequencer errs s (append bs s) := by
  rcases append_cases bs s with ⟨-, happend⟩ | ⟨-, happend⟩ <;> rw [happend]
  · exact limited_raised.mpr ⟨rfl, h⟩
  · exact limited_ok.mpr rfl

theorem putBits_limited (h : .capacityExceeded ∈ errs) (w : List Bool) :
    ∀ s : State, Limited sequencer errs s (putBits w s) := by
  induction w with
  | nil => exact fun s => limited_ok.mpr rfl
  | cons v w ih =>
    refine fun s => Limited.bind ⟨fun _ t hput => ?_, fun e t hput => ?_⟩ fun _ => ih
    · obtain ⟨ht, -⟩ := putBit_ok hput
      rw [ht]; rfl
    · obtain ⟨rfl, rfl⟩ := putBit_raised hput
      exact ⟨rfl, h⟩

/-! ### DICT, LZWE and LZWD -/

theorem dictRlookup_limited (k : Code) (s : State) : Limited sequencer errs s (dictRlookup k s) := by
  rw [dictRlookup]
  split
  next =>
    split
    next => exact limited_ok.mpr rfl
    next => exact limited_fault
  next => exact limited_ok.mpr rfl

theorem dictInsert_limited (hdup : .duplicateEntry ∈ errs) (hfull : .dictionaryFull ∈ errs) (p : Option Code)
    (b : Byte) (s : State) : Limited sequencer errs s (dictInsert p b s) := by
  rcases dictInsert_cases p b s with ⟨-, h⟩ | ⟨c, -, -, ⟨-, h⟩ | ⟨-, -, h⟩ | ⟨-, -, h⟩⟩ <;> rw [h]
  · exact limited_refused
  · exact limited_raised.mpr ⟨rfl, hdup⟩
  · exact limited_raised.mpr ⟨rfl, hfull⟩
  · exact limited_ok.mpr rfl

/-- DICT.INSERT of a string that a lookup has missed finds no duplicate (41 R152). -/
theorem dictInsert_missed_limited {p : Option Code} {b : Byte} (hmissed : dictLookup p b s = none) :
    Limited sequencer [.dictionaryFull] s (dictInsert p b s) := by
  rcases dictInsert_cases p b s with ⟨-, h⟩ | ⟨c, -, -, ⟨hfound, -⟩ | ⟨-, -, h⟩ | ⟨-, -, h⟩⟩
  · rw [h]; exact limited_refused
  · exact absurd hmissed hfound
  · rw [h]; exact limited_raised.mpr ⟨rfl, List.mem_singleton_self _⟩
  · rw [h]; exact limited_ok.mpr rfl

theorem lzweSym_limited (x : Byte) (s : State) : Limited sequencer (raisableBy .lzweSym) s (lzweSym x s) := by
  rw [lzweSym]
  split
  next => exact limited_ok.mpr rfl
  next hmissed =>
    split
    next => exact limited_fault
    next c hcur =>
      rw [hcur] at hmissed
      rcases emit_cases c s with ⟨-, hemit⟩ | ⟨-, hemit⟩ <;> rw [hemit]
      · exact limited_raised.mpr ⟨rfl, by decide⟩
      · have hmissed' : dictLookup (some c) x { s with cseq := Memory.write s.cseq s.clen [c], clen := s.clen + 1 }
            = none := hmissed
        have hinsert := (dictInsert_missed_limited hmissed').mono (errs' := raisableBy .lzweSym) (by decide)
        refine Limited.of_eq (hinsert.bind fun _ u => ?_) rfl
        exact limited_ok.mpr rfl

theorem lzweFlush_limited (h : .capacityExceeded ∈ errs) (s : State) : Limited sequencer errs s (lzweFlush s) := by
  rw [lzweFlush]
  split
  next => exact limited_ok.mpr rfl
  next c _ => exact emit_limited h c s

theorem lzweLoop_limited (n : Nat) : ∀ s : State, Limited sequencer (raisableBy .lzweRun) s (lzweLoop n s) := by
  induction n with
  | zero => exact fun s => limited_ok.mpr rfl
  | succ n ih =>
    intro s
    rw [lzweLoop]
    split
    next => exact limited_fault
    next x _ => exact (lzweSym_limited x s).bind fun _ t => ih { t with ipos := t.ipos + 1 }

theorem lzweRun_limited (s : State) : Limited sequencer (raisableBy .lzweRun) s (lzweRun s) :=
  (lzweLoop_limited s.inLen { dictSeed s with cur := none, clen := 0, ipos := 0 }).bind fun _ =>
    lzweFlush_limited (by decide)

theorem lzwdFirst_limited (c : Code) (s : State) : Limited sequencer (raisableBy .lzwdFirst) s (lzwdFirst c s) :=
  (dictRlookup_limited c s).bind fun r t => by
    split
    next => exact limited_raised.mpr ⟨rfl, by decide⟩
    next w => exact (append_limited (by decide) w t).bind fun _ _ => limited_ok.mpr rfl

theorem lzwdCurrent_limited (h : .invalidCode ∈ errs) (c : Code) (s : State) :
    Limited sequencer errs s (lzwdCurrent c s) :=
  (dictRlookup_limited c s).bind fun r t => by
    split
    next => exact limited_ok.mpr rfl
    next =>
      split
      next =>
        refine (dictRlookup_limited t.prev t).bind fun q u => ?_
        split
        next => exact limited_ok.mpr rfl
        next => exact limited_fault
      next => exact limited_raised.mpr ⟨rfl, h⟩

theorem lzwdNext_limited (c : Code) (s : State) : Limited sequencer (raisableBy .lzwdNext) s (lzwdNext c s) :=
  (lzwdCurrent_limited (by decide) c s).bind fun w t => by
    split
    next => exact limited_fault
    next x w =>
      refine (append_limited (by decide) (x :: w) t).bind fun _ u => ?_
      exact (dictInsert_limited (by decide) (by decide) (some u.prev) x u).bind fun _ _ => limited_ok.mpr rfl

theorem lzwdLoop_limited (n : Nat) : ∀ s : State, Limited sequencer (raisableBy .lzwdNext) s (lzwdLoop n s) := by
  induction n with
  | zero => exact fun s => limited_ok.mpr rfl
  | succ n ih =>
    intro s
    rw [lzwdLoop]
    split
    next => exact limited_fault
    next c _ => exact (lzwdNext_limited c s).bind fun _ t => ih { t with cpos := t.cpos + 1 }

theorem lzwdRun_limited (s : State) : Limited sequencer (raisableBy .lzwdRun) s (lzwdRun s) := by
  unfold lzwdRun
  split
  next => exact limited_raised.mpr ⟨rfl, by decide⟩
  next =>
    simp only
    split
    next => exact limited_fault
    next c _ =>
      exact ((lzwdFirst_limited c { dictSeed s with outLen := 0 }).mono (by decide)).bind fun _ u =>
        (lzwdLoop_limited (s.clen - 1) { u with cpos := 1 }).mono (by decide)

/-! ### FREQ, HBUILD and HGEN -/

theorem freqLoop_limited (n : Nat) : ∀ s : State, Limited sequencer errs s (freqLoop n s) := by
  induction n with
  | zero => exact fun s => limited_ok.mpr rfl
  | succ n ih =>
    intro s
    rw [freqLoop]
    split
    next => exact limited_fault
    next => exact ih { s with freq := _, cpos := _ }

theorem freqCount_limited (s : State) : Limited sequencer errs s (freqCount s) :=
  (freqLoop_limited s.clen { s with cpos := 0 }).bind fun _ _ => limited_ok.mpr rfl

theorem hbuildRun_limited (s : State) : Limited sequencer errs s (hbuildRun s) := by
  unfold hbuildRun
  simp only
  split
  next => exact limited_refused
  next => exact limited_ok.mpr rfl

theorem hgenRun_limited (s : State) : Limited sequencer errs s (hgenRun s) := by
  rw [hgenRun]
  split
  next => exact limited_refused
  next =>
    split
    next => exact limited_fault
    next => exact limited_ok.mpr rfl
    next =>
      split
      next => exact limited_fault
      next => exact limited_ok.mpr rfl

/-! ### BPACK and BUNPK -/

theorem bpackLoop_limited (n : Nat) : ∀ s : State, Limited sequencer (raisableBy .bpackRun) s (bpackLoop n s) := by
  induction n with
  | zero => exact fun s => limited_ok.mpr rfl
  | succ n ih =>
    intro s
    rw [bpackLoop]
    split
    next => exact limited_fault
    next =>
      split
      next => exact limited_raised.mpr ⟨rfl, by decide⟩
      next w _ => exact (putBits_limited (by decide) w s).bind fun _ t => ih { t with cpos := t.cpos + 1 }

theorem bpackRun_limited (s : State) : Limited sequencer (raisableBy .bpackRun) s (bpackRun s) :=
  bpackLoop_limited s.clen { s with totalBits := 0, cpos := 0 }

theorem bunpkBit_limited (v : Bool) (s : State) : Limited sequencer (raisableBy .bunpkRun) s (bunpkBit v s) := by
  unfold bunpkBit
  split
  next =>
    split
    next => exact limited_refused
    next => exact limited_fault
  next c _ _ =>
    split
    next => exact limited_raised.mpr ⟨rfl, by decide⟩
    next => exact emit_limited (by decide) c s
  next =>
    split
    next => exact limited_fault
    next => exact limited_fault
    next l r _ =>
      simp only
      split
      next => exact limited_fault
      next c _ _ =>
        exact (emit_limited (by decide) c { s with node := _ }).bind fun _ _ => limited_ok.mpr rfl
      next => exact limited_ok.mpr rfl

theorem bunpkLoop_limited (n : Nat) : ∀ s : State, Limited sequencer (raisableBy .bunpkRun) s (bunpkLoop n s) := by
  induction n with
  | zero =>
    intro s
    rw [bunpkLoop]
    split
    next => exact limited_raised.mpr ⟨rfl, by decide⟩
    next => exact limited_ok.mpr rfl
  | succ n ih =>
    intro s
    rw [bunpkLoop]
    split
    next => exact limited_fault
    next v _ => exact (bunpkBit_limited v { s with bpos := s.bpos + 1 }).bind fun _ => ih

theorem bunpkRun_limited (s : State) : Limited sequencer (raisableBy .bunpkRun) s (bunpkRun s) :=
  bunpkLoop_limited s.totalBits { s with clen := 0, bpos := 0, node := s.root }

/-! ### FWR and FRD -/

theorem sequencer_put (bs : List Byte) (s : State) : sequencer (put bs s) = sequencer s := rfl

theorem fwrRun_limited (s : State) : Limited sequencer (raisableBy .fwrRun) s (fwrRun s) := by
  rw [fwrRun]
  split
  next => exact limited_raised.mpr ⟨rfl, by decide⟩
  next =>
    split
    next => exact limited_raised.mpr ⟨rfl, by decide⟩
    next =>
      split
      next => exact limited_fault
      next =>
        have hstart : sequencer { s with outLen := 0 } = sequencer s := rfl
        simp only [limited_ok, sequencer_put, hstart]

theorem take_limited (h : .malformedFrame ∈ errs) (n : Nat) (s : State) : Limited sequencer errs s (take n s) := by
  rw [take]
  split
  next => exact limited_raised.mpr ⟨rfl, h⟩
  next =>
    split
    next => exact limited_fault
    next => exact limited_ok.mpr rfl

theorem takeSigned_limited (h : .malformedFrame ∈ errs) (s : State) : Limited sequencer errs s (takeSigned s) :=
  (take_limited h 4 s).bind fun _ _ => limited_ok.mpr rfl

theorem readHeader_limited (h : .malformedFrame ∈ errs) (s : State) : Limited sequencer errs s (readHeader s) :=
  (takeSigned_limited h s).bind fun m t => by
    split
    next => exact limited_raised.mpr ⟨rfl, h⟩
    next =>
      refine ((takeSigned_limited h { t with maxCode := m }).bind fun e u => ?_).of_eq rfl
      split
      next => exact limited_raised.mpr ⟨rfl, h⟩
      next => exact limited_ok.mpr rfl

theorem readEntry_limited (h : .malformedFrame ∈ errs) (m : Int) (s : State) :
    Limited sequencer errs s (readEntry m s) :=
  (take_limited h 2 s).bind fun c t => by
    split
    next => exact limited_raised.mpr ⟨rfl, h⟩
    next =>
      split
      next => exact limited_raised.mpr ⟨rfl, h⟩
      next =>
        refine (takeSigned_limited h t).bind fun f u => ?_
        split
        next => exact limited_raised.mpr ⟨rfl, h⟩
        next => exact limited_ok.mpr rfl

theorem readEntries_limited (h : .malformedFrame ∈ errs) (m : Int) (n : Nat) :
    ∀ (top : Int) (s : State), Limited sequencer errs s (readEntries m n top s) := by
  induction n with
  | zero => exact fun top s => limited_ok.mpr rfl
  | succ n ih => exact fun top s => (readEntry_limited h m s).bind fun c => ih _

theorem readTable_limited (h : .malformedFrame ∈ errs) (s : State) : Limited sequencer errs s (readTable s) :=
  (readEntries_limited h s.maxCode s.entryCnt (-1) s).bind fun top t => by
    split
    next => exact limited_raised.mpr ⟨rfl, h⟩
    next => exact limited_ok.mpr rfl

theorem readTotalBits_limited (h : .malformedFrame ∈ errs) (s : State) :
    Limited sequencer errs s (readTotalBits s) :=
  (takeSigned_limited h s).bind fun b t => by
    split
    next => exact limited_raised.mpr ⟨rfl, h⟩
    next =>
      split
      next => exact limited_raised.mpr ⟨rfl, h⟩
      next => exact limited_ok.mpr rfl

theorem readPayload_limited (s : State) : Limited sequencer (raisableBy .frdRun) s (readPayload s) := by
  unfold readPayload
  simp only
  split
  next => exact limited_raised.mpr ⟨rfl, by decide⟩
  next =>
    split
    next => exact limited_raised.mpr ⟨rfl, by decide⟩
    next =>
      split
      next => exact limited_raised.mpr ⟨rfl, by decide⟩
      next =>
        split
        next => exact limited_fault
        next => exact limited_ok.mpr rfl

theorem frdRun_limited (s : State) : Limited sequencer (raisableBy .frdRun) s (frdRun s) :=
  (readHeader_limited (by decide) { s with ipos := 0 }).bind fun _ t =>
    (readTable_limited (by decide) t).bind fun _ u =>
      (readTotalBits_limited (by decide) u).bind fun _ => readPayload_limited

/-! ### The boundary units -/

theorem inrdLoop_limited (items : List Item) :
    ∀ s : State, Limited State.status (raisableBy .inrdRun) s (inrdLoop items s) := by
  induction items with
  | nil => exact fun s => limited_ok.mpr rfl
  | cons x rest ih =>
    intro s
    cases x with
    | fail => exact limited_raised.mpr ⟨rfl, by decide⟩
    | eos => exact limited_ok.mpr rfl
    | data b =>
      rw [inrdLoop]
      split
      next => exact limited_raised.mpr ⟨rfl, by decide⟩
      next => exact ih { s with inMem := _, inLen := _ }

theorem inrdRun_limited (s : State) : Limited State.status (raisableBy .inrdRun) s (inrdRun s) := by
  rw [inrdRun]
  split
  next => exact inrdLoop_limited s.input s
  next => exact inrdLoop_limited s.input { s with inLen := 0 }

theorem status_of_outPut {b : Byte} {s t : State} {a : Answer} (h : outPut b s = (a, t)) : t.status = s.status :=
  calc t.status = (outPut b s).2.status := by rw [h]
    _ = s.status := by rw [outPut_state]

theorem status_of_outEnd {s t : State} {a : Answer} (h : outEnd s = (a, t)) : t.status = s.status := by
  unfold outEnd at h
  split at h <;> cases h <;> rfl

theorem outwrLoop_limited (n : Nat) :
    ∀ s : State, Limited State.status (raisableBy .outwrRun) s (outwrLoop n s) := by
  induction n with
  | zero =>
    intro s
    rw [outwrLoop]
    split
    next hoffer => exact limited_ok.mpr (status_of_outEnd hoffer :)
    next hoffer => exact limited_raised.mpr ⟨status_of_outEnd hoffer, by decide⟩
    next hoffer => exact limited_ok.mpr (status_of_outEnd hoffer :)
  | succ n ih =>
    intro s
    rw [outwrLoop]
    split
    next => exact limited_fault
    next =>
      split
      next t hoffer => exact (ih t).of_eq (status_of_outPut hoffer)
      next hoffer => exact limited_raised.mpr ⟨status_of_outPut hoffer, by decide⟩
      next hoffer => exact limited_ok.mpr (status_of_outPut hoffer :)

theorem outwrRun_limited (s : State) : Limited State.status (raisableBy .outwrRun) s (outwrRun s) := by
  unfold outwrRun
  split
  next => exact outwrLoop_limited _ s
  next => exact outwrLoop_limited _ { s with offers := 0 }

/-! ### The operation in issue -/

theorem status_of_sequencer {α : Type} {r : Res α} (h : Limited sequencer errs s r) : Limited State.status errs s r :=
  ⟨fun a t hr => congrArg Prod.fst (h.1 a t hr), fun e t hr => ⟨congrArg Prod.fst (h.2 e t hr).1, (h.2 e t hr).2⟩⟩

/-- Every unit operation between the boundary units leaves the sequencer's bits as they are. -/
theorem exec_limited_sequencer {i : Instr} (hi : i ∉ [Instr.compress, .decompress, .inrdRun, .outwrRun]) (s : State) :
    ∃ r : Res Unit, Limited sequencer (raisableBy i) s r ∧ exec i s = r.outcome := by
  cases i with
  | compress | decompress | inrdRun | outwrRun => simp at hi
  | dictSeed => exact ⟨.ok () (dictSeed s), limited_ok.mpr rfl, rfl⟩
  | dictLookup => exact ⟨.ok () { s with resCode := dictLookup s.argP s.argB s }, limited_ok.mpr rfl, rfl⟩
  | dictRlookup =>
    exact ⟨(dictRlookup s.argC s).bind fun r t => .ok () { t with resStr := r },
      (dictRlookup_limited s.argC s).bind fun _ _ => limited_ok.mpr rfl, rfl⟩
  | dictInsert =>
    exact ⟨(dictInsert s.argP s.argB s).bind fun k t => .ok () { t with resCode := some k },
      (dictInsert_limited (by decide) (by decide) s.argP s.argB s).bind fun _ _ => limited_ok.mpr rfl, rfl⟩
  | lzweRun => exact ⟨_, lzweRun_limited s, rfl⟩
  | lzweSym => exact ⟨_, lzweSym_limited s.argB s, rfl⟩
  | lzweFlush => exact ⟨_, lzweFlush_limited (by decide) s, rfl⟩
  | lzwdRun => exact ⟨_, lzwdRun_limited s, rfl⟩
  | lzwdFirst => exact ⟨_, lzwdFirst_limited s.argC s, rfl⟩
  | lzwdNext => exact ⟨_, lzwdNext_limited s.argC s, rfl⟩
  | freqCount => exact ⟨_, freqCount_limited s, rfl⟩
  | hbuildRun => exact ⟨_, hbuildRun_limited s, rfl⟩
  | hgenRun => exact ⟨_, hgenRun_limited s, rfl⟩
  | bpackRun => exact ⟨_, bpackRun_limited s, rfl⟩
  | bunpkRun => exact ⟨_, bunpkRun_limited s, rfl⟩
  | fwrRun => exact ⟨_, fwrRun_limited s, rfl⟩
  | frdRun => exact ⟨_, frdRun_limited s, rfl⟩

/-- Every unit operation leaves STATUS as it is, until an error is taken. -/
theorem exec_limited_status {i : Instr} (hcompress : i ≠ .compress) (hdecompress : i ≠ .decompress) (s : State) :
    ∃ r : Res Unit, Limited State.status (raisableBy i) s r ∧ exec i s = r.outcome := by
  by_cases hin : i = .inrdRun
  · subst hin
    exact ⟨_, inrdRun_limited s, rfl⟩
  by_cases hout : i = .outwrRun
  · subst hout
    exact ⟨_, outwrRun_limited s, rfl⟩
  obtain ⟨r, hr, hexec⟩ := exec_limited_sequencer (i := i) (by simp [hcompress, hdecompress, hin, hout]) s
  exact ⟨r, status_of_sequencer hr, hexec⟩

end

/-- Settles O14: an operation that ends leaves STATUS, and one that raises writes it in the one way of R330. -/
theorem unitOperationsRaiseOnlyTheirErrors : Obligations.UnitOperationsRaiseOnlyTheirErrors := by
  intro i s t hcompress hdecompress hnext
  obtain ⟨r, hr, hexec⟩ := exec_limited_status hcompress hdecompress s
  rw [hexec] at hnext
  rcases Res.outcome_eq_next.mp hnext with ⟨a, hok⟩ | ⟨e, u, hraised, rfl⟩
  · exact .inl (hr.1 a t hok)
  · obtain ⟨hstatus, he⟩ := hr.2 e u hraised
    exact .inr ⟨e, he, rfl, congrArg (Status.raised · e) hstatus⟩

end Sys2Proof.Proofs.RaisedErrors
end

section
/-!
A legal state never stops (70_reset_and_hazards.md R372): at every stage of a running command the operation of that
stage ends or raises, because what it reads is there.
-/
namespace Sys2Proof.Proofs.Progress
open Sys2Proof Sys2Proof.Machine Sys2Proof.Proofs.Invariant Sys2Proof.Proofs.BoundaryUnits
open Sys2Proof.Proofs.FrameBytes Sys2Proof.Proofs.FrameReader Sys2Proof.Proofs.DictShape
open Sys2Proof.Proofs.DecompressUnits Sys2Proof.Proofs.StepInvariant Sys2Proof.Proofs.TreePriority
open Sys2Proof.Proofs.BitUnpacker Sys2Proof.Proofs.CodeWords

/-! ### Operations that answer -/

section
variable {α β : Type} {r : Res α} {f : α → State → Res β} {P P' : α → State → Prop} {Q : β → State → Prop} {s t : State}

/-- `r` ends, in a state with `P`, or raises: no fault and no refusal. -/
def Answers (r : Res α) (P : α → State → Prop) : Prop := (∃ a t, r = .ok a t ∧ P a t) ∨ ∃ e t, r = .raised e t

theorem answers_ok {a : α} (h : P a t) : Answers (.ok a t) P := .inl ⟨a, t, rfl, h⟩

theorem answers_raised {e : Err} : Answers (.raised e t : Res α) P := .inr ⟨e, t, rfl⟩

theorem Answers.bind (h : Answers r P) (hf : ∀ a t, P a t → Answers (f a t) Q) : Answers (r.bind f) Q := by
  rcases h with ⟨a, t, rfl, ht⟩ | ⟨e, t, rfl⟩
  · exact hf a t ht
  · exact answers_raised

theorem Answers.weaken (h : Answers r P) (hP : ∀ a t, P a t → P' a t) : Answers r P' := by
  rcases h with ⟨a, t, rfl, ht⟩ | ⟨e, t, rfl⟩
  · exact answers_ok (hP a t ht)
  · exact answers_raised

/-- What is known of the state where `r` ends joins what is known otherwise. -/
theorem Answers.of_meets {E : Err → State → Prop} (h : Answers r P) (hm : Meets r P' E) : Answers r P' := by
  rcases h with ⟨a, t, rfl, -⟩ | ⟨e, t, rfl⟩
  · exact answers_ok (hm.1 a t rfl)
  · exact answers_raised

theorem Answers.next (h : Answers r P) : ∃ t, r.outcome = .next t := by
  rcases h with ⟨a, t, rfl, -⟩ | ⟨e, t, rfl⟩
  · exact ⟨t, rfl⟩
  · exact ⟨t.raise e, rfl⟩

end

/-- The elements below a length register, where all are listed. -/
theorem exists_elements {α : Type} {w : Memory α} {n : Nat} (h : Memory.listed w n) :
    ∃ vs : List α, n = vs.length ∧ ∀ i, i < vs.length → (if i < n then Memory.read w i else none) = vs[i]? := by
  obtain ⟨vs, hvs⟩ := Option.isSome_iff_exists.mp (Memory.readRun_isSome_of_listed h (Nat.zero_add n).le)
  obtain ⟨hlen, hread⟩ := Memory.readRun_eq_some.mp hvs
  refine ⟨vs, hlen.symm, fun i hi => ?_⟩
  have hat := hread i (hlen ▸ hi)
  rw [Nat.zero_add] at hat
  rw [if_pos (hlen ▸ hi), hat]

variable {s t u : State} {i : Instr}

/-! ### The boundary units -/

theorem inrdLoop_answers (items : List Item) : ∀ s : State, Answers (inrdLoop items s) fun _ _ => True := by
  induction items with
  | nil => exact fun s => answers_ok trivial
  | cons x rest ih =>
    intro s
    cases x with
    | fail => exact answers_raised
    | eos => exact answers_ok trivial
    | data b =>
      rw [inrdLoop]
      split
      next => exact answers_raised
      next => exact ih _

theorem outwrLoop_answers (n : Nat) : ∀ s : State, Memory.listed s.outMem s.outLen → n + s.offers ≤ s.outLen →
    Answers (outwrLoop n s) fun _ _ => True := by
  induction n with
  | zero =>
    intro s _ _
    rw [outwrLoop, outEnd]
    cases sinkAnswer s.sink s.offers with
    | ok | silent => exact answers_ok trivial
    | fail => exact answers_raised
  | succ n ih =>
    intro s hl hn
    have hlt : s.offers < s.outLen := by omega
    obtain ⟨b, hb⟩ := Option.isSome_iff_exists.mp (hl s.offers hlt)
    have hread : s.outAt s.offers = some b := by rw [State.outAt, if_pos hlt, hb]
    rw [outwrLoop, hread]
    dsimp only
    rw [outPut]
    cases sinkAnswer s.sink s.offers with
    | ok => exact ih _ hl (by simp only; omega)
    | fail => exact answers_raised
    | silent => exact answers_ok trivial

theorem outwrRun_answers (hl : Memory.listed s.outMem s.outLen) (hoffers : s.offers ≤ s.outLen) :
    Answers (outwrRun s) fun _ _ => True := by
  unfold outwrRun
  split
  next => exact outwrLoop_answers _ s hl (by omega)
  next => exact outwrLoop_answers _ { s with offers := 0 } hl (by simp)

/-! ### The units of COMPRESS -/

theorem lzweRun_answers (hwf : Memory.wf s.dict) (hl : Memory.listed s.inMem s.inLen) :
    Answers (lzweRun s) fun _ _ => True := by
  obtain ⟨bs, hlen, hread⟩ := exists_elements hl
  rcases LzweRun.lzweRun_simulates hwf ⟨hlen, hread⟩ with ⟨t, hok, -⟩ | ⟨e, t, hraised, -⟩
  · exact hok ▸ answers_ok trivial
  · exact hraised ▸ answers_raised

theorem freqCount_answers (hempty : s.freq = []) (hl : Memory.listed s.cseq s.clen) :
    Answers (freqCount s) fun _ _ => True := by
  obtain ⟨cs, hlen, hread⟩ := exists_elements hl
  obtain ⟨m, -, hok⟩ := FrequencyCount.freqCount_tallies hempty ⟨hlen, hread⟩
  exact hok ▸ answers_ok trivial

theorem hbuildRun_answers (hne : s.freq ≠ []) : Answers (hbuildRun s) fun _ _ => True := by
  obtain ⟨t, hok⟩ := hbuildRun_ends hne
  exact hok ▸ answers_ok trivial

theorem hgenRun_answers (ht : s.treeOk) : Answers (hgenRun s) fun _ _ => True := by
  obtain ⟨t, hok⟩ := hgenRun_ends ht
  exact hok ▸ answers_ok trivial

theorem bpackRun_answers (hl : Memory.listed s.cseq s.clen) (hwords : s.codesHaveWords) :
    Answers (bpackRun s) fun _ _ => True := by
  obtain ⟨cs, hlen, hread⟩ := exists_elements hl
  have hsome : ∀ c ∈ cs, (Memory.read s.ctab c.toNat).isSome = true := fun c hc => by
    obtain ⟨i, hi, rfl⟩ := List.mem_iff_getElem.mp hc
    have hword := hwords i (hlen ▸ hi)
    have hat := hread i hi
    rw [if_pos (hlen ▸ hi), List.getElem?_eq_getElem hi] at hat
    simpa [hat] using hword
  have hws : cs.map (fun c => Memory.read s.ctab c.toNat)
      = (cs.map fun c => (Memory.read s.ctab c.toNat).getD []).map some := by
    rw [List.map_map]
    refine List.map_congr_left fun c hc => ?_
    obtain ⟨w, hw⟩ := Option.isSome_iff_exists.mp (hsome c hc)
    simp [hw]
  rcases BitPacker.bpackRun_packs ⟨hlen, hread⟩ hws with ⟨t, hok, -⟩ | ⟨-, t, hraised, -⟩
  · exact hok ▸ answers_ok trivial
  · exact hraised ▸ answers_raised

theorem fwrRun_answers (hl : Memory.listed s.bits (ceil8 s.totalBits)) : Answers (fwrRun s) fun _ _ => True := by
  obtain ⟨p, hp⟩ := FrameWriter.exists_bitsRun hl
  rw [fwrRun, hp]
  split
  next => exact answers_raised
  next =>
    split
    next => exact answers_raised
    next => exact answers_ok trivial

/-! ### FRD.RUN -/

section
variable {bs : List Byte} {m : Int}

theorem take_answers (h : Unread s bs) (n : Nat) :
    Answers (take n s) fun v t => ∃ rest, bs = bytesBE n v ++ rest ∧ t = skip n s ∧ Unread t rest := by
  rcases Nat.lt_or_ge bs.length n with hn | hn
  · exact take_short h hn ▸ answers_raised
  · have hok := take_enough h hn
    obtain ⟨rest, hbs, -, -⟩ := (take_eq_ok_iff h).mp hok
    rw [hok]
    rw [hbs] at h
    exact answers_ok ⟨rest, hbs, rfl, h.skip (FieldNumbers.bytesBE_length _ _)⟩

theorem takeSigned_answers (h : Unread s bs) :
    Answers (takeSigned s) fun _ t => t = skip 4 s ∧ ∃ rest, Unread t rest :=
  (take_answers h 4).bind fun _ _ ⟨rest, _, ht, hrest⟩ => answers_ok ⟨ht, rest, hrest⟩

theorem readHeader_answers (h : Unread s bs) : Answers (readHeader s) fun _ t => ∃ rest, Unread t rest := by
  refine (takeSigned_answers h).bind fun m t ⟨_, rest, hrest⟩ => ?_
  split
  next => exact answers_raised
  next =>
    have hrest' : Unread { t with maxCode := m } rest := hrest
    refine (takeSigned_answers hrest').bind fun e u ⟨_, rest', hu⟩ => ?_
    split
    next => exact answers_raised
    next => exact answers_ok ⟨rest', hu⟩

theorem readEntry_answers (h : Unread s bs) : Answers (readEntry m s) fun _ t => ∃ rest, Unread t rest := by
  refine (take_answers h 2).bind fun c t ⟨rest, _, _, hrest⟩ => ?_
  split
  next => exact answers_raised
  next =>
    split
    next => exact answers_raised
    next =>
      refine (takeSigned_answers hrest).bind fun f u ⟨_, rest', hu⟩ => ?_
      split
      next => exact answers_raised
      next => exact answers_ok ⟨rest', hu⟩

theorem readEntries_answers (n : Nat) : ∀ {top : Int} {s : State} {bs : List Byte}, Unread s bs →
    Answers (readEntries m n top s) fun _ t => ∃ rest, Unread t rest := by
  induction n with
  | zero => exact fun {top s bs} h => answers_ok ⟨bs, h⟩
  | succ n ih => exact fun {top s bs} h => (readEntry_answers h).bind fun _ _ ⟨_, hrest⟩ => ih hrest

theorem readTable_answers (h : Unread s bs) : Answers (readTable s) fun _ t => ∃ rest, Unread t rest := by
  refine (readEntries_answers _ h).bind fun top t ⟨rest, hrest⟩ => ?_
  split
  next => exact answers_raised
  next => exact answers_ok ⟨rest, hrest⟩

theorem readTotalBits_answers (h : Unread s bs) : Answers (readTotalBits s) fun _ t => ∃ rest, Unread t rest := by
  refine (takeSigned_answers h).bind fun b t ⟨_, rest, hrest⟩ => ?_
  split
  next => exact answers_raised
  next =>
    split
    next => exact answers_raised
    next => exact answers_ok ⟨rest, hrest⟩

theorem readPayload_answers (h : Unread s bs) : Answers (readPayload s) fun _ _ => True := by
  have hleft := h.1
  simp only [readPayload]
  split
  next => exact answers_raised
  next =>
    split
    next => exact answers_raised
    next =>
      split
      next => exact answers_raised
      next => exact h.inRun (n := ceil8 s.totalBits) (by omega) ▸ answers_ok trivial

theorem frdRun_answers (hl : Memory.listed s.inMem s.inLen) : Answers (frdRun s) fun _ _ => True := by
  obtain ⟨bs, hlen, hread⟩ := exists_elements hl
  exact (readHeader_answers (unread_of_holdsInput ⟨hlen, hread⟩)).bind fun _ _ ⟨_, ht⟩ =>
    (readTable_answers ht).bind fun _ _ ⟨_, hu⟩ =>
      (readTotalBits_answers hu).bind fun _ _ ⟨_, hv⟩ => readPayload_answers hv

end

/-! ### BUNPK.RUN -/

theorem emit_answers (c : Code) (s : State) :
    Answers (emit c s) fun _ t => t = { s with cseq := t.cseq, clen := t.clen } := by
  rcases emit_cases c s with ⟨-, h⟩ | ⟨-, h⟩ <;> rw [h]
  · exact answers_raised
  · exact answers_ok rfl

/-- The unpacker is at an internal node, or the tree is one leaf (46 R236). -/
def Walking (s : State) : Prop := s.treeOk ∧ (s.nnodes = 1 ∨ internalNode (s.nodeAt s.node) = true)

theorem exists_child {g f l r : Nat} {m : Code} (ht : s.treeOk) (hg : s.nodeAt g = some (.internal f m l r))
    (v : Bool) : ∃ a, s.nodeAt (if v then r else l) = some a := by
  have hinner := (children_of_internal ht hg).1
  obtain ⟨-, -, -, -, hshape, -⟩ := ht
  obtain ⟨_, _, _, _, a, b, hg', hl, hr, -⟩ :=
    TreeBuilder.internalShape_eq_true.mp (hshape g (TreeBuilder.lt_nnodes_of_nodeAt hg) hinner)
  cases hg.symm.trans hg'
  cases v with
  | true => exact ⟨b, hr⟩
  | false => exact ⟨a, hl⟩

theorem bunpkBit_answers (h : Walking s) (v : Bool) : Answers (bunpkBit v s) fun _ t => Walking t := by
  obtain ⟨ht, hat⟩ := h
  rcases root_cases ht with ⟨hone, c, f, hroot⟩ | ⟨hmany, -⟩
  · cases v with
    | true => exact bunpkBit_true_of_leaf hroot ▸ answers_raised
    | false =>
      rw [bunpkBit_false_of_leaf hroot]
      refine (emit_answers c s).weaken fun _ t hframe => ?_
      have hsame : SameTree t s := by
        rw [hframe]
        exact ⟨rfl, rfl, rfl, fun _ => rfl⟩
      exact ⟨hsame.treeOk ht, .inl (hsame.nnodes.trans hone)⟩
  · have hroot := root_internal ht hmany
    obtain ⟨f, m, l, r, hnode⟩ := internalNode_eq_true.mp (hat.resolve_left hmany.ne')
    obtain ⟨a, ha⟩ : ∃ a, s.nodeAt (if v then r else l) = some a := exists_child ht hnode v
    cases a with
    | leaf c x =>
      rw [bunpkBit_to_leaf hroot hnode ha, emitAtLeaf]
      refine (emit_answers c _).bind fun _ t hframe => answers_ok ?_
      have hsame : SameTree { t with node := t.root } s := by
        rw [hframe]
        exact ⟨rfl, rfl, rfl, fun _ => rfl⟩
      refine ⟨hsame.treeOk ht, .inr ?_⟩
      rw [hsame.nodeAt]
      have hat : t.root = s.root := hsame.root
      exact hat ▸ hroot
    | internal x y l' r' =>
      have hchild : internalNode (s.nodeAt (if v then r else l)) = true := by rw [ha]; rfl
      rw [bunpkBit_to_internal hroot hnode hchild]
      exact answers_ok ⟨ht, .inr hchild⟩

theorem bunpkBits_answers (vs : List Bool) : ∀ {s : State}, Walking s →
    Answers (bunpkBits vs s) fun _ t => Walking t := by
  induction vs with
  | nil => exact fun h => answers_ok h
  | cons v vs ih =>
    intro s h
    have hnext : Walking { s with bpos := s.bpos + 1 } := h
    exact (bunpkBit_answers hnext v).bind fun _ _ ht => ih ht

theorem bunpkRun_answers (ht : s.treeOk) (hl : Memory.listed s.bits (ceil8 s.totalBits)) :
    Answers (bunpkRun s) fun _ _ => True := by
  have hbit (i : Nat) (hi : i < s.totalBits) : (s.bitAt i).isSome = true := by
    have hlt : i / 8 < ceil8 s.totalBits := by rw [ceil8]; omega
    rw [State.bitAt, State.bitsAt, if_pos hlt, Option.isSome_map]
    exact hl _ hlt
  have hbits : s.holdsBits (List.ofFn fun i : Fin s.totalBits => (s.bitAt i).get (hbit i i.isLt)) := by
    refine ⟨by simp, fun i hi => ?_⟩
    rw [List.length_ofFn] at hi
    simp [hi]
  have hstart : Walking { s with clen := 0, bpos := 0, node := s.root } := by
    refine ⟨ht, ?_⟩
    rcases root_cases ht with ⟨hone, -⟩ | ⟨hmany, -⟩
    · exact .inl hone
    · exact .inr (root_internal ht hmany)
  rw [bunpkRun_of_holdsBits hbits]
  refine (bunpkBits_answers _ hstart).bind fun _ t _ => ?_
  rw [bunpkLoop]
  split
  next => exact answers_raised
  next => exact answers_ok trivial

/-! ### LZWD.RUN -/

/-- DICT.RLOOKUP answers no empty string, and below DSIZE it answers one. -/
theorem dictRlookup_answers (hseeded : s.dictSeeded) (k : Code) :
    Answers (dictRlookup k s) fun r t => t = s ∧ r ≠ some [] ∧ (k.toNat < s.dsize → r ≠ none) := by
  rw [dictRlookup]
  split
  next hlt =>
    obtain ⟨x, w, hstr⟩ := strAt_isSome hseeded (k.toNat + 1) k.toNat (Nat.lt_succ_self _) hlt
    rw [str, hstr]
    exact answers_ok ⟨rfl, by simp, by simp⟩
  next hge => exact answers_ok ⟨rfl, by simp, fun hlt => absurd hlt hge⟩

theorem append_answers (bs : List Byte) (s : State) :
    Answers (append bs s) fun _ t => t.prev = s.prev ∧ t.dsize = s.dsize := by
  rcases append_cases bs s with ⟨-, h⟩ | ⟨-, h⟩ <;> rw [h]
  · exact answers_raised
  · exact answers_ok ⟨rfl, rfl⟩

theorem dictInsert_answers {c : Code} (hc : c.toNat < s.dsize) (b : Byte) :
    Answers (dictInsert (some c) b s) fun _ _ => True := by
  rcases dictInsert_cases (some c) b s with ⟨habsent, -⟩ | ⟨_, -, -, ⟨-, h⟩ | ⟨-, -, h⟩ | ⟨-, -, h⟩⟩
  · exact absurd hc (Nat.not_lt.mpr (habsent c rfl))
  · exact h ▸ answers_raised
  · exact h ▸ answers_raised
  · exact h ▸ answers_ok trivial

theorem lzwdFirst_answers (c : Code) (h : Decodes s t) : Answers (lzwdFirst c t) fun _ u => Decodes s u := by
  refine Answers.of_meets (P := fun _ _ => True) ?_ (lzwdFirst_meets c h)
  refine (dictRlookup_answers h.seeded c).bind fun r u hu => ?_
  clear hu
  split
  next => exact answers_raised
  next w => exact (append_answers w u).bind fun _ _ _ => answers_ok trivial

/-- The string of LZWD.NEXT's code begins with a byte: PREV is the code of a present entry. -/
theorem lzwdCurrent_answers (c : Code) (h : Decodes s t) :
    Answers (lzwdCurrent c t) fun w u => u = t ∧ w ≠ [] := by
  have hprev := (CompressUnits.codes_present h.sound h.seeded).1
  refine (dictRlookup_answers h.seeded c).bind fun r u ⟨hu, hr, _⟩ => ?_
  subst hu
  split
  next w => exact answers_ok ⟨rfl, fun hw => hr (congrArg some hw)⟩
  next =>
    split
    next =>
      refine (dictRlookup_answers h.seeded u.prev).bind fun q v ⟨hv, hq, hsome⟩ => ?_
      rcases q with _ | _ | ⟨x, w⟩
      · exact absurd rfl (hsome hprev)
      · exact absurd rfl hq
      · exact answers_ok ⟨hv, by simp⟩
    next => exact answers_raised

theorem lzwdNext_answers (c : Code) (h : Decodes s t) :
    Answers (lzwdNext c t) fun _ u => Decodes s u ∧ u.cpos = t.cpos := by
  refine Answers.of_meets (P := fun _ _ => True) ?_ (lzwdNext_meets c h)
  have hprev := (CompressUnits.codes_present h.sound h.seeded).1
  refine (lzwdCurrent_answers c h).bind fun w u ⟨hu, hw⟩ => ?_
  subst hu
  cases w with
  | nil => exact absurd rfl hw
  | cons x w =>
    refine (append_answers (x :: w) u).bind fun _ v ⟨hvprev, hdsize⟩ => ?_
    exact (dictInsert_answers (hdsize ▸ hvprev ▸ hprev) x).bind fun _ _ _ => answers_ok trivial

theorem lzwdLoop_answers (hl : Memory.listed s.cseq s.clen) (n : Nat) : ∀ {t : State}, Decodes s t →
    t.cpos + n ≤ s.clen → Answers (lzwdLoop n t) fun _ _ => True := by
  induction n with
  | zero => exact fun _ _ => answers_ok trivial
  | succ n ih =>
    intro t h hn
    have hlt : t.cpos < s.clen := by omega
    obtain ⟨c, hc⟩ := Option.isSome_iff_exists.mp (hl t.cpos hlt)
    have hcode : t.codeAt t.cpos = some c := by
      have hsame : t.codeAt t.cpos = s.codeAt t.cpos := by rw [h.frame]; rfl
      rw [hsame, State.codeAt, if_pos hlt, hc]
    rw [lzwdLoop, hcode]
    refine (lzwdNext_answers c h).bind fun _ u ⟨hu, hcpos⟩ => ih (hu.setCpos ?_) ?_
    · have hclen : u.clen = s.clen := by rw [hu.frame]
      omega
    · simp only
      omega

/-- The state in which LZWD.RUN begins to decode (42 R171). -/
theorem decodes_start (hs : Sound s) (hdsize : s.dsize = 0) : Decodes s { dictSeed s with outLen := 0 } := by
  have hseeded := dictSeed_seeded s
  obtain ⟨hcur, hprev⟩ : s.cur = none ∧ s.prev = 0 := by
    rcases hs.dictOk with ⟨-, hcur, hprev⟩ | ⟨hseeded, -⟩
    · exact ⟨hcur, hprev⟩
    · exact absurd hseeded.1 (by omega)
  have hpresent : ({ dictSeed s with outLen := 0 } : State).dictOk := by
    refine CompressUnits.dictOk_of_codes_present hseeded ?_ fun c hc => ?_
    · change s.prev.toNat < 256
      rw [hprev]
      decide
    · change s.cur = some c at hc
      rw [hcur] at hc
      cases hc
  exact ⟨{ hs with
      dict := Memory.wf_write hs.dict _ _, dsize := hseeded.2.1, outLen := withinCap_zero _, dictOk := hpresent },
    hseeded, fun i hi => absurd hi (Nat.not_lt_zero i), rfl⟩

theorem lzwdRun_answers (hs : Sound s) (hdsize : s.dsize = 0) (hl : Memory.listed s.cseq s.clen) :
    Answers (lzwdRun s) fun _ _ => True := by
  rw [lzwdRun]
  split
  next => exact answers_raised
  next hclen =>
    obtain ⟨c, hc⟩ := Option.isSome_iff_exists.mp (hl 0 (Nat.pos_of_ne_zero hclen))
    have hcode : ({ dictSeed s with outLen := 0 } : State).codeAt 0 = some c := by
      change s.codeAt 0 = some c
      rw [State.codeAt, if_pos (Nat.pos_of_ne_zero hclen), hc]
    simp only [hcode]
    refine (lzwdFirst_answers c (decodes_start hs hdsize)).bind fun _ u hu => lzwdLoop_answers hl _ (hu.setCpos ?_) ?_
    · have hclen' : u.clen = s.clen := by rw [hu.frame]
      omega
    · simp only
      omega

/-! ### The step -/

/-- The operation of the stage of a running command, and that it answers. -/
theorem uop_answers (h : s.Inv) (hbusy : s.status.busy = true) :
    ∃ i, decodeUop s.fetchWord = .ok i ∧ ∃ t, exec i s = .next t := by
  obtain ⟨hlegal, hsound, -, ⟨hout, -, -⟩, hdata⟩ := inv_iff.mp h
  replace hdata := hdata hbusy
  obtain ⟨-, -, hoffers, hgot, -⟩ := hout hbusy
  have hrun := running_of_legal hlegal hbusy
  obtain ⟨-, -, -, -, hstages⟩ := id hrun
  have hissue {stage : BitVec 4} {j : Instr} {r : Res Unit} (hstage : s.status.stage = stage)
      (hj : decodeUop (uopWord stage 0) = .ok j) (hexec : exec j s = r.outcome) (hr : Answers r fun _ _ => True) :
      ∃ i, decodeUop s.fetchWord = .ok i ∧ ∃ t, exec i s = .next t := by
    refine ⟨j, ?_, hexec ▸ hr.next⟩
    rw [State.fetchWord, sub_of_inv h hbusy, hstage, hj]
  rcases op_of_running hrun with hop | hop <;> rw [hop] at hstages
  · change s.status.stage ∈ [1, 3, 5, 6, 7, 8, 10, 12] at hstages
    simp only [List.mem_cons, List.not_mem_nil, or_false] at hstages
    rcases hstages with hst | hst | hst | hst | hst | hst | hst | hst <;>
      simp only [State.stageData, hop, hst] at hdata
    · exact hissue hst (j := .inrdRun) rfl rfl (inrdLoop_answers _ _)
    · obtain ⟨hl, -⟩ := hdata
      exact hissue hst (j := .lzweRun) rfl rfl (lzweRun_answers hsound.dict hl)
    · obtain ⟨hl, hempty, -⟩ := hdata
      exact hissue hst (j := .freqCount) rfl rfl (freqCount_answers hempty hl)
    · obtain ⟨-, hne, -⟩ := hdata
      exact hissue hst (j := .hbuildRun) rfl rfl (hbuildRun_answers hne)
    · obtain ⟨-, htree, -⟩ := hdata
      exact hissue hst (j := .hgenRun) rfl rfl (hgenRun_answers htree)
    · obtain ⟨hl, hwords, -⟩ := hdata
      exact hissue hst (j := .bpackRun) rfl rfl (bpackRun_answers hl hwords)
    · obtain ⟨hl, -⟩ := hdata
      exact hissue hst (j := .fwrRun) rfl rfl (fwrRun_answers hl)
    · exact hissue hst (j := .outwrRun) rfl rfl (outwrRun_answers hdata (hoffers ▸ hgot))
  · change s.status.stage ∈ [1, 11, 6, 9, 4, 12] at hstages
    simp only [List.mem_cons, List.not_mem_nil, or_false] at hstages
    rcases hstages with hst | hst | hst | hst | hst | hst <;> simp only [State.stageData, hop, hst] at hdata
    · exact hissue hst (j := .inrdRun) rfl rfl (inrdLoop_answers _ _)
    · obtain ⟨hl, -⟩ := hdata
      exact hissue hst (j := .frdRun) rfl rfl (frdRun_answers hl)
    · obtain ⟨-, hne, -⟩ := hdata
      exact hissue hst (j := .hbuildRun) rfl rfl (hbuildRun_answers hne)
    · obtain ⟨hl, htree, -⟩ := hdata
      exact hissue hst (j := .bunpkRun) rfl rfl (bunpkRun_answers htree hl)
    · obtain ⟨hl, -, hdsize⟩ := hdata
      exact hissue hst (j := .lzwdRun) rfl rfl (lzwdRun_answers hsound hdsize hl)
    · exact hissue hst (j := .outwrRun) rfl rfl (outwrRun_answers hdata (hoffers ▸ hgot))

/-- The move of a legal state is never the stop of an unassigned identifier. -/
theorem move_ne_stop (h : s.Inv) (x : Refusal) : s.move ≠ .stop x := by
  have hissue {w : State} (hbusy : s.status.busy = true) (hw : HostSide s w) : issueUop w ≠ .stop x := by
    have hbusy' : w.status.busy = true := by rw [hw]; exact hbusy
    obtain ⟨i, hdec, -⟩ := uop_answers (inv_of_hostSide h hw) hbusy'
    rw [issueUop, hdec]
    simp
  unfold State.move
  split
  case h_1 | h_3 =>
    split
    next hbusy => exact hissue hbusy (hostSide_refl s)
    next => simp
  case h_2 =>
    split
    next hbusy => exact hissue hbusy (hostSide_host s _)
    next => simp
  case h_5 =>
    unfold writeRegister
    split
    next => split <;> simp
    next => simp
  all_goals simp

/-- Settles O59: a command word is accepted, and the operation of a stage answers. -/
theorem legalStatesNeverStop : Obligations.LegalStatesNeverStop := by
  intro s h
  cases hmove : s.move with
  | settled t => exact ⟨t, by rw [step, hmove]⟩
  | stop x => exact absurd hmove (move_ne_stop h x)
  | issue i u =>
    obtain ⟨hside, hissue⟩ := move_issue hmove
    obtain ⟨v, hexec⟩ : ∃ v, exec i u = .next v := by
      rcases hissue with ⟨-, rfl | rfl⟩ | ⟨hbusy, hdec⟩
      · exact ⟨_, rfl⟩
      · exact ⟨_, rfl⟩
      · have hbusy' : u.status.busy = true := by rw [hside]; exact hbusy
        obtain ⟨j, hj, hanswer⟩ := uop_answers (inv_of_hostSide h hside) hbusy'
        cases hdec.symm.trans hj
        exact hanswer
    exact ⟨advance i v, by rw [step, hmove]; simp only [hexec, mapNext]⟩

end Sys2Proof.Proofs.Progress
end

section
/-!
A command as its sequence (48_commands.md R284, R290): the machine takes one step for each operation of the sequence
and is then in the state in which the sequence, written as one computation, ends or raises.
-/
namespace Sys2Proof.Proofs.CommandSequence
open Sys2Proof Sys2Proof.Machine Sys2Proof.Proofs.HostActions Sys2Proof.Proofs.RaisedErrors
open Sys2Proof.Proofs.StreamFrame

/-! ### Runs -/

section
variable {s t : State} {n k : Nat} {o : Host.Outcome State Fault Refusal} {host : List HostEvent}

theorem core_step (s : State) : core.step s = step s := rfl

theorem run_of_step (h : step s = .next t) : core.run (n + 1) s = core.run n t := by
  simp only [Host.Core.run, core_step, h]

theorem run_of_stop (h : step s = o) (hstop : ∀ t, o ≠ .next t) : core.run (n + 1) s = o := by
  cases o with
  | next t => exact absurd rfl (hstop t)
  | fault x =>
    simp only [Host.Core.run, core_step, h]
    rfl
  | refused x =>
    simp only [Host.Core.run, core_step, h]
    rfl

/-- A run goes on from where it has come to. -/
theorem run_of_next (m : Nat) : ∀ {s : State}, core.run m s = .next t → core.run (m + n) s = core.run n t := by
  induction m with
  | zero =>
    intro s h
    cases h
    rw [Nat.zero_add]
  | succ m ih =>
    intro s h
    obtain ⟨u, hstep, hrest⟩ := Independence.run_succ_eq_next h
    rw [Nat.add_right_comm, run_of_step hstep, ih hrest]

/-- A run that has stopped stays where it is. -/
theorem run_of_stopped (m : Nat) : ∀ {s : State}, core.run m s = o → (∀ t, o ≠ .next t) → core.run (m + n) s = o := by
  induction m with
  | zero => exact fun {s} h hstop => absurd h.symm (hstop s)
  | succ m ih =>
    intro s h hstop
    rw [Nat.add_right_comm]
    cases hstep : step s with
    | next t =>
      rw [run_of_step hstep] at h ⊢
      exact ih h hstop
    | fault x =>
      rw [run_of_stop hstep (by simp)] at h ⊢
      exact h
    | refused x =>
      rw [run_of_stop hstep (by simp)] at h ⊢
      exact h

/-- A command is over and the host has not acted. -/
def Over (host : List HostEvent) (t : State) : Prop :=
  t.status.busy = false ∧ t.status.done = true ∧ t.host = host

/-- Within `k` steps the machine answers `o`, and where that is a state the command is over. -/
def Reaches (host : List HostEvent) (k : Nat) (s : State) (o : Host.Outcome State Fault Refusal) : Prop :=
  ∃ n, n ≤ k ∧ core.run n s = o ∧ ∀ t, o = .next t → Over host t

theorem Reaches.of_step (hstep : step s = .next t) (h : Reaches host k t o) : Reaches host (k + 1) s o := by
  obtain ⟨n, hn, hrun, hover⟩ := h
  exact ⟨n + 1, Nat.succ_le_succ hn, (run_of_step hstep).trans hrun, hover⟩

theorem reaches_over (hstep : step s = .next t) (h : Over host t) : Reaches host (k + 1) s (.next t) :=
  ⟨1, by omega, run_of_step hstep, fun _ heq => by cases heq; exact h⟩

theorem reaches_stop (hstep : step s = o) (hstop : ∀ t, o ≠ .next t) : Reaches host (k + 1) s o :=
  ⟨1, by omega, run_of_stop hstep hstop, fun t heq => absurd heq (hstop t)⟩

theorem Reaches.mono {j : Nat} (h : Reaches host k s o) (hle : k ≤ j) : Reaches host j s o := by
  obtain ⟨n, hn, hrun⟩ := h
  exact ⟨n, hn.trans hle, hrun⟩

end

/-! ### One stage of a running command -/

/-- A command runs, no operation waits and the sink will answer. -/
structure Running (op : BitVec 2) (host : List HostEvent) (s : State) : Prop where
  busy : s.status.busy = true
  op_eq : s.status.op = op
  host_eq : s.host = host
  whole : s.inOp = false
  answering : ∀ k, s.sink ≠ .silentAt k

section
variable {op : BitVec 2} {host : List HostEvent} {s t : State} {i : Instr} {k : Nat} {stage n : BitVec 4}
  {r : Res Unit} {f : State → Res Unit} {g : State → Res Unit}

theorem Running.atStage (h : Running op host s) (stage : BitVec 4) : Running op host (s.atStage stage) := { h with }

theorem Running.congr (h : Running op host s) (hstatus : t.status = s.status) (hwait : t.inOp = false)
    (hdeclared : declared t = declared s) : Running op host t := by
  obtain ⟨-, hhost, hsink, -⟩ := declared_eq_iff.mp hdeclared
  exact ⟨hstatus ▸ h.busy, hstatus ▸ h.op_eq, hhost.trans h.host_eq, hwait, hsink ▸ h.answering⟩

/-- A script that leaves the move to the sequencer until the command is over (log 1). -/
def LetsRun (host : List HostEvent) : Prop := host = [] ∨ ∃ rest, host = .wait :: rest

theorem step_atStage (hhost : LetsRun host) (h : Running op host s) (hdec : decodeUop (uopWord stage 0) = .ok i) :
    step (s.atStage stage) = mapNext (advance i) (exec i (s.atStage stage)) := by
  obtain ⟨hended, -, hwait⟩ := Encoding.stepRunsDecodedUnitOperation (s.atStage stage) i h.busy hdec
  rcases hhost with rfl | ⟨rest, rfl⟩
  · exact hended h.host_eq
  · exact hwait rest h.host_eq

/-- An error that is taken ends the command (60 R330), and the sequencer does no more. -/
theorem over_raise (e : Err) (h : t.host = host) : Over host (t.raise e) := ⟨rfl, rfl, h⟩

/-- The step of one stage: where its operation ends the rest of the sequence follows, and else its outcome is that of
the sequence. -/
theorem reaches_stage (hhost : LetsRun host) (h : Running op host s) (hdec : decodeUop (uopWord stage 0) = .ok i)
    (hexec : exec i (s.atStage stage) = r.outcome)
    (hraised : ∀ e t, r = .raised e t → t.host = host)
    (hok : ∀ t, r = .ok () t → Running op host t ∧ ∃ n, stageAfter i t = some n ∧ n ≠ 0
      ∧ Reaches host k (t.atStage n) (g t).outcome) :
    Reaches host (k + 1) (s.atStage stage) (r.bind fun _ t => g t).outcome := by
  have hstep := step_atStage hhost h hdec
  rw [hexec] at hstep
  cases r with
  | ok a t =>
    obtain ⟨hrun, n, hafter, hn, hrest⟩ := hok t rfl
    exact Reaches.of_step (hstep.trans (congrArg _ (advance_atStage hrun.busy hrun.whole hafter hn))) hrest
  | raised e t =>
    exact reaches_over (hstep.trans (congrArg _ (advance_idle (.inl rfl)))) (over_raise e (hraised e t rfl))
  | fault x => exact reaches_stop hstep (by simp)
  | refused x => exact reaches_stop hstep (by simp)

/-- A stage between the boundary units keeps what the sequencer and the host have set. -/
theorem reaches_inner (hhost : LetsRun host) (h : Running op host s) (hdec : decodeUop (uopWord stage 0) = .ok i)
    (hexec : exec i (s.atStage stage) = (f (s.atStage stage)).outcome)
    (hlimited : Limited sequencer (raisableBy i) (s.atStage stage) (f (s.atStage stage))) (hkeeps : Keeps streams f)
    (hok : ∀ t, f (s.atStage stage) = .ok () t → Running op host t → ∃ n, stageAfter i t = some n ∧ n ≠ 0
      ∧ Reaches host k (t.atStage n) (g t).outcome) :
    Reaches host (k + 1) (s.atStage stage) ((f (s.atStage stage)).bind fun _ t => g t).outcome := by
  have hdeclared {t : State} (ht : streams t = streams (s.atStage stage)) : declared t = declared s :=
    (streams_eq_iff.mp ht).2.2
  refine reaches_stage hhost h hdec hexec (fun e t hr => ?_) fun t hr => ?_
  · obtain ⟨-, hsame, -⟩ := declared_eq_iff.mp (hdeclared ((hkeeps _).2 e t hr))
    exact hsame.trans h.host_eq
  · have hseq := hlimited.1 () t hr
    simp only [sequencer, Prod.mk.injEq] at hseq
    obtain ⟨hstatus, -, hwait⟩ := hseq
    have hrun : Running op host t :=
      (h.atStage stage).congr hstatus (hwait.trans h.whole) (hdeclared ((hkeeps _).1 () t hr))
    exact ⟨hrun, hok t hr hrun⟩

/-! ### The boundary stages -/

/-- A reader whose stream is ended does not wait. -/
theorem inrdLoop_not_waiting (items : List Item) : ∀ {s t : State}, inputWf items = true →
    inrdLoop items s = .ok () t → t.inOp = false := by
  induction items with
  | nil => exact fun h => absurd h Bool.false_ne_true
  | cons x rest ih =>
    intro s t h hrun
    cases x with
    | fail => cases hrun
    | eos => cases hrun; rfl
    | data b =>
      rw [inrdLoop] at hrun
      split at hrun
      next => cases hrun
      next =>
        cases rest with
        | nil => exact absurd h Bool.false_ne_true
        | cons y rest => exact ih (by simpa [inputWf, Item.terminates] using h) hrun

theorem inrdRun_not_waiting (hin : inputWf s.input = true) (hrun : inrdRun s = .ok () t) : t.inOp = false := by
  rw [inrdRun] at hrun
  exact inrdLoop_not_waiting _ hin hrun

theorem reaches_inrd (hhost : LetsRun host) (h : Running op host s) (hin : inputWf s.input = true)
    (hok : ∀ t, Running op host t → ∃ n, stageAfter .inrdRun t = some n ∧ n ≠ 0
      ∧ Reaches host k (t.atStage n) (g t).outcome) :
    Reaches host (k + 1) (s.atStage 1) ((inrdRun (s.atStage 1)).bind fun _ t => g t).outcome := by
  have hdeclared {t : State} (ht : outputSide t = outputSide (s.atStage 1)) : declared t = declared s :=
    (outputSide_eq_iff.mp ht).2
  have hlimited := inrdRun_limited (s.atStage 1)
  refine reaches_stage hhost h (i := .inrdRun) rfl rfl (fun e t hr => ?_) fun t hr => ?_
  · obtain ⟨-, hsame, -⟩ := declared_eq_iff.mp (hdeclared ((inrdRun_keeps _).2 e t hr))
    exact hsame.trans h.host_eq
  · have hrun : Running op host t := (h.atStage 1).congr (hlimited.1 () t hr)
      (inrdRun_not_waiting (s := s.atStage 1) hin hr) (hdeclared ((inrdRun_keeps _).1 () t hr))
    exact ⟨hrun, hok t hrun⟩

/-- A writer whose sink answers does not wait. -/
theorem outwrLoop_not_waiting (n : Nat) : ∀ {s t : State}, (∀ k, s.sink ≠ .silentAt k) →
    outwrLoop n s = .ok () t → t.inOp = false := by
  have hanswer {s : State} {k : Nat} (h : ∀ k, s.sink ≠ .silentAt k) : sinkAnswer s.sink k ≠ .silent := by
    cases hsink : s.sink with
    | neverFails => simp [sinkAnswer]
    | failsAt j => rw [sinkAnswer]; split <;> simp
    | silentAt j => exact absurd hsink (h j)
  induction n with
  | zero =>
    intro s t h hrun
    rw [outwrLoop, outEnd] at hrun
    cases ha : sinkAnswer s.sink s.offers with
    | ok => rw [ha] at hrun; cases hrun; rfl
    | fail => rw [ha] at hrun; cases hrun
    | silent => exact absurd ha (hanswer h)
  | succ n ih =>
    intro s t h hrun
    rw [outwrLoop] at hrun
    split at hrun
    next => cases hrun
    next b _ =>
      rw [outPut] at hrun
      cases ha : sinkAnswer s.sink s.offers with
      | ok =>
        simp only [ha] at hrun
        refine ih ?_ hrun
        exact h
      | fail => rw [ha] at hrun; cases hrun
      | silent => exact absurd ha (hanswer h)

theorem outwrRun_not_waiting (h : ∀ k, s.sink ≠ .silentAt k) (hwhole : s.inOp = false)
    (hrun : outwrRun s = .ok () t) : t.inOp = false := by
  simp only [outwrRun, hwhole, Bool.false_eq_true, if_false] at hrun
  refine outwrLoop_not_waiting _ ?_ hrun
  exact h

theorem reaches_outwr (hhost : LetsRun host) (h : Running op host s) (hop : op = 1 ∨ op = 2) :
    Reaches host 1 (s.atStage 12) ((outwrRun (s.atStage 12)).bind fun _ t => .ok () t.endCommand).outcome := by
  have hdeclared {t : State} (ht : inputSide t = inputSide (s.atStage 12)) : declared t = declared s :=
    (inputSide_eq_iff.mp ht).2
  have hlimited := outwrRun_limited (s.atStage 12)
  have hhosts {t : State} (ht : inputSide t = inputSide (s.atStage 12)) : t.host = host := by
    obtain ⟨-, hsame, -⟩ := declared_eq_iff.mp (hdeclared ht)
    exact hsame.trans h.host_eq
  have hstep := step_atStage (stage := 12) (i := .outwrRun) hhost h rfl
  change _ = mapNext (advance .outwrRun) (outwrRun (s.atStage 12)).outcome at hstep
  cases hr : outwrRun (s.atStage 12) with
  | ok a t =>
    rw [hr] at hstep
    have hstatus : t.status = (s.atStage 12).status := hlimited.1 a t hr
    have hwait := outwrRun_not_waiting (s := s.atStage 12) h.answering h.whole hr
    have hbusy : t.status.busy = true := hstatus ▸ h.busy
    have hop' : t.status.op = 1 ∨ t.status.op = 2 := by
      rw [hstatus]
      exact h.op_eq ▸ hop
    refine reaches_over (hstep.trans (congrArg _ (advance_end hbusy hwait (stageAfter_outwr hop')))) ?_
    exact ⟨rfl, rfl, hhosts ((outwrRun_keeps _).1 a t hr)⟩
  | raised e t =>
    rw [hr] at hstep
    exact reaches_over (hstep.trans (congrArg _ (advance_idle (.inl rfl))))
      (over_raise e (hhosts ((outwrRun_keeps _).2 e t hr)))
  | fault x => rw [hr] at hstep; exact reaches_stop hstep (by simp)
  | refused x => rw [hr] at hstep; exact reaches_stop hstep (by simp)

/-! ### The two sequences -/

/-- COMPRESS from INRD.RUN on takes at most eight steps. -/
theorem compressSequence_reaches (hhost : LetsRun host) (h : Running 1 host s) (hin : inputWf s.input = true) :
    Reaches host 8 (s.atStage 1) (compressSequence s).outcome := by
  have hafter {t : State} (ht : Running 1 host t) := fun (i : Instr) (n : BitVec 4) =>
    stageAfter_compress (i := i) (n := n) ht.op_eq
  have hlast {t : State} (ht : Running 1 host t) : Reaches host 2 (t.atStage 10)
      ((fwrRun (t.atStage 10)).bind fun _ u => (outwrRun (u.atStage 12)).bind fun _ v => .ok () v.endCommand).outcome :=
    reaches_inner hhost ht (i := .fwrRun) rfl rfl (fwrRun_limited _) fwrRun_keeps fun u _ hu => by
      obtain ⟨hnext, hn⟩ := hafter hu .fwrRun 12 (by simp)
      exact ⟨12, hnext, hn, reaches_outwr hhost hu (.inl rfl)⟩
  refine reaches_inrd hhost h hin fun t ht => ?_
  obtain ⟨hnext, hn⟩ := hafter ht .inrdRun 3 (by simp)
  refine ⟨3, hnext, hn, reaches_inner hhost ht (i := .lzweRun) rfl rfl (lzweRun_limited _) lzweRun_keeps
    fun t _ ht => ?_⟩
  obtain ⟨hnext, hn⟩ := hafter ht .lzweRun 5 (by simp)
  refine ⟨5, hnext, hn, reaches_inner hhost ht (i := .freqCount) rfl rfl (freqCount_limited _) freqCount_keeps
    fun t _ ht => ?_⟩
  obtain ⟨hnext, hn⟩ := hafter ht .freqCount (if t.clen = 0 then 10 else 6) (by simp)
  refine ⟨_, hnext, hn, ?_⟩
  by_cases hclen : t.clen = 0
  · rw [if_pos hclen, if_neg (by omega), Res.bind_ok]
    exact (hlast ht).mono (by decide)
  rw [if_neg hclen, if_pos (Nat.pos_of_ne_zero hclen), Res.bind_assoc]
  refine reaches_inner hhost ht (i := .hbuildRun) rfl rfl (hbuildRun_limited _) hbuildRun_keeps fun t _ ht => ?_
  obtain ⟨hnext, hn⟩ := hafter ht .hbuildRun 7 (by simp)
  rw [Res.bind_assoc]
  refine ⟨7, hnext, hn, reaches_inner hhost ht (i := .hgenRun) rfl rfl (hgenRun_limited _) hgenRun_keeps
    fun t _ ht => ?_⟩
  obtain ⟨hnext, hn⟩ := hafter ht .hgenRun 8 (by simp)
  refine ⟨8, hnext, hn, reaches_inner hhost ht (i := .bpackRun) rfl rfl (bpackRun_limited _) bpackRun_keeps
    fun t _ ht => ?_⟩
  obtain ⟨hnext, hn⟩ := hafter ht .bpackRun 10 (by simp)
  exact ⟨10, hnext, hn, hlast ht⟩

/-- DECOMPRESS from INRD.RUN on takes at most six steps. -/
theorem decompressSequence_reaches (hhost : LetsRun host) (h : Running 2 host s) (hin : inputWf s.input = true) :
    Reaches host 6 (s.atStage 1) (decompressSequence s).outcome := by
  have hafter {t : State} (ht : Running 2 host t) := fun (i : Instr) (n : BitVec 4) =>
    stageAfter_decompress (i := i) (n := n) ht.op_eq
  have hlast {t : State} (ht : Running 2 host t) := reaches_outwr hhost ht (.inr rfl)
  refine reaches_inrd hhost h hin fun t ht => ?_
  obtain ⟨hnext, hn⟩ := hafter ht .inrdRun 11 (by simp)
  refine ⟨11, hnext, hn, reaches_inner hhost ht (i := .frdRun) rfl rfl (frdRun_limited _) frdRun_keeps fun t _ ht => ?_⟩
  obtain ⟨hnext, hn⟩ := hafter ht .frdRun (if t.entryCnt = 0 then 12 else 6) (by simp)
  refine ⟨_, hnext, hn, ?_⟩
  by_cases hcnt : t.entryCnt = 0
  · rw [if_pos hcnt, if_neg (by omega), Res.bind_ok]
    exact (hlast ht).mono (by decide)
  rw [if_neg hcnt, if_pos (Nat.pos_of_ne_zero hcnt), Res.bind_assoc]
  refine reaches_inner hhost ht (i := .hbuildRun) rfl rfl (hbuildRun_limited _) hbuildRun_keeps fun t _ ht => ?_
  obtain ⟨hnext, hn⟩ := hafter ht .hbuildRun 9 (by simp)
  rw [Res.bind_assoc]
  refine ⟨9, hnext, hn, reaches_inner hhost ht (i := .bunpkRun) rfl rfl (bunpkRun_limited _) bunpkRun_keeps
    fun t _ ht => ?_⟩
  obtain ⟨hnext, hn⟩ := hafter ht .bunpkRun 4 (by simp)
  refine ⟨4, hnext, hn, reaches_inner hhost ht (i := .lzwdRun) rfl rfl (lzwdRun_limited _) lzwdRun_keeps
    fun t _ ht => ?_⟩
  obtain ⟨hnext, hn⟩ := hafter ht .lzwdRun 12 (by simp)
  exact ⟨12, hnext, hn, hlast ht⟩

/-! ### The command -/

/-- The sequence of a command, as one computation from its acceptance on. -/
def sequence (op : BitVec 2) (s : State) : Res Unit :=
  if op = 1 then compressSequence (s.accept 1) else decompressSequence (s.accept 2)

/-- A legal command word at an idle block: within nine steps its sequence is over. -/
theorem command_reaches {v : RegWord} (hhost : LetsRun host) (hidle : s.status.busy = false)
    (hs : s.host = .writeReg 0 v :: host) (hin : inputWf s.nextInput = true) (hsink : ∀ k, s.nextSink ≠ .silentAt k)
    (hv : op = 1 ∧ v.toNat % 256 = 1 ∨ op = 2 ∧ v.toNat % 256 = 2) :
    Reaches host 9 s (sequence op { s with host := host }).outcome := by
  refine Reaches.of_step (step_command hidle hs hv) ?_
  have hrun (op : BitVec 2) : Running op host (State.accept op { s with host := host }) :=
    ⟨rfl, rfl, rfl, rfl, hsink⟩
  rcases hv with ⟨rfl, -⟩ | ⟨rfl, -⟩
  · exact compressSequence_reaches hhost (hrun 1) hin
  · exact (decompressSequence_reaches hhost (hrun 2) hin).mono (by decide)

end

/-- Settles O53: within nine steps the sequence is over, and the machine in its state. -/
theorem commandRunsItsSequence : Obligations.CommandRunsItsSequence := by
  intro s t v rest hidle hs hin hsink hseq
  obtain ⟨op, hv, hnext⟩ : ∃ op : BitVec 2, (op = 1 ∧ v.toNat % 256 = 1 ∨ op = 2 ∧ v.toNat % 256 = 2)
      ∧ (sequence op { s with host := .wait :: rest }).outcome = .next t := by
    rcases hseq with ⟨hv, hnext⟩ | ⟨hv, hnext⟩
    · exact ⟨1, .inl ⟨rfl, hv⟩, hnext⟩
    · exact ⟨2, .inr ⟨rfl, hv⟩, hnext⟩
  obtain ⟨n, hn, hrun, hover⟩ := command_reaches (.inr ⟨rest, rfl⟩) hidle hs hin hsink hv
  exact ⟨n, hn, hrun.trans hnext, (hover t hnext).1⟩

/-- A legal state never stops, however long it runs. -/
theorem run_next_of_inv (n : Nat) : ∀ {s : State}, s.Inv → ∃ t, core.run n s = .next t ∧ t.Inv := by
  induction n with
  | zero => exact fun {s} h => ⟨s, rfl, h⟩
  | succ n ih =>
    intro s h
    obtain ⟨t, hstep⟩ := Progress.legalStatesNeverStop s h
    rw [run_of_step hstep]
    exact ih (StepInvariant.everyStepKeepsTheInvariant s t h hstep)

/-- Settles O54: the sequence is over within nine steps, and from a legal state it has not stopped. -/
theorem everyCommandEnds : Obligations.EveryCommandEnds := by
  intro s v rest h hidle hs hv hin hsink
  obtain ⟨op, hop⟩ : ∃ op : BitVec 2, op = 1 ∧ v.toNat % 256 = 1 ∨ op = 2 ∧ v.toNat % 256 = 2 := by
    rcases hv with hv | hv
    · exact ⟨1, .inl ⟨rfl, hv⟩⟩
    · exact ⟨2, .inr ⟨rfl, hv⟩⟩
  obtain ⟨n, hn, hrun, hover⟩ := command_reaches (.inr ⟨rest, rfl⟩) hidle hs hin hsink hop
  obtain ⟨t, hnext, -⟩ := run_next_of_inv n h
  obtain ⟨hbusy, hdone, hhost⟩ := hover t (hrun.symm.trans hnext)
  exact ⟨n, t, hn, hnext, hbusy, hdone, hhost⟩

end Sys2Proof.Proofs.CommandSequence
end

section
/-!
The round trip (48_commands.md R297): COMPRESS leaves a consistent frame whose payload is the code words of the LZW
codes of its input, and DECOMPRESS of that frame makes the same tree, reads the codes and decodes them.
-/
namespace Sys2Proof.Proofs.RoundTrip
open Sys2Proof Sys2Proof.Machine Sys2Proof.Proofs.FrameBytes Sys2Proof.Proofs.FrameWriter
open Sys2Proof.Proofs.FrameReader Sys2Proof.Proofs.FrameAcceptance Sys2Proof.Proofs.BoundaryRuns
open Sys2Proof.Proofs.CommandSequence Sys2Proof.Proofs.TreePriority Sys2Proof.Proofs.CodeWords
open Sys2Proof.Proofs.FrequencyCount Sys2Proof.Proofs.LzweRun Sys2Proof.Proofs.StringLzw
open Sys2Proof.Proofs.BitPacker Sys2Proof.Proofs.BitUnpacker

variable {s t u : State} {bs F p : List Byte} {es : List (Nat × Nat)} {n : Nat} {vs : List Bool} {op : BitVec 2}

/-! ### The steps of a command without a host -/

theorem inputWf_ended (bs : List Byte) : inputWf (bs.map Item.data ++ [.eos]) = true := by
  induction bs with
  | nil => rfl
  | cons b bs ih =>
    cases bs with
    | nil => rfl
    | cons c bs => simpa [inputWf, Item.terminates] using ih

theorem run_over (n : Nat) (h : Over [] t) : core.run n t = .next t := by
  obtain ⟨hidle, -, hhost⟩ := h
  have hstep : step t = .next t := by
    refine HostActions.step_of_settled ?_
    rw [State.move, hhost]
    simp [hidle]
  induction n with
  | zero => rfl
  | succ n ih => rw [run_of_step hstep, ih]

/-- Nine steps from a command word, with no other action of the host, are the command's sequence. -/
theorem run_nine {v : RegWord} (hidle : s.status.busy = false) (hs : s.host = [.writeReg 0 v])
    (hin : s.nextInput = bs.map Item.data ++ [.eos]) (hsink : s.nextSink = .neverFails)
    (hv : op = 1 ∧ v.toNat % 256 = 1 ∨ op = 2 ∧ v.toNat % 256 = 2) :
    core.run 9 s = (CommandSequence.sequence op { s with host := [] }).outcome := by
  obtain ⟨n, hn, hrun, hover⟩ := command_reaches (.inl rfl) hidle hs (hin ▸ inputWf_ended bs)
    (fun k => by rw [hsink]; simp) hv
  have hnine : 9 = n + (9 - n) := by omega
  rw [hnine]
  cases ho : (CommandSequence.sequence op { s with host := [] }).outcome with
  | next t => exact (run_of_next n (hrun.trans ho)).trans (run_over _ (hover t ho))
  | fault x => exact run_of_stopped n (hrun.trans ho) (by simp)
  | refused x => exact run_of_stopped n (hrun.trans ho) (by simp)

/-! ### What the sequences do not touch -/

/-- A command runs without error and has offered nothing to a sink that never fails. -/
structure Quiet (op : BitVec 2) (s : State) : Prop where
  status : ∃ stage, s.status = (Status.accepted op).atStage stage
  whole : s.inOp = false
  sink : s.sink = .neverFails
  got : s.sinkGot = []

theorem Quiet.atStage (h : Quiet op s) (stage : BitVec 4) : Quiet op (s.atStage stage) := by
  obtain ⟨x, hx⟩ := h.status
  exact ⟨⟨stage, by rw [State.atStage_status, hx]; rfl⟩, h.whole, h.sink, h.got⟩

/-- The fields `Quiet` speaks of. -/
def quietFields (s : State) : Status × Bool × Sink × List Byte := (s.status, s.inOp, s.sink, s.sinkGot)

theorem Quiet.congr (h : Quiet op s) (hsame : quietFields t = quietFields s) : Quiet op t := by
  simp only [quietFields, Prod.mk.injEq] at hsame
  obtain ⟨hstatus, hwhole, hsink, hgot⟩ := hsame
  exact ⟨hstatus ▸ h.status, hwhole.trans h.whole, hsink.trans h.sink, hgot.trans h.got⟩

/-- The end of both commands: the sink has OUT. -/
theorem Quiet.delivers (h : Quiet op s) (hout : s.holdsOutput bs) :
    outwrRun s = .ok () { s with offers := bs.length + 1, sinkGot := bs, sinkEnd := true } := by
  rw [outwrRun_delivers h.whole hout fun i _ => by rw [h.sink]; rfl, h.got, List.nil_append]

/-! ### INRD.RUN -/

/-- The state in which a command's reader has taken the bytes and EOS. -/
def inputTaken (bs : List Byte) (s : State) : State :=
  { taken { s with inLen := 0 } bs with input := [], inOp := false }

theorem inputTaken_eq (bs : List Byte) (s : State) : inputTaken bs s
    = { s with inMem := (inputTaken bs s).inMem, inLen := (inputTaken bs s).inLen, input := [], inOp := false } := by
  have hframe := taken_eq bs { s with inLen := 0 }
  unfold inputTaken
  rw [hframe]

theorem holdsInput_inputTaken (bs : List Byte) (s : State) : (inputTaken bs s).holdsInput bs :=
  holdsInput_taken (s := { s with inLen := 0 }) (bs := []) ⟨rfl, fun i hi => absurd hi (Nat.not_lt_zero i)⟩

theorem quiet_inputTaken (h : Quiet op s) : Quiet op (inputTaken bs s) := by
  refine h.congr ?_
  rw [inputTaken_eq, quietFields, quietFields, h.whole]

theorem inrdLoop_ended (bs : List Byte) : ∀ {s : State}, inrdLoop (bs.map Item.data ++ [.eos]) s = .ok () t →
    t = { taken s bs with input := [], inOp := false } := by
  induction bs with
  | nil => exact fun h => by cases h; rfl
  | cons b bs ih =>
    intro s h
    rw [List.map_cons, List.cons_append, inrdLoop] at h
    split at h
    next => cases h
    next => exact ih h

theorem inrdRun_ended (hwhole : s.inOp = false) (hin : s.input = bs.map Item.data ++ [.eos])
    (h : inrdRun s = .ok () t) : t = inputTaken bs s := by
  have hrun : inrdRun s = inrdLoop s.input (begun s) := rfl
  have hbegun : begun s = { s with inLen := 0 } := by rw [begun, hwhole]; rfl
  rw [hrun, hin, hbegun] at h
  exact inrdLoop_ended bs h

theorem inrdRun_taken (hwhole : s.inOp = false) (hin : s.input = bs.map Item.data ++ [.eos])
    (hcap : withinCap bs.length s.caps.inCap) : inrdRun s = .ok () (inputTaken bs s) := by
  have hbegun : begun s = { s with inLen := 0 } := by rw [begun, hwhole]; rfl
  have hrun := inrdRun_data (bs := []) (cs := bs) (items := [.eos]) (begun_holdsInput (.inl ⟨hwhole, rfl⟩)) hin hcap
  rw [hrun, hbegun]
  rfl

/-! ### The payload -/

/-- The bytes hold these bits (30 R98). -/
def PayloadBits (p : List Byte) (vs : List Bool) : Prop :=
  p.length = ceil8 vs.length ∧ ∀ j, j < vs.length → (p[j / 8]?).map (fun b => payloadBit b (j % 8)) = vs[j]?

theorem holdsBits_iff (htotal : s.totalBits = vs.length) (hlen : p.length = ceil8 vs.length)
    (hread : ∀ i, i < ceil8 vs.length → Memory.read s.bits i = p[i]?) : s.holdsBits vs ↔ PayloadBits p vs := by
  have hbit (j : Nat) (hj : j < vs.length) : s.bitAt j = (p[j / 8]?).map (fun b => payloadBit b (j % 8)) := by
    have hlt : j / 8 < ceil8 vs.length := by unfold ceil8; omega
    rw [State.bitAt, State.bitsAt, htotal, if_pos hlt, hread _ hlt]
  constructor
  · exact fun h => ⟨hlen, fun j hj => hbit j hj ▸ h.2 j hj⟩
  · exact fun h => ⟨htotal, fun j hj => hbit j hj ▸ h.2 j hj⟩

/-! ### COMPRESS -/

/-- The codes of an input, as CSEQ holds them. -/
def codesOf (bs : List Byte) : List Code := (lzwCodes bs).map (BitVec.ofNat 16)

theorem codesOf_eq_nil_iff : codesOf bs = [] ↔ bs = [] := by
  rw [codesOf, List.map_eq_nil_iff]
  refine ⟨fun h => ?_, by rintro rfl; rfl⟩
  by_contra hne
  have hlen := flush_codes_length hne
  rw [← lzwCodes_eq, h] at hlen
  cases hlen

/-- In the tree of this table the payload's bits are the code words of the codes. -/
def Spells (es : List (Nat × Nat)) (cs : List Code) (vs : List Bool) : Prop :=
  ∀ x y : State, x.freq = es → hbuildRun x = .ok () y → ∃ ws, List.Forall₂ y.wordOf cs ws ∧ vs = ws.flatten

/-- What LZWE.RUN has left. -/
theorem lzweRun_codes (hwf : Memory.wf s.dict) (hin : s.holdsInput bs) (h : lzweRun s = .ok () t) :
    t.holdsCodes (codesOf bs) ∧ (lzwInserted bs).length ≤ 65280
      ∧ t = { s with
          dict := t.dict, dsize := t.dsize, cur := t.cur, ipos := t.ipos, cseq := t.cseq, clen := t.clen } := by
  rcases lzweRun_simulates hwf hin with ⟨t', hok, ht, -⟩ | ⟨e, t', hraised, -⟩
  · cases h.symm.trans hok
    have hcodes := ht.emitted.holdsCodes
    have hdsize := ht.strings.dsize
    have hseeded := ht.strings.seeded.2.1
    rw [← lzwCodes_eq] at hcodes
    rw [← lzwInserted_eq] at hdsize
    exact ⟨hcodes, by omega, ht.frame⟩
  · cases h.symm.trans hraised

/-- What HBUILD.RUN, HGEN.RUN and BPACK.RUN leave of the tally of the codes: their words, packed. -/
theorem packing_spells {cs : List Code} {s₁ s₂ s₃ : State} {i j k : BitVec 4} (hm : Tallies s.freq cs)
    (hne : s.freq ≠ []) (hcodes : s.holdsCodes cs) (hctab : s.ctab = []) (h₁ : hbuildRun (s.atStage i) = .ok () s₁)
    (h₂ : hgenRun (s₁.atStage j) = .ok () s₂) (h₃ : bpackRun (s₂.atStage k) = .ok () s₃) :
    ∃ vs, Spells s.freq cs vs ∧ s₃.holdsBits vs
      ∧ s₃ = { (s.atStage k) with
          tree := s₃.tree, nnodes := s₃.nnodes, root := s₃.root, ctab := s₃.ctab, bits := s₃.bits
          totalBits := s₃.totalBits, cpos := s₃.cpos } := by
  obtain ⟨s₁', hnext, hframe₁, htree, -⟩ := treeHasItsShape (s.atStage i) hm.wf hm.codes hne
  obtain rfl : s₁ = s₁' := by
    have houtcome := congrArg Res.outcome h₁
    exact Host.Outcome.next.inj (houtcome.symm.trans hnext)
  have hfreq₁ : s₁.freq = s.freq := by rw [hframe₁]; rfl
  have hctab₁ : s₁.ctab = [] := by rw [hframe₁]; exact hctab
  obtain ⟨s₂', hnext, hframe₂, -, hword, hsome, -⟩ :=
    codeWordsArePaths (s₁.atStage j) (hfreq₁.symm ▸ hm.wf) (hfreq₁.symm ▸ hm.codes) htree hctab₁
  obtain rfl : s₂ = s₂' := by
    have houtcome := congrArg Res.outcome h₂
    exact Host.Outcome.next.inj (houtcome.symm.trans hnext)
  have hframe₂' : s₂ = { (s.atStage j) with
      tree := s₂.tree, nnodes := s₂.nnodes, root := s₂.root, ctab := s₂.ctab } := by
    rw [hframe₂, hframe₁]
    rfl
  have hcodes₂ : (s₂.atStage k).holdsCodes cs := by rw [hframe₂']; exact hcodes
  have hws : cs.map (fun c => Memory.read s₂.ctab c.toNat)
      = (cs.map fun c => (Memory.read s₂.ctab c.toNat).getD []).map some := by
    rw [List.map_map]
    refine List.map_congr_left fun c hc => ?_
    have hpos : 0 < freqAt (s₁.atStage j).freq c.toNat := by
      change 0 < freqAt s₁.freq c.toNat
      rw [hfreq₁, hm.count]
      exact List.count_pos_iff.mpr hc
    obtain ⟨w, hw⟩ := Option.isSome_iff_exists.mp ((hsome c).mpr hpos)
    simp [hw]
  rcases bpackRun_packs hcodes₂ hws with ⟨s₃', hok, hpacked⟩ | ⟨-, s₃', hraised, -⟩
  · cases h₃.symm.trans hok
    refine ⟨_, fun x y hx hy => ⟨_, ?_, rfl⟩, hpacked.holdsBits, ?_⟩
    · have hsame := sameTree_of_freq_eq (s₁ := x) (s₂ := s.atStage i) hx hy h₁
      refine List.forall₂_iff_get.mpr ⟨by simp, fun i hi hi' => ?_⟩
      rw [List.get_eq_getElem, List.get_eq_getElem, List.getElem_map]
      have hread := congrArg (fun l => l[i]?) hws
      simp only [List.getElem?_map, List.getElem?_eq_getElem hi, Option.map_some] at hread
      have hstage : SameTree s₁ (s₁.atStage j) := ⟨rfl, rfl, rfl, fun _ => rfl⟩
      exact wordOf_of_sameTree hsame (wordOf_of_sameTree hstage ((hword _ _).mp (Option.some.inj hread)))
    · rw [hpacked.frame, hframe₂']
      rfl
  · cases h₃.symm.trans hraised

/-- The frame of an input: its table, its payload and that its codes fit the dictionary. -/
structure FrameOf (bs : List Byte) (es : List (Nat × Nat)) (n : Nat) (p : List Byte) : Prop where
  tally : Tallies es (codesOf bs)
  freqs : ∀ e ∈ es, e.2 ≤ 2147483647
  dict : (lzwInserted bs).length ≤ 65280
  bits : n ≤ 2147483647
  payload : ∃ vs, vs.length = n ∧ PayloadBits p vs ∧ (bs ≠ [] → Spells es (codesOf bs) vs)
  empty : bs = [] → n = 0

theorem tallies_eq_nil_iff {m : Memory Nat} {cs : List Code} (h : Tallies m cs) : m = [] ↔ cs = [] := by
  rw [← List.length_eq_zero_iff, h.length_eq, List.length_eq_zero_iff, List.dedup_eq_nil]

theorem FrameOf.consistent (h : FrameOf bs es n p) : Consistent (largestCode es) es n p := by
  obtain ⟨vs, hlen, hpayload, -⟩ := h.payload
  refine consistent_of_table h.tally.wf h.tally.codes h.freqs (fun hes => h.empty ?_) h.bits (hlen ▸ hpayload.1)
  exact codesOf_eq_nil_iff.mp ((tallies_eq_nil_iff h.tally).mp (List.length_eq_zero_iff.mp hes))

/-- The state before FWR.RUN: the table of the codes, and their words packed. -/
structure Packaged (bs : List Byte) (s : State) : Prop where
  quiet : Quiet 1 s
  tally : Tallies s.freq (codesOf bs)
  header : s.headerOk
  clen : s.clen = (codesOf bs).length
  payload : ∃ vs, s.holdsBits vs ∧ (bs ≠ [] → Spells s.freq (codesOf bs) vs)
  empty : bs = [] → s.totalBits = 0

theorem holdsOutput_framed (s : State) (p : List Byte) :
    (framed s p).holdsOutput (frameBytes s.maxCode s.freq s.totalBits p) := by
  refine ⟨rfl, fun i hi => ?_⟩
  have hlt : i < (framed s p).outLen := hi
  rw [State.outAt, if_pos hlt, read_framed, if_pos (frameBytes_length s.maxCode s.freq s.totalBits p ▸ hi)]

/-- FWR.RUN and OUTWR.RUN give the sink the frame. -/
theorem Packaged.delivers (h : Packaged bs s) (hdict : (lzwInserted bs).length ≤ 65280)
    (hrun : ((fwrRun (s.atStage 10)).bind fun _ u => (outwrRun (u.atStage 12)).bind fun _ v =>
      .ok () v.endCommand) = .ok () t) :
    ∃ es n p, FrameOf bs es n p ∧ t.sinkGot = frameBytes (largestCode es) es n p ∧ t.totalBits = n
      ∧ t.clen = (codesOf bs).length := by
  obtain ⟨⟨⟩, u, hfwr, hrest⟩ := Res.bind_eq_ok.mp hrun
  obtain ⟨hcnt, hmax⟩ := h.header
  have hlen : s.freq.length ≤ 65536 := Tables.length_le_of_wf h.tally.wf.1 h.tally.codes
  obtain ⟨hfreq, hbits, p, hp, rfl⟩ := fwrRun_eq_ok (s := s.atStage 10) hcnt (Nat.lt_of_le_of_lt hlen (by decide)) hfwr
  obtain ⟨hplen, hpread⟩ := bitsRun_eq_some.mp hp
  obtain ⟨vs, hvs, hspells⟩ := h.payload
  have hpayload : PayloadBits p vs := by
    rw [State.atStage_totalBits, hvs.1] at hplen hpread
    exact (holdsBits_iff hvs.1 hplen hpread).mp hvs
  have hout : ((framed (s.atStage 10) p).atStage 12).holdsOutput (frameBytes s.maxCode s.freq s.totalBits p) :=
    holdsOutput_framed (s.atStage 10) p
  have hquiet : Quiet 1 (framed (s.atStage 10) p) := (h.quiet.atStage 10).congr rfl
  rw [(hquiet.atStage 12).delivers hout] at hrest
  cases hrest
  refine ⟨s.freq, s.totalBits, p, ⟨h.tally, hfreq, hdict, hbits, ⟨vs, hvs.1.symm, hpayload, hspells⟩, h.empty⟩, ?_, rfl,
    h.clen⟩
  rw [← hmax]
  rfl

/-- COMPRESS of an input ends with the frame of that input. -/
theorem compress_frameOf (hquiet : Quiet 1 s) (hin : s.input = bs.map Item.data ++ [.eos]) (hwf : Memory.wf s.dict)
    (hfreq : s.freq = []) (hctab : s.ctab = []) (htotal : s.totalBits = 0) (hrun : compressSequence s = .ok () t) :
    ∃ es n p, FrameOf bs es n p ∧ t.sinkGot = frameBytes (largestCode es) es n p ∧ t.totalBits = n
      ∧ t.clen = (codesOf bs).length := by
  obtain ⟨⟨⟩, s₁, hinrd, hrest⟩ := Res.bind_eq_ok.mp hrun
  clear hrun
  obtain ⟨⟨⟩, s₂, hlzwe, hrest⟩ := Res.bind_eq_ok.mp hrest
  obtain ⟨⟨⟩, s₃, hcount, hrest⟩ := Res.bind_eq_ok.mp hrest
  obtain ⟨⟨⟩, s₆, hpack, hwrite⟩ := Res.bind_eq_ok.mp hrest
  clear hrest
  obtain rfl := inrdRun_ended (s := s.atStage 1) hquiet.whole hin hinrd
  have hq₁ : Quiet 1 (inputTaken bs (s.atStage 1)) := quiet_inputTaken (hquiet.atStage 1)
  have hin₁ := holdsInput_inputTaken bs (s.atStage 1)
  obtain ⟨hwf₁, hfreq₁, hctab₁, htotal₁⟩ : Memory.wf (inputTaken bs (s.atStage 1)).dict
      ∧ (inputTaken bs (s.atStage 1)).freq = [] ∧ (inputTaken bs (s.atStage 1)).ctab = []
      ∧ (inputTaken bs (s.atStage 1)).totalBits = 0 := by
    rw [inputTaken_eq]
    exact ⟨hwf, hfreq, hctab, htotal⟩
  generalize inputTaken bs (s.atStage 1) = s₁ at *
  obtain ⟨hcodes, hdict, hframe₂⟩ := lzweRun_codes (s := s₁.atStage 3) hwf₁ hin₁ hlzwe
  have hq₂ : Quiet 1 s₂ := (hq₁.atStage 3).congr (by rw [hframe₂]; rfl)
  obtain ⟨hfreq₂, hctab₂, htotal₂⟩ : s₂.freq = [] ∧ s₂.ctab = [] ∧ s₂.totalBits = 0 := by
    rw [hframe₂]
    exact ⟨hfreq₁, hctab₁, htotal₁⟩
  obtain ⟨m, hm, hok⟩ := freqCount_tallies (s := s₂.atStage 5) hfreq₂ hcodes
  have hframe₃ := (Res.ok.inj (hcount.symm.trans hok)).2
  have hq₃ : Quiet 1 s₃ := (hq₂.atStage 5).congr (by rw [hframe₃]; rfl)
  obtain ⟨hfreq₃, hheader₃, hcodes₃, hctab₃, htotal₃⟩ : s₃.freq = m ∧ s₃.headerOk ∧ s₃.holdsCodes (codesOf bs)
      ∧ s₃.ctab = [] ∧ s₃.totalBits = 0 := by
    rw [hframe₃]
    exact ⟨rfl, ⟨rfl, rfl⟩, hcodes, hctab₂, htotal₂⟩
  rw [← hfreq₃] at hm
  clear hframe₃ hcount hok
  by_cases hbs : bs = []
  · have hzero : (codesOf bs).length = 0 := by rw [codesOf_eq_nil_iff.mpr hbs]; rfl
    rw [if_neg (Nat.not_lt.mpr (hcodes₃.1.trans hzero).le)] at hpack
    cases hpack
    exact Packaged.delivers ⟨hq₃, hm, hheader₃, hcodes₃.1,
      ⟨[], ⟨htotal₃, fun i hi => absurd hi (Nat.not_lt_zero i)⟩, fun hne => absurd hbs hne⟩,
      fun _ => htotal₃⟩ hdict hwrite
  · have hne : codesOf bs ≠ [] := fun h => hbs (codesOf_eq_nil_iff.mp h)
    rw [if_pos (hcodes₃.1 ▸ List.length_pos_iff.mpr hne)] at hpack
    obtain ⟨⟨⟩, s₄, h₄, hpack⟩ := Res.bind_eq_ok.mp hpack
    obtain ⟨⟨⟩, s₅, h₅, h₆⟩ := Res.bind_eq_ok.mp hpack
    obtain ⟨vs, hspells, hvs, hframe₆⟩ :=
      packing_spells hm (fun h => hne ((tallies_eq_nil_iff hm).mp h)) hcodes₃ hctab₃ h₄ h₅ h₆
    have hq₆ : Quiet 1 s₆ := (hq₃.atStage 8).congr (by rw [hframe₆]; rfl)
    obtain ⟨hfreq₆, hheader₆, hclen₆⟩ : s₆.freq = s₃.freq ∧ s₆.headerOk ∧ s₆.clen = s₃.clen := by
      rw [hframe₆]
      exact ⟨rfl, hheader₃, rfl⟩
    exact Packaged.delivers ⟨hq₆, hfreq₆ ▸ hm, hheader₆, hclen₆.trans hcodes₃.1,
      ⟨vs, hvs, fun _ => hfreq₆ ▸ hspells⟩, fun h => absurd h hbs⟩ hdict hwrite

/-! ### DECOMPRESS -/

/-- A command's state at the end of DECOMPRESS: the sink has the bytes and STATUS says that all went well. -/
def Restores (bs : List Byte) (t : State) : Prop :=
  t.status.word = 0x00002002 ∧ t.sinkGot = bs ∧ t.sinkEnd = true

/-- OUTWR.RUN ends DECOMPRESS with OUT at the sink. -/
theorem outwr_restores (hquiet : Quiet 2 s) (hout : s.holdsOutput bs) :
    ∃ t, ((outwrRun (s.atStage 12)).bind fun _ v => .ok () v.endCommand) = .ok () t ∧ Restores bs t := by
  obtain ⟨stage, hstage⟩ := hquiet.status
  rw [(hquiet.atStage 12).delivers hout]
  refine ⟨_, rfl, ?_, rfl, rfl⟩
  have hended : (s.status.atStage 12).ended = (Status.accepted 2).ended := by rw [hstage]; rfl
  exact (congrArg Status.word hended).trans (by decide)

/-- With the payload in BITS the codes are read and decoded. -/
theorem decode_restores {i j k : BitVec 4} (hquiet : Quiet 2 s) (hwf : Memory.wf s.dict)
    (htally : Tallies s.freq (codesOf bs)) (hne : bs ≠ []) (hdict : (lzwInserted bs).length ≤ 65280)
    (hbits : s.holdsBits vs) (hspells : Spells s.freq (codesOf bs) vs)
    (hcseq : withinCap (codesOf bs).length s.caps.cseqCap)
    (hroom : withinCap bs.length s.caps.outCap) :
    ∃ t, ((hbuildRun (s.atStage i)).bind fun _ s₃ => (bunpkRun (s₃.atStage j)).bind fun _ s₄ => lzwdRun (s₄.atStage k))
        = .ok () t ∧ Quiet 2 t ∧ t.holdsOutput bs := by
  have htable : s.freq ≠ [] := fun h => hne (codesOf_eq_nil_iff.mp ((tallies_eq_nil_iff htally).mp h))
  obtain ⟨s₃, h₃⟩ := hbuildRun_ends (s := s.atStage i) htable
  obtain ⟨s₃', hnext, hframe₃, htree, -⟩ := treeHasItsShape (s.atStage i) htally.wf htally.codes htable
  obtain rfl : s₃ = s₃' := Host.Outcome.next.inj ((congrArg Res.outcome h₃).symm.trans hnext)
  obtain ⟨ws, hws, rfl⟩ := hspells (s.atStage i) s₃ rfl h₃
  have hq₃ : Quiet 2 s₃ := (hquiet.atStage i).congr (by rw [hframe₃]; rfl)
  obtain ⟨hbits₃, hcseq₃, hwf₃, hroom₃⟩ : s₃.holdsBits ws.flatten ∧ withinCap (codesOf bs).length s₃.caps.cseqCap
      ∧ Memory.wf s₃.dict ∧ withinCap bs.length s₃.caps.outCap := by
    rw [hframe₃]
    exact ⟨hbits, hcseq, hwf, hroom⟩
  have hsame : SameTree (s₃.atStage j) s₃ := ⟨rfl, rfl, rfl, fun _ => rfl⟩
  obtain ⟨s₄, hunpacked, h₄⟩ := bunpkRun_words_fit (s := s₃.atStage j) (vs := []) (hsame.treeOk htree)
    (hws.imp fun _ _ hw => wordOf_of_sameTree hsame hw) (by rw [List.append_nil]; exact hbits₃) hcseq₃
  have hunpack : bunpkRun (s₃.atStage j) = .ok () s₄ := h₄.trans hunpacked.ends
  have hframe₄ := hunpacked.frame
  have hq₄ : Quiet 2 s₄ := (hq₃.atStage j).congr (by rw [hframe₄]; rfl)
  obtain ⟨hwf₄, hroom₄⟩ : Memory.wf s₄.dict ∧ withinCap bs.length s₄.caps.outCap := by
    rw [hframe₄]
    exact ⟨hwf₃, hroom₃⟩
  obtain ⟨s₅, w, h₅, hdecoded⟩ :=
    LzwdRun.lzwdRun_decoded (s := s₄.atStage k) hwf₄ hne hdict hunpacked.holdsCodes hroom₄
  have hframe₅ := hdecoded.frame
  refine ⟨s₅, ?_, (hq₄.atStage k).congr (by rw [hframe₅]; rfl), hdecoded.output.holdsOutput⟩
  rw [h₃, Res.bind_ok, hunpack, Res.bind_ok, h₅]

/-- DECOMPRESS of the frame of an input restores the input. -/
theorem decompress_restores (hframe : FrameOf bs es n p) (hquiet : Quiet 2 s)
    (hin : s.input = (frameBytes (largestCode es) es n p).map Item.data ++ [.eos]) (hwf : Memory.wf s.dict)
    (hfreq : s.freq = []) (hout : s.outLen = 0)
    (hcap : withinCap (frameBytes (largestCode es) es n p).length s.caps.inCap)
    (hbits : withinCap (ceil8 n) s.caps.bitsCap) (hcseq : withinCap (codesOf bs).length s.caps.cseqCap)
    (hroom : withinCap bs.length s.caps.outCap) : ∃ t, decompressSequence s = .ok () t ∧ Restores bs t := by
  have hc := hframe.consistent
  obtain ⟨vs, hlen, hpayload, hspells⟩ := hframe.payload
  have h₁ := inrdRun_taken (s := s.atStage 1) hquiet.whole hin hcap
  have hin₁ := holdsInput_inputTaken (frameBytes (largestCode es) es n p) (s.atStage 1)
  have hq₁ := quiet_inputTaken (bs := frameBytes (largestCode es) es n p) (hquiet.atStage 1)
  have hframe₁ := inputTaken_eq (frameBytes (largestCode es) es n p) (s.atStage 1)
  generalize inputTaken (frameBytes (largestCode es) es n p) (s.atStage 1) = s₁ at *
  obtain ⟨hfreq₁, hcaps₁, hwf₁, hout₁⟩ : s₁.freq = [] ∧ s₁.caps = s.caps ∧ Memory.wf s₁.dict ∧ s₁.outLen = 0 := by
    rw [hframe₁]
    exact ⟨hfreq, rfl, hwf, hout⟩
  have hplen : p.length = ceil8 n := hlen ▸ hpayload.1
  have h₂ := frdRun_frameBytes (r := s₁.atStage 11) hc hin₁ hfreq₁ (by rw [hplen]; exact hcaps₁ ▸ hbits)
  have htable : tableFrom [] es = es := tableFrom_self hframe.tally.wf
  have hframe₂ : accepted (s₁.atStage 11) (largestCode es) es n p = { (s₁.atStage 11) with
      ipos := s₁.inLen, maxCode := largestCode es, entryCnt := es.length, freq := es, totalBits := n
      bits := Memory.write s₁.bits 0 p } := by rw [accepted, htable]; rfl
  have hread := read_accepted_bits (r := s₁.atStage 11) (m := largestCode es) (es := es) (n := n) (p := p)
  generalize accepted (s₁.atStage 11) (largestCode es) es n p = s₂ at *
  have hq₂ : Quiet 2 s₂ := (hq₁.atStage 11).congr (by rw [hframe₂]; rfl)
  obtain ⟨hcnt₂, hfreq₂, htotal₂, hcaps₂, hwf₂, hout₂⟩ : s₂.entryCnt = es.length ∧ s₂.freq = es ∧ s₂.totalBits = n
      ∧ s₂.caps = s.caps ∧ Memory.wf s₂.dict ∧ s₂.outLen = 0 := by
    rw [hframe₂]
    exact ⟨rfl, rfl, rfl, hcaps₁, hwf₁, hout₁⟩
  have hlast {s₅ : State} (hmiddle : (if 0 < s₂.entryCnt then
      (hbuildRun (s₂.atStage 6)).bind fun _ s₃ => (bunpkRun (s₃.atStage 9)).bind fun _ s₄ => lzwdRun (s₄.atStage 4)
      else .ok () s₂) = .ok () s₅) (hq₅ : Quiet 2 s₅) (hout₅ : s₅.holdsOutput bs) :
      ∃ t, decompressSequence s = .ok () t ∧ Restores bs t := by
    obtain ⟨t, hwrite, ht⟩ := outwr_restores hq₅ hout₅
    refine ⟨t, ?_, ht⟩
    rw [decompressSequence, h₁, Res.bind_ok, h₂, Res.bind_ok, hmiddle, Res.bind_ok, hwrite]
  by_cases hbs : bs = []
  · have hes : es = [] := (tallies_eq_nil_iff hframe.tally).mpr (codesOf_eq_nil_iff.mpr hbs)
    refine hlast (if_neg ?_) hq₂ ?_
    · rw [hcnt₂, hes]
      exact Nat.lt_irrefl 0
    · rw [hbs]
      exact ⟨hout₂, fun i hi => absurd hi (Nat.not_lt_zero i)⟩
  · have hne : es ≠ [] := fun h => hbs (codesOf_eq_nil_iff.mp ((tallies_eq_nil_iff hframe.tally).mp h))
    have hbits₂ : s₂.holdsBits vs := by
      refine (holdsBits_iff (htotal₂.trans hlen.symm) hpayload.1 fun i hi => ?_).mpr hpayload
      rw [hread, if_pos (hpayload.1 ▸ hi)]
    obtain ⟨s₅, h₅, hq₅, hout₅⟩ := decode_restores (i := 6) (j := 9) (k := 4) hq₂ hwf₂ (hfreq₂ ▸ hframe.tally) hbs
      hframe.dict hbits₂ (hfreq₂ ▸ hspells hbs) (hcaps₂ ▸ hcseq) (hcaps₂ ▸ hroom)
    exact hlast ((if_pos (hcnt₂ ▸ List.length_pos_iff.mpr hne)).trans h₅) hq₅ hout₅

/-! ### The obligation -/

theorem quiet_accept (op : BitVec 2) (hsink : s.nextSink = .neverFails) : Quiet op (s.accept op) :=
  ⟨⟨1, rfl⟩, rfl, hsink, rfl⟩

/-- Settles O56: both commands are their sequences, and the frame carries the input from the one to the other. -/
theorem decompressInvertsCompress : Obligations.DecompressInvertsCompress := by
  intro s t r bs hs hr hsidle hridle hshost hsin hssink hrun herr hrhost hrin hrsink hincap hbitscap hcseqcap houtcap
  rw [run_nine (op := 1) hsidle hshost hsin hssink (.inl ⟨rfl, rfl⟩)] at hrun
  have hcompress := ok_of_no_error hrun herr
  obtain ⟨-, hssound, -⟩ := Invariant.inv_iff.mp hs
  obtain ⟨-, hrsound, -⟩ := Invariant.inv_iff.mp hr
  obtain ⟨es, n, p, hframe, hgot, htotal, hclen⟩ := compress_frameOf (s := State.accept 1 { s with host := [] })
    (quiet_accept 1 hssink) hsin hssound.dict rfl rfl rfl hcompress
  rw [hgot] at hrin hincap
  rw [htotal] at hbitscap
  rw [hclen] at hcseqcap
  obtain ⟨u, hdecompress, hrestores⟩ := decompress_restores (s := State.accept 2 { r with host := [] }) hframe
    (quiet_accept 2 hrsink) hrin hrsound.dict rfl rfl hincap hbitscap hcseqcap houtcap
  refine ⟨u, ?_, hrestores⟩
  rw [run_nine (op := 2) hridle hrhost hrin hrsink (.inr ⟨rfl, rfl⟩)]
  exact congrArg Res.outcome hdecompress

end Sys2Proof.Proofs.RoundTrip
end
